-- ==== Sys2Proof/Word.lean ====
section
/-! DEFINITION. The machine's word types: bytes, words and 18-bit physical addresses (spec/00_scope.md R9). -/

namespace Sys2Proof

/-- Eight bits (R9). -/
abbrev Byte := BitVec 8

/-- Sixteen bits: registers, memory words, virtual addresses (R9, R80). -/
abbrev Word := BitVec 16

/-- An 18-bit physical byte address (R81). -/
abbrev PAddr := BitVec 18

end Sys2Proof
end

