-- ==== Sys2Proof/Syntax.lean ====
section
/-! DEFINITION. The instructions: one constructor for each row of spec/opcode_table.json, with the fields of the
instruction's FIRST word. The extra words of an operand specifier are not part of the instruction: they are fetched
through R7 while the specifier is evaluated (spec/30_encoding.md R188, spec/40_addressing_modes.md R210). -/

namespace Sys2Proof

/-- The eight general registers (spec/10_state.md R20); `r6` is SP and `r7` is PC. -/
inductive Reg where
  | r0 | r1 | r2 | r3 | r4 | r5 | r6 | r7
  deriving DecidableEq, Repr

/-- The eight addressing modes, 0 to 7 in this order (spec/30_encoding.md R172, spec/40_addressing_modes.md R211 to
R218). -/
inductive AMode where
  | reg | deferred | autoInc | autoIncDef | autoDec | autoDecDef | index | indexDef
  deriving DecidableEq, Repr

/-- A 6-bit operand specifier (R172). In a floating FSRC or FDST specifier of mode 0 the register field names an
accumulator (R181). -/
structure Operand where
  mode : AMode
  reg  : Reg
  deriving DecidableEq, Repr

/-- The accumulators that the 2-bit AC field names (spec/30_encoding.md R181). -/
inductive Ac where
  | ac0 | ac1 | ac2 | ac3
  deriving DecidableEq, Repr

/-- The instructions (spec/30_encoding.md R183, R184), one constructor for each row of spec/opcode_table.json. -/
inductive Instr where
  | halt
  | wait
  | rti
  | bpt
  | iot
  | reset
  | rtt
  | mfpt
  | jmp (dst : Operand)
  | rts (reg : Reg)
  | nop
  | clc
  | clv
  | clz
  | cln
  | ccc
  | sec
  | sev
  | sez
  | sen
  | scc
  | ccop (sense n z v c : Bool)
  | swab (dst : Operand)
  | br (offset : BitVec 8)
  | bne (offset : BitVec 8)
  | beq (offset : BitVec 8)
  | bge (offset : BitVec 8)
  | blt (offset : BitVec 8)
  | bgt (offset : BitVec 8)
  | ble (offset : BitVec 8)
  | bpl (offset : BitVec 8)
  | bmi (offset : BitVec 8)
  | bhi (offset : BitVec 8)
  | blos (offset : BitVec 8)
  | bvc (offset : BitVec 8)
  | bvs (offset : BitVec 8)
  | bcc (offset : BitVec 8)
  | bhis (offset : BitVec 8)
  | bcs (offset : BitVec 8)
  | blo (offset : BitVec 8)
  | jsr (reg : Reg) (dst : Operand)
  | clr (dst : Operand)
  | com (dst : Operand)
  | inc (dst : Operand)
  | dec (dst : Operand)
  | neg (dst : Operand)
  | adc (dst : Operand)
  | sbc (dst : Operand)
  | tst (dst : Operand)
  | ror (dst : Operand)
  | rol (dst : Operand)
  | asr (dst : Operand)
  | asl (dst : Operand)
  | clrb (dst : Operand)
  | comb (dst : Operand)
  | incb (dst : Operand)
  | decb (dst : Operand)
  | negb (dst : Operand)
  | adcb (dst : Operand)
  | sbcb (dst : Operand)
  | tstb (dst : Operand)
  | rorb (dst : Operand)
  | rolb (dst : Operand)
  | asrb (dst : Operand)
  | aslb (dst : Operand)
  | mark (nn : BitVec 6)
  | mfpi (src : Operand)
  | mtpi (dst : Operand)
  | sxt (dst : Operand)
  | mtps (src : Operand)
  | mfpd (src : Operand)
  | mtpd (dst : Operand)
  | mfps (dst : Operand)
  | mov (src dst : Operand)
  | cmp (src dst : Operand)
  | bit (src dst : Operand)
  | bic (src dst : Operand)
  | bis (src dst : Operand)
  | add (src dst : Operand)
  | movb (src dst : Operand)
  | cmpb (src dst : Operand)
  | bitb (src dst : Operand)
  | bicb (src dst : Operand)
  | bisb (src dst : Operand)
  | sub (src dst : Operand)
  | mul (reg : Reg) (src : Operand)
  | div (reg : Reg) (src : Operand)
  | ash (reg : Reg) (src : Operand)
  | ashc (reg : Reg) (src : Operand)
  | xor (reg : Reg) (dst : Operand)
  | sob (reg : Reg) (nn : BitVec 6)
  | emt (code : BitVec 8)
  | trap (code : BitVec 8)
  | cfcc
  | setf
  | seti
  | setd
  | setl
  | ldfps (opd : Operand)
  | stfps (opd : Operand)
  | stst (opd : Operand)
  | clrf (opd : Operand)
  | clrd (opd : Operand)
  | tstf (opd : Operand)
  | tstd (opd : Operand)
  | absf (opd : Operand)
  | absd (opd : Operand)
  | negf (opd : Operand)
  | negd (opd : Operand)
  | mulf (ac : Ac) (opd : Operand)
  | muld (ac : Ac) (opd : Operand)
  | modf (ac : Ac) (opd : Operand)
  | modd (ac : Ac) (opd : Operand)
  | addf (ac : Ac) (opd : Operand)
  | addd (ac : Ac) (opd : Operand)
  | ldf (ac : Ac) (opd : Operand)
  | ldd (ac : Ac) (opd : Operand)
  | subf (ac : Ac) (opd : Operand)
  | subd (ac : Ac) (opd : Operand)
  | cmpf (ac : Ac) (opd : Operand)
  | cmpd (ac : Ac) (opd : Operand)
  | stf (ac : Ac) (opd : Operand)
  | std (ac : Ac) (opd : Operand)
  | divf (ac : Ac) (opd : Operand)
  | divd (ac : Ac) (opd : Operand)
  | stexp (ac : Ac) (opd : Operand)
  | stcfi (ac : Ac) (opd : Operand)
  | stcfl (ac : Ac) (opd : Operand)
  | stcdi (ac : Ac) (opd : Operand)
  | stcdl (ac : Ac) (opd : Operand)
  | stcfd (ac : Ac) (opd : Operand)
  | stcdf (ac : Ac) (opd : Operand)
  | ldexp (ac : Ac) (opd : Operand)
  | ldcif (ac : Ac) (opd : Operand)
  | ldclf (ac : Ac) (opd : Operand)
  | ldcid (ac : Ac) (opd : Operand)
  | ldcld (ac : Ac) (opd : Operand)
  | ldcdf (ac : Ac) (opd : Operand)
  | ldcfd (ac : Ac) (opd : Operand)
  | reserved000010 (word : Word)
  | reserved000210 (word : Word)
  | reserved007000 (word : Word)
  | reserved075000 (word : Word)
  | reserved107000 (word : Word)
  | unassigned170003 (word : Word)
  | unassigned170013 (word : Word)
  deriving DecidableEq, Repr

end Sys2Proof
end

