-- ==== Sys2Proof/WellFormed.lean ====
section
/-! DEFINITION. Which terms of `Instr` stand for an instruction word: the reserved and unassigned rows of the table are
ranges of words (spec/30_encoding.md R183, R184, R189), so the word they carry must lie in the row's range. Every
other field takes every value of its type. -/

namespace Sys2Proof

/-- The word lies in the range from `lo` up to `hi`, both inclusive. -/
def wordIn (lo hi : Nat) (w : Word) : Bool := decide (lo ≤ w.toNat) && decide (w.toNat ≤ hi)

/-- Each reserved or unassigned row carries a word of its own range (R183, R185 (a), R189). -/
def Instr.wellFormed : Instr → Bool
  | .reserved000010 w   => wordIn 0o000010 0o000077 w
  | .reserved000210 w   => wordIn 0o000210 0o000237 w
  | .reserved007000 w   => wordIn 0o007000 0o007777 w
  | .reserved075000 w   => wordIn 0o075000 0o076777 w
  | .reserved107000 w   => wordIn 0o107000 0o107777 w
  | .unassigned170003 w => wordIn 0o170003 0o170010 w
  | .unassigned170013 w => wordIn 0o170013 0o170077 w
  | _ => true

end Sys2Proof
end

