-- ==== Sys2Proof/Decode.lean ====
section
/-! DEFINITION. Decoding an instruction word (spec/30_encoding.md R182 to R185), total on all words; then the encoder.
Two spellings of one word decode to the base spelling: BCC for BHIS, BCS for BLO (R187), a named condition code
operator for its CCOP (R401, R402), and the F or I member of a floating code (R184), whose D or L members
`Instr.underModes` tells apart by the floating status register (log 34). -/

namespace Sys2Proof

/-! ## Fields -/

/-- The register that a 3-bit field names (R172). -/
def regOf : Nat → Reg
  | 0 => .r0 | 1 => .r1 | 2 => .r2 | 3 => .r3 | 4 => .r4 | 5 => .r5 | 6 => .r6 | _ => .r7

/-- The register's number. -/
def Reg.toNat : Reg → Nat
  | .r0 => 0 | .r1 => 1 | .r2 => 2 | .r3 => 3 | .r4 => 4 | .r5 => 5 | .r6 => 6 | .r7 => 7

/-- The addressing mode that a 3-bit field names (R172). -/
def modeOf : Nat → AMode
  | 0 => .reg | 1 => .deferred | 2 => .autoInc | 3 => .autoIncDef
  | 4 => .autoDec | 5 => .autoDecDef | 6 => .index | _ => .indexDef

/-- The mode's number. -/
def AMode.toNat : AMode → Nat
  | .reg => 0 | .deferred => 1 | .autoInc => 2 | .autoIncDef => 3
  | .autoDec => 4 | .autoDecDef => 5 | .index => 6 | .indexDef => 7

/-- A 6-bit operand specifier: mode in the high three bits, register in the low three (R172). -/
def operandOf (n : Nat) : Operand := ⟨modeOf (n / 8), regOf (n % 8)⟩

/-- The specifier's six bits. -/
def Operand.toNat (o : Operand) : Nat := o.mode.toNat * 8 + o.reg.toNat

/-- The accumulator that the 2-bit AC field names (R181). -/
def acOf : Nat → Ac
  | 0 => .ac0 | 1 => .ac1 | 2 => .ac2 | _ => .ac3

/-- The accumulator's number. -/
def Ac.toNat : Ac → Nat
  | .ac0 => 0 | .ac1 => 1 | .ac2 => 2 | .ac3 => 3

/-- Bits 5:0 of the word: the DD, or the only, specifier. -/
def dstField (n : Nat) : Operand := operandOf (n % 64)

/-- Bits 11:6 of the word: the SS specifier of the `DO` format (R174). -/
def srcField (n : Nat) : Operand := operandOf (n / 64 % 64)

/-- Bits 8:6 of the word: the register of the `RO` and `SOB` formats (R175, R177). -/
def regField (n : Nat) : Reg := regOf (n / 64 % 8)

/-- Bits 7:6 of the word: the accumulator of the `FP2` format (R181). -/
def acField (n : Nat) : Ac := acOf (n / 64 % 4)

/-- Bits 7:0 of the word: a branch offset or a trap code (R176, R178). -/
def lowByte (n : Nat) : BitVec 8 := BitVec.ofNat 8 (n % 256)

/-- Bits 5:0 of the word as a number (R177). -/
def lowSix (n : Nat) : BitVec 6 := BitVec.ofNat 6 (n % 64)

/-! ## The decoder -/

/-- 000000 to 000077 (R180). -/
def decodeControl (n : Nat) : Instr :=
  match n % 64 with
  | 0 => .halt | 1 => .wait | 2 => .rti | 3 => .bpt | 4 => .iot | 5 => .reset | 6 => .rtt | 7 => .mfpt
  | _ => .reserved000010 (BitVec.ofNat 16 n)

/-- 000240 to 000277: the condition code operators, the named ones by their names (R179, R400 to R402). -/
def decodeConditionOp (n : Nat) : Instr :=
  match n % 32 with
  | 0o00 => .nop | 0o01 => .clc | 0o02 => .clv | 0o04 => .clz | 0o10 => .cln | 0o17 => .ccc
  | 0o21 => .sec | 0o22 => .sev | 0o24 => .sez | 0o30 => .sen | 0o37 => .scc
  | k => .ccop (k.testBit 4) (k.testBit 3) (k.testBit 2) (k.testBit 1) (k.testBit 0)

/-- 000200 to 000277 (R179, R183). -/
def decodeReturn (n : Nat) : Instr :=
  match n / 8 % 8 with
  | 0 => .rts (regOf (n % 8))
  | 1 | 2 | 3 => .reserved000210 (BitVec.ofNat 16 n)
  | _ => decodeConditionOp n

/-- 000000 to 000377 (R183). -/
def decodeZero (n : Nat) : Instr :=
  match n / 64 % 4 with
  | 0 => decodeControl n
  | 1 => .jmp (dstField n)
  | 2 => decodeReturn n
  | _ => .swab (dstField n)

/-- 000000 to 007777: bits 11:8 (R183). -/
def decodeLow (n : Nat) : Instr :=
  match n / 256 % 16 with
  | 0 => decodeZero n
  | 1 => .br (lowByte n)
  | 2 => .bne (lowByte n)
  | 3 => .beq (lowByte n)
  | 4 => .bge (lowByte n)
  | 5 => .blt (lowByte n)
  | 6 => .bgt (lowByte n)
  | 7 => .ble (lowByte n)
  | 8 | 9 => .jsr (regField n) (dstField n)
  | 10 => match n / 64 % 4 with
    | 0 => .clr (dstField n) | 1 => .com (dstField n) | 2 => .inc (dstField n) | _ => .dec (dstField n)
  | 11 => match n / 64 % 4 with
    | 0 => .neg (dstField n) | 1 => .adc (dstField n) | 2 => .sbc (dstField n) | _ => .tst (dstField n)
  | 12 => match n / 64 % 4 with
    | 0 => .ror (dstField n) | 1 => .rol (dstField n) | 2 => .asr (dstField n) | _ => .asl (dstField n)
  | 13 => match n / 64 % 4 with
    | 0 => .mark (lowSix n) | 1 => .mfpi (dstField n) | 2 => .mtpi (dstField n) | _ => .sxt (dstField n)
  | _ => .reserved007000 (BitVec.ofNat 16 n)

/-- 070000 to 077777: bits 11:9 (R175, R183). -/
def decodeRegister (n : Nat) : Instr :=
  match n / 512 % 8 with
  | 0 => .mul (regField n) (dstField n)
  | 1 => .div (regField n) (dstField n)
  | 2 => .ash (regField n) (dstField n)
  | 3 => .ashc (regField n) (dstField n)
  | 4 => .xor (regField n) (dstField n)
  | 5 | 6 => .reserved075000 (BitVec.ofNat 16 n)
  | _ => .sob (regField n) (lowSix n)

/-- 100000 to 107777: bits 11:8 (R183). -/
def decodeHigh (n : Nat) : Instr :=
  match n / 256 % 16 with
  | 0 => .bpl (lowByte n)
  | 1 => .bmi (lowByte n)
  | 2 => .bhi (lowByte n)
  | 3 => .blos (lowByte n)
  | 4 => .bvc (lowByte n)
  | 5 => .bvs (lowByte n)
  | 6 => .bcc (lowByte n)
  | 7 => .bcs (lowByte n)
  | 8 => .emt (lowByte n)
  | 9 => .trap (lowByte n)
  | 10 => match n / 64 % 4 with
    | 0 => .clrb (dstField n) | 1 => .comb (dstField n) | 2 => .incb (dstField n) | _ => .decb (dstField n)
  | 11 => match n / 64 % 4 with
    | 0 => .negb (dstField n) | 1 => .adcb (dstField n) | 2 => .sbcb (dstField n) | _ => .tstb (dstField n)
  | 12 => match n / 64 % 4 with
    | 0 => .rorb (dstField n) | 1 => .rolb (dstField n) | 2 => .asrb (dstField n) | _ => .aslb (dstField n)
  | 13 => match n / 64 % 4 with
    | 0 => .mtps (dstField n) | 1 => .mfpd (dstField n) | 2 => .mtpd (dstField n) | _ => .mfps (dstField n)
  | _ => .reserved107000 (BitVec.ofNat 16 n)

/-- 170000 to 170077: the `FP0` format (R181, R184, R185). -/
def decodeFloatZero (n : Nat) : Instr :=
  match n % 64 with
  | 0 => .cfcc | 1 => .setf | 2 => .seti | 9 => .setd | 10 => .setl
  | 3 | 4 | 5 | 6 | 7 | 8 => .unassigned170003 (BitVec.ofNat 16 n)
  | _ => .unassigned170013 (BitVec.ofNat 16 n)

/-- 170000 to 177777: bits 11:8 (R184). -/
def decodeFloat (n : Nat) : Instr :=
  match n / 256 % 16 with
  | 0 => match n / 64 % 4 with
    | 0 => decodeFloatZero n | 1 => .ldfps (dstField n) | 2 => .stfps (dstField n) | _ => .stst (dstField n)
  | 1 => match n / 64 % 4 with
    | 0 => .clrf (dstField n) | 1 => .tstf (dstField n) | 2 => .absf (dstField n) | _ => .negf (dstField n)
  | 2 => .mulf (acField n) (dstField n)
  | 3 => .modf (acField n) (dstField n)
  | 4 => .addf (acField n) (dstField n)
  | 5 => .ldf (acField n) (dstField n)
  | 6 => .subf (acField n) (dstField n)
  | 7 => .cmpf (acField n) (dstField n)
  | 8 => .stf (acField n) (dstField n)
  | 9 => .divf (acField n) (dstField n)
  | 10 => .stexp (acField n) (dstField n)
  | 11 => .stcfi (acField n) (dstField n)
  | 12 => .stcfd (acField n) (dstField n)
  | 13 => .ldexp (acField n) (dstField n)
  | 14 => .ldcif (acField n) (dstField n)
  | _ => .ldcdf (acField n) (dstField n)

/-- The instruction that a word stands for, whatever the word (R182, R183). -/
def decodeWord (w : Word) : Instr :=
  let n := w.toNat
  match n / 4096 with
  | 0 => decodeLow n
  | 1 => .mov (srcField n) (dstField n)
  | 2 => .cmp (srcField n) (dstField n)
  | 3 => .bit (srcField n) (dstField n)
  | 4 => .bic (srcField n) (dstField n)
  | 5 => .bis (srcField n) (dstField n)
  | 6 => .add (srcField n) (dstField n)
  | 7 => decodeRegister n
  | 8 => decodeHigh n
  | 9 => .movb (srcField n) (dstField n)
  | 10 => .cmpb (srcField n) (dstField n)
  | 11 => .bitb (srcField n) (dstField n)
  | 12 => .bicb (srcField n) (dstField n)
  | 13 => .bisb (srcField n) (dstField n)
  | 14 => .sub (srcField n) (dstField n)
  | _ => decodeFloat n

/-- Why a byte sequence holds no instruction word. -/
inductive DecodeError where
  /-- no byte at all -/
  | noBytes
  /-- half an instruction word -/
  | halfWord
  deriving DecidableEq, Repr

/-- Decode the instruction word at the head of a byte sequence, low byte first (R170, spec/20_memory.md R84), and
answer the bytes that follow it. -/
def decodeBytes : List Byte → Except DecodeError (Instr × List Byte)
  | []          => .error .noBytes
  | [_]         => .error .halfWord
  | lo :: hi :: rest => .ok (decodeWord (hi ++ lo), rest)

/-- The interface's view of the decoder: the instruction whose bits are `w`, laid out as the machine stores it. An
operand word that the table gives no bits follows the instruction word and does not take part in decoding. -/
def decodeTableWord (nbits w : Nat) : Option Instr :=
  let v := w % 2 ^ nbits
  match decodeBytes [BitVec.ofNat 8 (v % 256), BitVec.ofNat 8 (v / 256 % 256)] with
  | .ok (i, _) => some i
  | .error _ => none

/-! ## The encoder -/

/-- One bit as a number. -/
def bitNat (b : Bool) : Nat := if b then 1 else 0

/-- `DO` format (R174). -/
def encDouble (base : Nat) (s d : Operand) : Nat := base + s.toNat * 64 + d.toNat

/-- `RO` format (R175). -/
def encRegister (base : Nat) (r : Reg) (o : Operand) : Nat := base + r.toNat * 64 + o.toNat

/-- `FP2` format (R181). -/
def encFloat (base : Nat) (a : Ac) (o : Operand) : Nat := base + a.toNat * 64 + o.toNat

/-- The instruction word as a number (R173 to R181, R183, R184). -/
def Instr.encodeNat : Instr → Nat
  | .halt => 0o000000
  | .wait => 0o000001
  | .rti => 0o000002
  | .bpt => 0o000003
  | .iot => 0o000004
  | .reset => 0o000005
  | .rtt => 0o000006
  | .mfpt => 0o000007
  | .jmp o => 0o000100 + o.toNat
  | .rts r => 0o000200 + r.toNat
  | .nop => 0o000240
  | .clc => 0o000241
  | .clv => 0o000242
  | .clz => 0o000244
  | .cln => 0o000250
  | .ccc => 0o000257
  | .sec => 0o000261
  | .sev => 0o000262
  | .sez => 0o000264
  | .sen => 0o000270
  | .scc => 0o000277
  | .ccop t n z v c => 0o000240 + bitNat t * 16 + bitNat n * 8 + bitNat z * 4 + bitNat v * 2 + bitNat c
  | .swab o => 0o000300 + o.toNat
  | .br k => 0o000400 + k.toNat
  | .bne k => 0o001000 + k.toNat
  | .beq k => 0o001400 + k.toNat
  | .bge k => 0o002000 + k.toNat
  | .blt k => 0o002400 + k.toNat
  | .bgt k => 0o003000 + k.toNat
  | .ble k => 0o003400 + k.toNat
  | .bpl k => 0o100000 + k.toNat
  | .bmi k => 0o100400 + k.toNat
  | .bhi k => 0o101000 + k.toNat
  | .blos k => 0o101400 + k.toNat
  | .bvc k => 0o102000 + k.toNat
  | .bvs k => 0o102400 + k.toNat
  | .bcc k => 0o103000 + k.toNat
  | .bhis k => 0o103000 + k.toNat
  | .bcs k => 0o103400 + k.toNat
  | .blo k => 0o103400 + k.toNat
  | .jsr r o => encRegister 0o004000 r o
  | .clr o => 0o005000 + o.toNat
  | .com o => 0o005100 + o.toNat
  | .inc o => 0o005200 + o.toNat
  | .dec o => 0o005300 + o.toNat
  | .neg o => 0o005400 + o.toNat
  | .adc o => 0o005500 + o.toNat
  | .sbc o => 0o005600 + o.toNat
  | .tst o => 0o005700 + o.toNat
  | .ror o => 0o006000 + o.toNat
  | .rol o => 0o006100 + o.toNat
  | .asr o => 0o006200 + o.toNat
  | .asl o => 0o006300 + o.toNat
  | .clrb o => 0o105000 + o.toNat
  | .comb o => 0o105100 + o.toNat
  | .incb o => 0o105200 + o.toNat
  | .decb o => 0o105300 + o.toNat
  | .negb o => 0o105400 + o.toNat
  | .adcb o => 0o105500 + o.toNat
  | .sbcb o => 0o105600 + o.toNat
  | .tstb o => 0o105700 + o.toNat
  | .rorb o => 0o106000 + o.toNat
  | .rolb o => 0o106100 + o.toNat
  | .asrb o => 0o106200 + o.toNat
  | .aslb o => 0o106300 + o.toNat
  | .mark k => 0o006400 + k.toNat
  | .mfpi o => 0o006500 + o.toNat
  | .mtpi o => 0o006600 + o.toNat
  | .sxt o => 0o006700 + o.toNat
  | .mtps o => 0o106400 + o.toNat
  | .mfpd o => 0o106500 + o.toNat
  | .mtpd o => 0o106600 + o.toNat
  | .mfps o => 0o106700 + o.toNat
  | .mov s d => encDouble 0o010000 s d
  | .cmp s d => encDouble 0o020000 s d
  | .bit s d => encDouble 0o030000 s d
  | .bic s d => encDouble 0o040000 s d
  | .bis s d => encDouble 0o050000 s d
  | .add s d => encDouble 0o060000 s d
  | .movb s d => encDouble 0o110000 s d
  | .cmpb s d => encDouble 0o120000 s d
  | .bitb s d => encDouble 0o130000 s d
  | .bicb s d => encDouble 0o140000 s d
  | .bisb s d => encDouble 0o150000 s d
  | .sub s d => encDouble 0o160000 s d
  | .mul r o => encRegister 0o070000 r o
  | .div r o => encRegister 0o071000 r o
  | .ash r o => encRegister 0o072000 r o
  | .ashc r o => encRegister 0o073000 r o
  | .xor r o => encRegister 0o074000 r o
  | .sob r k => 0o077000 + r.toNat * 64 + k.toNat
  | .emt k => 0o104000 + k.toNat
  | .trap k => 0o104400 + k.toNat
  | .cfcc => 0o170000
  | .setf => 0o170001
  | .seti => 0o170002
  | .setd => 0o170011
  | .setl => 0o170012
  | .ldfps o => 0o170100 + o.toNat
  | .stfps o => 0o170200 + o.toNat
  | .stst o => 0o170300 + o.toNat
  | .clrf o => 0o170400 + o.toNat
  | .clrd o => 0o170400 + o.toNat
  | .tstf o => 0o170500 + o.toNat
  | .tstd o => 0o170500 + o.toNat
  | .absf o => 0o170600 + o.toNat
  | .absd o => 0o170600 + o.toNat
  | .negf o => 0o170700 + o.toNat
  | .negd o => 0o170700 + o.toNat
  | .mulf a o => encFloat 0o171000 a o
  | .muld a o => encFloat 0o171000 a o
  | .modf a o => encFloat 0o171400 a o
  | .modd a o => encFloat 0o171400 a o
  | .addf a o => encFloat 0o172000 a o
  | .addd a o => encFloat 0o172000 a o
  | .ldf a o => encFloat 0o172400 a o
  | .ldd a o => encFloat 0o172400 a o
  | .subf a o => encFloat 0o173000 a o
  | .subd a o => encFloat 0o173000 a o
  | .cmpf a o => encFloat 0o173400 a o
  | .cmpd a o => encFloat 0o173400 a o
  | .stf a o => encFloat 0o174000 a o
  | .std a o => encFloat 0o174000 a o
  | .divf a o => encFloat 0o174400 a o
  | .divd a o => encFloat 0o174400 a o
  | .stexp a o => encFloat 0o175000 a o
  | .stcfi a o => encFloat 0o175400 a o
  | .stcfl a o => encFloat 0o175400 a o
  | .stcdi a o => encFloat 0o175400 a o
  | .stcdl a o => encFloat 0o175400 a o
  | .stcfd a o => encFloat 0o176000 a o
  | .stcdf a o => encFloat 0o176000 a o
  | .ldexp a o => encFloat 0o176400 a o
  | .ldcif a o => encFloat 0o177000 a o
  | .ldclf a o => encFloat 0o177000 a o
  | .ldcid a o => encFloat 0o177000 a o
  | .ldcld a o => encFloat 0o177000 a o
  | .ldcdf a o => encFloat 0o177400 a o
  | .ldcfd a o => encFloat 0o177400 a o
  | .reserved000010 w => w.toNat
  | .reserved000210 w => w.toNat
  | .reserved007000 w => w.toNat
  | .reserved075000 w => w.toNat
  | .reserved107000 w => w.toNat
  | .unassigned170003 w => w.toNat
  | .unassigned170013 w => w.toNat

/-- The instruction word (R173 to R181). -/
def encode (i : Instr) : Word := BitVec.ofNat 16 i.encodeNat

/-- The base spelling of an instruction: the one that its word decodes to (R184, R187, R401, R402; log 34). -/
def Instr.canonical : Instr → Instr
  | .bhis o => .bcc o
  | .blo o => .bcs o
  | .ccop false false false false false => .nop
  | .ccop false false false false true => .clc
  | .ccop false false false true false => .clv
  | .ccop false false true false false => .clz
  | .ccop false true false false false => .cln
  | .ccop false true true true true => .ccc
  | .ccop true false false false true => .sec
  | .ccop true false false true false => .sev
  | .ccop true false true false false => .sez
  | .ccop true true false false false => .sen
  | .ccop true true true true true => .scc
  | .clrd o => .clrf o
  | .tstd o => .tstf o
  | .absd o => .absf o
  | .negd o => .negf o
  | .muld a o => .mulf a o
  | .modd a o => .modf a o
  | .addd a o => .addf a o
  | .ldd a o => .ldf a o
  | .subd a o => .subf a o
  | .cmpd a o => .cmpf a o
  | .std a o => .stf a o
  | .divd a o => .divf a o
  | .stcfl a o => .stcfi a o
  | .stcdi a o => .stcfi a o
  | .stcdl a o => .stcfi a o
  | .stcdf a o => .stcfd a o
  | .ldclf a o => .ldcif a o
  | .ldcid a o => .ldcif a o
  | .ldcld a o => .ldcif a o
  | .ldcfd a o => .ldcdf a o
  | i => i

/-- The member of a floating code that the mode bits FD and FL select when it runs (R184: "one encoding whose meaning
depends on FPS mode bits at execution time"; spec/48_fp_instructions.md R470). -/
def Instr.underModes (fd fl : Bool) (i : Instr) : Instr :=
  match i with
  | .clrf o => if fd then .clrd o else .clrf o
  | .tstf o => if fd then .tstd o else .tstf o
  | .absf o => if fd then .absd o else .absf o
  | .negf o => if fd then .negd o else .negf o
  | .mulf a o => if fd then .muld a o else .mulf a o
  | .modf a o => if fd then .modd a o else .modf a o
  | .addf a o => if fd then .addd a o else .addf a o
  | .ldf a o => if fd then .ldd a o else .ldf a o
  | .subf a o => if fd then .subd a o else .subf a o
  | .cmpf a o => if fd then .cmpd a o else .cmpf a o
  | .stf a o => if fd then .std a o else .stf a o
  | .divf a o => if fd then .divd a o else .divf a o
  | .stcfi a o => if fd then (if fl then .stcdl a o else .stcdi a o) else (if fl then .stcfl a o else .stcfi a o)
  | .stcfd a o => if fd then .stcdf a o else .stcfd a o
  | .ldcif a o => if fd then (if fl then .ldcld a o else .ldcid a o) else (if fl then .ldclf a o else .ldcif a o)
  | .ldcdf a o => if fd then .ldcfd a o else .ldcdf a o
  | i => i

end Sys2Proof
end

