-- ==== Sys2Proof/Config.lean ====
section
/-! DEFINITION. What an implementation fixes (spec/00_scope.md R10, spec/20_memory.md R101) and the free values:
opaque constants for the values that the manual leaves open. -/

namespace Sys2Proof

/-- What answers in a range of physical addresses (R101). -/
inductive RegionKind where
  /-- read and write memory -/
  | ram
  /-- memory that ignores writes; the platform says whether a write gets a reply -/
  | rom (replies : Bool)
  /-- the console serial line unit (R601 to R607) -/
  | console
  /-- a device whose behaviour the spec does not give (R105) -/
  | device
  deriving DecidableEq, Repr

/-- One range of the memory map: the byte addresses from `lo` up to `hi`, both inclusive (R101). -/
structure Region where
  lo     : Nat
  hi     : Nat
  kind   : RegionKind
  /-- parity memory: the environment may attach a parity error to a read (R98) -/
  parity : Bool
  deriving DecidableEq, Repr

/-- RESERVED_MODE_TRANSLATION of R10: what a translated reference does in mode 01 or 10 (R123). -/
inductive ReservedModePolicy where
  | refuse
  | abortNonresident
  | asUser
  | asKernel
  deriving DecidableEq, Repr

/-- The named parameters of R10. No step changes them. -/
structure Config where
  hasMmu          : Bool
  /-- the KEF11-A microcode; the floating point option works only with the MMU chip (R53): see `Config.fpp` -/
  hasFpp          : Bool
  w4EventDisabled : Bool
  /-- jumpers W5, W6 -/
  powerUpMode     : Fin 4
  w7HaltTraps     : Bool
  w8Boot173000    : Bool
  /-- jumpers W15 to W9 -/
  bootAddrHi      : BitVec 7
  memoryMap       : List Region
  reservedMode    : ReservedModePolicy
  deriving DecidableEq, Repr

/-- The floating point option is there when it is installed and the MMU chip, which holds its registers, is too
(R10, R53). -/
def Config.fpp (c : Config) : Bool := c.hasFpp && c.hasMmu

/-- FREE VALUE (log 17): the `n`th word that the manual leaves open. It has no body: nothing can be proved of it. -/
opaque Config.freeWord : Nat → BitVec 16

/-- FREE VALUE (log 17): the `n`th set of condition codes that the manual leaves open. -/
opaque Config.freeCodes : Nat → BitVec 4

/-- FREE VALUE (log 17, 21): the `n`th low half of an accumulator after a single-precision write (R439). -/
opaque Config.freeLow : Nat → BitVec 32

end Sys2Proof
end

