-- ==== Sys2Proof/Machine/State.lean ====
section
/-! DEFINITION. The machine's state (spec/10_state.md), its stops, and the result of a piece of an instruction.
INVENTORY.md, '## State', lists every field with the rule that names it and its reset value. -/

namespace Sys2Proof.Machine

/-- The bytes of the physical space that are memory: (address, byte) pairs, addresses strictly rising, no pair equal to
what an unlisted address reads as (`Memory.wf`). -/
abbrev Memory := List Host.Cell

/-- The reasons for which a trap sequence starts, except for the service conditions' own bookkeeping
(spec/60_exceptions.md R541). -/
inductive Trap where
  /-- row A, vector 250 -/
  | mmuAbort
  /-- row B, vector 4 -/
  | busTimeout
  /-- the double bus error: the same trap, begun again on the new stack at location 2 (R562) -/
  | doubleTimeout
  /-- row C, vector 114 -/
  | parityError
  /-- row N, vector 10 -/
  | reservedInstruction
  /-- row P, vector 4 -/
  | illegalInstruction
  /-- row M, vectors 30, 34, 14, 20 -/
  | emt | trap | bpt | iot
  /-- row Q, vector 244 -/
  | floating
  /-- row D, vector 14 -/
  | trace
  /-- row E, vector 4 -/
  | stackOverflow
  /-- row F, vector 24 -/
  | powerFail
  /-- row H, vector 100 -/
  | event
  /-- rows G, I, J, K: the vector that the device supplied -/
  | device (vector : Word)
  deriving DecidableEq, Repr

/-- What the processor is doing (spec/10_state.md R63). -/
inductive RunState where
  /-- BDCOK negated (R661) -/
  | powerOff
  /-- waiting for BPOK (spec/70_reset_and_hazards.md R660) -/
  | powerWait
  /-- a kernel HALT found BPOK negated (R668) -/
  | haltPowerTest
  /-- fetching and executing -/
  | run
  /-- a WAIT instruction idles (spec/45_traps_misc.md R381) -/
  | wait
  /-- the console microcode is in control (spec/61_console_odt_devices.md R610) -/
  | odt
  /-- a trap sequence was cut short by an abort, and the trap sequence for that abort comes next
  (spec/60_exceptions.md R561 to R563) -/
  | trapping (t : Trap)
  /-- the same, where the sequence cut short was that of power-up mode 3: the fetch follows, and no service state
  (spec/70_reset_and_hazards.md R667) -/
  | powerTrap (t : Trap)
  deriving DecidableEq, Repr

/-- The ten states of the console microcode, 1 to 10 in this order (spec/61_console_odt_devices.md R615). -/
inductive OdtState where
  | prompt | designator | openAddr | openReg | address | register | dataAddr | dataReg | reprompt | dump
  deriving DecidableEq, Repr

/-- A location of the console (spec/61_console_odt_devices.md R620). -/
inductive OdtLoc where
  | reg (r : Reg)
  | ps
  | addr (a : PAddr)
  deriving DecidableEq, Repr

/-- What the console microcode has still to do before it looks for the next character (R610 to R632). -/
inductive OdtAct where
  /-- `Out(c)` of R612 -/
  | out (c : Byte)
  /-- the read of RBUF on entry (R610) -/
  | flush
  /-- read a location and print it (R621) -/
  | examine (l : OdtLoc)
  /-- write a location (R620, R622) -/
  | deposit (l : OdtLoc) (data : Word)
  /-- the G command, after its two nulls (R626) -/
  | go (a : Word)
  /-- the P command (R627) -/
  | proceed
  /-- the rest of a binary dump: the next address and how many bytes are left (R628) -/
  | dump (a : Word) (left : Nat)
  deriving DecidableEq, Repr

/-- The console microcode's own state (spec/10_state.md R64). -/
structure Odt where
  st     : OdtState
  opened : Option OdtLoc
  /-- the location opened last, for a slash after a prompt (R621) -/
  last   : Option OdtLoc
  /-- the digits typed, the last six kept (R614) -/
  acc    : BitVec 18
  /-- the last character of a register designator was S (R624) -/
  lastS  : Bool
  /-- the first address byte of a binary dump (R628) -/
  dumpHi : Option Byte
  todo   : List OdtAct
  deriving DecidableEq, Repr

/-- One floating accumulator: the high 32 bits, which hold an F datum, and the low 32 (spec/10_state.md R53). -/
structure Acc where
  hi : BitVec 32
  lo : BitVec 32
  deriving DecidableEq, Repr

/-- The console serial line unit and what its terminal has printed (spec/61_console_odt_devices.md R607). -/
structure Slu where
  rxDone  : Bool
  rxIe    : Bool
  rxChar  : Byte
  txReady : Bool
  txIe    : Bool
  /-- the character handed to the terminal and not yet printed -/
  txChar  : Option Byte
  printed : List Byte
  deriving DecidableEq, Repr

/-- The levels of a device interrupt (spec/60_exceptions.md R554). -/
inductive Level where
  | l4 | l5 | l6 | l7
  deriving DecidableEq, Repr

/-- A device's interrupt request and the vector it will supply; `none`: no device will answer the acknowledge (R95,
R554). -/
structure Irq where
  level  : Level
  vector : Option Word
  deriving DecidableEq, Repr

/-- What another agent does on the bus, possible before any bus cycle of the processor (spec/10_state.md R66,
spec/20_memory.md R114, spec/61_console_odt_devices.md R607). -/
inductive BusInput where
  /-- a character arrives at the console receiver (R607) -/
  | typed (c : Byte)
  /-- the console transmitter has finished (R607) -/
  | sent
  /-- the next reads of a parity memory word return, or no longer return, a parity error (R98) -/
  | parity (a : PAddr) (bad : Bool)
  /-- a DMA device reads a word (R115) -/
  | dmaRead (a : PAddr)
  /-- a DMA device writes a word -/
  | dmaWrite (a : PAddr) (v : Word)
  /-- a DMA device writes a byte -/
  | dmaWriteByte (a : PAddr) (v : Byte)
  deriving DecidableEq, Repr

/-- One entry of the environment's schedule (spec/00_scope.md R11, spec/10_state.md R66). -/
inductive Input where
  /-- the processor takes its next step -/
  | cpu
  /-- a device asserts a request (R554) -/
  | irq (r : Irq)
  /-- a device withdraws a request (R683) -/
  | withdraw (r : Irq)
  /-- BEVENT is asserted (R555) -/
  | event
  /-- the halt line is driven (R556) -/
  | bhalt (level : Bool)
  /-- BPOK is driven (R553, R661) -/
  | bpok (level : Bool)
  /-- BDCOK is driven (R660, R661) -/
  | bdcok (level : Bool)
  /-- a DMA device takes or gives back the bus (R115) -/
  | bdmr (held : Bool)
  /-- another agent acts on the bus, between two steps of the processor -/
  | bus (e : BusInput)
  deriving DecidableEq, Repr

/-- The machine's state: spec/10_state.md, with the environment's lines and schedule and the model's own counter. -/
structure State where
  /-- the configuration (R10); no step changes it -/
  cfg  : Config
  /-- R0 to R5 (R20) -/
  r0 : Word
  r1 : Word
  r2 : Word
  r3 : Word
  r4 : Word
  r5 : Word
  /-- the stack pointer cells of modes 00, 01, 10 and 11 (R22) -/
  sp0 : Word
  sp1 : Word
  sp2 : Word
  sp3 : Word
  /-- R7 (R26) -/
  pc   : Word
  /-- the processor status word (R30) -/
  ps   : Word
  /-- kernel page address and page descriptor registers (R43, R44) -/
  kpar : Vector Word 8
  kpdr : Vector Word 8
  /-- user page address and page descriptor registers -/
  upar : Vector Word 8
  updr : Vector Word 8
  /-- the memory management status registers (R46, R49, R50); SR1 has no storage (R48) -/
  sr0  : Word
  sr2  : Word
  sr3  : Word
  /-- the floating accumulators AC0 to AC5 (R53) -/
  ac   : Vector Acc 6
  /-- the floating status, exception code and exception address registers (R54, R55, R56) -/
  fps  : Word
  fec  : BitVec 4
  fea  : Word
  /-- event request flip-flop (R60) -/
  eventFF : Bool
  /-- power-fail flip-flop (R61) -/
  powerFailFF : Bool
  /-- stack overflow pending (R62) -/
  stackOverflow : Bool
  /-- the next service state skips the trace test (spec/60_exceptions.md R542) -/
  inhibitT : Bool
  /-- the run state (R63) -/
  run  : RunState
  /-- the console microcode (R64) -/
  odt  : Odt
  /-- memory (R101) -/
  mem  : Memory
  /-- the console serial line unit (R58, R607) -/
  slu  : Slu
  /-- the environment's lines (R66) -/
  bhalt : Bool
  bpok  : Bool
  bdcok : Bool
  bdmr  : Bool
  irqs  : List Irq
  /-- word addresses whose reads return a parity error (R98) -/
  parity : List Nat
  /-- the environment's schedule; an empty one lets the processor run undisturbed -/
  inputs : List Input
  /-- the other agents' actions inside the processor's coming steps: what happens before each of its next bus cycles, one
  list for each cycle; when the list is used up, nothing (R66, spec/20_memory.md R114) -/
  busInputs : List (List BusInput)
  /-- the model's own counter for the free values (log 17) -/
  free : Nat
  deriving DecidableEq, Repr

/-- The machine stops with a fault. Everything that the spec calls an abort, a trap or an interrupt is taken and is no
fault. -/
inductive Fault where
  /-- Raised by a reference to an address that the configured memory map gives to a device whose behaviour the spec does
  not give (spec/20_memory.md R101, R105; log 32). Safe: the machine goes on, the model stops. -/
  | deviceWindow (a : PAddr)
  deriving DecidableEq, Repr

/-- The model refuses to go on. -/
inductive Refusal where
  /-- An arm of `exec` without a meaning; no instruction of this model uses it. Safe. -/
  | notModelled (mnemonic : String)
  /-- A translated reference in mode 01 or 10 with RESERVED_MODE_TRANSLATION at `refuse`, the spec's default
  (spec/21_memory_management.md R123, spec/00_scope.md R10; log 11). Safe. -/
  | reservedModeTranslation
  deriving DecidableEq, Repr

/-- What a piece of an instruction answers: a value and the state it leaves; a trap to be taken from the state it leaves
(spec/00_scope.md R14, `raise`); or a stop. -/
inductive Res (α : Type) where
  | ok (a : α) (s : State)
  | trap (t : Trap) (s : State)
  | fault (f : Fault)
  | refused (r : Refusal)
  deriving DecidableEq, Repr

/-- Go on with the value and the state, or stop. -/
def Res.bind {α β : Type} (x : Res α) (f : α → State → Res β) : Res β :=
  match x with
  | .ok a s => f a s
  | .trap t s => .trap t s
  | .fault e => .fault e
  | .refused r => .refused r

/-- The console registers after BINIT, with nothing printed (R604, R606; log 27). -/
def Slu.reset : Slu :=
  { rxDone := false, rxIe := false, rxChar := 0, txReady := true, txIe := false, txChar := none, printed := [] }

/-- The console microcode before its first use (log 6). -/
def Odt.reset : Odt :=
  { st := .prompt, opened := none, last := none, acc := 0, lastS := false, dumpHi := none, todo := [] }

/-- The configuration of the machine at reset: a KDF11-AA, with the MMU and without floating point, and the jumpers at
their defaults (spec/00_scope.md R2, R10); memory up to 757777 and the console (log 7). -/
def resetConfig : Config :=
  { hasMmu := true, hasFpp := false, w4EventDisabled := false, powerUpMode := 0, w7HaltTraps := false,
    w8Boot173000 := true, bootAddrHi := 0,
    memoryMap := [⟨0, 0o757777, .ram, false⟩, ⟨0o777560, 0o777567, .console, false⟩],
    reservedMode := .refuse }

/-- The machine right after reset: BDCOK has been asserted, what R660 clears is cleared, and the microcode waits for
BPOK, which is asserted (R660, R68). Where the spec states no value the log names one (log 1 to 7, 17, 27). -/
def State.reset : State :=
  { cfg := resetConfig
    r0 := 0, r1 := 0, r2 := 0, r3 := 0, r4 := 0, r5 := 0
    sp0 := 0, sp1 := 0, sp2 := 0, sp3 := 0
    pc := 0, ps := 0
    kpar := Vector.replicate 8 0, kpdr := Vector.replicate 8 0
    upar := Vector.replicate 8 0, updr := Vector.replicate 8 0
    sr0 := 0, sr2 := 0, sr3 := 0
    ac := Vector.replicate 6 ⟨0, 0⟩
    fps := 0, fec := 0, fea := 0
    eventFF := false, powerFailFF := false, stackOverflow := false, inhibitT := false
    run := .powerWait
    odt := Odt.reset
    mem := []
    slu := Slu.reset
    bhalt := false, bpok := true, bdcok := true, bdmr := false
    irqs := [], parity := [], inputs := [], busInputs := [], free := 0 }

end Sys2Proof.Machine
end

