-- ==== Sys2Proof/Machine/Memory.lean ====
section
/-! DEFINITION. Memory: bytes by physical address in one canonical form (spec/20_memory.md R81, R84, R101). -/

namespace Sys2Proof.Machine

/-- What a byte of memory that nothing has written reads as (DESIGN CHOICE, log 5: the spec says "memory may contain
random data"). -/
def unlistedByte : Byte := 0

/-- The canonical form: addresses strictly rising and inside the 18-bit space, no entry equal to what an unlisted address
reads as. -/
abbrev Memory.wf (m : Memory) : Prop :=
  m.Pairwise (fun x y => x.1 < y.1) ∧ ∀ x ∈ m, x.1 < 2 ^ 18 ∧ x.2 ≠ unlistedByte

/-- The byte at an address. -/
def Memory.read : Memory → Nat → Byte
  | [], _ => unlistedByte
  | (b, w) :: m, a => if b = a then w else Memory.read m a

/-- Put a byte in front of the later entries, unless it is what an unlisted address reads as. -/
def Memory.cons (a : Nat) (v : Byte) (m : Memory) : Memory :=
  if v = unlistedByte then m else (a, v) :: m

/-- Replace the byte at an address, keeping the canonical form. -/
def Memory.write : Memory → Nat → Byte → Memory
  | [], a, v => Memory.cons a v []
  | (b, w) :: m, a, v =>
    if a < b then Memory.cons a v ((b, w) :: m)
    else if a = b then Memory.cons a v m
    else (b, w) :: Memory.write m a v

/-- The even byte address of the word that a physical address lies in (R90). -/
def wordAddr (a : PAddr) : Nat := a.toNat / 2 * 2

/-- The word at a physical address, bit 0 of the address ignored; the low byte lies at the even address (R84, R86,
R90). -/
def Memory.readWord (m : Memory) (a : PAddr) : Word :=
  m.read (wordAddr a + 1) ++ m.read (wordAddr a)

/-- Replace the word at a physical address (R87). -/
def Memory.writeWord (m : Memory) (a : PAddr) (v : Word) : Memory :=
  (m.write (wordAddr a) (v.setWidth 8)).write (wordAddr a + 1) ((v >>> 8).setWidth 8)

end Sys2Proof.Machine
end

