-- ==== Sys2Proof/Machine/Flags.lean ====
section
/-! DEFINITION. The condition codes and every flag computation of the integer instructions (spec/41_single_operand.md,
spec/42_double_operand.md). An operation takes its operands and the old codes and answers a result and the new codes;
the general operations are written once for bytes and words, the width being the operand's. -/

namespace Sys2Proof.Machine

/-- The condition codes PS<3:0> (spec/10_state.md R31). -/
structure CC where
  n : Bool
  z : Bool
  v : Bool
  c : Bool
  deriving DecidableEq, Repr

/-- The codes as PS<3:0>. -/
def CC.bits (x : CC) : BitVec 4 :=
  BitVec.ofBool x.n ++ BitVec.ofBool x.z ++ BitVec.ofBool x.v ++ BitVec.ofBool x.c

/-- The codes that four bits stand for. -/
def ccOf (b : BitVec 4) : CC := ⟨b.getLsbD 3, b.getLsbD 2, b.getLsbD 1, b.getLsbD 0⟩

/-- N and Z of a result (spec/41_single_operand.md R231), V and C as given. -/
def ccNZ {w : Nat} (r : BitVec w) (v c : Bool) : CC := ⟨r.msb, decide (r = 0), v, c⟩

/-- The codes of a shift or rotate: V is the exclusive OR of the new N and C (R231). -/
def ccShift {w : Nat} (r : BitVec w) (c : Bool) : CC := ccNZ r (r.msb ^^ c) c

/-! ## Single operand (spec/41_single_operand.md) -/

/-- CLR (R232, R233). -/
def aluClr {w : Nat} (_d : BitVec w) (_cc : CC) : BitVec w × CC := (0, ⟨false, true, false, false⟩)

/-- COM (R234, R235). -/
def aluCom {w : Nat} (d : BitVec w) (_cc : CC) : BitVec w × CC := (~~~d, ccNZ (~~~d) false true)

/-- INC (R236, R237). -/
def aluInc {w : Nat} (d : BitVec w) (cc : CC) : BitVec w × CC :=
  (d + 1, ccNZ (d + 1) (decide (d = BitVec.intMax w)) cc.c)

/-- DEC (R238, R239). -/
def aluDec {w : Nat} (d : BitVec w) (cc : CC) : BitVec w × CC :=
  (d - 1, ccNZ (d - 1) (decide (d = BitVec.intMin w)) cc.c)

/-- NEG (R240, R241). -/
def aluNeg {w : Nat} (d : BitVec w) (_cc : CC) : BitVec w × CC :=
  (-d, ccNZ (-d) (decide (-d = BitVec.intMin w)) (decide (-d ≠ 0)))

/-- ADC (R244, R245). -/
def aluAdc {w : Nat} (d : BitVec w) (cc : CC) : BitVec w × CC :=
  let r := d + (BitVec.ofBool cc.c).setWidth w
  (r, ccNZ r (decide (d = BitVec.intMax w) && cc.c) (decide (d = BitVec.allOnes w) && cc.c))

/-- SBC (R246, R247). -/
def aluSbc {w : Nat} (d : BitVec w) (cc : CC) : BitVec w × CC :=
  let r := d - (BitVec.ofBool cc.c).setWidth w
  (r, ccNZ r (decide (d = BitVec.intMin w) && cc.c) (decide (d = 0) && cc.c))

/-- TST: the operand is its own result (R242, R243). -/
def aluTst {w : Nat} (d : BitVec w) (_cc : CC) : BitVec w × CC := (d, ccNZ d false false)

/-- ROR: the old carry enters at the high end (R250, R251). -/
def aluRor {w : Nat} (d : BitVec w) (cc : CC) : BitVec w × CC :=
  let r := (d >>> 1) ||| ((BitVec.ofBool cc.c).setWidth w <<< (w - 1))
  (r, ccShift r (d.getLsbD 0))

/-- ROL: the old carry enters at the low end (R252, R253). -/
def aluRol {w : Nat} (d : BitVec w) (cc : CC) : BitVec w × CC :=
  let r := (d <<< 1) ||| (BitVec.ofBool cc.c).setWidth w
  (r, ccShift r d.msb)

/-- ASR: the sign bit is replicated (R254, R255). -/
def aluAsr {w : Nat} (d : BitVec w) (_cc : CC) : BitVec w × CC :=
  (d.sshiftRight 1, ccShift (d.sshiftRight 1) (d.getLsbD 0))

/-- ASL (R256, R257). -/
def aluAsl {w : Nat} (d : BitVec w) (_cc : CC) : BitVec w × CC :=
  (d <<< 1, ccShift (d <<< 1) d.msb)

/-- SWAB: the codes describe the low byte of the result (R262). -/
def aluSwab (d : Word) (_cc : CC) : Word × CC :=
  let lo : Byte := (d >>> 8).setWidth 8
  (d.setWidth 8 ++ lo, ccNZ lo false false)

/-- SXT: the word of sign bits (R264). -/
def aluSxt (_d : Word) (cc : CC) : Word × CC :=
  (if cc.n then BitVec.allOnes 16 else 0, ⟨cc.n, !cc.n, false, cc.c⟩)

/-! ## Double operand (spec/42_double_operand.md) -/

/-- MOV (R282, R283). -/
def aluMov {w : Nat} (s _d : BitVec w) (cc : CC) : BitVec w × CC := (s, ccNZ s false cc.c)

/-- CMP: source minus destination (R284, R285). -/
def aluCmp {w : Nat} (s d : BitVec w) (_cc : CC) : BitVec w × CC :=
  let r := s - d
  (r, ccNZ r ((s.msb != d.msb) && (r.msb == d.msb)) (decide (s < d)))

/-- ADD (R286). -/
def aluAdd {w : Nat} (s d : BitVec w) (_cc : CC) : BitVec w × CC :=
  let r := s + d
  (r, ccNZ r ((s.msb == d.msb) && (r.msb != s.msb)) (decide (2 ^ w ≤ s.toNat + d.toNat)))

/-- SUB: destination minus source (R287). -/
def aluSub {w : Nat} (s d : BitVec w) (_cc : CC) : BitVec w × CC :=
  let r := d - s
  (r, ccNZ r ((s.msb != d.msb) && (r.msb == s.msb)) (decide (d < s)))

/-- BIT (R290, R291). -/
def aluBit {w : Nat} (s d : BitVec w) (cc : CC) : BitVec w × CC := (s &&& d, ccNZ (s &&& d) false cc.c)

/-- BIC (R292, R293). -/
def aluBic {w : Nat} (s d : BitVec w) (cc : CC) : BitVec w × CC := (~~~s &&& d, ccNZ (~~~s &&& d) false cc.c)

/-- BIS (R294, R295). -/
def aluBis {w : Nat} (s d : BitVec w) (cc : CC) : BitVec w × CC := (s ||| d, ccNZ (s ||| d) false cc.c)

/-- XOR (R296). -/
def aluXor {w : Nat} (s d : BitVec w) (cc : CC) : BitVec w × CC := (s ^^^ d, ccNZ (s ^^^ d) false cc.c)

/-! ## Extended integer (spec/42_double_operand.md) -/

/-- MUL: the 32-bit product; C says that it does not fit in sixteen bits (R300). -/
def eisMul (x s : Word) : BitVec 32 × CC :=
  let p : Int := x.toInt * s.toInt
  (BitVec.ofInt 32 p, ⟨decide (p < 0), decide (p = 0), false, decide (p < -2 ^ 15) || decide (2 ^ 15 ≤ p)⟩)

/-- DIV of the 32-bit dividend: quotient and remainder, or none where the registers keep their values (R301). -/
def eisDiv (d : BitVec 32) (s : Word) : Option (Word × Word) × CC :=
  if s = 0 then (none, ⟨false, false, true, true⟩)
  else
    let q : Int := d.toInt.tdiv s.toInt
    let r : Int := d.toInt.tmod s.toInt
    if q < -2 ^ 15 ∨ 2 ^ 15 - 1 < q then (none, ⟨false, false, true, false⟩)
    else (some (BitVec.ofInt 16 q, BitVec.ofInt 16 r), ⟨decide (q < 0), decide (q = 0), false, false⟩)

/-- The shift count: the low six bits of the source, signed (R302, R303). -/
def shiftCount (s : Word) : Int := (s.setWidth 6).toInt

/-- The top `k + 1` bits of a value are not all equal: the sign takes more than one value during a left shift by `k`
places (R302, R303). -/
def signChanges {w : Nat} (x : BitVec w) (k : Nat) : Bool :=
  decide ((x <<< k).sshiftRight k ≠ x)

/-- An arithmetic shift of a register or a register pair by a signed count (R302, R303): left, C is the last bit shifted
out and V says that the sign changed during the shift; right, the sign is replicated and C is the last bit shifted out;
by nothing, C and V are cleared. -/
def eisShift {w : Nat} (x : BitVec w) (c : Int) : BitVec w × CC :=
  if 0 < c then
    let k := c.toNat
    let r := x <<< k
    (r, ccNZ r (signChanges x k) (decide (k ≤ w) && x.getLsbD (w - k)))
  else if c < 0 then
    let k := (-c).toNat
    let r := x.sshiftRight k
    (r, ccNZ r false (if k ≤ w then x.getLsbD (k - 1) else x.msb))
  else (x, ccNZ x false false)

/-! ## Branch conditions (spec/43_branches.md R321 to R337) -/

/-- N exclusive or V: the signed comparison. -/
def CC.less (x : CC) : Bool := x.n ^^ x.v

end Sys2Proof.Machine
end

