-- ==== Sys2Proof/Machine/Regs.lean ====
section
/-! DEFINITION. The general registers, the banked stack pointer and the fields of the processor status word
(spec/10_state.md R20 to R40). All reads and writes of a register go through these. -/

namespace Sys2Proof.Machine

/-! ## The processor status word -/

/-- PS<15:14> (R36). -/
def State.mode (s : State) : BitVec 2 := s.ps.extractLsb' 14 2

/-- PS<13:12> (R35). -/
def State.prevMode (s : State) : BitVec 2 := s.ps.extractLsb' 12 2

/-- PS<7:5> as a number (R33). -/
def State.priority (s : State) : Nat := (s.ps.extractLsb' 5 3).toNat

/-- PS<4> (R32). -/
def State.tBit (s : State) : Bool := s.ps.getLsbD 4

/-- Only 00 is kernel mode; 01 and 10 count as not kernel (R36; D5, log 10). -/
def State.isKernel (s : State) : Bool := s.mode == 0

/-- PS<3:0> (R31). -/
def State.cc (s : State) : CC := ccOf (s.ps.extractLsb' 0 4)

/-- Replace PS<3:0>. -/
def State.setCC (s : State) (x : CC) : State := { s with ps := s.ps.extractLsb' 4 12 ++ x.bits }

/-- A word of PS bits with the three unimplemented bits 11:9 zero (R37; D17, log 8). -/
def psBits (v : Word) : Word := v &&& 0o170777#16

/-- Load all of the PS (R37). -/
def State.setPs (s : State) (v : Word) : State := { s with ps := psBits v }

/-- A write to address 777776 loads every field but T (R39). -/
def State.setPsExplicit (s : State) (v : Word) : State :=
  { s with ps := (v &&& 0o170757#16) ||| (s.ps &&& 0o20#16) }

/-! ## The general registers -/

/-- The stack pointer cell of a mode (R22). -/
def State.spOf (s : State) (m : BitVec 2) : Word :=
  if m = 0 then s.sp0 else if m = 1 then s.sp1 else if m = 2 then s.sp2 else s.sp3

/-- Write the stack pointer cell of a mode (R22). -/
def State.setSpOf (s : State) (m : BitVec 2) (v : Word) : State :=
  if m = 0 then { s with sp0 := v } else if m = 1 then { s with sp1 := v }
  else if m = 2 then { s with sp2 := v } else { s with sp3 := v }

/-- R[n]: R6 is the stack pointer of the current mode, R7 the program counter (R20, R22, R26). -/
def State.reg (s : State) : Reg → Word
  | .r0 => s.r0 | .r1 => s.r1 | .r2 => s.r2 | .r3 => s.r3 | .r4 => s.r4 | .r5 => s.r5
  | .r6 => s.spOf s.mode
  | .r7 => s.pc

/-- R[n] <- v (R20, R22, R26). -/
def State.setReg (s : State) (r : Reg) (v : Word) : State :=
  match r with
  | .r0 => { s with r0 := v } | .r1 => { s with r1 := v } | .r2 => { s with r2 := v }
  | .r3 => { s with r3 := v } | .r4 => { s with r4 := v } | .r5 => { s with r5 := v }
  | .r6 => s.setSpOf s.mode v
  | .r7 => { s with pc := v }

/-- The register of an odd-even pair that follows: the number OR-ed with 1 (spec/42_double_operand.md R299). -/
def orOne : Reg → Reg
  | .r0 => .r1 | .r1 => .r1 | .r2 => .r3 | .r3 => .r3 | .r4 => .r5 | .r5 => .r5 | .r6 => .r7 | .r7 => .r7

/-- The register's number is odd (R299). -/
def isOddReg : Reg → Bool
  | .r1 | .r3 | .r5 | .r7 => true
  | _ => false

/-- The kernel stack limit (spec/60_exceptions.md R552): a kernel R6 stepped down below 400 for a memory reference marks
the stack overflow, and the reference goes on. `v` is the stepped value. -/
def State.noteStack (s : State) (v : Word) : State :=
  if s.isKernel && decide (v < 0o400#16) then { s with stackOverflow := true } else s

/-- A register stepped down for a memory reference: only R6 is watched (R552). -/
def State.noteStackReg (s : State) (r : Reg) (v : Word) : State :=
  if r = .r6 then s.noteStack v else s

/-- A free word (log 17). -/
def takeWord (s : State) : Res Word := .ok (Config.freeWord s.free) { s with free := s.free + 1 }

/-- Four free condition codes (log 17). -/
def takeCodes (s : State) : Res CC := .ok (ccOf (Config.freeCodes s.free)) { s with free := s.free + 1 }

/-- A free low half of an accumulator (log 17, 21). -/
def takeLow (s : State) : Res (BitVec 32) := .ok (Config.freeLow s.free) { s with free := s.free + 1 }

end Sys2Proof.Machine
end

