-- ==== Sys2Proof/Machine/Bus.lean ====
section
/-! DEFINITION. Physical references: the processor's own addresses, memory, the console registers, addresses that do not
answer, and the other agents on the bus (spec/20_memory.md R86 to R115). -/

namespace Sys2Proof.Machine

/-! ## The processor's own addresses (R102) -/

/-- A register that the processor answers for at a physical address. -/
inductive IntReg where
  | ps | sr0 | sr1 | sr2 | sr3
  | kpdr (i : Fin 8) | kpar (i : Fin 8) | updr (i : Fin 8) | upar (i : Fin 8)
  deriving DecidableEq, Repr

/-- The place of a register word in a block of eight. -/
def wordIndex (a : Nat) : Fin 8 := Fin.ofNat 8 (a / 2)

/-- The processor register at an even physical address, if there is one (R102, R42). -/
def intRegAt (c : Config) (a : Nat) : Option IntReg :=
  if a = 0o777776 then some .ps
  else if !c.hasMmu then none
  else if a = 0o777572 then some .sr0
  else if a = 0o777574 then some .sr1
  else if a = 0o777576 then some .sr2
  else if a = 0o772516 then some .sr3
  else if 0o772300 ≤ a ∧ a ≤ 0o772316 then some (.kpdr (wordIndex (a - 0o772300)))
  else if 0o772340 ≤ a ∧ a ≤ 0o772356 then some (.kpar (wordIndex (a - 0o772340)))
  else if 0o777600 ≤ a ∧ a ≤ 0o777616 then some (.updr (wordIndex (a - 0o777600)))
  else if 0o777640 ≤ a ∧ a ≤ 0o777656 then some (.upar (wordIndex (a - 0o777640)))
  else none

/-- Read a processor register (R30, R43 to R50). -/
def readIntReg (r : IntReg) (s : State) : Word :=
  match r with
  | .ps => s.ps
  | .sr0 => s.sr0
  | .sr1 => 0
  | .sr2 => s.sr2
  | .sr3 => s.sr3
  | .kpdr i => s.kpdr[i]
  | .kpar i => s.kpar[i]
  | .updr i => s.updr[i]
  | .upar i => s.upar[i]

/-- The bits of a PDR that a program writes; the W bit is cleared by every write (R44, R45). -/
def pdrWritten (v : Word) : Word := v &&& 0o077416#16

/-- Clear the W bit of a PDR (R45). -/
def clearW (v : Word) : Word := v &&& 0o177677#16

/-- Write a processor register with all sixteen bits (R39, R43 to R50). -/
def writeIntReg (r : IntReg) (v : Word) (s : State) : State :=
  match r with
  | .ps => s.setPsExplicit v
  | .sr0 => { s with sr0 := (s.sr0 &&& 0o156#16) ||| (v &&& 0o160001#16) }
  | .sr1 => s
  | .sr2 => s
  | .sr3 => { s with sr3 := v &&& 0o60#16 }
  | .kpdr i => { s with kpdr := s.kpdr.set i (pdrWritten v) }
  | .kpar i => { s with kpar := s.kpar.set i v, kpdr := s.kpdr.set i (clearW s.kpdr[i]) }
  | .updr i => { s with updr := s.updr.set i (pdrWritten v) }
  | .upar i => { s with upar := s.upar.set i v, updr := s.updr.set i (clearW s.updr[i]) }

/-! ## Bytes of words (R84, R86, R87) -/

/-- The byte of a word that address bit 0 selects (R86). -/
def selectByte (odd : Bool) (v : Word) : Byte := if odd then (v >>> 8).setWidth 8 else v.setWidth 8

/-- Replace the byte of a word that address bit 0 selects (R87). -/
def mergeByte (odd : Bool) (old : Word) (b : Byte) : Word :=
  if odd then b ++ old.setWidth 8 else (old >>> 8).setWidth 8 ++ b

/-! ## The console registers (spec/61_console_odt_devices.md R601 to R607) -/

/-- A console register, by bits 2:1 of its address (R601). -/
inductive SluReg where
  | rcsr | rbuf | xcsr | xbuf
  deriving DecidableEq, Repr

/-- The console register at a physical address (R601). -/
def sluRegAt (a : Nat) : SluReg :=
  match a / 2 % 4 with
  | 0 => .rcsr | 1 => .rbuf | 2 => .xcsr | _ => .xbuf

/-- A status register of the console: done in bit 7, interrupt enable in bit 6 (R602, R604). -/
def sluStatus (done ie : Bool) : Word := (BitVec.ofBool done ++ BitVec.ofBool ie ++ (0 : BitVec 6)).setWidth 16

/-- Read a console register; reading RBUF clears the receiver's done flag (R602 to R607). -/
def sluRead (r : SluReg) (d : Slu) : Word × Slu :=
  match r with
  | .rcsr => (sluStatus d.rxDone d.rxIe, d)
  | .rbuf => (d.rxChar.setWidth 16, { d with rxDone := false })
  | .xcsr => (sluStatus d.txReady d.txIe, d)
  | .xbuf => (0, d)

/-- Write the low byte of a console register; the high bytes are not used (R602 to R607). A character written while the
transmitter is busy replaces the one it holds (log 27). A write to RBUF gets a reply and changes nothing (DESIGN CHOICE: R603 says
only that the register need not respond to it; log 27). -/
def sluWriteLow (r : SluReg) (v : Byte) (d : Slu) : Slu :=
  match r with
  | .rcsr => { d with rxIe := v.getLsbD 6 }
  | .rbuf => d
  | .xcsr => { d with txIe := v.getLsbD 6 }
  | .xbuf => { d with txChar := some v, txReady := false }

/-- BINIT at the console: the done flags take their idle values and the interrupt enables are cleared; a character on its
way out is lost (R602, R604, R606, R607; log 27). -/
def sluInit (d : Slu) : Slu :=
  { d with rxDone := false, rxIe := false, txReady := true, txIe := false, txChar := none }

/-! ## Bus cycles -/

/-- The region of the memory map that an address lies in, the first that fits (R101). -/
def regionAt (c : Config) (a : Nat) : Option Region :=
  c.memoryMap.find? (fun r => decide (r.lo ≤ a) && decide (a ≤ r.hi))

/-- A DATI cycle that a bus slave answers: the word at an even address, as every bus master sees it (R86, R94, R98). -/
def slaveRead (a : PAddr) (s : State) : Res Word :=
  match regionAt s.cfg (wordAddr a) with
  | none => .trap .busTimeout s
  | some r =>
    match r.kind with
    | .device => .fault (.deviceWindow a)
    | .console =>
      let (v, d) := sluRead (sluRegAt (wordAddr a)) s.slu
      .ok v { s with slu := d }
    | _ =>
      if r.parity && s.parity.contains (wordAddr a) then .trap .parityError s
      else .ok (s.mem.readWord a) s

/-- A DATO cycle that a bus slave answers; whether ROM replies to a write is the platform's (R87, R94, R101). -/
def slaveWrite (a : PAddr) (v : Word) (s : State) : Res Unit :=
  match regionAt s.cfg (wordAddr a) with
  | none => .trap .busTimeout s
  | some r =>
    match r.kind with
    | .device => .fault (.deviceWindow a)
    | .console => .ok () { s with slu := sluWriteLow (sluRegAt (wordAddr a)) (v.setWidth 8) s.slu }
    | .rom replies => if replies then .ok () s else .trap .busTimeout s
    | .ram => .ok () { s with mem := s.mem.writeWord a v }

/-- A DATOB cycle that a bus slave answers (R87, R94, R101). -/
def slaveWriteByte (a : PAddr) (v : Byte) (s : State) : Res Unit :=
  match regionAt s.cfg (wordAddr a) with
  | none => .trap .busTimeout s
  | some r =>
    match r.kind with
    | .device => .fault (.deviceWindow a)
    | .console =>
      if a.getLsbD 0 then .ok () s
      else .ok () { s with slu := sluWriteLow (sluRegAt (wordAddr a)) v s.slu }
    | .rom replies => if replies then .ok () s else .trap .busTimeout s
    | .ram => .ok () { s with mem := s.mem.write a.toNat v }

/-! ## The other agents on the bus (spec/20_memory.md R113 to R115) -/

/-- A character arrives: it takes the place of one that was not read (R607). -/
def receive (c : Byte) (s : State) : State := { s with slu := { s.slu with rxChar := c, rxDone := true } }

/-- The transmitter has finished: its character, if it still has one, is on the terminal (R607). -/
def transmitted (s : State) : State :=
  match s.slu.txChar with
  | none => s
  | some c => { s with slu := { s.slu with txReady := true, txChar := none, printed := s.slu.printed ++ [c] } }

/-- The memory's parity circuit starts or stops reporting an error for a word (R98; log 31). -/
def driveParity (a : PAddr) (bad : Bool) (s : State) : State :=
  let others := s.parity.filter (fun b => b != wordAddr a)
  { s with parity := if bad then wordAddr a :: others else others }

/-- What a DMA reference to an address finds: nothing at the addresses of the processor's own registers, which are no bus slaves,
else what the slaves there answer (R102, R115). A region of the memory map over one of those addresses does not answer it
either (DESIGN CHOICE: R115 does not speak of such a map; log 30). -/
def dmaReply {α : Type} (a : PAddr) (x : Res α) (s : State) : Res α :=
  if (intRegAt s.cfg (wordAddr a)).isSome then .trap .busTimeout s else x

/-- A DMA reference: one that no slave answers, or that meets a parity error, changes nothing (R115; log 30). -/
def dma {α : Type} (x : Res α) (s : State) : Res Unit :=
  match x with
  | .ok _ t => .ok () t
  | .trap _ _ => .ok () s
  | .fault f => .fault f
  | .refused r => .refused r

/-- One action of another agent on the bus. -/
def busAction (e : BusInput) (s : State) : Res Unit :=
  match e with
  | .typed c => .ok () (receive c s)
  | .sent => .ok () (transmitted s)
  | .parity a bad => .ok () (driveParity a bad s)
  | .dmaRead a => dma (dmaReply a (slaveRead a s) s) s
  | .dmaWrite a v => dma (dmaReply a (slaveWrite a v s) s) s
  | .dmaWriteByte a v => dma (dmaReply a (slaveWriteByte a v s) s) s

/-- Several actions, one after the other. -/
def busActions : List BusInput → State → Res Unit
  | [], s => .ok () s
  | e :: es, s => (busAction e s).bind fun _ s => busActions es s

/-- What the schedule lets happen before a bus cycle of the processor (R114). -/
def busTurn (s : State) : Res Unit :=
  match s.busInputs with
  | [] => .ok () s
  | es :: rest => busActions es { s with busInputs := rest }

/-! ## References of the processor -/

/-- A reference to a register of the processor is no bus cycle; before any other the other agents have their turn (R102,
R114). -/
def startCycle (a : PAddr) (s : State) : Res Unit :=
  match intRegAt s.cfg (wordAddr a) with
  | some _ => .ok () s
  | none => busTurn s

/-- The read itself: a register of the processor, or a DATI (R86, R102); bit 0 of the address is ignored (R90). -/
def cycleRead (a : PAddr) (s : State) : Res Word :=
  match intRegAt s.cfg (wordAddr a) with
  | some r => .ok (readIntReg r s) s
  | none => slaveRead a s

/-- The write of a word itself: a register of the processor, a DATO, or the second half of a DATIO (R87, R88, R102). -/
def cycleWrite (a : PAddr) (v : Word) (s : State) : Res Unit :=
  match intRegAt s.cfg (wordAddr a) with
  | some r => .ok () (writeIntReg r v s)
  | none => slaveWrite a v s

/-- The write of a byte itself: a register of the processor, a DATOB, or the second half of a DATIOB (R87, R88, R102). -/
def cycleWriteByte (a : PAddr) (v : Byte) (s : State) : Res Unit :=
  match intRegAt s.cfg (wordAddr a) with
  | some r => .ok () (writeIntReg r (mergeByte (a.getLsbD 0) (readIntReg r s) v) s)
  | none => slaveWriteByte a v s

/-- `PhysRead(pa, 2)` of the processor (R86, R102). -/
def physRead (a : PAddr) (s : State) : Res Word :=
  (startCycle a s).bind fun _ s => cycleRead a s

/-- `PhysRead(pa, 1)`: a word read, then the byte that bit 0 selects (R86). -/
def physReadByte (a : PAddr) (s : State) : Res Byte :=
  (physRead a s).bind fun v s => .ok (selectByte (a.getLsbD 0) v) s

/-- `PhysWrite(pa, 2, v)` of the processor (R87, R102). -/
def physWrite (a : PAddr) (v : Word) (s : State) : Res Unit :=
  (startCycle a s).bind fun _ s => cycleWrite a v s

/-- `PhysWrite(pa, 1, v)` of the processor (R87, R102). -/
def physWriteByte (a : PAddr) (v : Byte) (s : State) : Res Unit :=
  (startCycle a s).bind fun _ s => cycleWriteByte a v s

end Sys2Proof.Machine
end

