-- ==== Sys2Proof/Machine/Mmu.lean ====
section
/-! DEFINITION. Memory management: from a 16-bit virtual to an 18-bit physical address, the three protection checks, and
what an abort records (spec/21_memory_management.md, spec/20_memory.md R82). -/

namespace Sys2Proof.Machine

/-- The kind of a reference. A read-modify-write is translated once, as a write (R135). -/
inductive Access where
  | read | write
  deriving DecidableEq, Repr

/-- Which page registers a mode selects (R122, R123). -/
inductive PageSet where
  | kernel | user
  /-- no registers: abort as for a nonresident page -/
  | missing
  /-- no registers: the model refuses -/
  | refused
  deriving DecidableEq, Repr

/-- The page registers of a mode; modes 01 and 10 have none of their own and follow RESERVED_MODE_TRANSLATION (R123;
log 11). -/
def pageSetOf (p : ReservedModePolicy) (m : BitVec 2) : PageSet :=
  if m = 0 then .kernel
  else if m = 3 then .user
  else match p with
    | .refuse => .refused
    | .abortNonresident => .missing
    | .asUser => .user
    | .asKernel => .kernel

/-- Translation is enabled (R120). -/
def State.relocating (s : State) : Bool := s.cfg.hasMmu && s.sr0.getLsbD 0

/-- The physical address when translation is off: the top page of the virtual space is the I/O page (R82). -/
def unmapped (va : Word) : PAddr :=
  if va.extractLsb' 13 3 = 7 then 0o600000#18 + va.setWidth 18 else va.setWidth 18

/-- The page number VA<15:13> (R130). -/
def pageOf (va : Word) : Fin 8 := (va.extractLsb' 13 3).toFin

/-- The block number VA<12:6> (R130). -/
def blockOf (va : Word) : BitVec 7 := va.extractLsb' 6 7

/-- The physical address: the page's first block plus the block number modulo 2^12, joined to the displacement in the
block (R132). -/
def relocate (par va : Word) : PAddr :=
  (par.setWidth 12 + (blockOf va).setWidth 12) ++ va.setWidth 6

/-- PDR.ACF (R44). -/
def acfOf (pdr : Word) : BitVec 2 := pdr.extractLsb' 1 2

/-- The nonresident check: keys 0 and 4 (R136). -/
def nonresident (pdr : Word) : Bool := acfOf pdr == 0 || acfOf pdr == 2

/-- The page length check: above PLF of an upward page, below PLF of a downward page (R133, R134, R137; D4, log 14). -/
def pastLength (pdr va : Word) : Bool :=
  let plf : BitVec 7 := pdr.extractLsb' 8 7
  if pdr.getLsbD 3 then decide (blockOf va < plf) else decide (plf < blockOf va)

/-- The read-only check: key 2 and a write (R138). -/
def readOnly (pdr : Word) (k : Access) : Bool := acfOf pdr == 1 && k == .write

/-- What an abort records: the flags are OR-ed into SR0<15:13>; the mode and the page go to SR0<6:5> and SR0<3:1> unless
a flag was set before (R135, R139, R143). -/
def recordAbort (m : BitVec 2) (va : Word) (nr pl ro : Bool) (s : State) : State :=
  let flags : Word := BitVec.ofBool nr ++ BitVec.ofBool pl ++ BitVec.ofBool ro ++ (0 : BitVec 13)
  let tracked : Word :=
    if s.sr0.extractLsb' 13 3 = 0 then
      (s.sr0 &&& 0o177621#16) ||| ((0 : BitVec 9) ++ m ++ (0 : BitVec 1) ++ va.extractLsb' 13 3 ++ (0 : BitVec 1))
    else s.sr0
  { s with sr0 := tracked ||| flags }

/-- The W bit (R141). -/
def setW (pdr : Word) : Word := pdr ||| 0o100#16

/-- The W bit of the page used is set by a write that passes the checks (R141). -/
def noteWrite (user : Bool) (i : Fin 8) (k : Access) (s : State) : State :=
  match k with
  | .read => s
  | .write =>
    if user then { s with updr := s.updr.set i (setW s.updr[i]) }
    else { s with kpdr := s.kpdr.set i (setW s.kpdr[i]) }

/-- The page address register of a page, of the kernel or the user set (R131). -/
def parOf (user : Bool) (i : Fin 8) (s : State) : Word := if user then s.upar[i] else s.kpar[i]

/-- The page descriptor register of a page. -/
def pdrOf (user : Bool) (i : Fin 8) (s : State) : Word := if user then s.updr[i] else s.kpdr[i]

/-- One of the three checks fails (R136, R137, R138). -/
def violates (pdr va : Word) (k : Access) : Bool := nonresident pdr || pastLength pdr va || readOnly pdr k

/-- Translate with the kernel or the user page registers, in the name of mode `m` (R135). Where a reserved mode borrows a set, an
abort records the reserved mode in SR0<6:5> and not the mode that the set belongs to (DESIGN CHOICE: R123 with R143 leaves it
open; log 11). -/
def translateIn (user : Bool) (m : BitVec 2) (va : Word) (k : Access) (s : State) : Res PAddr :=
  let pdr := pdrOf user (pageOf va) s
  if violates pdr va k then
    .trap .mmuAbort (recordAbort m va (nonresident pdr) (pastLength pdr va) (readOnly pdr k) s)
  else .ok (relocate (parOf user (pageOf va) s) va) (noteWrite user (pageOf va) k s)

/-- `Translate(m, va, kind)` of R135. -/
def translate (m : BitVec 2) (va : Word) (k : Access) (s : State) : Res PAddr :=
  if s.relocating then
    match pageSetOf s.cfg.reservedMode m with
    | .kernel => translateIn false m va k s
    | .user => translateIn true m va k s
    | .missing => .trap .mmuAbort (recordAbort m va true false false s)
    | .refused => .refused .reservedModeTranslation
  else .ok (unmapped va) s

end Sys2Proof.Machine
end

