-- ==== Sys2Proof/Machine/Ops.lean ====
section
/-! DEFINITION. The named operations over virtual memory and the stack, and taking an exception and returning from one:
each ONE shared operation (spec/00_scope.md R14, spec/60_exceptions.md R560 to R563, spec/45_traps_misc.md R376). -/

namespace Sys2Proof.Machine

/-! ## Virtual references (R14, R135) -/

/-- `MemReadMode(m, va, 2)`. -/
def readWordMode (m : BitVec 2) (va : Word) (s : State) : Res Word :=
  (translate m va .read s).bind physRead

/-- `MemWriteMode(m, va, 2, v)`. -/
def writeWordMode (m : BitVec 2) (va v : Word) (s : State) : Res Unit :=
  (translate m va .write s).bind fun pa s => physWrite pa v s

/-- `MemRead(va, 2)`: the current mode's space. -/
def readWord (va : Word) (s : State) : Res Word := readWordMode s.mode va s

/-- `MemWrite(va, 2, v)`: the current mode's space. -/
def writeWord (va v : Word) (s : State) : Res Unit := writeWordMode s.mode va v s

/-- Fetch a word through R7, which is advanced first (spec/40_addressing_modes.md R206, R210; D35, log 15). -/
def fetchWord (s : State) : Res Word :=
  readWord s.pc { s with pc := s.pc + 2 }

/-! ## The stack (spec/10_state.md R23, spec/60_exceptions.md R552) -/

/-- `push(v)`: R6 is stepped down and marked if it falls below the kernel limit, then the word is written. -/
def push (v : Word) (s : State) : Res Unit :=
  let a := s.reg .r6 - 2
  writeWord a v ((s.setReg .r6 a).noteStack a)

/-- `pop()`: R6 is stepped up before the word is read (R14). -/
def pop (s : State) : Res Word :=
  let a := s.reg .r6
  readWord a (s.setReg .r6 (a + 2))

/-! ## Taking an exception (spec/60_exceptions.md R541, R560 to R563) -/

/-- The vector of each cause (R541). -/
def Trap.vector : Trap → Word
  | .mmuAbort => 0o250
  | .busTimeout => 0o4
  | .doubleTimeout => 0o4
  | .parityError => 0o114
  | .reservedInstruction => 0o10
  | .illegalInstruction => 0o4
  | .emt => 0o30
  | .trap => 0o34
  | .bpt => 0o14
  | .iot => 0o20
  | .floating => 0o244
  | .trace => 0o14
  | .stackOverflow => 0o4
  | .powerFail => 0o24
  | .event => 0o100
  | .device v => v

/-- The status word that a trap loads: current mode, SI, priority, T and codes from the vector, previous mode from the
old current mode, bits 11:9 zero (R560). -/
def trapPs (old vec : Word) : Word :=
  (vec &&& 0o140777#16) ||| ((old &&& 0o140000#16) >>> 2)

/-- Put the stack overflow mark back, whether the push was answered or aborted. -/
def keepMark (mark : Bool) (x : Res Unit) : Res Unit :=
  match x with
  | .ok () s => .ok () { s with stackOverflow := mark }
  | .trap t s => .trap t { s with stackOverflow := mark }
  | y => y

/-- Push in a trap sequence: the pushes of the stack overflow's own sequence do not mark the overflow again (R552), nor
do those onto the new stack at location 2 (R562; log 23). -/
def pushTrap (t : Trap) (v : Word) (s : State) : Res Unit :=
  match t with
  | .stackOverflow | .doubleTimeout => keepMark s.stackOverflow (push v s)
  | _ => push v s

/-- The pushes of a trap sequence and the load of R7 (R560). Where the first push lands on the PS, the second goes under the mode
that the PS then names (DESIGN CHOICE: log 51). -/
def pushFrame (t : Trap) (old npc : Word) (s : State) : Res Unit :=
  (pushTrap t old s).bind fun _ s =>
  (pushTrap t (s.reg .r7) s).bind fun _ s =>
  .ok () { s with pc := npc }

/-- The two vector reads, in kernel space, the new PS first (R560). -/
def readVector (v : Word) (s : State) : Res (Word × Word) :=
  (readWordMode 0 (v + 2) s).bind fun nps s =>
  (readWordMode 0 v s).bind fun npc s =>
  .ok (nps, npc) s

/-- What follows when a trap sequence is itself cut short by an abort: a new trap sequence for that abort, from the state
as it then stands (R561). -/
def nestedTrap (t : Trap) (s : State) : State := { s with run := .trapping t }

/-- What follows when the pushes of a trap sequence are cut short: as `nestedTrap`, but a time-out while a bus time-out
is being serviced sets R6 to 4 first, the new stack at location 2 (R562; D13, log 23). -/
def nestedPush (t u : Trap) (s : State) : State :=
  match t, u with
  | .busTimeout, .busTimeout => nestedTrap .doubleTimeout (s.setReg .r6 4)
  | .doubleTimeout, .busTimeout => nestedTrap .doubleTimeout (s.setReg .r6 4)
  | _, _ => nestedTrap u s

/-- `TrapSequence(v)` (R560): ONE operation for every trap and interrupt. The new PS and PC are read from the vector in
kernel space, the PS is replaced, the old PS and PC are pushed on the new mode's stack, and R7 is loaded. The processor
runs afterwards; an abort inside starts another sequence, which the machine's next step performs. -/
def enterTrap (t : Trap) (s : State) : Host.Outcome State Fault Refusal :=
  match readVector t.vector s with
  | .trap u s => .next (nestedTrap u s)
  | .fault f => .fault f
  | .refused r => .refused r
  | .ok (nps, npc) s =>
    match pushFrame t s.ps npc { s with ps := trapPs s.ps nps } with
    | .trap u s => .next (nestedPush t u s)
    | .fault f => .fault f
    | .refused r => .refused r
    | .ok () s => .next { s with run := .run }

/-- The outcome of an instruction: a trap that it raised is taken as its last act (R542). -/
def finish (x : Res Unit) : Host.Outcome State Fault Refusal :=
  match x with
  | .ok () s => .next s
  | .trap t s => enterTrap t s
  | .fault f => .fault f
  | .refused r => .refused r

/-! ## Returning from an exception (spec/45_traps_misc.md R376, spec/10_state.md R39) -/

/-- The status word after RTI or RTT: in kernel mode all of the popped word; else the codes, T and SI of it, the other
fields kept (R39, R376). -/
def returnPs (kernel : Bool) (old new : Word) : Word :=
  if kernel then psBits new else (old &&& 0o170340#16) ||| (new &&& 0o437#16)

/-- The return: pop R7 and the PS with the stack pointer in force before, then load both (R376). -/
def returnFromTrap (s : State) : Res Unit :=
  (pop s).bind fun npc s =>
  (pop s).bind fun nps s =>
  .ok () { s with pc := npc, ps := returnPs s.isKernel s.ps nps }

end Sys2Proof.Machine
end

