-- ==== Sys2Proof/Machine/Operands.lean ====
section
/-! DEFINITION. Operand evaluation: the eight addressing modes and the references to an operand
(spec/40_addressing_modes.md), and the shared shapes of the instructions that use them (spec/41_single_operand.md R230,
spec/42_double_operand.md R280). -/

namespace Sys2Proof.Machine

/-- What a specifier evaluates to: a register or a virtual address (R200). -/
inductive Loc where
  | reg (r : Reg)
  | mem (va : Word)
  deriving DecidableEq, Repr

/-- How far modes 2 and 4 step a register for an operand of `n` bytes: by the size, but R6 and R7 by 2 for a byte, and
R7 by 2 for an immediate of any size (R202, spec/48_fp_instructions.md R474; log 35). -/
def stepOf (n : Nat) (m : AMode) (r : Reg) : Word :=
  if n = 1 then (if r = .r6 ∨ r = .r7 then 2 else 1)
  else if m = .autoInc ∧ r = .r7 then 2
  else BitVec.ofNat 16 n

/-- `Loc(mode, reg, n)` (R211 to R218): evaluate a specifier for an operand of `n` bytes, with the mode's register step,
extra word and pointer read. A register is stepped before the reference it addresses (D35, log 15). -/
def locate (n : Nat) (o : Operand) (s : State) : Res Loc :=
  let r := o.reg
  match o.mode with
  | .reg => .ok (.reg r) s
  | .deferred => .ok (.mem (s.reg r)) s
  | .autoInc =>
    let a := s.reg r
    .ok (.mem a) (s.setReg r (a + stepOf n .autoInc r))
  | .autoIncDef =>
    let a := s.reg r
    (readWord a (s.setReg r (a + 2))).bind fun p s => .ok (.mem p) s
  | .autoDec =>
    let a := s.reg r - stepOf n .autoDec r
    .ok (.mem a) ((s.setReg r a).noteStackReg r a)
  | .autoDecDef =>
    let a := s.reg r - 2
    (readWord a ((s.setReg r a).noteStackReg r a)).bind fun p s => .ok (.mem p) s
  | .index =>
    (fetchWord s).bind fun x s => .ok (.mem (s.reg r + x)) s
  | .indexDef =>
    (fetchWord s).bind fun x s =>
    (readWord (s.reg r + x) s).bind fun p s => .ok (.mem p) s

/-- Where an operand is, after translation: a register or a physical address. -/
inductive Place where
  | reg (r : Reg)
  | phys (a : PAddr)
  deriving DecidableEq, Repr

/-- Translate a location once for the kind of access that is made there (R135, R200). -/
def placeOf (k : Access) (l : Loc) (s : State) : Res Place :=
  match l with
  | .reg r => .ok (.reg r) s
  | .mem va => (translate s.mode va k s).bind fun pa s => .ok (.phys pa) s

/-- `Load(loc, 2)` at a place (R200). -/
def readPlace (p : Place) (s : State) : Res Word :=
  match p with
  | .reg r => .ok (s.reg r) s
  | .phys a => physRead a s

/-- `Load(loc, 1)` at a place: the low byte of a register, or the addressed byte (R203, R204). -/
def readPlaceByte (p : Place) (s : State) : Res Byte :=
  match p with
  | .reg r => .ok ((s.reg r).setWidth 8) s
  | .phys a => physReadByte a s

/-- The output half of a DATIO at a place: no other agent comes between (spec/20_memory.md R88). -/
def rewritePlace (p : Place) (v : Word) (s : State) : Res Unit :=
  match p with
  | .reg r => .ok () (s.setReg r v)
  | .phys a => cycleWrite a v s

/-- The output half of a DATIOB at a place: the high byte of a register is kept (R203; log 35). -/
def rewritePlaceByte (p : Place) (v : Byte) (s : State) : Res Unit :=
  match p with
  | .reg r => .ok () (s.setReg r (mergeByte false (s.reg r) v))
  | .phys a => cycleWriteByte a v s

/-- `Store(loc, 2, v)` at a place (R200). -/
def writePlace (p : Place) (v : Word) (s : State) : Res Unit :=
  match p with
  | .reg r => .ok () (s.setReg r v)
  | .phys a => physWrite a v s

/-- `Store(loc, 1, v)` at a place: the high byte of a register is kept (R203; log 35). -/
def writePlaceByte (p : Place) (v : Byte) (s : State) : Res Unit :=
  match p with
  | .reg r => .ok () (s.setReg r (mergeByte false (s.reg r) v))
  | .phys a => physWriteByte a v s

/-- MOVB and MFPS into a register extend the sign (R203). -/
def writePlaceByteExt (p : Place) (v : Byte) (s : State) : Res Unit :=
  match p with
  | .reg r => .ok () (s.setReg r (v.signExtend 16))
  | .phys a => physWriteByte a v s

/-- Write the condition codes and make the instruction's last write or writes: the codes are set first, so that a write to
the PS wins over them (spec/10_state.md R38, spec/41_single_operand.md R272; D32, log 16). An instruction that aborts there
has not updated the codes, and what it wrote before the abort stays (R201, R224; D35). -/
def commit (cc : CC) (store : State → Res Unit) (s : State) : Res Unit :=
  match store (s.setCC cc) with
  | .trap _ _ => store s
  | x => x

/-! ## Reading an operand -/

/-- Read a word operand (DATI). -/
def loadWord (o : Operand) (s : State) : Res Word :=
  (locate 2 o s).bind fun l s =>
  (placeOf .read l s).bind readPlace

/-- Read a byte operand (DATI). -/
def loadByte (o : Operand) (s : State) : Res Byte :=
  (locate 1 o s).bind fun l s =>
  (placeOf .read l s).bind readPlaceByte

/-! ## Single operand shapes (spec/41_single_operand.md R230) -/

/-- An operation of one operand: its result and condition codes. -/
abbrev Alu1 (w : Nat) := BitVec w → CC → BitVec w × CC

/-- An operation of a source and a destination. -/
abbrev Alu2 (w : Nat) := BitVec w → BitVec w → CC → BitVec w × CC

/-- Read-modify-write of a word (one DATIO, translated once as a write). -/
def modifyWord (f : Alu1 16) (o : Operand) (s : State) : Res Unit :=
  (locate 2 o s).bind fun l s =>
  (placeOf .write l s).bind fun p s =>
  (readPlace p s).bind fun d s =>
  commit (f d s.cc).2 (rewritePlace p (f d s.cc).1) s

/-- Read-modify-write of a byte (one DATIOB). -/
def modifyByte (f : Alu1 8) (o : Operand) (s : State) : Res Unit :=
  (locate 1 o s).bind fun l s =>
  (placeOf .write l s).bind fun p s =>
  (readPlaceByte p s).bind fun d s =>
  commit (f d s.cc).2 (rewritePlaceByte p (f d s.cc).1) s

/-- Write a location in which the old contents are not read: translate, then write (DATO). -/
def storeAt (v : Word) (l : Loc) (s : State) : Res Unit :=
  (placeOf .write l s).bind fun p s => writePlace p v s

/-- The byte form (DATOB). -/
def storeByteAt (v : Byte) (l : Loc) (s : State) : Res Unit :=
  (placeOf .write l s).bind fun p s => writePlaceByte p v s

/-- The byte form of MOVB and MFPS. -/
def storeByteExtAt (v : Byte) (l : Loc) (s : State) : Res Unit :=
  (placeOf .write l s).bind fun p s => writePlaceByteExt p v s

/-- Write-only destination, word: CLR and SXT (R230). -/
def setWord (f : Alu1 16) (o : Operand) (s : State) : Res Unit :=
  (locate 2 o s).bind fun l s =>
  commit (f 0 s.cc).2 (storeAt (f 0 s.cc).1 l) s

/-- Write-only destination, byte: CLRB (R230). -/
def setByte (f : Alu1 8) (o : Operand) (s : State) : Res Unit :=
  (locate 1 o s).bind fun l s =>
  commit (f 0 s.cc).2 (storeByteAt (f 0 s.cc).1 l) s

/-- Read-only destination, word: TST (R230). -/
def testWord (f : Alu1 16) (o : Operand) (s : State) : Res Unit :=
  (loadWord o s).bind fun d s => .ok () (s.setCC (f d s.cc).2)

/-- Read-only destination, byte: TSTB (R230). -/
def testByte (f : Alu1 8) (o : Operand) (s : State) : Res Unit :=
  (loadByte o s).bind fun d s => .ok () (s.setCC (f d s.cc).2)

/-! ## Double operand shapes (spec/40_addressing_modes.md R201, spec/42_double_operand.md R280) -/

/-- The source operand of a double operand instruction, first part: a memory source is read at once, a register source is
left for later (R201 steps 2 and 4). -/
def sourceWord (o : Operand) (s : State) : Res (Option Word) :=
  match o.mode with
  | .reg => .ok none s
  | _ => (loadWord o s).bind fun v s => .ok (some v) s

/-- The byte form of `sourceWord`. -/
def sourceByte (o : Operand) (s : State) : Res (Option Byte) :=
  match o.mode with
  | .reg => .ok none s
  | _ => (loadByte o s).bind fun v s => .ok (some v) s

/-- The source operand, second part: a register source is read after the destination specifier has been evaluated (R201
step 4, R220, R221). -/
def lateWord (v : Option Word) (o : Operand) (s : State) : Word := v.getD (s.reg o.reg)

/-- The byte form of `lateWord`. -/
def lateByte (v : Option Byte) (o : Operand) (s : State) : Byte := v.getD ((s.reg o.reg).setWidth 8)

/-- BIC, BIS, ADD, SUB: read-modify-write of the destination. -/
def combineWord (f : Alu2 16) (src dst : Operand) (s : State) : Res Unit :=
  (sourceWord src s).bind fun v s =>
  (locate 2 dst s).bind fun l s =>
  (placeOf .write l s).bind fun p s =>
  (readPlace p s).bind fun d s =>
  let r := f (lateWord v src s) d s.cc
  commit r.2 (rewritePlace p r.1) s

/-- BICB, BISB. -/
def combineByte (f : Alu2 8) (src dst : Operand) (s : State) : Res Unit :=
  (sourceByte src s).bind fun v s =>
  (locate 1 dst s).bind fun l s =>
  (placeOf .write l s).bind fun p s =>
  (readPlaceByte p s).bind fun d s =>
  let r := f (lateByte v src s) d s.cc
  commit r.2 (rewritePlaceByte p r.1) s

/-- CMP, BIT: the destination is only read. -/
def compareWord (f : Alu2 16) (src dst : Operand) (s : State) : Res Unit :=
  (sourceWord src s).bind fun v s =>
  (locate 2 dst s).bind fun l s =>
  (placeOf .read l s).bind fun p s =>
  (readPlace p s).bind fun d s =>
  .ok () (s.setCC (f (lateWord v src s) d s.cc).2)

/-- CMPB, BITB. -/
def compareByte (f : Alu2 8) (src dst : Operand) (s : State) : Res Unit :=
  (sourceByte src s).bind fun v s =>
  (locate 1 dst s).bind fun l s =>
  (placeOf .read l s).bind fun p s =>
  (readPlaceByte p s).bind fun d s =>
  .ok () (s.setCC (f (lateByte v src s) d s.cc).2)

/-- MOV: the destination is only written. -/
def moveWord (f : Alu2 16) (src dst : Operand) (s : State) : Res Unit :=
  (sourceWord src s).bind fun v s =>
  (locate 2 dst s).bind fun l s =>
  let r := f (lateWord v src s) 0 s.cc
  commit r.2 (storeAt r.1 l) s

/-- MOVB: the destination is only written; a register is sign-extended into (R283). -/
def moveByte (f : Alu2 8) (src dst : Operand) (s : State) : Res Unit :=
  (sourceByte src s).bind fun v s =>
  (locate 1 dst s).bind fun l s =>
  let r := f (lateByte v src s) 0 s.cc
  commit r.2 (storeByteExtAt r.1 l) s

end Sys2Proof.Machine
end

