-- ==== Sys2Proof/Machine/Branch.lean ====
section
/-! DEFINITION. Branches and SOB (spec/43_branches.md). R7 is already past the instruction word. -/

namespace Sys2Proof.Machine

/-- Twice the sign-extended offset is added to R7 when the condition holds; nothing else changes (R320). -/
def branchIf (taken : Bool) (offset : BitVec 8) (s : State) : Host.Outcome State Fault Refusal :=
  if taken then .next { s with pc := s.pc + 2 * offset.signExtend 16 } else .next s

/-- BR (R321). -/
def execBr (offset : BitVec 8) (s : State) : Host.Outcome State Fault Refusal :=
  branchIf true offset s

/-- BNE (R322). -/
def execBne (offset : BitVec 8) (s : State) : Host.Outcome State Fault Refusal :=
  branchIf (!s.cc.z) offset s

/-- BEQ (R323). -/
def execBeq (offset : BitVec 8) (s : State) : Host.Outcome State Fault Refusal :=
  branchIf s.cc.z offset s

/-- BPL (R324). -/
def execBpl (offset : BitVec 8) (s : State) : Host.Outcome State Fault Refusal :=
  branchIf (!s.cc.n) offset s

/-- BMI (R325). -/
def execBmi (offset : BitVec 8) (s : State) : Host.Outcome State Fault Refusal :=
  branchIf s.cc.n offset s

/-- BVC (R326). -/
def execBvc (offset : BitVec 8) (s : State) : Host.Outcome State Fault Refusal :=
  branchIf (!s.cc.v) offset s

/-- BVS (R327). -/
def execBvs (offset : BitVec 8) (s : State) : Host.Outcome State Fault Refusal :=
  branchIf s.cc.v offset s

/-- BCC (R328). -/
def execBcc (offset : BitVec 8) (s : State) : Host.Outcome State Fault Refusal :=
  branchIf (!s.cc.c) offset s

/-- BCS (R329). -/
def execBcs (offset : BitVec 8) (s : State) : Host.Outcome State Fault Refusal :=
  branchIf s.cc.c offset s

/-- BGE (R330). -/
def execBge (offset : BitVec 8) (s : State) : Host.Outcome State Fault Refusal :=
  branchIf (!s.cc.less) offset s

/-- BLT (R331). -/
def execBlt (offset : BitVec 8) (s : State) : Host.Outcome State Fault Refusal :=
  branchIf s.cc.less offset s

/-- BGT (R332). -/
def execBgt (offset : BitVec 8) (s : State) : Host.Outcome State Fault Refusal :=
  branchIf (!(s.cc.z || s.cc.less)) offset s

/-- BLE (R333). -/
def execBle (offset : BitVec 8) (s : State) : Host.Outcome State Fault Refusal :=
  branchIf (s.cc.z || s.cc.less) offset s

/-- BHI (R334). -/
def execBhi (offset : BitVec 8) (s : State) : Host.Outcome State Fault Refusal :=
  branchIf (!(s.cc.c || s.cc.z)) offset s

/-- BLOS (R335). -/
def execBlos (offset : BitVec 8) (s : State) : Host.Outcome State Fault Refusal :=
  branchIf (s.cc.c || s.cc.z) offset s

/-- BHIS (R336). -/
def execBhis (offset : BitVec 8) (s : State) : Host.Outcome State Fault Refusal :=
  branchIf (!s.cc.c) offset s

/-- BLO (R337). -/
def execBlo (offset : BitVec 8) (s : State) : Host.Outcome State Fault Refusal :=
  branchIf s.cc.c offset s

/-- SOB: decrement, and go back `nn` words unless the register has become 0 (R340). -/
def execSob (reg : Reg) (nn : BitVec 6) (s : State) : Host.Outcome State Fault Refusal :=
  let v := s.reg reg - 1
  let t := s.setReg reg v
  if v = 0 then .next t else .next { t with pc := t.pc - 2 * nn.setWidth 16 }

end Sys2Proof.Machine
end

