-- ==== Sys2Proof/Machine/DoubleOperand.lean ====
section
/-! DEFINITION. The general and logical double operand instructions (spec/42_double_operand.md R280 to R296). -/

namespace Sys2Proof.Machine

/-- MOV (R282). -/
def execMov (src dst : Operand) (s : State) : Host.Outcome State Fault Refusal :=
  finish (moveWord aluMov src dst s)

/-- MOVB (R283). -/
def execMovb (src dst : Operand) (s : State) : Host.Outcome State Fault Refusal :=
  finish (moveByte aluMov src dst s)

/-- CMP (R284). -/
def execCmp (src dst : Operand) (s : State) : Host.Outcome State Fault Refusal :=
  finish (compareWord aluCmp src dst s)

/-- CMPB (R285). -/
def execCmpb (src dst : Operand) (s : State) : Host.Outcome State Fault Refusal :=
  finish (compareByte aluCmp src dst s)

/-- BIT (R290). -/
def execBit (src dst : Operand) (s : State) : Host.Outcome State Fault Refusal :=
  finish (compareWord aluBit src dst s)

/-- BITB (R291). -/
def execBitb (src dst : Operand) (s : State) : Host.Outcome State Fault Refusal :=
  finish (compareByte aluBit src dst s)

/-- BIC (R292). -/
def execBic (src dst : Operand) (s : State) : Host.Outcome State Fault Refusal :=
  finish (combineWord aluBic src dst s)

/-- BICB (R293). -/
def execBicb (src dst : Operand) (s : State) : Host.Outcome State Fault Refusal :=
  finish (combineByte aluBic src dst s)

/-- BIS (R294). -/
def execBis (src dst : Operand) (s : State) : Host.Outcome State Fault Refusal :=
  finish (combineWord aluBis src dst s)

/-- BISB (R295). -/
def execBisb (src dst : Operand) (s : State) : Host.Outcome State Fault Refusal :=
  finish (combineByte aluBis src dst s)

/-- ADD (R286). -/
def execAdd (src dst : Operand) (s : State) : Host.Outcome State Fault Refusal :=
  finish (combineWord aluAdd src dst s)

/-- SUB (R287). -/
def execSub (src dst : Operand) (s : State) : Host.Outcome State Fault Refusal :=
  finish (combineWord aluSub src dst s)

/-- XOR: the source is a register, read after the destination specifier is evaluated (R296). -/
def execXor (reg : Reg) (dst : Operand) (s : State) : Host.Outcome State Fault Refusal :=
  finish (combineWord aluXor ⟨.reg, reg⟩ dst s)

end Sys2Proof.Machine
end

