-- ==== Sys2Proof/Machine/Eis.lean ====
section
/-! DEFINITION. The extended integer instructions (spec/42_double_operand.md R299 to R303). -/

namespace Sys2Proof.Machine

/-- The 32-bit operand of a register pair: the register is the high half, the register OR-ed with 1 the low half
(R299). -/
def pairOf (r : Reg) (s : State) : BitVec 32 := s.reg r ++ s.reg (orOne r)

/-- Write a register pair, the high half first (R299). -/
def setPair (r : Reg) (v : BitVec 32) (s : State) : State :=
  (s.setReg r (v.extractLsb' 16 16)).setReg (orOne r) (v.extractLsb' 0 16)

/-- Free codes go to PS<3:0> (log 17). -/
def setFreeCodes (s : State) : Res Unit :=
  (takeCodes s).bind fun cc s => .ok () (s.setCC cc)

/-- A free word goes to a register, free codes to PS<3:0> (R301, R303; D22, D23; log 18, 19). -/
def setFreeResult (r : Reg) (s : State) : Res Unit :=
  (takeWord s).bind fun v s => setFreeCodes (s.setReg r v)

/-- The product goes to the pair, or its low half to an odd register (R300). -/
def mulInto (r : Reg) (v : Word) (s : State) : Res Unit :=
  let p := eisMul (s.reg r) v
  .ok () ((if isOddReg r then s.setReg r (p.1.extractLsb' 0 16) else setPair r p.1 s).setCC p.2)

/-- MUL (R300). -/
def execMul (reg : Reg) (src : Operand) (s : State) : Host.Outcome State Fault Refusal :=
  finish ((loadWord src s).bind fun v s => mulInto reg v s)

/-- Quotient to the register, remainder to the next; with an odd register the register and the codes are free (R301; D23,
log 18). -/
def divInto (r : Reg) (v : Word) (s : State) : Res Unit :=
  if isOddReg r then setFreeResult r s
  else match eisDiv (pairOf r s) v with
    | (none, cc) => .ok () (s.setCC cc)
    | (some (q, m), cc) => .ok () (((s.setReg r q).setReg (orOne r) m).setCC cc)

/-- DIV (R301). -/
def execDiv (reg : Reg) (src : Operand) (s : State) : Host.Outcome State Fault Refusal :=
  finish ((loadWord src s).bind fun v s => divInto reg v s)

/-- The register is shifted by the signed count (R302). -/
def ashInto (r : Reg) (v : Word) (s : State) : Res Unit :=
  let x := eisShift (s.reg r) (shiftCount v)
  .ok () ((s.setReg r x.1).setCC x.2)

/-- ASH (R302). -/
def execAsh (reg : Reg) (src : Operand) (s : State) : Host.Outcome State Fault Refusal :=
  finish ((loadWord src s).bind fun v s => ashInto reg v s)

/-- ASHC with an odd register: a right shift rotates the register and leaves the codes free; a left shift leaves register
and codes free; a count of 0 moves nothing (R303; D22, log 19). -/
def ashcOdd (r : Reg) (c : Int) (s : State) : Res Unit :=
  if 0 < c then setFreeResult r s
  else if c < 0 then setFreeCodes (s.setReg r ((s.reg r).rotateRight ((-c).toNat % 16)))
  else .ok () (s.setCC (ccNZ (s.reg r) false false))

/-- The register pair is shifted by the signed count (R303). -/
def ashcInto (r : Reg) (v : Word) (s : State) : Res Unit :=
  if isOddReg r then ashcOdd r (shiftCount v) s
  else
    let x := eisShift (pairOf r s) (shiftCount v)
    .ok () ((setPair r x.1 s).setCC x.2)

/-- ASHC (R303). -/
def execAshc (reg : Reg) (src : Operand) (s : State) : Host.Outcome State Fault Refusal :=
  finish ((loadWord src s).bind fun v s => ashcInto reg v s)

end Sys2Proof.Machine
end

