-- ==== Sys2Proof/Machine/Fp.lean ====
section
/-! DEFINITION. The floating point option: data formats, exact arithmetic with one chop or round at its end, operands,
and the exception mechanism (spec/47_fp_state_formats.md, spec/48_fp_instructions.md R470 to R478). -/

namespace Sys2Proof.Machine

/-! ## Data (R431 to R439) -/

/-- A datum as its 64-bit D pattern; an F datum is the high half with zeros below (R433). -/
abbrev Datum := BitVec 64

/-- X.s (R478). -/
def fpSign (x : Datum) : Bool := x.getLsbD 63

/-- X.e, the biased exponent (R478). -/
def fpExp (x : Datum) : BitVec 8 := x.extractLsb' 55 8

/-- X.t, the stored fraction of the D pattern (R478). -/
def fpFrac (x : Datum) : BitVec 55 := x.extractLsb' 0 55

/-- A datum from sign, biased exponent and stored fraction (R433). -/
def fpPack (neg : Bool) (e : BitVec 8) (t : BitVec 55) : Datum := BitVec.ofBool neg ++ e ++ t

/-- The undefined variable, -0: sign 1 and biased exponent 0 (R437). -/
def isMinusZero (x : Datum) : Bool := fpSign x && fpExp x == 0

/-- An exact dyadic number: `m * 2 ^ p`, negative when `neg` (R434). -/
structure Exact where
  neg : Bool
  m   : Nat
  p   : Int
  deriving DecidableEq, Repr

/-- `Val(X)`: a datum with biased exponent 0 counts as 0 (R434, R445, R478). The value is the 56-bit significand times
2 to the power of the biased exponent less 128 and 56. -/
def exactOf (x : Datum) : Exact :=
  if fpExp x = 0 then ⟨false, 0, 0⟩
  else ⟨fpSign x, 2 ^ 55 + (fpFrac x).toNat, (fpExp x).toNat - 184⟩

/-- An integer as an exact number. -/
def exactInt (n : Int) : Exact := ⟨decide (n < 0), n.natAbs, 0⟩

/-- The number in units of `2 ^ q`, for a `q` that is not above its own power. -/
def Exact.scaled (x : Exact) (q : Int) : Int :=
  let k : Int := (x.m * 2 ^ (x.p - q).toNat : Nat)
  if x.neg then -k else k

/-- The exact sum. -/
def Exact.add (x y : Exact) : Exact :=
  let q := min x.p y.p
  let v := x.scaled q + y.scaled q
  ⟨decide (v < 0), v.natAbs, q⟩

/-- The number with its sign changed. -/
def Exact.negate (x : Exact) : Exact := ⟨!x.neg, x.m, x.p⟩

/-- The exact product. -/
def Exact.mul (x y : Exact) : Exact := ⟨x.neg ^^ y.neg, x.m * y.m, x.p + y.p⟩

/-- The quotient developed to more bits than any result keeps: its leading bits, which chopping and rounding look at, are
those of the exact quotient (R444). -/
def Exact.quot (x y : Exact) : Exact := ⟨x.neg ^^ y.neg, x.m * 2 ^ 128 / y.m, x.p - y.p - 128⟩

/-- The integer part, toward zero (R443, R495). -/
def Exact.trunc (x : Exact) : Int :=
  let k : Int := if 0 ≤ x.p then (x.m * 2 ^ x.p.toNat : Nat) else (x.m / 2 ^ (-x.p).toNat : Nat)
  if x.neg then -k else k

/-- How many bits a significand has. -/
def bitLen (m : Nat) : Nat := if m = 0 then 0 else Nat.log2 m + 1

/-- The true exponent K of `2 ^ K * f` with 1/2 <= f < 1 (R431, R443). -/
def Exact.exponent (x : Exact) : Int := x.p + bitLen x.m

/-- The fraction width L: 56 in double, 24 in single precision (R441). -/
def fpWidth (dbl : Bool) : Nat := if dbl then 56 else 24

/-- A nonzero number normalised to `L` bits, chopped, or rounded by the first bit lost: the significand, which has
exactly `L` bits, and the biased exponent without a width limit (R443, R446). -/
def roundTo (L : Nat) (chop : Bool) (x : Exact) : Nat × Int :=
  let n := bitLen x.m
  let top := if L ≤ n then x.m / 2 ^ (n - L) else x.m * 2 ^ (L - n)
  let bit := if L < n then x.m / 2 ^ (n - L - 1) % 2 else 0
  let up := if chop then top else top + bit
  if up = 2 ^ L then (2 ^ (L - 1), x.exponent + 129) else (up, x.exponent + 128)

/-- The stored fraction of an `L`-bit significand, left-justified in the D pattern (R433). -/
def fracOf (L sig : Nat) : BitVec 55 := BitVec.ofNat 55 (sig * 2 ^ (56 - L))

/-- The low eight bits of a biased exponent (R446). -/
def expBits (e : Int) : BitVec 8 := BitVec.ofInt 8 e

/-- A nonzero number of representable exponent, as a datum. -/
def datumOf (L : Nat) (chop : Bool) (x : Exact) : Datum :=
  if x.m = 0 then 0
  else
    let r := roundTo L chop x
    fpPack x.neg (expBits r.2) (fracOf L r.1)

/-- Chop a significand to its 64 leading bits, as MODD does with its product (R491; D41). -/
def chop64 (x : Exact) : Exact :=
  let n := bitLen x.m
  if n ≤ 64 then x else ⟨x.neg, x.m / 2 ^ (n - 64) * 2 ^ (n - 64), x.p⟩

/-! ## The status register (spec/10_state.md R54) -/

/-- FID, FIUV, FIU, FIV, FIC, FD, FL, FT. -/
def State.fid (s : State) : Bool := s.fps.getLsbD 14
def State.fiuv (s : State) : Bool := s.fps.getLsbD 11
def State.fiu (s : State) : Bool := s.fps.getLsbD 10
def State.fiv (s : State) : Bool := s.fps.getLsbD 9
def State.fic (s : State) : Bool := s.fps.getLsbD 8
def State.fd (s : State) : Bool := s.fps.getLsbD 7
def State.fl (s : State) : Bool := s.fps.getLsbD 6
def State.ft (s : State) : Bool := s.fps.getLsbD 5

/-- FPS<3:0>: FN, FZ, FV, FC (R448). -/
def State.setFCC (s : State) (x : CC) : State := { s with fps := s.fps.extractLsb' 4 12 ++ x.bits }

/-- FN and FZ of a datum, by its stored pattern (R448; D39). -/
def fccOf (x : Datum) (v c : Bool) : CC := ⟨fpSign x, fpExp x == 0, v, c⟩

/-! ## Exceptions (R450 to R456) -/

/-- What `raise FPException(code)` records: FER, FEC and FEA (R455). -/
def recordFp (code : BitVec 4) (start : Word) (s : State) : State :=
  { s with fps := s.fps ||| 0o100000#16, fec := code, fea := start }

/-- `raise FPException(code)` as the instruction's last act: record it, and trap through 244 unless FID is set (R455;
D40). -/
def fpException (code : BitVec 4) (start : Word) (s : State) : Res Unit :=
  if s.fid then .ok () (recordFp code start s) else .trap .floating (recordFp code start s)

/-- Raise an exception as the last act, when there is one. -/
def fpEnd (code : Option (BitVec 4)) (start : Word) (s : State) : Res Unit :=
  match code with
  | none => .ok () s
  | some c => fpException c start s

/-! ## Accumulators (R439) -/

/-- The accumulator that a mode-0 specifier names; 6 and 7 name none (R181, R472). -/
def accOf : Reg → Option (Fin 6)
  | .r0 => some 0 | .r1 => some 1 | .r2 => some 2 | .r3 => some 3 | .r4 => some 4 | .r5 => some 5
  | .r6 => none | .r7 => none

/-- The accumulator that the AC field names (R470). -/
def acIndex : Ac → Fin 6
  | .ac0 => 0 | .ac1 => 1 | .ac2 => 2 | .ac3 => 3

/-- Read an accumulator in a precision (R439). -/
def readAcc (dbl : Bool) (i : Fin 6) (s : State) : Datum :=
  if dbl then s.ac[i].hi ++ s.ac[i].lo else s.ac[i].hi ++ (0 : BitVec 32)

/-- Write an accumulator in a precision; a single-precision write leaves a free low half (R439; D38, log 21). -/
def writeAcc (dbl : Bool) (i : Fin 6) (x : Datum) (s : State) : Res Unit :=
  if dbl then .ok () { s with ac := s.ac.set i ⟨x.extractLsb' 32 32, x.extractLsb' 0 32⟩ }
  else (takeLow s).bind fun lo s => .ok () { s with ac := s.ac.set i ⟨x.extractLsb' 32 32, lo⟩ }

/-! ## Operands (R471 to R477) -/

/-- A floating operand: an accumulator, or memory at an address; `imm` marks the immediate mode, which has one word
(R474). -/
inductive FpPlace where
  | acc (i : Fin 6)
  | mem (va : Word) (imm : Bool)
  deriving DecidableEq, Repr

/-- Immediate mode: mode 2 with register 7 (R474). -/
def isImmediate (o : Operand) : Bool := o.mode == .autoInc && o.reg == .r7

/-- The size in bytes of a datum in memory (R474). -/
def fpBytes (dbl : Bool) : Nat := if dbl then 8 else 4

/-- The words of a datum in memory: one in immediate mode (R471, R474). -/
def fpWords (dbl imm : Bool) : Nat := if imm then 1 else if dbl then 4 else 2

/-- Evaluate an FSRC or FDST specifier of a given precision (R472); no accumulator 6 or 7 comes here (`fpOperand`). -/
def fpLocate (dbl : Bool) (o : Operand) (s : State) : Res Word :=
  (locate (fpBytes dbl) o s).bind fun l s =>
  match l with
  | .reg r => .ok (s.reg r) s
  | .mem va => .ok va s

/-- Read `n` words at ascending addresses (R458, R473). -/
def readWords : Nat → Word → State → Res (List Word)
  | 0, _, s => .ok [] s
  | n + 1, va, s =>
    (readWord va s).bind fun w s =>
    (readWords n (va + 2) s).bind fun ws s =>
    .ok (w :: ws) s

/-- Write words at ascending addresses (R458, R473). Each word is translated in the mode that the PS then has: where an earlier
word has landed on the PS and changed PS<15:14>, the later ones go under the new mode (DESIGN CHOICE: R122 of
spec/21_memory_management.md says both `PS.cm` at the time of the reference and that such an instruction completes under the
old mode; R205 of spec/40_addressing_modes.md; log 51). -/
def writeWords : List Word → Word → State → Res Unit
  | [], _, s => .ok () s
  | w :: ws, va, s => (writeWord va w s).bind fun _ s => writeWords ws (va + 2) s

/-- A datum from its words, the most significant first, missing words 0 (R433, R474). -/
def datumOfWords (ws : List Word) : Datum := ws.getD 0 0 ++ ws.getD 1 0 ++ ws.getD 2 0 ++ ws.getD 3 0

/-- The words of a datum, the most significant first (R433). -/
def wordsOfDatum (x : Datum) : List Word :=
  [x.extractLsb' 48 16, x.extractLsb' 32 16, x.extractLsb' 16 16, x.extractLsb' 0 16]

/-- Read a floating operand (R473, R474). -/
def readFp (dbl : Bool) (p : FpPlace) (s : State) : Res Datum :=
  match p with
  | .acc i => .ok (readAcc dbl i s) s
  | .mem va imm => (readWords (fpWords dbl imm) va s).bind fun ws s => .ok (datumOfWords ws) s

/-- Write a floating operand (R473, R474). -/
def writeFp (dbl : Bool) (p : FpPlace) (x : Datum) (s : State) : Res Unit :=
  match p with
  | .acc i => writeAcc dbl i x s
  | .mem va imm => writeWords ((wordsOfDatum x).take (fpWords dbl imm)) va s

/-- The -0 test on an operand that came from memory, with FIUV set (R452). -/
def trapsMinusZero (p : FpPlace) (x : Datum) (s : State) : Bool :=
  match p with
  | .acc _ => false
  | .mem _ _ => isMinusZero x && s.fiuv

/-- A floating instruction without the option is a reserved instruction (spec/30_encoding.md R190; D9, log 22). -/
def withFpp (body : State → Res Unit) (s : State) : Res Unit :=
  if s.cfg.fpp then body s else .trap .reservedInstruction s

/-- Evaluate a floating specifier and go on; accumulator 6 or 7 raises the opcode error and nothing else happens (R470
steps 2 and 4). -/
def fpOperand (dbl : Bool) (o : Operand) (start : Word) (body : FpPlace → State → Res Unit) (s : State) : Res Unit :=
  match o.mode with
  | .reg =>
    match accOf o.reg with
    | none => fpException 2 start s
    | some i => body (.acc i) s
  | _ => (fpLocate dbl o s).bind fun va s => body (.mem va (isImmediate o)) s

/-- The address of the instruction being executed: R7 is past its first word (R455). -/
def startOf (s : State) : Word := s.pc - 2

/-! ## The result of an arithmetic instruction (R446, R478) -/

/-- The value that an arithmetic instruction stores, its FV, and the exception it raises (R446). -/
def resultOf (L : Nat) (chop fiv fiu : Bool) (x : Exact) : Datum × Bool × Option (BitVec 4) :=
  if x.m = 0 then (0, false, none)
  else
    let r := roundTo L chop x
    let d := fpPack x.neg (expBits r.2) (fracOf L r.1)
    if 255 < r.2 then (if fiv then (d, true, some 8) else (0, true, none))
    else if r.2 < 1 then (if fiu then (d, false, some 10) else (0, false, none))
    else (d, false, none)

/-- `Result(ac, r)` (R446, R478). -/
def fpResult (i : Fin 6) (x : Exact) (start : Word) (s : State) : Res Unit :=
  let r := resultOf (fpWidth s.fd) s.ft s.fiv s.fiu x
  (writeAcc s.fd i r.1 s).bind fun _ s =>
  fpEnd r.2.2 start (s.setFCC (fccOf r.1 r.2.1 false))

end Sys2Proof.Machine
end

