-- ==== Sys2Proof/Machine/FpInstr.lean ====
section
/-! DEFINITION. The floating point instructions (spec/48_fp_instructions.md R480 to R505). Each operation is written once
and samples FD and FL (R440, R470); the members of one code (R184) call it, each from a meaning of its own. -/

namespace Sys2Proof.Machine

/-! ## Load, store, clear, test, sign -/

/-- Load: the codes describe the operand; a trapping -0 is not loaded (R480). -/
def fpLoad (a : Ac) (o : Operand) (s : State) : Res Unit :=
  let start := startOf s
  withFpp (fpOperand s.fd o start fun p s =>
    (readFp s.fd p s).bind fun x s =>
    let t := s.setFCC (fccOf x false false)
    if trapsMinusZero p x s then fpException 12 start t else writeAcc s.fd (acIndex a) x t) s

/-- Store, a bit copy (R481). -/
def fpStore (a : Ac) (o : Operand) (s : State) : Res Unit :=
  withFpp (fpOperand s.fd o (startOf s) fun p s =>
    writeFp s.fd p (readAcc s.fd (acIndex a) s) s) s

/-- Clear (R482). -/
def fpClear (o : Operand) (s : State) : Res Unit :=
  withFpp (fpOperand s.fd o (startOf s) fun p s =>
    (writeFp s.fd p 0 s).bind fun _ s => .ok () (s.setFCC ⟨false, true, false, false⟩)) s

/-- The exception of NEG, ABS and TST, after execution (R452). -/
def undefinedAfter (p : FpPlace) (x : Datum) (s : State) : Option (BitVec 4) :=
  if trapsMinusZero p x s then some 12 else none

/-- Test (R483). -/
def fpTest (o : Operand) (s : State) : Res Unit :=
  let start := startOf s
  withFpp (fpOperand s.fd o start fun p s =>
    (readFp s.fd p s).bind fun x s =>
    fpEnd (undefinedAfter p x s) start (s.setFCC (fccOf x false false))) s

/-- Rewrite an operand in place; the codes describe the new contents (R484, R485). -/
def fpRewrite (f : Datum → Datum) (o : Operand) (s : State) : Res Unit :=
  let start := startOf s
  withFpp (fpOperand s.fd o start fun p s =>
    (readFp s.fd p s).bind fun x s =>
    (writeFp s.fd p (f x) s).bind fun _ s =>
    fpEnd (undefinedAfter p x s) start (s.setFCC (fccOf (f x) false false))) s

/-- The negated datum; a biased exponent 0 becomes exact 0 (R484). -/
def datumNeg (x : Datum) : Datum := if fpExp x = 0 then 0 else fpPack (!fpSign x) (fpExp x) (fpFrac x)

/-- The absolute datum; a biased exponent 0 becomes exact 0 (R485). -/
def datumAbs (x : Datum) : Datum := if fpExp x = 0 then 0 else fpPack false (fpExp x) (fpFrac x)

/-! ## Arithmetic -/

/-- Read the source of an arithmetic instruction; a trapping -0 ends it before execution (R452, R486). -/
def fpSource (o : Operand) (body : Datum → State → Res Unit) (s : State) : Res Unit :=
  let start := startOf s
  withFpp (fpOperand s.fd o start fun p s =>
    (readFp s.fd p s).bind fun x s =>
    if trapsMinusZero p x s then fpException 12 start s else body x s) s

/-- ADD, SUB and MUL: an exact operation on accumulator and source, then the result rule (R486, R487, R488). -/
def fpArith (f : Exact → Exact → Exact) (a : Ac) (o : Operand) (s : State) : Res Unit :=
  fpSource o (fun x t => fpResult (acIndex a) (f (exactOf (readAcc t.fd (acIndex a) t)) (exactOf x)) (startOf s) t) s

/-- DIV: a zero divisor aborts with code 4 (R489). -/
def fpDivide (a : Ac) (o : Operand) (s : State) : Res Unit :=
  fpSource o (fun x t =>
    if fpExp x = 0 then fpException 4 (startOf s) t
    else fpResult (acIndex a) ((exactOf (readAcc t.fd (acIndex a) t)).quot (exactOf x)) (startOf s) t) s

/-- The codes of CMP: source minus accumulator (R490). -/
def compareCodes (x y : Exact) : CC :=
  let q := min x.p y.p
  ⟨decide (x.scaled q < y.scaled q), decide (x.scaled q = y.scaled q), false, false⟩

/-- CMP: two zeros leave exact 0 in the accumulator (R490). -/
def fpCompare (a : Ac) (o : Operand) (s : State) : Res Unit :=
  fpSource o (fun x s =>
    let y := readAcc s.fd (acIndex a) s
    let t := s.setFCC (compareCodes (exactOf x) (exactOf y))
    if fpExp x = 0 ∧ fpExp y = 0 then writeAcc s.fd (acIndex a) 0 t else .ok () t) s

/-- The number of MOD's integer accumulator: AC or 1 (R491). -/
def acOrOne : Ac → Fin 6
  | .ac0 => 1 | .ac1 => 1 | .ac2 => 3 | .ac3 => 3

/-- What MOD does with its product: the integer part's datum, the fraction's datum, FV, and the exception (R491, cases 1
to 5). -/
def modSplit (L : Nat) (chop fiv fiu : Bool) (x : Exact) : Datum × Datum × Bool × Option (BitVec 4) :=
  let r := roundTo L true x
  if x.m = 0 then (0, 0, false, none)
  else if 127 < x.exponent then
    (if fiv then (fpPack x.neg (expBits r.2) (fracOf L r.1), 0, true, some 8) else (0, 0, true, none))
  else if (L : Int) < x.exponent then (fpPack x.neg (expBits r.2) (fracOf L r.1), 0, false, none)
  else if 0 < x.exponent then
    let n : Nat := x.trunc.natAbs
    let g : Exact := ⟨x.neg, if 0 ≤ x.p then 0 else x.m - n * 2 ^ (-x.p).toNat, x.p⟩
    (datumOf L true ⟨x.neg, n, 0⟩, datumOf L chop g, false, none)
  else
    let g := resultOf L chop false fiu x
    (0, g.1, false, g.2.2)

/-- MOD: the integer part to AC or 1 when that is another accumulator, the fraction to AC, whose pattern the codes
describe (R491). -/
def fpModulo (a : Ac) (o : Operand) (s : State) : Res Unit :=
  fpSource o (fun x t =>
    let prod := (exactOf (readAcc t.fd (acIndex a) t)).mul (exactOf x)
    let r := modSplit (fpWidth t.fd) t.ft t.fiv t.fiu (if t.fd then chop64 prod else prod)
    (if acOrOne a = acIndex a then .ok () t else writeAcc t.fd (acOrOne a) r.1 t).bind fun _ t =>
    (writeAcc t.fd (acIndex a) r.2.1 t).bind fun _ t =>
    fpEnd r.2.2.2 (startOf s) (t.setFCC (fccOf r.2.1 r.2.2.1 false))) s

/-! ## Conversions -/

/-- A D datum in single precision: its datum, whether rounding overflowed, and the exception (R492, R493). Overflow gives
a signed zero when FIV is set, else exact 0. -/
def toSingle (chop fiv : Bool) (x : Datum) : Datum × Bool × Option (BitVec 4) :=
  let r := roundTo 24 chop (exactOf x)
  if 255 < r.2 then (if fiv then (fpPack (fpSign x) 0 0, true, some 8) else (0, true, none))
  else (fpPack (fpSign x) (expBits r.2) (fracOf 24 r.1), false, none)

/-- LDCDF and LDCFD: the operand has the other precision (R492). -/
def fpLoadConvert (a : Ac) (o : Operand) (s : State) : Res Unit :=
  let start := startOf s
  withFpp (fpOperand (!s.fd) o start fun p s =>
    (readFp (!s.fd) p s).bind fun x s =>
    if trapsMinusZero p x s then fpException 12 start (s.setFCC ⟨true, true, false, false⟩)
    else if fpExp x = 0 then writeAcc s.fd (acIndex a) 0 (s.setFCC ⟨fpSign x, true, false, false⟩)
    else if s.fd then writeAcc true (acIndex a) x (s.setFCC (fccOf x false false))
    else
      let r := toSingle s.ft s.fiv x
      (writeAcc false (acIndex a) r.1 s).bind fun _ s =>
      fpEnd r.2.2 start (s.setFCC (fccOf r.1 r.2.1 false))) s

/-- STCFD and STCDF: the destination has the other precision; FZ and FN describe the accumulator (R493). -/
def fpStoreConvert (a : Ac) (o : Operand) (s : State) : Res Unit :=
  let start := startOf s
  withFpp (fpOperand (!s.fd) o start fun p s =>
    let x := readAcc s.fd (acIndex a) s
    let r : Datum × Bool × Option (BitVec 4) :=
      if fpExp x = 0 then (0, false, none) else if s.fd then toSingle s.ft s.fiv x else (x, false, none)
    (writeFp (!s.fd) p r.1 s).bind fun _ s =>
    fpEnd r.2.2 start (s.setFCC (fccOf x r.2.1 false))) s

/-- The integer operand of LDCIF and its kin: a word, or in long mode two words in memory, high word first, and a single
cell left-justified (R475, R494). -/
def readInteger (o : Operand) (s : State) : Res Int :=
  if s.fl then
    (locate 4 o s).bind fun l s =>
    match l with
    | .reg r => .ok (s.reg r ++ (0 : Word)).toInt s
    | .mem va => (readWords (if isImmediate o then 1 else 2) va s).bind fun ws s =>
        .ok (ws.getD 0 0 ++ ws.getD 1 0).toInt s
  else (loadWord o s).bind fun w s => .ok w.toInt s

/-- LDCIF, LDCID, LDCLF, LDCLD (R494). -/
def fpLoadInteger (a : Ac) (o : Operand) (s : State) : Res Unit :=
  withFpp (fun s =>
    (readInteger o s).bind fun n s =>
    let x := datumOf (fpWidth s.fd) s.ft (exactInt n)
    (writeAcc s.fd (acIndex a) x s).bind fun _ s => .ok () (s.setFCC (fccOf x false false))) s

/-- Write words at a location: a register takes the first one only (R475, R476). -/
def storeWords (ws : List Word) (l : Loc) (s : State) : Res Unit :=
  match l with
  | .reg r => .ok () (s.setReg r (ws.getD 0 0))
  | .mem va => writeWords ws va s

/-- The words that an integer result stores: one in short mode; in long mode two, but only the high one in immediate mode
(R475, R495). -/
def integerWords (long imm : Bool) (v : BitVec 32) : List Word :=
  if long then (if imm then [v.extractLsb' 16 16] else [v.extractLsb' 16 16, v.extractLsb' 0 16])
  else [v.extractLsb' 0 16]

/-- STCFI and its kin: the chopped integer, or 0 with FC set where it does not fit; the PS and the floating codes are
both written (R495; D43). -/
def fpStoreInteger (a : Ac) (o : Operand) (s : State) : Res Unit :=
  let start := startOf s
  withFpp (fun s =>
    (locate (if s.fl then 4 else 2) o s).bind fun l s =>
    let n := (exactOf (readAcc s.fd (acIndex a) s)).trunc
    let jl : Int := if s.fl then 2 ^ 31 - 1 else 2 ^ 15 - 1
    let ok := decide (-jl - 1 < n) && decide (n < jl + 1)
    let res : Int := if ok then n else 0
    let cc : CC := ⟨decide (res < 0), decide (res = 0), false, !ok⟩
    (commit cc (storeWords (integerWords s.fl (isImmediate o) (BitVec.ofInt 32 res)) l) s).bind fun _ s =>
    fpEnd (if !ok && s.fic then some 6 else none) start (s.setFCC cc)) s

/-- What LDEXP does to an accumulator's high half: insert an exponent (R496). -/
def insertExp (e : BitVec 8) (x : Acc) : Acc :=
  ⟨x.hi.extractLsb' 31 1 ++ e ++ x.hi.extractLsb' 0 23, x.lo⟩

/-- The codes of LDEXP, from the accumulator as it then stands (R496). -/
def expCodes (i : Fin 6) (v : Bool) (s : State) : State := s.setFCC (fccOf (readAcc s.fd i s) v false)

/-- LDEXP (R496). -/
def fpLoadExp (a : Ac) (o : Operand) (s : State) : Res Unit :=
  let start := startOf s
  let i := acIndex a
  withFpp (fun s =>
    (loadWord o s).bind fun w s =>
    let n := w.toInt
    let inserted : State := { s with ac := s.ac.set i (insertExp (expBits (n + 128)) s.ac[i]) }
    if -127 ≤ n ∧ n ≤ 127 then .ok () (expCodes i false inserted)
    else if 127 < n then
      (if s.fiv then fpException 8 start (expCodes i true inserted)
       else (writeAcc s.fd i 0 s).bind fun _ s => .ok () (expCodes i true s))
    else
      (if s.fiu then fpException 10 start (expCodes i false inserted)
       else (writeAcc s.fd i 0 s).bind fun _ s => .ok () (expCodes i false s))) s

/-- STEXP (R497). -/
def fpStoreExp (a : Ac) (o : Operand) (s : State) : Res Unit :=
  withFpp (fun s =>
    (locate 2 o s).bind fun l s =>
    let v : Word := (fpExp (readAcc s.fd (acIndex a) s)).setWidth 16 - 128
    let cc := ccNZ v false false
    (commit cc (storeAt v l) s).bind fun _ s => .ok () (s.setFCC cc)) s

/-! ## Modes and status -/

/-- Set or clear a bit of the FPS (R498 to R501). -/
def fpMode (bit : Word) (on : Bool) (s : State) : Res Unit :=
  withFpp (fun s => .ok () { s with fps := if on then s.fps ||| bit else s.fps &&& ~~~bit }) s

/-- LDFPS: all sixteen bits (R502). -/
def fpLoadStatus (o : Operand) (s : State) : Res Unit :=
  withFpp (fun s => (loadWord o s).bind fun w s => .ok () { s with fps := w }) s

/-- STFPS: bits 13, 12 and 4 are stored as 0 (R503). -/
def fpStoreStatus (o : Operand) (s : State) : Res Unit :=
  withFpp (fun s => (locate 2 o s).bind fun l s => storeAt (s.fps &&& 0o147757#16) l s) s

/-- STST: FEC and FEA, but only FEC to a register or in immediate mode (R476, R504). -/
def fpStoreException (o : Operand) (s : State) : Res Unit :=
  withFpp (fun s =>
    (locate 4 o s).bind fun l s =>
    storeWords (if isImmediate o then [s.fec.setWidth 16] else [s.fec.setWidth 16, s.fea]) l s) s

/-- CFCC (R505). -/
def fpCopyCodes (s : State) : Res Unit :=
  withFpp (fun s => .ok () (s.setCC (ccOf (s.fps.extractLsb' 0 4)))) s

/-- An unassigned floating code raises the opcode error (spec/30_encoding.md R185; D34). -/
def fpUnassigned (s : State) : Res Unit :=
  withFpp (fun s => fpException 2 (startOf s) s) s

/-! ## The instructions -/

/-- CFCC (R505). -/
def execCfcc (s : State) : Host.Outcome State Fault Refusal := finish (fpCopyCodes s)

/-- SETF (R498). -/
def execSetf (s : State) : Host.Outcome State Fault Refusal := finish (fpMode 0o200#16 false s)

/-- SETI (R500). -/
def execSeti (s : State) : Host.Outcome State Fault Refusal := finish (fpMode 0o100#16 false s)

/-- SETD (R499). -/
def execSetd (s : State) : Host.Outcome State Fault Refusal := finish (fpMode 0o200#16 true s)

/-- SETL (R501). -/
def execSetl (s : State) : Host.Outcome State Fault Refusal := finish (fpMode 0o100#16 true s)

/-- LDFPS (R502). -/
def execLdfps (opd : Operand) (s : State) : Host.Outcome State Fault Refusal := finish (fpLoadStatus opd s)

/-- STFPS (R503). -/
def execStfps (opd : Operand) (s : State) : Host.Outcome State Fault Refusal := finish (fpStoreStatus opd s)

/-- STST (R504). -/
def execStst (opd : Operand) (s : State) : Host.Outcome State Fault Refusal := finish (fpStoreException opd s)

/-- CLRF (R482). -/
def execClrf (opd : Operand) (s : State) : Host.Outcome State Fault Refusal := finish (fpClear opd s)

/-- CLRD (R482). -/
def execClrd (opd : Operand) (s : State) : Host.Outcome State Fault Refusal := finish (fpClear opd s)

/-- TSTF (R483). -/
def execTstf (opd : Operand) (s : State) : Host.Outcome State Fault Refusal := finish (fpTest opd s)

/-- TSTD (R483). -/
def execTstd (opd : Operand) (s : State) : Host.Outcome State Fault Refusal := finish (fpTest opd s)

/-- ABSF (R485). -/
def execAbsf (opd : Operand) (s : State) : Host.Outcome State Fault Refusal := finish (fpRewrite datumAbs opd s)

/-- ABSD (R485). -/
def execAbsd (opd : Operand) (s : State) : Host.Outcome State Fault Refusal := finish (fpRewrite datumAbs opd s)

/-- NEGF (R484). -/
def execNegf (opd : Operand) (s : State) : Host.Outcome State Fault Refusal := finish (fpRewrite datumNeg opd s)

/-- NEGD (R484). -/
def execNegd (opd : Operand) (s : State) : Host.Outcome State Fault Refusal := finish (fpRewrite datumNeg opd s)

/-- MULF (R488). -/
def execMulf (ac : Ac) (opd : Operand) (s : State) : Host.Outcome State Fault Refusal := finish (fpArith Exact.mul ac opd s)

/-- MULD (R488). -/
def execMuld (ac : Ac) (opd : Operand) (s : State) : Host.Outcome State Fault Refusal := finish (fpArith Exact.mul ac opd s)

/-- MODF (R491). -/
def execModf (ac : Ac) (opd : Operand) (s : State) : Host.Outcome State Fault Refusal := finish (fpModulo ac opd s)

/-- MODD (R491). -/
def execModd (ac : Ac) (opd : Operand) (s : State) : Host.Outcome State Fault Refusal := finish (fpModulo ac opd s)

/-- ADDF (R486). -/
def execAddf (ac : Ac) (opd : Operand) (s : State) : Host.Outcome State Fault Refusal := finish (fpArith Exact.add ac opd s)

/-- ADDD (R486). -/
def execAddd (ac : Ac) (opd : Operand) (s : State) : Host.Outcome State Fault Refusal := finish (fpArith Exact.add ac opd s)

/-- LDF (R480). -/
def execLdf (ac : Ac) (opd : Operand) (s : State) : Host.Outcome State Fault Refusal := finish (fpLoad ac opd s)

/-- LDD (R480). -/
def execLdd (ac : Ac) (opd : Operand) (s : State) : Host.Outcome State Fault Refusal := finish (fpLoad ac opd s)

/-- SUBF (R487). -/
def execSubf (ac : Ac) (opd : Operand) (s : State) : Host.Outcome State Fault Refusal := finish (fpArith (fun x y => x.add y.negate) ac opd s)

/-- SUBD (R487). -/
def execSubd (ac : Ac) (opd : Operand) (s : State) : Host.Outcome State Fault Refusal := finish (fpArith (fun x y => x.add y.negate) ac opd s)

/-- CMPF (R490). -/
def execCmpf (ac : Ac) (opd : Operand) (s : State) : Host.Outcome State Fault Refusal := finish (fpCompare ac opd s)

/-- CMPD (R490). -/
def execCmpd (ac : Ac) (opd : Operand) (s : State) : Host.Outcome State Fault Refusal := finish (fpCompare ac opd s)

/-- STF (R481). -/
def execStf (ac : Ac) (opd : Operand) (s : State) : Host.Outcome State Fault Refusal := finish (fpStore ac opd s)

/-- STD (R481). -/
def execStd (ac : Ac) (opd : Operand) (s : State) : Host.Outcome State Fault Refusal := finish (fpStore ac opd s)

/-- DIVF (R489). -/
def execDivf (ac : Ac) (opd : Operand) (s : State) : Host.Outcome State Fault Refusal := finish (fpDivide ac opd s)

/-- DIVD (R489). -/
def execDivd (ac : Ac) (opd : Operand) (s : State) : Host.Outcome State Fault Refusal := finish (fpDivide ac opd s)

/-- STEXP (R497). -/
def execStexp (ac : Ac) (opd : Operand) (s : State) : Host.Outcome State Fault Refusal := finish (fpStoreExp ac opd s)

/-- STCFI (R495). -/
def execStcfi (ac : Ac) (opd : Operand) (s : State) : Host.Outcome State Fault Refusal := finish (fpStoreInteger ac opd s)

/-- STCFL (R495). -/
def execStcfl (ac : Ac) (opd : Operand) (s : State) : Host.Outcome State Fault Refusal := finish (fpStoreInteger ac opd s)

/-- STCDI (R495). -/
def execStcdi (ac : Ac) (opd : Operand) (s : State) : Host.Outcome State Fault Refusal := finish (fpStoreInteger ac opd s)

/-- STCDL (R495). -/
def execStcdl (ac : Ac) (opd : Operand) (s : State) : Host.Outcome State Fault Refusal := finish (fpStoreInteger ac opd s)

/-- STCFD (R493). -/
def execStcfd (ac : Ac) (opd : Operand) (s : State) : Host.Outcome State Fault Refusal := finish (fpStoreConvert ac opd s)

/-- STCDF (R493). -/
def execStcdf (ac : Ac) (opd : Operand) (s : State) : Host.Outcome State Fault Refusal := finish (fpStoreConvert ac opd s)

/-- LDEXP (R496). -/
def execLdexp (ac : Ac) (opd : Operand) (s : State) : Host.Outcome State Fault Refusal := finish (fpLoadExp ac opd s)

/-- LDCIF (R494). -/
def execLdcif (ac : Ac) (opd : Operand) (s : State) : Host.Outcome State Fault Refusal := finish (fpLoadInteger ac opd s)

/-- LDCLF (R494). -/
def execLdclf (ac : Ac) (opd : Operand) (s : State) : Host.Outcome State Fault Refusal := finish (fpLoadInteger ac opd s)

/-- LDCID (R494). -/
def execLdcid (ac : Ac) (opd : Operand) (s : State) : Host.Outcome State Fault Refusal := finish (fpLoadInteger ac opd s)

/-- LDCLD (R494). -/
def execLdcld (ac : Ac) (opd : Operand) (s : State) : Host.Outcome State Fault Refusal := finish (fpLoadInteger ac opd s)

/-- LDCDF (R492). -/
def execLdcdf (ac : Ac) (opd : Operand) (s : State) : Host.Outcome State Fault Refusal := finish (fpLoadConvert ac opd s)

/-- LDCFD (R492). -/
def execLdcfd (ac : Ac) (opd : Operand) (s : State) : Host.Outcome State Fault Refusal := finish (fpLoadConvert ac opd s)

/-- Words 170003 to 170010 (spec/30_encoding.md R185). -/
def execUnassigned170003 (_word : Word) (s : State) : Host.Outcome State Fault Refusal := finish (fpUnassigned s)

/-- Words 170013 to 170077 (R185). -/
def execUnassigned170013 (_word : Word) (s : State) : Host.Outcome State Fault Refusal := finish (fpUnassigned s)

end Sys2Proof.Machine
end

