-- ==== Sys2Proof/Machine/Jump.lean ====
section
/-! DEFINITION. JMP, JSR, RTS and MARK (spec/44_jump_subroutine.md). -/

namespace Sys2Proof.Machine

/-- The address that a jump's specifier evaluates to; a register has none and is an illegal instruction
(spec/40_addressing_modes.md R222). -/
def jumpTarget (o : Operand) (s : State) : Res Word :=
  match o.mode with
  | .reg => .trap .illegalInstruction s
  | _ => (locate 2 o s).bind fun l s =>
    match l with
    | .reg _ => .trap .illegalInstruction s
    | .mem va => .ok va s

/-- JMP (R350). -/
def execJmp (dst : Operand) (s : State) : Host.Outcome State Fault Refusal :=
  finish ((jumpTarget dst s).bind fun va s => .ok () { s with pc := va })

/-- The word that JSR pushes: the link register, but with R6 as the link a free word (R351; D37, log 20). -/
def linkWord (link : Reg) (s : State) : Res Word :=
  if link = .r6 then takeWord s else .ok (s.reg link) s

/-- JSR: the target first, then the push, then the link register and R7 (R351). -/
def execJsr (reg : Reg) (dst : Operand) (s : State) : Host.Outcome State Fault Refusal :=
  finish (
    (jumpTarget dst s).bind fun va s =>
    (linkWord reg s).bind fun v s =>
    (push v s).bind fun _ s =>
    .ok () { s.setReg reg s.pc with pc := va })

/-- RTS: R7 takes the register, then the register takes the popped word (R352). -/
def execRts (reg : Reg) (s : State) : Host.Outcome State Fault Refusal :=
  finish ((pop { s with pc := s.reg reg }).bind fun v s => .ok () (s.setReg reg v))

/-- MARK: SP is set above the parameters, R7 takes R5, and R5 is popped (R353). -/
def execMark (nn : BitVec 6) (s : State) : Host.Outcome State Fault Refusal :=
  let t := s.setReg .r6 (s.pc + 2 * nn.setWidth 16)
  finish ((pop { t with pc := t.r5 }).bind fun v s => .ok () { s with r5 := v })

end Sys2Proof.Machine
end

