-- ==== Sys2Proof/Machine/SingleOperand.lean ====
section
/-! DEFINITION. The single operand instructions (spec/41_single_operand.md). -/

namespace Sys2Proof.Machine

/-- CLR (R232). -/
def execClr (dst : Operand) (s : State) : Host.Outcome State Fault Refusal :=
  finish (setWord aluClr dst s)

/-- CLRB (R233). -/
def execClrb (dst : Operand) (s : State) : Host.Outcome State Fault Refusal :=
  finish (setByte aluClr dst s)

/-- COM (R234). -/
def execCom (dst : Operand) (s : State) : Host.Outcome State Fault Refusal :=
  finish (modifyWord aluCom dst s)

/-- COMB (R235). -/
def execComb (dst : Operand) (s : State) : Host.Outcome State Fault Refusal :=
  finish (modifyByte aluCom dst s)

/-- INC (R236). -/
def execInc (dst : Operand) (s : State) : Host.Outcome State Fault Refusal :=
  finish (modifyWord aluInc dst s)

/-- INCB (R237). -/
def execIncb (dst : Operand) (s : State) : Host.Outcome State Fault Refusal :=
  finish (modifyByte aluInc dst s)

/-- DEC (R238). -/
def execDec (dst : Operand) (s : State) : Host.Outcome State Fault Refusal :=
  finish (modifyWord aluDec dst s)

/-- DECB (R239). -/
def execDecb (dst : Operand) (s : State) : Host.Outcome State Fault Refusal :=
  finish (modifyByte aluDec dst s)

/-- NEG (R240). -/
def execNeg (dst : Operand) (s : State) : Host.Outcome State Fault Refusal :=
  finish (modifyWord aluNeg dst s)

/-- NEGB (R241). -/
def execNegb (dst : Operand) (s : State) : Host.Outcome State Fault Refusal :=
  finish (modifyByte aluNeg dst s)

/-- ADC (R244). -/
def execAdc (dst : Operand) (s : State) : Host.Outcome State Fault Refusal :=
  finish (modifyWord aluAdc dst s)

/-- ADCB (R245). -/
def execAdcb (dst : Operand) (s : State) : Host.Outcome State Fault Refusal :=
  finish (modifyByte aluAdc dst s)

/-- SBC (R246). -/
def execSbc (dst : Operand) (s : State) : Host.Outcome State Fault Refusal :=
  finish (modifyWord aluSbc dst s)

/-- SBCB (R247). -/
def execSbcb (dst : Operand) (s : State) : Host.Outcome State Fault Refusal :=
  finish (modifyByte aluSbc dst s)

/-- TST (R242). -/
def execTst (dst : Operand) (s : State) : Host.Outcome State Fault Refusal :=
  finish (testWord aluTst dst s)

/-- TSTB (R243). -/
def execTstb (dst : Operand) (s : State) : Host.Outcome State Fault Refusal :=
  finish (testByte aluTst dst s)

/-- ROR (R250). -/
def execRor (dst : Operand) (s : State) : Host.Outcome State Fault Refusal :=
  finish (modifyWord aluRor dst s)

/-- RORB (R251). -/
def execRorb (dst : Operand) (s : State) : Host.Outcome State Fault Refusal :=
  finish (modifyByte aluRor dst s)

/-- ROL (R252). -/
def execRol (dst : Operand) (s : State) : Host.Outcome State Fault Refusal :=
  finish (modifyWord aluRol dst s)

/-- ROLB (R253). -/
def execRolb (dst : Operand) (s : State) : Host.Outcome State Fault Refusal :=
  finish (modifyByte aluRol dst s)

/-- ASR (R254). -/
def execAsr (dst : Operand) (s : State) : Host.Outcome State Fault Refusal :=
  finish (modifyWord aluAsr dst s)

/-- ASRB (R255). -/
def execAsrb (dst : Operand) (s : State) : Host.Outcome State Fault Refusal :=
  finish (modifyByte aluAsr dst s)

/-- ASL (R256). -/
def execAsl (dst : Operand) (s : State) : Host.Outcome State Fault Refusal :=
  finish (modifyWord aluAsl dst s)

/-- ASLB (R257). -/
def execAslb (dst : Operand) (s : State) : Host.Outcome State Fault Refusal :=
  finish (modifyByte aluAsl dst s)

/-- SWAB (R262). -/
def execSwab (dst : Operand) (s : State) : Host.Outcome State Fault Refusal :=
  finish (modifyWord aluSwab dst s)

/-- SXT (R264). -/
def execSxt (dst : Operand) (s : State) : Host.Outcome State Fault Refusal :=
  finish (setWord aluSxt dst s)

end Sys2Proof.Machine
end

