-- ==== Sys2Proof/Machine/StatusMoves.lean ====
section
/-! DEFINITION. Condition code operators, MFPT, MFPS, MTPS and the moves to and from the previous space
(spec/46_cc_ps_mm.md). -/

namespace Sys2Proof.Machine

/-- The mechanism of all 32 condition code operators: the selected codes are set or cleared (R400). -/
def condOp (sense : Bool) (mask : BitVec 4) (s : State) : Host.Outcome State Fault Refusal :=
  let old := s.cc.bits
  .next (s.setCC (ccOf (if sense then old ||| mask else old &&& ~~~mask)))

/-- The mask of a condition code operator, in the order N, Z, V, C (R400). -/
def condMask (n z v c : Bool) : BitVec 4 :=
  BitVec.ofBool n ++ BitVec.ofBool z ++ BitVec.ofBool v ++ BitVec.ofBool c

/-- A condition code operator with any mask (R400, R403). -/
def execCcop (sense n z v c : Bool) (s : State) : Host.Outcome State Fault Refusal :=
  condOp sense (condMask n z v c) s

/-- NOP (R400, R401). -/
def execNop (s : State) : Host.Outcome State Fault Refusal := condOp false 0b0000#4 s

/-- CLC (R401). -/
def execClc (s : State) : Host.Outcome State Fault Refusal := condOp false 0b0001#4 s

/-- CLV (R401). -/
def execClv (s : State) : Host.Outcome State Fault Refusal := condOp false 0b0010#4 s

/-- CLZ (R401). -/
def execClz (s : State) : Host.Outcome State Fault Refusal := condOp false 0b0100#4 s

/-- CLN (R401). -/
def execCln (s : State) : Host.Outcome State Fault Refusal := condOp false 0b1000#4 s

/-- CCC (R401). -/
def execCcc (s : State) : Host.Outcome State Fault Refusal := condOp false 0b1111#4 s

/-- SEC (R402). -/
def execSec (s : State) : Host.Outcome State Fault Refusal := condOp true 0b0001#4 s

/-- SEV (R402). -/
def execSev (s : State) : Host.Outcome State Fault Refusal := condOp true 0b0010#4 s

/-- SEZ (R402). -/
def execSez (s : State) : Host.Outcome State Fault Refusal := condOp true 0b0100#4 s

/-- SEN (R402). -/
def execSen (s : State) : Host.Outcome State Fault Refusal := condOp true 0b1000#4 s

/-- SCC (R402). -/
def execScc (s : State) : Host.Outcome State Fault Refusal := condOp true 0b1111#4 s

/-- MFPT: the processor number 3 goes to R0 (R410). -/
def execMfpt (s : State) : Host.Outcome State Fault Refusal := .next { s with r0 := 3 }

/-- MFPS: the low byte of the PS as it stood goes to the destination, sign-extended into a register; the codes describe
the byte (R411; D24). -/
def execMfps (dst : Operand) (s : State) : Host.Outcome State Fault Refusal :=
  let v : Byte := s.ps.setWidth 8
  finish ((locate 1 dst s).bind fun l s =>
    commit (ccNZ v false s.cc.c) (storeByteExtAt v l) s)

/-- The PS after MTPS: codes from the byte, priority from it in kernel mode only, T and the high byte kept (R412). -/
def mtpsPs (kernel : Bool) (old : Word) (v : Byte) : Word :=
  if kernel then (old &&& 0o177420#16) ||| (v.setWidth 16 &&& 0o357#16)
  else (old &&& 0o177760#16) ||| (v.setWidth 16 &&& 0o17#16)

/-- MTPS (R412). -/
def execMtps (src : Operand) (s : State) : Host.Outcome State Fault Refusal :=
  finish ((loadByte src s).bind fun v s => .ok () { s with ps := mtpsPs s.isKernel s.ps v })

/-- The operand of MFPI: register 6 is the previous mode's stack pointer, memory is read in the previous mode's space
(R414). -/
def readPrevious (l : Loc) (s : State) : Res Word :=
  match l with
  | .reg .r6 => .ok (s.spOf s.prevMode) s
  | .reg r => .ok (s.reg r) s
  | .mem va => readWordMode s.prevMode va s

/-- Move from the previous space: push the operand, the codes describe it (R414). -/
def movePrevious (src : Operand) (s : State) : Res Unit :=
  (locate 2 src s).bind fun l s =>
  (readPrevious l s).bind fun v s =>
  commit (ccNZ v false s.cc.c) (push v) s

/-- MFPI (R414). -/
def execMfpi (src : Operand) (s : State) : Host.Outcome State Fault Refusal := finish (movePrevious src s)

/-- MFPD executes the same as MFPI (R415). -/
def execMfpd (src : Operand) (s : State) : Host.Outcome State Fault Refusal := finish (movePrevious src s)

/-- The destination of MTPI, the mirror of `readPrevious` (R416). -/
def writePrevious (l : Loc) (v : Word) (s : State) : Res Unit :=
  match l with
  | .reg .r6 => .ok () (s.setSpOf s.prevMode v)
  | .reg r => .ok () (s.setReg r v)
  | .mem va => writeWordMode s.prevMode va v s

/-- Move to the previous space: pop first, then evaluate the destination (R416). DESIGN CHOICE: R65 of spec/10_state.md speaks of a
destination address latched before the pop, and spec/90_conflicts.md does not settle it; the instruction's own rule is followed
(log 52). -/
def moveToPrevious (dst : Operand) (s : State) : Res Unit :=
  (pop s).bind fun v s =>
  (locate 2 dst s).bind fun l s =>
  commit (ccNZ v false s.cc.c) (writePrevious l v) s

/-- MTPI (R416). -/
def execMtpi (dst : Operand) (s : State) : Host.Outcome State Fault Refusal := finish (moveToPrevious dst s)

/-- MTPD executes the same as MTPI (R417). -/
def execMtpd (dst : Operand) (s : State) : Host.Outcome State Fault Refusal := finish (moveToPrevious dst s)

end Sys2Proof.Machine
end

