-- ==== Sys2Proof/Machine/Traps.lean ====
section
/-! DEFINITION. Trap instructions, returns from a trap, HALT, WAIT and RESET (spec/45_traps_misc.md), and the reserved and
unassigned rows that trap through 10 (spec/30_encoding.md R189). -/

namespace Sys2Proof.Machine

/-- EMT (R370). -/
def execEmt (_code : BitVec 8) (s : State) : Host.Outcome State Fault Refusal := enterTrap .emt s

/-- TRAP (R371). -/
def execTrap (_code : BitVec 8) (s : State) : Host.Outcome State Fault Refusal := enterTrap .trap s

/-- BPT (R372). -/
def execBpt (s : State) : Host.Outcome State Fault Refusal := enterTrap .bpt s

/-- IOT (R373). -/
def execIot (s : State) : Host.Outcome State Fault Refusal := enterTrap .iot s

/-- RTI (R376). -/
def execRti (s : State) : Host.Outcome State Fault Refusal := finish (returnFromTrap s)

/-- RTT: as RTI, and the next service state skips the trace test (R377). An RTT whose pop aborts skips nothing: the state
that follows is the abort's, which tests the T bit of its vector's PS (DESIGN CHOICE; D14 and R550 of
spec/60_exceptions.md leave it open; log 25). -/
def execRtt (s : State) : Host.Outcome State Fault Refusal :=
  finish ((returnFromTrap s).bind fun _ s => .ok () { s with inhibitT := true })

/-- BINIT at the devices that the model holds: the console (R382, spec/70_reset_and_hazards.md R670; log 27). -/
def busInit (s : State) : State := { s with slu := sluInit s.slu }

/-- Six octal digits of an 18-bit number, in ASCII (spec/61_console_odt_devices.md R610, R621). -/
def octalDigits (v : BitVec 18) : List Byte :=
  [5, 4, 3, 2, 1, 0].map fun i => (0o60 : Byte) + ((v >>> (3 * i)).setWidth 3).setWidth 8

/-- `OdtEnter()` (spec/61_console_odt_devices.md R610): flush RBUF, then print R7 and the prompt. -/
def odtEnter (s : State) : State :=
  { s with
    run := .odt
    odt := { Odt.reset with
      todo := .flush :: ([0o15, 0o12] ++ octalDigits (s.pc.setWidth 18) ++ [0o15, 0o12, 0o100]).map OdtAct.out } }

/-- HALT: not in kernel mode, a reserved instruction; with BPOK negated, the wait for power; with W7 installed, a reserved
instruction; else the console (R380). -/
def execHalt (s : State) : Host.Outcome State Fault Refusal :=
  if !s.isKernel then enterTrap .reservedInstruction s
  else if !s.bpok then .next { s with run := .haltPowerTest }
  else if s.cfg.w7HaltTraps then enterTrap .reservedInstruction s
  else .next (odtEnter s)

/-- WAIT: the processor idles until a service condition (R381). -/
def execWait (s : State) : Host.Outcome State Fault Refusal := .next { s with run := .wait }

/-- The MMU status registers cleared by RESET and by power-up, when the MMU is there (R382, spec/10_state.md R51). -/
def clearMmuStatus (s : State) : State := if s.cfg.hasMmu then { s with sr0 := 0, sr3 := 0 } else s

/-- RESET: in kernel mode BINIT, SR0 and SR3 cleared; otherwise no operation (R382). -/
def execReset (s : State) : Host.Outcome State Fault Refusal :=
  if s.isKernel then .next (clearMmuStatus (busInit s)) else .next s

/-- Words 000010 to 000077 trap through 10 (spec/30_encoding.md R189; D10). -/
def execReserved000010 (_word : Word) (s : State) : Host.Outcome State Fault Refusal := enterTrap .reservedInstruction s

/-- Words 000210 to 000237 (R189). -/
def execReserved000210 (_word : Word) (s : State) : Host.Outcome State Fault Refusal := enterTrap .reservedInstruction s

/-- Words 007000 to 007777 (R189). -/
def execReserved007000 (_word : Word) (s : State) : Host.Outcome State Fault Refusal := enterTrap .reservedInstruction s

/-- Words 075000 to 076777 (R189). -/
def execReserved075000 (_word : Word) (s : State) : Host.Outcome State Fault Refusal := enterTrap .reservedInstruction s

/-- Words 107000 to 107777 (R189). -/
def execReserved107000 (_word : Word) (s : State) : Host.Outcome State Fault Refusal := enterTrap .reservedInstruction s

end Sys2Proof.Machine
end

