-- ==== Sys2Proof/Machine/Dispatch.lean ====
section
/-! DEFINITION. One arm for each instruction: a direct call of its meaning. The state has R7 already past the
instruction word (spec/00_scope.md R15). -/

namespace Sys2Proof.Machine

/-- The meaning of an instruction. -/
def exec (i : Instr) (s : State) : Host.Outcome State Fault Refusal :=
  match i with
  | .halt => Sys2Proof.Machine.execHalt s
  | .wait => Sys2Proof.Machine.execWait s
  | .rti => Sys2Proof.Machine.execRti s
  | .bpt => Sys2Proof.Machine.execBpt s
  | .iot => Sys2Proof.Machine.execIot s
  | .reset => Sys2Proof.Machine.execReset s
  | .rtt => Sys2Proof.Machine.execRtt s
  | .mfpt => Sys2Proof.Machine.execMfpt s
  | .jmp dst => Sys2Proof.Machine.execJmp dst s
  | .rts reg => Sys2Proof.Machine.execRts reg s
  | .nop => Sys2Proof.Machine.execNop s
  | .clc => Sys2Proof.Machine.execClc s
  | .clv => Sys2Proof.Machine.execClv s
  | .clz => Sys2Proof.Machine.execClz s
  | .cln => Sys2Proof.Machine.execCln s
  | .ccc => Sys2Proof.Machine.execCcc s
  | .sec => Sys2Proof.Machine.execSec s
  | .sev => Sys2Proof.Machine.execSev s
  | .sez => Sys2Proof.Machine.execSez s
  | .sen => Sys2Proof.Machine.execSen s
  | .scc => Sys2Proof.Machine.execScc s
  | .ccop sense n z v c => Sys2Proof.Machine.execCcop sense n z v c s
  | .swab dst => Sys2Proof.Machine.execSwab dst s
  | .br offset => Sys2Proof.Machine.execBr offset s
  | .bne offset => Sys2Proof.Machine.execBne offset s
  | .beq offset => Sys2Proof.Machine.execBeq offset s
  | .bge offset => Sys2Proof.Machine.execBge offset s
  | .blt offset => Sys2Proof.Machine.execBlt offset s
  | .bgt offset => Sys2Proof.Machine.execBgt offset s
  | .ble offset => Sys2Proof.Machine.execBle offset s
  | .bpl offset => Sys2Proof.Machine.execBpl offset s
  | .bmi offset => Sys2Proof.Machine.execBmi offset s
  | .bhi offset => Sys2Proof.Machine.execBhi offset s
  | .blos offset => Sys2Proof.Machine.execBlos offset s
  | .bvc offset => Sys2Proof.Machine.execBvc offset s
  | .bvs offset => Sys2Proof.Machine.execBvs offset s
  | .bcc offset => Sys2Proof.Machine.execBcc offset s
  | .bhis offset => Sys2Proof.Machine.execBhis offset s
  | .bcs offset => Sys2Proof.Machine.execBcs offset s
  | .blo offset => Sys2Proof.Machine.execBlo offset s
  | .jsr reg dst => Sys2Proof.Machine.execJsr reg dst s
  | .clr dst => Sys2Proof.Machine.execClr dst s
  | .com dst => Sys2Proof.Machine.execCom dst s
  | .inc dst => Sys2Proof.Machine.execInc dst s
  | .dec dst => Sys2Proof.Machine.execDec dst s
  | .neg dst => Sys2Proof.Machine.execNeg dst s
  | .adc dst => Sys2Proof.Machine.execAdc dst s
  | .sbc dst => Sys2Proof.Machine.execSbc dst s
  | .tst dst => Sys2Proof.Machine.execTst dst s
  | .ror dst => Sys2Proof.Machine.execRor dst s
  | .rol dst => Sys2Proof.Machine.execRol dst s
  | .asr dst => Sys2Proof.Machine.execAsr dst s
  | .asl dst => Sys2Proof.Machine.execAsl dst s
  | .clrb dst => Sys2Proof.Machine.execClrb dst s
  | .comb dst => Sys2Proof.Machine.execComb dst s
  | .incb dst => Sys2Proof.Machine.execIncb dst s
  | .decb dst => Sys2Proof.Machine.execDecb dst s
  | .negb dst => Sys2Proof.Machine.execNegb dst s
  | .adcb dst => Sys2Proof.Machine.execAdcb dst s
  | .sbcb dst => Sys2Proof.Machine.execSbcb dst s
  | .tstb dst => Sys2Proof.Machine.execTstb dst s
  | .rorb dst => Sys2Proof.Machine.execRorb dst s
  | .rolb dst => Sys2Proof.Machine.execRolb dst s
  | .asrb dst => Sys2Proof.Machine.execAsrb dst s
  | .aslb dst => Sys2Proof.Machine.execAslb dst s
  | .mark nn => Sys2Proof.Machine.execMark nn s
  | .mfpi src => Sys2Proof.Machine.execMfpi src s
  | .mtpi dst => Sys2Proof.Machine.execMtpi dst s
  | .sxt dst => Sys2Proof.Machine.execSxt dst s
  | .mtps src => Sys2Proof.Machine.execMtps src s
  | .mfpd src => Sys2Proof.Machine.execMfpd src s
  | .mtpd dst => Sys2Proof.Machine.execMtpd dst s
  | .mfps dst => Sys2Proof.Machine.execMfps dst s
  | .mov src dst => Sys2Proof.Machine.execMov src dst s
  | .cmp src dst => Sys2Proof.Machine.execCmp src dst s
  | .bit src dst => Sys2Proof.Machine.execBit src dst s
  | .bic src dst => Sys2Proof.Machine.execBic src dst s
  | .bis src dst => Sys2Proof.Machine.execBis src dst s
  | .add src dst => Sys2Proof.Machine.execAdd src dst s
  | .movb src dst => Sys2Proof.Machine.execMovb src dst s
  | .cmpb src dst => Sys2Proof.Machine.execCmpb src dst s
  | .bitb src dst => Sys2Proof.Machine.execBitb src dst s
  | .bicb src dst => Sys2Proof.Machine.execBicb src dst s
  | .bisb src dst => Sys2Proof.Machine.execBisb src dst s
  | .sub src dst => Sys2Proof.Machine.execSub src dst s
  | .mul reg src => Sys2Proof.Machine.execMul reg src s
  | .div reg src => Sys2Proof.Machine.execDiv reg src s
  | .ash reg src => Sys2Proof.Machine.execAsh reg src s
  | .ashc reg src => Sys2Proof.Machine.execAshc reg src s
  | .xor reg dst => Sys2Proof.Machine.execXor reg dst s
  | .sob reg nn => Sys2Proof.Machine.execSob reg nn s
  | .emt code => Sys2Proof.Machine.execEmt code s
  | .trap code => Sys2Proof.Machine.execTrap code s
  | .cfcc => Sys2Proof.Machine.execCfcc s
  | .setf => Sys2Proof.Machine.execSetf s
  | .seti => Sys2Proof.Machine.execSeti s
  | .setd => Sys2Proof.Machine.execSetd s
  | .setl => Sys2Proof.Machine.execSetl s
  | .ldfps opd => Sys2Proof.Machine.execLdfps opd s
  | .stfps opd => Sys2Proof.Machine.execStfps opd s
  | .stst opd => Sys2Proof.Machine.execStst opd s
  | .clrf opd => Sys2Proof.Machine.execClrf opd s
  | .clrd opd => Sys2Proof.Machine.execClrd opd s
  | .tstf opd => Sys2Proof.Machine.execTstf opd s
  | .tstd opd => Sys2Proof.Machine.execTstd opd s
  | .absf opd => Sys2Proof.Machine.execAbsf opd s
  | .absd opd => Sys2Proof.Machine.execAbsd opd s
  | .negf opd => Sys2Proof.Machine.execNegf opd s
  | .negd opd => Sys2Proof.Machine.execNegd opd s
  | .mulf ac opd => Sys2Proof.Machine.execMulf ac opd s
  | .muld ac opd => Sys2Proof.Machine.execMuld ac opd s
  | .modf ac opd => Sys2Proof.Machine.execModf ac opd s
  | .modd ac opd => Sys2Proof.Machine.execModd ac opd s
  | .addf ac opd => Sys2Proof.Machine.execAddf ac opd s
  | .addd ac opd => Sys2Proof.Machine.execAddd ac opd s
  | .ldf ac opd => Sys2Proof.Machine.execLdf ac opd s
  | .ldd ac opd => Sys2Proof.Machine.execLdd ac opd s
  | .subf ac opd => Sys2Proof.Machine.execSubf ac opd s
  | .subd ac opd => Sys2Proof.Machine.execSubd ac opd s
  | .cmpf ac opd => Sys2Proof.Machine.execCmpf ac opd s
  | .cmpd ac opd => Sys2Proof.Machine.execCmpd ac opd s
  | .stf ac opd => Sys2Proof.Machine.execStf ac opd s
  | .std ac opd => Sys2Proof.Machine.execStd ac opd s
  | .divf ac opd => Sys2Proof.Machine.execDivf ac opd s
  | .divd ac opd => Sys2Proof.Machine.execDivd ac opd s
  | .stexp ac opd => Sys2Proof.Machine.execStexp ac opd s
  | .stcfi ac opd => Sys2Proof.Machine.execStcfi ac opd s
  | .stcfl ac opd => Sys2Proof.Machine.execStcfl ac opd s
  | .stcdi ac opd => Sys2Proof.Machine.execStcdi ac opd s
  | .stcdl ac opd => Sys2Proof.Machine.execStcdl ac opd s
  | .stcfd ac opd => Sys2Proof.Machine.execStcfd ac opd s
  | .stcdf ac opd => Sys2Proof.Machine.execStcdf ac opd s
  | .ldexp ac opd => Sys2Proof.Machine.execLdexp ac opd s
  | .ldcif ac opd => Sys2Proof.Machine.execLdcif ac opd s
  | .ldclf ac opd => Sys2Proof.Machine.execLdclf ac opd s
  | .ldcid ac opd => Sys2Proof.Machine.execLdcid ac opd s
  | .ldcld ac opd => Sys2Proof.Machine.execLdcld ac opd s
  | .ldcdf ac opd => Sys2Proof.Machine.execLdcdf ac opd s
  | .ldcfd ac opd => Sys2Proof.Machine.execLdcfd ac opd s
  | .reserved000010 word => Sys2Proof.Machine.execReserved000010 word s
  | .reserved000210 word => Sys2Proof.Machine.execReserved000210 word s
  | .reserved007000 word => Sys2Proof.Machine.execReserved007000 word s
  | .reserved075000 word => Sys2Proof.Machine.execReserved075000 word s
  | .reserved107000 word => Sys2Proof.Machine.execReserved107000 word s
  | .unassigned170003 word => Sys2Proof.Machine.execUnassigned170003 word s
  | .unassigned170013 word => Sys2Proof.Machine.execUnassigned170013 word s

end Sys2Proof.Machine
end

