-- ==== Sys2Proof/Machine/Service.lean ====
section
/-! DEFINITION. The service state: one condition at most is taken at the end of an instruction (spec/60_exceptions.md
R541 to R557). -/

namespace Sys2Proof.Machine

/-- A level as a number (R33). -/
def Level.toNat : Level → Nat
  | .l4 => 4 | .l5 => 5 | .l6 => 6 | .l7 => 7

/-- What the arbitration found, with the state in which its latch is cleared (R543). -/
inductive Service where
  /-- nothing to service -/
  | idle
  /-- a trap or an interrupt -/
  | take (t : Trap) (s : State)
  /-- an acknowledge that no device answered: transparent to the program (R95, R554) -/
  | dropped (s : State)
  /-- the halt line (R556) -/
  | console
  deriving DecidableEq, Repr

/-- The first device request at a level, in the order of the daisy chain (R554; D15, log 26). -/
def irqAt (l : Level) (s : State) : Option Irq := s.irqs.find? (fun r => decide (r.level = l))

/-- Acknowledge a request: it is dropped, and its vector, if it gives one, is taken (R554). -/
def acknowledge (r : Irq) (s : State) : Service :=
  let t : State := { s with irqs := s.irqs.erase r }
  match r.vector with
  | some v => .take (.device v) t
  | none => .dropped t

/-- The console's interrupt request, at level 4: receiver through 60, transmitter through 64 (spec/61_console_odt_devices.md
R607; log 27). -/
def sluVector (d : Slu) : Option Word :=
  if d.rxIe && d.rxDone then some 0o60
  else if d.txIe && d.txReady then some 0o64
  else none

/-- The end of the priority list: level 4, the console's own request after the other devices', then the halt line
(R543). -/
def arbitrateLow (s : State) : Service :=
  if s.priority < 4 then
    match irqAt .l4 s with
    | some r => acknowledge r s
    | none =>
      match sluVector s.slu with
      | some v => .take (.device v) s
      | none => if s.bhalt then .console else .idle
  else if s.bhalt then .console else .idle

/-- Levels 6 and 5. -/
def arbitrateMid (s : State) : Service :=
  match (if s.priority < 6 then irqAt .l6 s else none) with
  | some r => acknowledge r s
  | none =>
    match (if s.priority < 5 then irqAt .l5 s else none) with
    | some r => acknowledge r s
    | none => arbitrateLow s

/-- Level 7 and the event line (R555; D7). -/
def arbitrateHigh (s : State) : Service :=
  match (if s.priority < 7 then irqAt .l7 s else none) with
  | some r => acknowledge r s
  | none =>
    if s.eventFF && !s.cfg.w4EventDisabled && decide (s.priority < 6) then .take .event { s with eventFF := false }
    else arbitrateMid s

/-- The arbitration of the pending conditions, highest first (R543). -/
def arbitrate (s : State) : Service :=
  if s.tBit && !s.inhibitT then .take .trace s
  else if s.stackOverflow then .take .stackOverflow { s with stackOverflow := false }
  else if s.powerFailFF then .take .powerFail { s with powerFailFF := false }
  else arbitrateHigh s

/-- `Service()`: exactly one condition is taken, and the next fetch follows without another arbitration (R543; D44). The
skip of the trace test lasts for one service state (R542). -/
def serviceState (s : State) : Host.Outcome State Fault Refusal :=
  match arbitrate s with
  | .idle => .next { s with inhibitT := false }
  | .take t u => enterTrap t { u with inhibitT := false }
  | .dropped u => .next { u with inhibitT := false, run := .run }
  | .console => .next (odtEnter { s with inhibitT := false })

/-- What follows an instruction: the service state; a WAIT goes on idling until there is something to service (R542, R557,
spec/45_traps_misc.md R381). -/
def afterInstr (o : Host.Outcome State Fault Refusal) : Host.Outcome State Fault Refusal :=
  match o with
  | .next s =>
    match s.run with
    | .run => serviceState s
    | .wait => if arbitrate s = .idle then .next s else serviceState s
    | _ => .next s
  | x => x

end Sys2Proof.Machine
end

