-- ==== Sys2Proof/Machine/Power.lean ====
section
/-! DEFINITION. Power-up, power-down and the four power-up modes (spec/70_reset_and_hazards.md R660 to R668). -/

namespace Sys2Proof.Machine

/-- What the assertion of BDCOK and a kernel HALT with BPOK negated do: registers and latches cleared, BINIT, then the
wait for BPOK (R660, R668). -/
def powerClear (s : State) : State :=
  busInit
    { s with ps := 0, fps := 0, fec := 0, sr0 := 0, sr3 := 0,
             eventFF := false, powerFailFF := false, stackOverflow := false, inhibitT := false,
             run := .powerWait, odt := Odt.reset }

/-- Free accumulators (log 29). -/
def freeAcc (n : Nat) : Acc :=
  ⟨Config.freeWord n ++ Config.freeWord (n + 1), Config.freeWord (n + 2) ++ Config.freeWord (n + 3)⟩

/-- The eight free words of a block of page registers (log 29). -/
def freeBlock (n : Nat) (mask : Word) : Vector Word 8 :=
  #v[Config.freeWord n &&& mask, Config.freeWord (n + 1) &&& mask, Config.freeWord (n + 2) &&& mask,
     Config.freeWord (n + 3) &&& mask, Config.freeWord (n + 4) &&& mask, Config.freeWord (n + 5) &&& mask,
     Config.freeWord (n + 6) &&& mask, Config.freeWord (n + 7) &&& mask]

/-- The implemented bits of a PDR (spec/10_state.md R44). -/
def pdrBits : Word := 0o077516

/-- BDCOK is negated: BINIT is asserted and held (R660), execution stops and the processor's registers have no defined
value (R661); those that the next assertion clears are left to it, and memory is kept (log 29). -/
def powerOffState (s : State) : State :=
  let n := s.free
  { busInit s with
    r0 := Config.freeWord n, r1 := Config.freeWord (n + 1), r2 := Config.freeWord (n + 2)
    r3 := Config.freeWord (n + 3), r4 := Config.freeWord (n + 4), r5 := Config.freeWord (n + 5)
    sp0 := Config.freeWord (n + 6), sp1 := Config.freeWord (n + 7)
    sp2 := Config.freeWord (n + 8), sp3 := Config.freeWord (n + 9)
    pc := Config.freeWord (n + 10), sr2 := Config.freeWord (n + 11), fea := Config.freeWord (n + 12)
    kpar := freeBlock (n + 13) 0o177777, kpdr := freeBlock (n + 21) pdrBits
    upar := freeBlock (n + 29) 0o177777, updr := freeBlock (n + 37) pdrBits
    ac := #v[freeAcc (n + 45), freeAcc (n + 49), freeAcc (n + 53), freeAcc (n + 57), freeAcc (n + 61),
             freeAcc (n + 65)]
    run := .powerOff
    odt := Odt.reset
    free := n + 69 }

/-- The end of power-up modes 0 and 2: console ODT when the halt line is asserted, else the fetch, with no service state
first (R662, R664). -/
def startProgram (s : State) : State :=
  if s.bhalt then odtEnter s else { s with run := .run }

/-- The load of R7 and the PS from locations 24 and 26 (R662). -/
def loadStart (s : State) : Res Unit :=
  (physRead 0o24 s).bind fun npc s =>
  (physRead 0o26 { s with pc := npc }).bind fun nps s =>
  .ok () { s with ps := psBits nps }

/-- The bootstrap address of mode 2 (R664 to R666). -/
def bootAddress (c : Config) : Word := if c.w8Boot173000 then 0o173000 else c.bootAddrHi ++ (0 : BitVec 9)

/-- A trap sequence of power-up mode 3: where an abort cuts it short, the sequence for that abort is one of power-up too. None
is followed by a service state, so that BHALT is not examined before the first instruction (R667). -/
def startTrap (t : Trap) (s : State) : Host.Outcome State Fault Refusal :=
  match enterTrap t s with
  | .next u =>
    match u.run with
    | .trapping c => .next { u with run := .powerTrap c }
    | _ => .next u
  | x => x

/-- `PowerUpMode(W6, W5)` (R662 to R667). An abort of mode 0's reads is taken as an abort of an instruction is (D46). -/
def powerUp (s : State) : Host.Outcome State Fault Refusal :=
  match s.cfg.powerUpMode with
  | 0 =>
    match loadStart s with
    | .ok () s => .next (startProgram s)
    | .trap t s => afterInstr (enterTrap t s)
    | .fault f => .fault f
    | .refused r => .refused r
  | 1 => .next (odtEnter s)
  | 2 => .next (startProgram { s with pc := bootAddress s.cfg, ps := 0o340 })
  | 3 => startTrap .reservedInstruction s

end Sys2Proof.Machine
end

