-- ==== Sys2Proof/Machine/Env.lean ====
section
/-! DEFINITION. The environment's actions (spec/00_scope.md R11, spec/10_state.md R66): one for each `Input`. -/

namespace Sys2Proof.Machine

/-- BEVENT sets the event flip-flop unless jumper W4 disables it (spec/10_state.md R60). -/
def eventPulse (s : State) : State := if s.cfg.w4EventDisabled then s else { s with eventFF := true }

/-- BPOK: its negation sets the power-fail flip-flop (spec/10_state.md R61). -/
def driveBpok (level : Bool) (s : State) : State :=
  { s with bpok := level, powerFailFF := s.powerFailFF || (s.bpok && !level) }

/-- BDCOK: its assertion starts power-up, its negation ends everything (spec/70_reset_and_hazards.md R660, R661). It is driven
between steps only, so that an instruction is done whole or not at all when power is lost (DESIGN CHOICE: R661 lets it happen at
any time and does not say how much of the current instruction is done; log 29). -/
def driveBdcok (level : Bool) (s : State) : State :=
  if level = s.bdcok then s
  else if level then powerClear { s with bdcok := true }
  else powerOffState { s with bdcok := false }

/-- Another agent's action between two steps. While BDCOK is negated BINIT is held and the processor grants the bus to
nobody, so that nothing acts on it (spec/70_reset_and_hazards.md R660; log 29). -/
def applyBus (e : BusInput) (s : State) : Host.Outcome State Fault Refusal :=
  if s.bdcok then
    match busAction e s with
    | .ok () t => .next t
    | .trap _ t => .next t
    | .fault f => .fault f
    | .refused r => .refused r
  else .next s

/-- One action of the environment. `Input.cpu` is none: the machine's step treats it (`machineStep`). -/
def applyInput (i : Input) (s : State) : Host.Outcome State Fault Refusal :=
  match i with
  | .cpu => .next s
  | .irq r => .next { s with irqs := s.irqs ++ [r] }
  | .withdraw r => .next { s with irqs := s.irqs.erase r }
  | .event => .next (eventPulse s)
  | .bhalt level => .next { s with bhalt := level }
  | .bpok level => .next (driveBpok level s)
  | .bdcok level => .next (driveBdcok level s)
  | .bdmr held => .next { s with bdmr := held }
  | .bus e => applyBus e s

end Sys2Proof.Machine
end

