-- ==== Sys2Proof/Machine/Fetch.lean ====
section
/-! DEFINITION. The fetch of an instruction word (spec/60_exceptions.md R542, spec/21_memory_management.md R142), and where
the next one is fetched from. -/

namespace Sys2Proof.Machine

/-- SR2 takes the address of the instruction once its fetch has succeeded, unless an abort's flags freeze it (R142). -/
def trackSR2 (a : Word) (s : State) : State :=
  if s.cfg.hasMmu && (s.sr0.extractLsb' 13 3 == 0) then { s with sr2 := a } else s

/-- Fetch the instruction word at R7, which is advanced (R206 of spec/40_addressing_modes.md, R142). -/
def fetchInstr (s : State) : Res Word :=
  (fetchWord s).bind fun w t => .ok w (trackSR2 s.pc t)

/-- The physical address that a fetch at a virtual address would reach, if it reaches one. -/
def fetchAddr (va : Word) (s : State) : Option PAddr :=
  match translate s.mode va .read s with
  | .ok a _ => some a
  | _ => none

/-- Memory with a word stored where a fetch at a virtual address would find it. -/
def placeWord (va v : Word) (s : State) : State :=
  match fetchAddr va s with
  | some a => { s with mem := s.mem.writeWord a v }
  | none => s

/-- The words of an instruction stored where the next fetches find them: two bytes to a word, the first at R7. -/
def placeInstr (w : Nat) (s : State) : State :=
  placeWord (s.pc + 4) (BitVec.ofNat 16 (w / 2 ^ 32))
    (placeWord (s.pc + 2) (BitVec.ofNat 16 (w / 2 ^ 16)) (placeWord s.pc (BitVec.ofNat 16 w) s))

end Sys2Proof.Machine
end

