-- ==== Sys2Proof/Machine/Odt.lean ====
section
/-! DEFINITION. The console microcode (spec/61_console_odt_devices.md R610 to R636): each step of the machine does one
micro-action, or looks once for a character. -/

namespace Sys2Proof.Machine

/-- The characters that mean something to the console (R613, R615, R650). -/
inductive OdtKey where
  | digit (d : BitVec 3)
  | slash | cr | lf
  /-- `R` or `$` -/
  | designator
  | letterS | letterG | letterP | letterH
  /-- Control-Shift-S -/
  | dump
  | other
  deriving DecidableEq, Repr

/-- Decode a character; the parity bit is ignored and lower case counts as upper case (R613). -/
def odtKey (c : Byte) : OdtKey :=
  let k := (c &&& 0o177#8).toNat
  if 0o60 ≤ k ∧ k ≤ 0o67 then .digit (c.setWidth 3)
  else match k with
    | 0o57 => .slash
    | 0o15 => .cr
    | 0o12 => .lf
    | 0o44 | 0o122 | 0o162 => .designator
    | 0o123 | 0o163 => .letterS
    | 0o107 | 0o147 => .letterG
    | 0o120 | 0o160 => .letterP
    | 0o110 | 0o150 => .letterH
    | 0o23 => .dump
    | _ => .other

/-- The echo of a character: all eight bits, but NUL, STX, BS and LF are not echoed (R613). -/
def odtEcho (c : Byte) : List OdtAct :=
  match (c &&& 0o177#8).toNat with
  | 0 | 2 | 0o10 | 0o12 => []
  | _ => [.out c]

/-- CR LF and the prompt. -/
def odtPrompt : List OdtAct := [.out 0o15, .out 0o12, .out 0o100]

/-- The error response (R631, R632). -/
def odtError (echo : List OdtAct) : Odt := { Odt.reset with todo := echo ++ .out 0o77 :: odtPrompt }

/-- Put a digit behind those typed, the last six kept (R614). -/
def odtDigit (acc : BitVec 18) (d : BitVec 3) : BitVec 18 := (acc <<< 3) ||| d.setWidth 18

/-- The location that a register designator names: the PS after S, or where the last three digits are 077 or 477
(R624). -/
def odtDesignated (o : Odt) : OdtLoc :=
  if o.lastS || o.acc.setWidth 9 == 0o077#9 || o.acc.setWidth 9 == 0o477#9 then .ps
  else .reg (regOf (o.acc.setWidth 3).toNat)

/-- An address with bit 0 cleared (R614, R620). -/
def evenAddr (a : PAddr) : PAddr := a &&& 0o777776#18

/-- The next location for LF: registers modulo 8, addresses modulo 32K words; the PS has none (R623). -/
def odtNext : OdtLoc → Option OdtLoc
  | .reg r => some (.reg (regOf ((r.toNat + 1) % 8)))
  | .ps => none
  | .addr a => some (.addr (a.extractLsb' 16 2 ++ (evenAddr (a + 2)).setWidth 16))

/-- The name that LF prints before the next location (R623). -/
def odtName : OdtLoc → List OdtAct
  | .reg r => [.out 0o122, .out (0o60 + BitVec.ofNat 8 r.toNat)]
  | .ps => []
  | .addr a => (octalDigits a).map .out

/-- Close the open location after LF and open the next one (R623). The deposit is made before the CR and LF that stand for the
echo are printed, so that after a deposit that fails only the error response is (DESIGN CHOICE: R623 does not place it; log
28). -/
def odtLineFeed (dep : List OdtAct) (l : OdtLoc) (o : Odt) : Odt :=
  match odtNext l with
  | none => { o with st := .reprompt, opened := none, acc := 0, todo := dep ++ odtPrompt }
  | some m =>
    { o with
      opened := none
      acc := 0
      todo := dep ++ odtPrompt ++ odtName m ++ [.out 0o57, .examine m] }

/-- Close the open location after CR (R622). -/
def odtClose (acts : List OdtAct) (o : Odt) : Odt :=
  { o with st := .reprompt, opened := none, acc := 0, todo := acts ++ odtPrompt }

/-- A character after a prompt, where `again` says that a slash may reopen the last location (R615 states 1 and 9). -/
def odtAtPrompt (again : Bool) (k : OdtKey) (echo : List OdtAct) (o : Odt) : Odt :=
  match k with
  | .digit d => { o with st := .address, acc := d.setWidth 18, todo := echo }
  | .designator => { o with st := .designator, acc := 0, lastS := false, todo := echo }
  | .letterG => { o with todo := echo ++ [.out 0, .out 0, .go 0] }
  | .letterP => { o with todo := echo ++ [.proceed] }
  | .dump => { o with st := .dump, dumpHi := none, todo := echo }
  | .letterH => { o with st := .prompt, todo := echo ++ odtPrompt }
  | .slash =>
    match again, o.last with
    | true, some l => { o with todo := echo ++ [.examine l] }
    | _, _ => odtError echo
  | _ => odtError echo

/-- A character in a state in which a location is open; `write` says that data has been typed (R615 states 3, 4, 7,
8). -/
def odtWhenOpen (write : Bool) (k : OdtKey) (echo : List OdtAct) (o : Odt) : Odt :=
  match o.opened with
  | none => odtError echo
  | some l =>
    let dep : List OdtAct := if write then [.deposit l (o.acc.setWidth 16)] else []
    match k with
    | .digit d =>
      { o with
        st := (match l with | .addr _ => .dataAddr | _ => .dataReg)
        acc := if write then odtDigit o.acc d else d.setWidth 18
        todo := echo }
    | .cr => odtClose (echo ++ dep) o
    | .lf => odtLineFeed dep l o
    | _ => odtError echo

/-- The console's reaction to a character, outside the address bytes of a dump (R615). -/
def odtCommand (k : OdtKey) (echo : List OdtAct) (o : Odt) : Odt :=
  match o.st with
  | .prompt => odtAtPrompt false k echo o
  | .reprompt => odtAtPrompt true k echo o
  | .designator =>
    match k with
    | .digit d => { o with st := .register, acc := d.setWidth 18, lastS := false, todo := echo }
    | .letterS => { o with st := .register, lastS := true, todo := echo }
    | _ => odtError echo
  | .address =>
    match k with
    | .digit d => { o with acc := odtDigit o.acc d, todo := echo }
    | .slash => { o with todo := echo ++ [.examine (.addr (evenAddr o.acc))] }
    | .letterG => { o with todo := echo ++ [.out 0, .out 0, .go (o.acc.setWidth 16)] }
    | _ => odtError echo
  | .register =>
    match k with
    | .digit d => { o with acc := odtDigit o.acc d, lastS := false, todo := echo }
    | .letterS => { o with lastS := true, todo := echo }
    | .slash => { o with todo := echo ++ [.examine (odtDesignated o)] }
    | _ => odtError echo
  | .openAddr => odtWhenOpen false k echo o
  | .openReg => odtWhenOpen false k echo o
  | .dataAddr => odtWhenOpen true k echo o
  | .dataReg => odtWhenOpen true k echo o
  | .dump => odtError echo

/-- An address byte of a binary dump; the second one starts the dump of ten bytes (R628; D45). -/
def odtDumpByte (c : Byte) (o : Odt) : Odt :=
  match o.dumpHi with
  | none => { o with dumpHi := some c }
  | some hi => { Odt.reset with todo := [.dump (hi ++ c) 10] }

/-- The console receives a character (R613, R615). -/
def odtChar (c : Byte) (o : Odt) : Odt :=
  if o.st = .dump then odtDumpByte c o else odtCommand (odtKey c) (odtEcho c) o

/-- Read a location (R620). -/
def odtRead (l : OdtLoc) (s : State) : Res Word :=
  match l with
  | .reg r => .ok (s.reg r) s
  | .ps => .ok s.ps s
  | .addr a => physRead a s

/-- Deposit into a location; the trace bit is kept (R620). -/
def odtWrite (l : OdtLoc) (v : Word) (s : State) : Res Unit :=
  match l with
  | .reg r => .ok () (s.setReg r v)
  | .ps => .ok () (s.setPsExplicit v)
  | .addr a => physWrite a v s

/-- A location has been read: print it and wait for data or a close command (R621). -/
def odtOpened (l : OdtLoc) (v : Word) (o : Odt) : Odt :=
  { o with
    st := (match l with | .addr _ => .openAddr | _ => .openReg)
    opened := some l, last := some l, acc := 0
    todo := (octalDigits (v.setWidth 18) ++ [0o40]).map .out }

/-- The G command: load R7, clear PS and FPS and the stack overflow, initialise the bus, and enter the service state
(R626; D31). -/
def odtGo (a : Word) (s : State) : Host.Outcome State Fault Refusal :=
  serviceState (busInit
    { s with pc := a, ps := 0, fps := if s.cfg.hasMmu then 0 else s.fps, stackOverflow := false, inhibitT := false,
             run := .run, odt := Odt.reset })

/-- What a reference of the console leads to: its value used, or the error response (R631), or the machine's stop. -/
def odtRef {α : Type} (x : Res α) (f : α → State → State) : Host.Outcome State Fault Refusal :=
  match x with
  | .ok a s => .next (f a s)
  | .trap _ s => .next { s with odt := odtError [] }
  | .fault e => .fault e
  | .refused r => .refused r

/-- A reference to the console's own registers, which the microcode repeats until it succeeds: a time-out makes no
progress (R612; D45). -/
def odtSpin {α : Type} (x : Res α) (f : α → State → Host.Outcome State Fault Refusal) :
    Host.Outcome State Fault Refusal :=
  match x with
  | .ok a s => f a s
  | .trap _ s => .next s
  | .fault e => .fault e
  | .refused r => .refused r

/-- The console's register addresses (R601). -/
def rcsrAddr : PAddr := 0o777560
def rbufAddr : PAddr := 0o777562
def xcsrAddr : PAddr := 0o777564
def xbufAddr : PAddr := 0o777566

/-- One test of `Out(c)`: when the transmitter is ready the character goes out and the action is done (R612). -/
def odtOut (c : Byte) (rest : List OdtAct) (s : State) : Host.Outcome State Fault Refusal :=
  odtSpin (physRead xcsrAddr s) fun v s =>
    if v.getLsbD 7 then
      odtSpin (physWrite xbufAddr (c.setWidth 16) s) fun _ s => .next { s with odt := { s.odt with todo := rest } }
    else .next s

/-- One test of `In()`: when a character is there it is read and acted on (R612). -/
def odtIn (s : State) : Host.Outcome State Fault Refusal :=
  odtSpin (physRead rcsrAddr s) fun v s =>
    if v.getLsbD 7 then
      odtSpin (physRead rbufAddr s) fun c s => .next { s with odt := odtChar (c.setWidth 8) s.odt }
    else .next s

/-- The bytes of a dump that one word gives: the low byte first, an odd address only the high one (R628; D45). -/
def dumpBytes (a : Word) (left : Nat) (v : Word) : List Byte :=
  if a.getLsbD 0 then [selectByte true v]
  else [selectByte false v, selectByte true v].take left

/-- The console's next micro-action; `rest` are the actions after it. The read of RBUF on entry is made once: its value is
not used, and a time-out or a parity error of it is ignored, the entry going on to print (DESIGN CHOICE: R612 and D45 speak of
the loops `In` and `Out` only, R631 of locations that the user names; log 28). -/
def odtPerform (act : OdtAct) (rest : List OdtAct) (s : State) : Host.Outcome State Fault Refusal :=
  let done (s : State) : State := { s with odt := { s.odt with todo := rest } }
  match act with
  | .out c => odtOut c rest s
  | .flush =>
    match physRead rbufAddr s with
    | .ok _ s => .next (done s)
    | .trap _ s => .next (done s)
    | .fault e => .fault e
    | .refused r => .refused r
  | .examine l => odtRef (odtRead l s) fun v s => { s with odt := odtOpened l v s.odt }
  | .deposit l v => odtRef (odtWrite l v s) fun _ s => done s
  | .go a => odtGo a s
  | .proceed => .next { s with run := .run, odt := Odt.reset }
  | .dump a left =>
    if left = 0 then .next { s with odt := { s.odt with todo := odtPrompt } }
    else odtRef (physRead (a.setWidth 18) s) fun v s =>
      let bs := dumpBytes a left v
      { s with odt := { s.odt with
          todo := bs.map .out ++ [.dump (a + BitVec.ofNat 16 bs.length) (left - bs.length)] } }

/-- One step of the console microcode (R610 to R632). -/
def odtStep (s : State) : Host.Outcome State Fault Refusal :=
  match s.odt.todo with
  | [] => odtIn s
  | act :: rest => odtPerform act rest s

end Sys2Proof.Machine
end

