-- ==== Sys2Proof/Machine/Cycle.lean ====
section
/-! DEFINITION. The machine's outer loop (spec/60_exceptions.md R542): one step is one instruction with the service state
that follows it, one micro-action of the console, one part of the power-up sequence, or one action of the environment. -/

namespace Sys2Proof.Machine

/-- Fetch one instruction and execute it; an abort of the fetch is taken at once (R542, R544). The member of a floating
code is chosen by FD and FL as they stand (spec/30_encoding.md R184). -/
def runInstr (s : State) : Host.Outcome State Fault Refusal :=
  match fetchInstr s with
  | .ok w t => exec ((decodeWord w).underModes t.fd t.fl) t
  | .trap t u => enterTrap t u
  | .fault f => .fault f
  | .refused r => .refused r

/-- The processor's step in each run state (spec/10_state.md R63). While a DMA device holds the bus the processor makes no
progress (spec/20_memory.md R115; log 30).

A trap sequence that an abort cut short (run state `trapping`) is followed by a service state, also where the sequence cut
short was the service state's own: the abort's sequence counts as an abort's (R544, R550) and not as the one condition that
the service state took (R543, D44). DESIGN CHOICE: the spec leaves it open (log 23, 25). In power-up
mode 3 the fetch follows without one (spec/70_reset_and_hazards.md R667). -/
def cpuStep (s : State) : Host.Outcome State Fault Refusal :=
  if s.bdmr then .next s
  else match s.run with
    | .powerOff => .next s
    | .powerWait => if s.bpok then powerUp s else .next s
    | .haltPowerTest => .next (powerClear s)
    | .run => afterInstr (runInstr s)
    | .wait => afterInstr (.next s)
    | .odt => odtStep s
    | .trapping t => afterInstr (enterTrap t s)
    | .powerTrap t => startTrap t s

/-- The head of the schedule says who moves; with an empty schedule the processor does (spec/00_scope.md R11; log 6). -/
def machineStep (s : State) : Host.Outcome State Fault Refusal :=
  match s.inputs with
  | [] => cpuStep s
  | .cpu :: rest => cpuStep { s with inputs := rest }
  | i :: rest => applyInput i { s with inputs := rest }

end Sys2Proof.Machine
end

