-- ==== Sys2Proof/Machine/Step.lean ====
section
/-! DEFINITION. The machine's step, and the state in which a given instruction is the next one to run. -/

namespace Sys2Proof.Machine

/-- One step of the machine. -/
def step (s : State) : Host.Outcome State Fault Refusal := machineStep s

/-- The state with an instruction stored where the next fetch finds it, the bits above `nbits` zero, and the processor
running undisturbed: what loading a program from outside and starting it leaves (log 6). -/
def State.withFetchWord (s : State) (nbits w : Nat) : State :=
  placeInstr (w % 2 ^ nbits) { s with run := .run, inputs := [], busInputs := [], bdmr := false }

end Sys2Proof.Machine
end

