-- ==== Sys2Proof/Safety.lean ====
section
/-! DEFINITION. What counts as a safe run, the invariant of the machine, and the vocabulary in which statements say what an
instruction leaves unchanged. -/

namespace Sys2Proof.Machine

/-! ## Stops -/

/-- The machine answers a next state for `n` steps: no fault and no refusal. -/
def SafeFor (n : Nat) (s : State) : Prop := ∃ t, Sys2Proof.core.run n s = .next t

/-- A configuration under which nothing stops the machine: no window of a device without a description, and a choice made
for a translated reference in mode 01 or 10 (spec/00_scope.md R10, spec/20_memory.md R101). -/
def totalConfig (c : Config) : Prop :=
  (∀ r ∈ c.memoryMap, r.kind ≠ .device) ∧ c.reservedMode ≠ .refuse

/-! ## The invariant -/

/-- The floating exception codes, 0 before the first exception (spec/10_state.md R55, spec/47_fp_state_formats.md R455). -/
def fecValues : List (BitVec 4) := [0, 2, 4, 6, 8, 10, 12]

/-- What holds in every state that the machine reaches and every step keeps: memory in its canonical form; the unimplemented
bits of the PS (spec/10_state.md R37), the page descriptors (R44), SR0 (R46, R47) and SR3 (R50) are 0; the floating
exception code is one of those that R455 gives; the processor is off exactly while BDCOK is negated (R63); the
transmitter is ready exactly when it holds no character (spec/61_console_odt_devices.md R604, R607). -/
abbrev State.Inv (s : State) : Prop :=
  s.mem.wf ∧
  s.ps &&& 0o007000#16 = 0 ∧
  (∀ i : Fin 8, s.kpdr[i] &&& 0o100261#16 = 0) ∧
  (∀ i : Fin 8, s.updr[i] &&& 0o100261#16 = 0) ∧
  s.sr0 &&& 0o017620#16 = 0 ∧
  s.sr3 &&& 0o177717#16 = 0 ∧
  s.fec ∈ fecValues ∧
  (s.run = .powerOff ↔ s.bdcok = false) ∧
  (s.slu.txReady = true ↔ s.slu.txChar = none)

/-! ## What an instruction may write -/

/-- The parts of the state that an instruction is allowed to change; R7 and the traces that reading an operand leaves
(the W bit of a page, the receiver's done flag, the mark of a stack overflow) are always among them. -/
structure Allow where
  /-- R0 to R5 -/
  gen  : Reg → Bool
  /-- the stack pointer cells -/
  sp   : BitVec 2 → Bool
  /-- the bits of the PS -/
  ps   : Word
  /-- the bytes of memory, by physical address -/
  byte : Nat → Bool
  /-- the floating accumulators -/
  acc  : Fin 6 → Bool
  /-- the bits of the FPS -/
  fps  : Word
  /-- FEC and FEA -/
  exc  : Bool

/-- Nothing but R7. -/
def Allow.nothing : Allow :=
  { gen := fun _ => false, sp := fun _ => false, ps := 0, byte := fun _ => false, acc := fun _ => false, fps := 0,
    exc := false }

/-- Allow a write of a general register in mode `m`. -/
def Allow.reg (w : Allow) (m : BitVec 2) (r : Reg) : Allow :=
  { w with gen := fun x => w.gen x || x == r, sp := fun k => w.sp k || (r == .r6 && k == m) }

/-- Allow a write of the condition codes. -/
def Allow.codes (w : Allow) : Allow := { w with ps := w.ps ||| 0o17 }

/-- The bytes of the word that a physical address lies in. -/
def wordBytes (a : PAddr) (b : Nat) : Bool := b == wordAddr a || b == wordAddr a + 1

/-- Allow a write of the word at a place: the register, or the two bytes of memory. -/
def Allow.word (w : Allow) (m : BitVec 2) (p : Place) : Allow :=
  match p with
  | .reg r => w.reg m r
  | .phys a => { w with byte := fun b => w.byte b || wordBytes a b }

/-- Allow a write of the byte at a place: the register, or the byte of memory. -/
def Allow.octet (w : Allow) (m : BitVec 2) (p : Place) : Allow :=
  match p with
  | .reg r => w.reg m r
  | .phys a => { w with byte := fun b => w.byte b || b == a.toNat }

/-- Allow a write of one floating accumulator and of the floating condition codes. -/
def Allow.floating (w : Allow) (i : Fin 6) : Allow := { w with acc := fun j => w.acc j || j == i, fps := w.fps ||| 0o17 }

/-- A place that is a register of the program or lies in memory that replies to a write, RAM or such ROM: not a register of
the processor or the console, nor an address at which nothing answers. -/
def Place.plain (c : Config) (p : Place) : Prop :=
  match p with
  | .reg _ => True
  | .phys a => intRegAt c (wordAddr a) = none ∧ ∃ r, regionAt c (wordAddr a) = some r ∧ (r.kind = .ram ∨ r.kind = .rom true)

/-- A place that replies to a write wherever it replied to a read: all but ROM that gives writes no reply. -/
def Place.writable (c : Config) (p : Place) : Prop :=
  match p with
  | .reg _ => True
  | .phys a => intRegAt c (wordAddr a) = none → ∀ r, regionAt c (wordAddr a) = some r → r.kind ≠ .rom false

/-- The state with everything blotted out that `Allow` speaks of, the traces that reading an operand leaves, and what
the other agents on the bus may change. -/
def State.base (s : State) : State :=
  { s with
    r0 := 0, r1 := 0, r2 := 0, r3 := 0, r4 := 0, r5 := 0
    sp0 := 0, sp1 := 0, sp2 := 0, sp3 := 0
    pc := 0, ps := 0
    kpdr := s.kpdr.map clearW, updr := s.updr.map clearW
    slu := Slu.reset
    parity := []
    busInputs := []
    stackOverflow := false
    mem := []
    ac := Vector.replicate 6 ⟨0, 0⟩
    fps := 0, fec := 0, fea := 0
    free := 0 }

/-- The frame: what `w` does not allow is the same before and after; and so is all of the state that `Allow` does not
speak of. What other agents do on the bus meanwhile is not the instruction's: memory, the console unit and the parity plan
are compared where the schedule lets nobody act (`busInputs` is empty). -/
structure Frame (w : Allow) (s t : State) : Prop where
  gen  : ∀ r, r ≠ .r6 → r ≠ .r7 → w.gen r = false → t.reg r = s.reg r
  sp   : ∀ m, w.sp m = false → t.spOf m = s.spOf m
  ps   : t.ps &&& ~~~w.ps = s.ps &&& ~~~w.ps
  byte : s.busInputs = [] → ∀ a, w.byte a = false → t.mem.read a = s.mem.read a
  acc  : ∀ i, w.acc i = false → t.ac[i] = s.ac[i]
  fps  : t.fps &&& ~~~w.fps = s.fps &&& ~~~w.fps
  exc  : w.exc = false → t.fec = s.fec ∧ t.fea = s.fea
  base : t.base = s.base
  bus  : s.busInputs = [] → t.busInputs = [] ∧ t.parity = s.parity ∧
    { t.slu with rxDone := false } = { s.slu with rxDone := false }

end Sys2Proof.Machine
end

