-- ==== Sys2Proof/Certificates/Slice0/Obligations.lean ====
section
/-! DEFINITION. The statements for the provers. The first part is the vocabulary: what the rules of spec/ say, in terms of
numbers and of the model's own operand evaluation; the second part states. -/

open Sys2Proof Sys2Proof.Machine

namespace Sys2Proof.Spec

/-! ## Results and condition codes in terms of numbers -/

/-- N and Z of a result (R231), V and C as given. -/
def codesOf {w : Nat} (r : BitVec w) (v c : Bool) : CC := ⟨decide (2 ^ (w - 1) ≤ r.toNat), decide (r.toNat = 0), v, c⟩

/-- The codes of a shift by one place: V is N exclusive or C (R231). -/
def shiftCodes {w : Nat} (r : BitVec w) (c : Bool) : CC := codesOf r (decide (2 ^ (w - 1) ≤ r.toNat) != c) c

/-- COM (R234, R235). -/
def comRule {w : Nat} (d : BitVec w) (_x : CC) : BitVec w × CC :=
  let r := BitVec.ofNat w (2 ^ w - 1 - d.toNat)
  (r, codesOf r false true)

/-- INC (R236, R237). -/
def incRule {w : Nat} (d : BitVec w) (x : CC) : BitVec w × CC :=
  let r := BitVec.ofNat w (d.toNat + 1)
  (r, codesOf r (decide (d.toNat = 2 ^ (w - 1) - 1)) x.c)

/-- DEC (R238, R239). -/
def decRule {w : Nat} (d : BitVec w) (x : CC) : BitVec w × CC :=
  let r := BitVec.ofInt w (d.toNat - 1)
  (r, codesOf r (decide (d.toNat = 2 ^ (w - 1))) x.c)

/-- NEG (R240, R241). -/
def negRule {w : Nat} (d : BitVec w) (_x : CC) : BitVec w × CC :=
  let r := BitVec.ofInt w (-d.toNat)
  (r, codesOf r (decide (r.toNat = 2 ^ (w - 1))) (decide (r.toNat ≠ 0)))

/-- ADC (R244, R245). -/
def adcRule {w : Nat} (d : BitVec w) (x : CC) : BitVec w × CC :=
  let r := BitVec.ofNat w (d.toNat + bitNat x.c)
  (r, codesOf r (decide (d.toNat = 2 ^ (w - 1) - 1) && x.c) (decide (d.toNat = 2 ^ w - 1) && x.c))

/-- SBC (R246, R247). -/
def sbcRule {w : Nat} (d : BitVec w) (x : CC) : BitVec w × CC :=
  let r := BitVec.ofInt w (d.toNat - bitNat x.c)
  (r, codesOf r (decide (d.toNat = 2 ^ (w - 1)) && x.c) (decide (d.toNat = 0) && x.c))

/-- ROR (R250, R251). -/
def rorRule {w : Nat} (d : BitVec w) (x : CC) : BitVec w × CC :=
  let r := BitVec.ofNat w (bitNat x.c * 2 ^ (w - 1) + d.toNat / 2)
  (r, shiftCodes r (decide (d.toNat % 2 = 1)))

/-- ROL (R252, R253). -/
def rolRule {w : Nat} (d : BitVec w) (x : CC) : BitVec w × CC :=
  let r := BitVec.ofNat w (2 * d.toNat + bitNat x.c)
  (r, shiftCodes r (decide (2 ^ (w - 1) ≤ d.toNat)))

/-- ASR: division by two, rounded toward minus infinity (R254, R255). -/
def asrRule {w : Nat} (d : BitVec w) (_x : CC) : BitVec w × CC :=
  let r := BitVec.ofInt w (d.toInt / 2)
  (r, shiftCodes r (decide (d.toNat % 2 = 1)))

/-- ASL (R256, R257). -/
def aslRule {w : Nat} (d : BitVec w) (_x : CC) : BitVec w × CC :=
  let r := BitVec.ofNat w (2 * d.toNat)
  (r, shiftCodes r (decide (2 ^ (w - 1) ≤ d.toNat)))

/-- SWAB (R262). -/
def swabRule (d : Word) (_x : CC) : Word × CC :=
  let lo := d.toNat / 256
  (BitVec.ofNat 16 (d.toNat % 256 * 256 + lo), ⟨decide (128 ≤ lo), decide (lo = 0), false, false⟩)

/-- ADD: V when the signed sum does not fit, C when the unsigned sum does not (R286). -/
def addRule (s d : Word) (_x : CC) : Word × CC :=
  let r := BitVec.ofNat 16 (s.toNat + d.toNat)
  (r, codesOf r (decide (r.toInt ≠ s.toInt + d.toInt)) (decide (2 ^ 16 ≤ s.toNat + d.toNat)))

/-- SUB: destination minus source (R287). -/
def subRule (s d : Word) (_x : CC) : Word × CC :=
  let r := BitVec.ofInt 16 (d.toNat - s.toNat)
  (r, codesOf r (decide (r.toInt ≠ d.toInt - s.toInt)) (decide (d.toNat < s.toNat)))

/-- CMP: source minus destination (R284, R285). -/
def cmpRule {w : Nat} (s d : BitVec w) (_x : CC) : CC :=
  let r := BitVec.ofInt w (s.toNat - d.toNat)
  codesOf r (decide (r.toInt ≠ s.toInt - d.toInt)) (decide (s.toNat < d.toNat))

/-- The logical instructions: V cleared, C kept (R281). -/
def logicRule {w : Nat} (r : BitVec w) (x : CC) : BitVec w × CC := (r, codesOf r false x.c)

/-! ## Which instruction follows which rule -/

/-- The word instructions that rewrite their destination. -/
def rewritesWord : Instr → Option (Operand × (Word → CC → Word × CC))
  | .com o => some (o, comRule)
  | .inc o => some (o, incRule)
  | .dec o => some (o, decRule)
  | .neg o => some (o, negRule)
  | .adc o => some (o, adcRule)
  | .sbc o => some (o, sbcRule)
  | .ror o => some (o, rorRule)
  | .rol o => some (o, rolRule)
  | .asr o => some (o, asrRule)
  | .asl o => some (o, aslRule)
  | .swab o => some (o, swabRule)
  | _ => none

/-- The byte instructions that rewrite their destination. -/
def rewritesByte : Instr → Option (Operand × (Byte → CC → Byte × CC))
  | .comb o => some (o, comRule)
  | .incb o => some (o, incRule)
  | .decb o => some (o, decRule)
  | .negb o => some (o, negRule)
  | .adcb o => some (o, adcRule)
  | .sbcb o => some (o, sbcRule)
  | .rorb o => some (o, rorRule)
  | .rolb o => some (o, rolRule)
  | .asrb o => some (o, asrRule)
  | .aslb o => some (o, aslRule)
  | _ => none

/-- The word instructions of a source and a destination that rewrite the destination; XOR's source is a register. -/
def combinesWord : Instr → Option (Operand × Operand × (Word → Word → CC → Word × CC))
  | .bic s d => some (s, d, fun x y cc => logicRule (~~~x &&& y) cc)
  | .bis s d => some (s, d, fun x y cc => logicRule (x ||| y) cc)
  | .xor r d => some (⟨.reg, r⟩, d, fun x y cc => logicRule (x ^^^ y) cc)
  | .add s d => some (s, d, addRule)
  | .sub s d => some (s, d, subRule)
  | _ => none

/-- The byte instructions of a source and a destination that rewrite the destination. -/
def combinesByte : Instr → Option (Operand × Operand × (Byte → Byte → CC → Byte × CC))
  | .bicb s d => some (s, d, fun x y cc => logicRule (~~~x &&& y) cc)
  | .bisb s d => some (s, d, fun x y cc => logicRule (x ||| y) cc)
  | _ => none

/-- The word instructions that only compare, and the codes they leave. -/
def comparesWord : Instr → Option (Operand × Operand × (Word → Word → CC → CC))
  | .cmp s d => some (s, d, cmpRule)
  | .bit s d => some (s, d, fun x y cc => (logicRule (x &&& y) cc).2)
  | _ => none

/-- The byte instructions that only compare. -/
def comparesByte : Instr → Option (Operand × Operand × (Byte → Byte → CC → CC))
  | .cmpb s d => some (s, d, cmpRule)
  | .bitb s d => some (s, d, fun x y cc => (logicRule (x &&& y) cc).2)
  | _ => none

/-- The base code, the offset and the condition of each branch (R321 to R337). -/
def branchRule : Instr → Option (Nat × BitVec 8 × (CC → Prop))
  | .br k => some (0o000400, k, fun _ => True)
  | .bne k => some (0o001000, k, fun x => x.z = false)
  | .beq k => some (0o001400, k, fun x => x.z = true)
  | .bpl k => some (0o100000, k, fun x => x.n = false)
  | .bmi k => some (0o100400, k, fun x => x.n = true)
  | .bvc k => some (0o102000, k, fun x => x.v = false)
  | .bvs k => some (0o102400, k, fun x => x.v = true)
  | .bcc k => some (0o103000, k, fun x => x.c = false)
  | .bcs k => some (0o103400, k, fun x => x.c = true)
  | .bge k => some (0o002000, k, fun x => x.n = x.v)
  | .blt k => some (0o002400, k, fun x => x.n ≠ x.v)
  | .bgt k => some (0o003000, k, fun x => x.z = false ∧ x.n = x.v)
  | .ble k => some (0o003400, k, fun x => x.z = true ∨ x.n ≠ x.v)
  | .bhi k => some (0o101000, k, fun x => x.c = false ∧ x.z = false)
  | .blos k => some (0o101400, k, fun x => x.c = true ∨ x.z = true)
  | .bhis k => some (0o103000, k, fun x => x.c = false)
  | .blo k => some (0o103400, k, fun x => x.c = true)
  | _ => none

/-- The condition code operators: the sense, and the mask in the order N, Z, V, C (R400 to R403). -/
def codeOperator : Instr → Option (Bool × CC)
  | .nop => some (false, ⟨false, false, false, false⟩)
  | .clc => some (false, ⟨false, false, false, true⟩)
  | .clv => some (false, ⟨false, false, true, false⟩)
  | .clz => some (false, ⟨false, true, false, false⟩)
  | .cln => some (false, ⟨true, false, false, false⟩)
  | .ccc => some (false, ⟨true, true, true, true⟩)
  | .sec => some (true, ⟨false, false, false, true⟩)
  | .sev => some (true, ⟨false, false, true, false⟩)
  | .sez => some (true, ⟨false, true, false, false⟩)
  | .sen => some (true, ⟨true, false, false, false⟩)
  | .scc => some (true, ⟨true, true, true, true⟩)
  | .ccop t n z v c => some (t, ⟨n, z, v, c⟩)
  | _ => none

/-- The instructions whose own effect is a trap, and its cause (R370 to R373, R189). -/
def trapsBy : Instr → Option Trap
  | .emt _ => some .emt
  | .trap _ => some .trap
  | .bpt => some .bpt
  | .iot => some .iot
  | .reserved000010 _ => some .reservedInstruction
  | .reserved000210 _ => some .reservedInstruction
  | .reserved007000 _ => some .reservedInstruction
  | .reserved075000 _ => some .reservedInstruction
  | .reserved107000 _ => some .reservedInstruction
  | _ => none

/-! ## Operands -/

/-- How far each mode steps its register for an operand of `n` bytes: one byte, one word, two words (an F datum, an L integer, the
STST pair) or four words (a D datum). The modes through a pointer step by 2, and so does an immediate of any size; R6 and R7 step
by 2 for a byte; else the step is the size, that of R7 in mode 4 included (R202, R474). -/
def stepRule (n : Nat) (m : AMode) (r : Reg) : Nat :=
  match m with
  | .autoInc => if r = .r7 ∨ (r = .r6 ∧ n = 1) then 2 else n
  | .autoDec => if (r = .r6 ∨ r = .r7) ∧ n = 1 then 2 else n
  | .autoIncDef | .autoDecDef => 2
  | _ => 0

/-- Evaluate a word specifier and translate it once, for the kind of access that is made (R135, R200). -/
def wordPlace (k : Access) (o : Operand) (s : State) : Res Place := (locate 2 o s).bind (placeOf k)

/-- The byte form. -/
def bytePlace (k : Access) (o : Operand) (s : State) : Res Place := (locate 1 o s).bind (placeOf k)

/-- The source word `x` of a double operand instruction and its destination's place `p` (R201): a memory source is
evaluated and read first, the destination is evaluated, and only then is a register source read. `t` is the state
reached. -/
def sourceAndPlace (k : Access) (src dst : Operand) (s : State) (x : Word) (p : Place) (t : State) : Prop :=
  (src.mode = .reg ∧ wordPlace k dst s = .ok p t ∧ x = t.reg src.reg) ∨
  (src.mode ≠ .reg ∧ ∃ u, loadWord src s = .ok x u ∧ wordPlace k dst u = .ok p t)

/-- The byte form. -/
def sourceAndPlaceByte (k : Access) (src dst : Operand) (s : State) (x : Byte) (p : Place) (t : State) : Prop :=
  (src.mode = .reg ∧ bytePlace k dst s = .ok p t ∧ x = (t.reg src.reg).setWidth 8) ∨
  (src.mode ≠ .reg ∧ ∃ u, loadByte src s = .ok x u ∧ bytePlace k dst u = .ok p t)

/-- What an instruction with one specifier may change apart from its destination: the specifier's register. -/
def touching (s : State) (o : Operand) : Allow := Allow.nothing.reg s.mode o.reg

/-- With two specifiers. -/
def touching2 (s : State) (src dst : Operand) : Allow := (touching s src).reg s.mode dst.reg

/-- The state in which a push writes: R6 two lower, and marked if that is below the stack limit. -/
def lowered (s : State) : State := (s.setReg .r6 (s.reg .r6 - 2)).noteStack (s.reg .r6 - 2)

/-- The physical address that a push stores to. -/
def pushPlace (s : State) (a : PAddr) : Prop := ∃ y, translate s.mode (s.reg .r6 - 2) .write (lowered s) = .ok a y

/-! ## Floating data -/

/-- The biased exponent of a datum (R433). -/
def expOf (x : Datum) : Nat := x.toNat / 2 ^ 55 % 256

/-- The number that a datum stands for: 0 when its biased exponent is 0 (R434, R445). -/
def datumVal (x : Datum) : ℚ :=
  if expOf x = 0 then 0
  else (if x.getLsbD 63 then -1 else 1) * (2 ^ 55 + (x.toNat % 2 ^ 55 : Nat) : ℚ) * 2 ^ ((expOf x : ℤ) - 184)

/-- FN and FZ of a datum, by its stored pattern (R448; D39), FV and FC as given. -/
def floatCodes (x : Datum) (v c : Bool) : CC := ⟨x.getLsbD 63, decide (expOf x = 0), v, c⟩

/-- The datum in an accumulator: all of it in double precision, the high half in single (R439). -/
def accDatum (dbl : Bool) (i : Fin 6) (s : State) : Datum := s.ac[i].hi ++ (if dbl then s.ac[i].lo else 0)

/-- An accumulator takes a datum; in single precision its low half is free (R439; D38, log 21). -/
def accSet (dbl : Bool) (i : Fin 6) (x : Datum) (s t : State) : Prop :=
  ∃ lo, (dbl = true → lo = x.extractLsb' 0 32) ∧
    t = { s with ac := s.ac.set i ⟨x.extractLsb' 32 32, lo⟩, free := if dbl then s.free else s.free + 1 }

/-- A datum from its sign, an `L`-bit significand and an unbiased exponent, the leading bit of the significand hidden and the
low eight bits of the biased exponent stored (R433, R446). -/
def pattern (neg : Bool) (L k : Nat) (e : ℤ) : Datum :=
  BitVec.ofBool neg ++ BitVec.ofInt 8 (e + 128) ++ BitVec.ofNat 55 (k * 2 ^ (56 - L))

/-- The significand `k` of `L` bits and the exponent `e` of a nonzero number chopped or rounded by R443: the number is
`2 ^ e0 * f` with `1/2 <= f < 1`; the first `L` bits of `f` are kept, and rounding adds one to the last of them when the first
bit lost is 1; a carry out of them makes the exponent one more. -/
def narrow (L : Nat) (chop : Bool) (r : ℚ) (k : Nat) (e : ℤ) : Prop :=
  ∃ e0 : ℤ, (2 : ℚ) ^ (e0 - 1) ≤ |r| ∧ |r| < 2 ^ e0 ∧
    let n := ⌊|r| * 2 ^ ((L : ℤ) - e0) + if chop then 0 else 1 / 2⌋
    if n = 2 ^ L then k = 2 ^ (L - 1) ∧ e = e0 + 1 else (k : ℤ) = n ∧ e = e0

/-- The fraction width: 56 in double, 24 in single precision (R441). -/
def widthOf (dbl : Bool) : Nat := if dbl then 56 else 24

/-- What an arithmetic instruction makes of its exact result `r` (R446): the datum stored, FV, and the exception. -/
def resultRule (dbl chop fiv fiu : Bool) (r : ℚ) (d : Datum) (v : Bool) (code : Option (BitVec 4)) : Prop :=
  if r = 0 then d = 0 ∧ v = false ∧ code = none
  else ∃ k e, narrow (widthOf dbl) chop r k e ∧
    if 127 < e then
      v = true ∧ if fiv then d = pattern (decide (r < 0)) (widthOf dbl) k e ∧ code = some 8 else d = 0 ∧ code = none
    else if e < -127 then
      v = false ∧ if fiu then d = pattern (decide (r < 0)) (widthOf dbl) k e ∧ code = some 10 else d = 0 ∧ code = none
    else d = pattern (decide (r < 0)) (widthOf dbl) k e ∧ v = false ∧ code = none

/-- What a conversion to single precision makes of a nonzero datum (R492, R493). -/
def singleRule (chop fiv : Bool) (x d : Datum) (v : Bool) (code : Option (BitVec 4)) : Prop :=
  ∃ k e, narrow 24 chop (datumVal x) k e ∧
    if 127 < e then
      v = true ∧ if fiv then d = BitVec.ofBool (x.getLsbD 63) ++ (0 : BitVec 63) ∧ code = some 8 else d = 0 ∧ code = none
    else d = pattern (x.getLsbD 63) 24 k e ∧ v = false ∧ code = none

/-- The exact product, in double precision chopped to its 64 leading bits (R491; D41). -/
def productRule (dbl : Bool) (p q : ℚ) : Prop :=
  if dbl = true ∧ p ≠ 0 then
    ∃ e : ℤ, (2 : ℚ) ^ (e - 1) ≤ |p| ∧ |p| < 2 ^ e ∧
      q = (if p < 0 then -1 else 1) * ⌊|p| * 2 ^ (64 - e)⌋ * 2 ^ (e - 64)
  else q = p

/-- What MOD makes of its product `q`: the integer part's datum `hi`, the fraction's datum `lo`, FV, and the exception (R491,
cases 1 to 5). -/
def modRule (dbl chop fiv fiu : Bool) (q : ℚ) (hi lo : Datum) (v : Bool) (code : Option (BitVec 4)) : Prop :=
  let L := widthOf dbl
  let neg := decide (q < 0)
  let n : ℚ := (if q < 0 then -1 else 1) * ⌊|q|⌋
  if q = 0 then hi = 0 ∧ lo = 0 ∧ v = false ∧ code = none
  else if 2 ^ 127 ≤ |q| then
    v = true ∧ lo = 0 ∧
    if fiv then (∃ k e, narrow L true q k e ∧ hi = pattern neg L k e) ∧ code = some 8 else hi = 0 ∧ code = none
  else if 2 ^ L ≤ |q| then
    v = false ∧ lo = 0 ∧ code = none ∧ ∃ k e, narrow L true q k e ∧ hi = pattern neg L k e
  else if 1 ≤ |q| then
    v = false ∧ code = none ∧ (∃ k e, narrow L true n k e ∧ hi = pattern neg L k e) ∧
    if q = n then lo = 0 else ∃ k e, narrow L chop (q - n) k e ∧ lo = pattern neg L k e
  else hi = 0 ∧ resultRule dbl chop fiv fiu q lo v code

/-! ## Floating operands and exceptions -/

/-- A floating specifier evaluates to a place (R472): an accumulator in mode 0, else memory, with one word only in
immediate mode (R474). -/
def fpPlace (dbl : Bool) (o : Operand) (s : State) (p : FpPlace) (t : State) : Prop :=
  (o.mode = .reg ∧ t = s ∧ ∃ i, accOf o.reg = some i ∧ p = .acc i) ∨
  (o.mode ≠ .reg ∧ ∃ va, locate (if dbl then 8 else 4) o s = .ok (.mem va) t ∧
    p = .mem va (decide (o.mode = .autoInc ∧ o.reg = .r7)))

/-- A floating operand `x` is read from a place (R473). -/
def fpRead (dbl : Bool) (o : Operand) (s : State) (x : Datum) (p : FpPlace) (t : State) : Prop :=
  ∃ u, fpPlace dbl o s p u ∧ readFp dbl p u = .ok x t

/-- The undefined variable is trapped: a -0 that came from memory, with FIUV set (R452). -/
def undefinedVariable (p : FpPlace) (x : Datum) (s : State) : Bool :=
  (match p with | .acc _ => false | .mem _ _ => true) && x.getLsbD 63 && decide (expOf x = 0) && s.fps.getLsbD 11

/-- How a floating instruction that began in state `s` ends in state `t`: without an exception in `t`; else FER, FEC and FEA
record it, and it traps through 244 unless FID is set (R451, R454, R455). -/
def ends (x : Host.Outcome State Fault Refusal) (s : State) (code : Option (BitVec 4)) (t : State) : Prop :=
  match code with
  | none => x = .next t
  | some c =>
    let r := { t with fps := t.fps ||| 0o100000, fec := c, fea := s.pc - 2 }
    if s.fps.getLsbD 14 then x = .next r else x = enterTrap .floating r ∧ Trap.floating.vector = 0o244

/-- The word that holds the operand of an integer conversion, or the two of them (R475, R494). -/
def integerSource (o : Operand) (s : State) (n : ℤ) (t : State) : Prop :=
  if s.fl = false then ∃ w, loadWord o s = .ok w t ∧ n = w.toInt
  else if o.mode = .reg then n = (s.reg o.reg).toInt * 65536 ∧ t = s
  else if o.mode = .autoInc ∧ o.reg = .r7 then
    ∃ va u w, locate 4 o s = .ok (.mem va) u ∧ readWord va u = .ok w t ∧ n = w.toInt * 65536
  else
    ∃ va u w z x, locate 4 o s = .ok (.mem va) u ∧ readWord va u = .ok w z ∧ readWord (va + 2) z = .ok x t ∧
      n = w.toInt * 65536 + x.toNat

/-- Words are stored at a location at ascending addresses; a register takes the first of them (R475, R476). -/
def stores (ws : List Word) (l : Loc) (s t : State) : Prop :=
  match l with
  | .reg r => t = s.setReg r (ws.headD 0)
  | .mem va => writeWords ws va s = .ok () t

/-- The bytes of `n` words from a virtual address on. -/
def wordsAt (m : BitVec 2) (va : Word) (n : Nat) (s : State) (b : Nat) : Bool :=
  (List.range n).any fun k =>
    match translate m (va + BitVec.ofNat 16 (2 * k)) .write s with
    | .ok a _ => wordBytes a b
    | _ => false

/-- The `n` words from a virtual address on can be stored, in memory that replies. -/
def plainWords (m : BitVec 2) (va : Word) (n : Nat) (s : State) : Prop :=
  ∀ k, k < n → ∃ a t r, translate m (va + BitVec.ofNat 16 (2 * k)) .write s = .ok a t ∧
    intRegAt s.cfg (wordAddr a) = none ∧ regionAt s.cfg (wordAddr a) = some r ∧ (r.kind = .ram ∨ r.kind = .rom true)

/-! ## Which floating instruction does what -/

/-- The arithmetic instructions (R486 to R489); an accumulator of 0 divided gives 0. -/
def floatArithmetic : Instr → Option (Ac × Operand × (ℚ → ℚ → ℚ))
  | .addf a o | .addd a o => some (a, o, fun x y => x + y)
  | .subf a o | .subd a o => some (a, o, fun x y => x - y)
  | .mulf a o | .muld a o => some (a, o, fun x y => x * y)
  | .divf a o | .divd a o => some (a, o, fun x y => x / y)
  | _ => none

/-- The instructions with an FSRC or FDST specifier (R471), and whether its precision is the other one. -/
def floatSpecifier : Instr → Option (Operand × Bool)
  | .clrf o | .clrd o | .tstf o | .tstd o | .absf o | .absd o | .negf o | .negd o => some (o, false)
  | .mulf _ o | .muld _ o | .modf _ o | .modd _ o | .addf _ o | .addd _ o | .ldf _ o | .ldd _ o | .subf _ o | .subd _ o
  | .cmpf _ o | .cmpd _ o | .stf _ o | .std _ o | .divf _ o | .divd _ o => some (o, false)
  | .stcfd _ o | .stcdf _ o | .ldcdf _ o | .ldcfd _ o => some (o, true)
  | _ => none

/-- The floating instructions that only read their operand and may write an accumulator: which one, and, for MOD, the one
that takes the integer part. -/
def floatReader : Instr → Option (List (Fin 6) × Operand × Bool)
  | .tstf o | .tstd o => some ([], o, false)
  | .addf a o | .addd a o | .subf a o | .subd a o | .mulf a o | .muld a o | .divf a o | .divd a o | .cmpf a o | .cmpd a o
  | .ldf a o | .ldd a o => some ([acIndex a], o, false)
  | .modf a o | .modd a o => some ([acIndex a, acOrOne a], o, false)
  | .ldcdf a o | .ldcfd a o => some ([acIndex a], o, true)
  | _ => none

/-- The floating instructions that write their floating operand, whether its precision is the other one, and what else they
may change: STF nothing, CLR the floating codes, the conversions the codes and the record of an exception. -/
def floatWriter : Instr → Option (Operand × Bool × (Allow → Allow))
  | .stf _ o | .std _ o => some (o, false, id)
  | .clrf o | .clrd o => some (o, false, fun w => { w with fps := 0o17 })
  | .stcfd _ o | .stcdf _ o => some (o, true, fun w => { w with fps := 0o100017, exc := true })
  | _ => none

/-- The floating instructions that store integers, exponents or status words: the specifier's size in bytes, how many words
are stored in memory (one in immediate mode, R475 to R477), and what else they may change. -/
def wordStorer (long : Bool) : Instr → Option (Operand × Nat × Nat × (Allow → Allow))
  | .stexp _ o => some (o, 2, 1, fun w => { w.codes with fps := 0o17 })
  | .stfps o => some (o, 2, 1, id)
  | .stst o => some (o, 4, if o.mode = .autoInc ∧ o.reg = .r7 then 1 else 2, id)
  | .stcfi _ o | .stcfl _ o | .stcdi _ o | .stcdl _ o =>
    some (o, if long then 4 else 2, if long = false ∨ o.mode = .autoInc ∧ o.reg = .r7 then 1 else 2,
      fun w => { w.codes with fps := 0o100017, exc := true })
  | _ => none

/-- An instruction ends in a state that its frame admits; it traps through 244 from there only if it may record an
exception. -/
def framed (x : Host.Outcome State Fault Refusal) (w : Allow) (s : State) : Prop :=
  ∃ t, (x = .next t ∨ w.exc = true ∧ x = enterTrap .floating t) ∧ Frame w s t

/-- Every floating instruction, the unassigned codes included (R184, R185). -/
def isFloating (i : Instr) : Bool := decide (0o170000 ≤ i.encodeNat)

/-! ## Memory -/

/-- The word at a physical address is read and written memory: no register of the processor, in a region of RAM, without
a parity error. -/
def isRam (s : State) (a : PAddr) : Prop :=
  intRegAt s.cfg (wordAddr a) = none ∧ s.parity.contains (wordAddr a) = false ∧
  ∃ r, regionAt s.cfg (wordAddr a) = some r ∧ r.kind = .ram

/-- No register of the processor and no slave on the bus answers at a physical address. -/
def nothingAt (s : State) (a : PAddr) : Prop :=
  intRegAt s.cfg (wordAddr a) = none ∧ regionAt s.cfg (wordAddr a) = none

/-- A word with one of its bytes replaced, the byte of the higher address being the upper one (R84, R87). -/
def withByte (odd : Fin 2) (b : Byte) (v : Word) : Word :=
  BitVec.ofNat 16 (if odd.val = 1 then b.toNat * 256 + v.toNat % 256 else v.toNat / 256 * 256 + b.toNat)

/-- The page registers of a mode: kernel's in mode 00, user's in mode 11; in modes 01 and 10 as the parameter says
(R122, R123). -/
def pagesOf (c : Config) (m : BitVec 2) : Option Bool :=
  if m = 0 then some false else if m = 3 then some true
  else match c.reservedMode with | .asUser => some true | .asKernel => some false | _ => none

/-! ## The console -/

/-- The console serial line unit is at its four addresses (R601). -/
def hasConsole (s : State) : Prop :=
  ∀ a : Nat, a = 0o777560 ∨ a = 0o777562 ∨ a = 0o777564 ∨ a = 0o777566 →
    ∃ r, regionAt s.cfg a = some r ∧ r.kind = .console

/-- The console microcode is in control and no other agent acts. -/
def atConsole (s : State) : Prop :=
  s.inputs = [] ∧ s.busInputs = [] ∧ s.bdmr = false ∧ s.run = .odt ∧ hasConsole s

/-- Characters to be printed, by their ASCII codes. -/
def show_ (l : List Nat) : List OdtAct := l.map fun c => .out (BitVec.ofNat 8 c)

/-- The six octal digits of a number, in ASCII. -/
def octal6 (n : Nat) : List Nat :=
  [48 + n / 32768 % 8, 48 + n / 4096 % 8, 48 + n / 512 % 8, 48 + n / 64 % 8, 48 + n / 8 % 8, 48 + n % 8]

/-- CR, LF and the prompt. -/
def newPrompt : List OdtAct := show_ [13, 10, 64]

/-- The echo of a character, parity bit and all; NUL, STX, BS and LF have none (R613). -/
def echoOf (c : Byte) : List OdtAct := if c.toNat % 128 ∈ [0, 2, 8, 10] then [] else [.out c]

/-- The error response: `?`, CR, LF, prompt; state 1, nothing open, nothing remembered (R631, R632; D45). -/
def consoleError (echo : List OdtAct) : Odt :=
  { st := .prompt, opened := none, last := none, acc := 0, lastS := false, dumpHi := none
    todo := echo ++ show_ [63, 13, 10, 64] }

/-- A digit behind those typed, the last six octal digits kept (R614). -/
def appendDigit (acc : BitVec 18) (k : Nat) : BitVec 18 := BitVec.ofNat 18 (acc.toNat * 8 + (k - 48))

/-- The next location for LF: registers modulo 8; addresses by 2 modulo 2^16, the two bits above kept (R623). -/
def nextLocation : OdtLoc → Option OdtLoc
  | .reg r => some (.reg (regOf ((r.toNat + 1) % 8)))
  | .ps => none
  | .addr a => some (.addr (BitVec.ofNat 18 (a.toNat / 65536 * 65536 + (a.toNat % 65536 / 2 * 2 + 2) % 65536)))

/-- The name that LF prints (R623). -/
def nameOf : OdtLoc → List Nat
  | .reg r => [82, 48 + r.toNat]
  | .ps => []
  | .addr a => octal6 a.toNat

/-- What the console makes of a character `c` in state `o` (R613 to R615, R621 to R632); `k` is the character without its
parity bit. -/
def consoleRule (c : Byte) (o : Odt) : Odt :=
  let k := c.toNat % 128
  let echo := echoOf c
  let digit : Bool := decide (48 ≤ k ∧ k ≤ 55)
  let error := consoleError echo
  match o.st with
  | .prompt | .reprompt =>
    if digit then { o with st := .address, acc := BitVec.ofNat 18 (k - 48), todo := echo }
    else if k = 82 ∨ k = 114 ∨ k = 36 then { o with st := .designator, acc := 0, lastS := false, todo := echo }
    else if k = 71 ∨ k = 103 then { o with todo := echo ++ [.out 0, .out 0, .go 0] }
    else if k = 80 ∨ k = 112 then { o with todo := echo ++ [.proceed] }
    else if k = 72 ∨ k = 104 then { o with st := .prompt, todo := echo ++ newPrompt }
    else if k = 19 then { o with st := .dump, dumpHi := none, todo := echo }
    else if k = 47 then
      match o.st, o.last with
      | .reprompt, some l => { o with todo := echo ++ [.examine l] }
      | _, _ => error
    else error
  | .designator =>
    if digit then { o with st := .register, acc := BitVec.ofNat 18 (k - 48), lastS := false, todo := echo }
    else if k = 83 ∨ k = 115 then { o with st := .register, lastS := true, todo := echo }
    else error
  | .register =>
    if digit then { o with acc := appendDigit o.acc k, lastS := false, todo := echo }
    else if k = 83 ∨ k = 115 then { o with lastS := true, todo := echo }
    else if k = 47 then
      { o with todo := echo ++ [.examine
          (if o.lastS ∨ o.acc.toNat % 512 = 0o077 ∨ o.acc.toNat % 512 = 0o477 then .ps
           else .reg (regOf (o.acc.toNat % 8)))] }
    else error
  | .address =>
    if digit then { o with acc := appendDigit o.acc k, todo := echo }
    else if k = 47 then
      { o with todo := echo ++ [.examine (.addr (BitVec.ofNat 18 (o.acc.toNat / 2 * 2)))] }
    else if k = 71 ∨ k = 103 then
      { o with todo := echo ++ [.out 0, .out 0, .go (BitVec.ofNat 16 o.acc.toNat)] }
    else error
  | .dump =>
    match o.dumpHi with
    | none => { o with dumpHi := some c }
    | some hi =>
      { st := .prompt, opened := none, last := none, acc := 0, lastS := false, dumpHi := none
        todo := [.dump (BitVec.ofNat 16 (hi.toNat * 256 + c.toNat)) 10] }
  | st =>
    let typed : Bool := decide (st = .dataAddr ∨ st = .dataReg)
    match o.opened with
    | none => error
    | some l =>
      let dep : List OdtAct := if typed then [.deposit l (BitVec.ofNat 16 o.acc.toNat)] else []
      if digit then
        { o with
          st := (match l with | .addr _ => .dataAddr | _ => .dataReg)
          acc := if typed then appendDigit o.acc k else BitVec.ofNat 18 (k - 48)
          todo := echo }
      else if k = 13 then
        { o with st := .reprompt, opened := none, acc := 0, todo := echo ++ dep ++ newPrompt }
      else if k = 10 then
        match nextLocation l with
        | none => { o with st := .reprompt, opened := none, acc := 0, todo := dep ++ newPrompt }
        | some n =>
          { o with opened := none, acc := 0, todo := dep ++ newPrompt ++ show_ (nameOf n ++ [47]) ++ [.examine n] }
      else error

/-- The console after a location has been read: it is open, and its contents and a space are to be printed (R621). -/
def opened (l : OdtLoc) (v : Word) (o : Odt) : Odt :=
  { o with
    st := (match l with | .addr _ => .openAddr | _ => .openReg)
    opened := some l, last := some l, acc := 0
    todo := show_ (octal6 v.toNat ++ [32]) }

end Sys2Proof.Spec

open Sys2Proof.Spec

/-! # Encoding -/

/-- Decoding the word of a well-formed instruction gives the instruction back, in its base spelling (R183, R184). -/
def Obligations.DecodeInvertsEncode : Prop :=
  ∀ i : Instr, i.wellFormed = true → decodeWord (encode i) = i.canonical

/-- Every word decodes to a well-formed instruction whose word it is: no bit is dropped and no two rows of the table share
a word (R182, R183). -/
def Obligations.EncodeInvertsDecode : Prop :=
  ∀ w : Word, encode (decodeWord w) = w ∧ (decodeWord w).wellFormed = true

/-- Words written out from the spec's encodings decode to the instructions they stand for: one of each format of R173 to
R181. The fields of the floating words are presumed (G2, log 35). -/
def Obligations.SampleWordsDecode : Prop :=
  decodeWord 0o005203 = .inc ⟨.reg, .r3⟩ ∧
  decodeWord 0o012700 = .mov ⟨.autoInc, .r7⟩ ⟨.reg, .r0⟩ ∧
  decodeWord 0o162701 = .sub ⟨.autoInc, .r7⟩ ⟨.reg, .r1⟩ ∧
  decodeWord 0o070102 = .mul .r1 ⟨.reg, .r2⟩ ∧
  decodeWord 0o001375 = .bne 0o375 ∧
  decodeWord 0o077103 = .sob .r1 3 ∧
  decodeWord 0o006402 = .mark 2 ∧
  decodeWord 0o104401 = .trap 1 ∧
  decodeWord 0o000275 = .ccop true true true false true ∧
  decodeWord 0o000005 = .reset ∧
  decodeWord 0o000207 = .rts .r7 ∧
  decodeWord 0o172427 = .ldf .ac0 ⟨.autoInc, .r7⟩ ∧
  decodeWord 0o170011 = .setd ∧
  decodeWord 0o170437 = .clrf ⟨.autoIncDef, .r7⟩

/-- Two spellings of one word have one meaning: BHIS and BCC, BLO and BCS, the named condition code operators, and the F, D,
I and L members of a floating code (R184, R328, R329, R336, R337, R401, R402). -/
def Obligations.SpellingsHaveOneMeaning : Prop :=
  ∀ (i : Instr) (s : State), exec i.canonical s = exec i s

/-! # The machine -/

/-- A step runs the instruction at R7: when the two bytes there, in memory, decode to `i` after the other agents have had their
turn before the fetch, the step is `i` at the state in which R7 has been advanced and SR2 notes the instruction's address,
followed by the service state (R542). That SR2 does so whatever SR0<0> is, and that it stays frozen while an abort flag of SR0 is
set, is the decision D28 (R49, R142; log 9); that an odd R7 fetches the word with bit 0 ignored is D3 (R90, R91; log 12). -/
def Obligations.StepRunsTheDecodedInstruction : Prop :=
  ∀ (s t u : State) (pa : PAddr) (i : Instr),
    s.inputs = [] → s.bdmr = false → s.run = .run →
    translate s.mode s.pc .read { s with pc := s.pc + 2 } = .ok pa t → startCycle pa t = .ok () u → isRam u pa →
    decodeBytes [u.mem.read (wordAddr pa), u.mem.read (wordAddr pa + 1)] = .ok (i, []) →
    step s = afterInstr (exec (i.underModes s.fd s.fl) (trackSR2 s.pc u)) ∧
    (s.busInputs = [] → u = { s with pc := s.pc + 2 })

/-- What reset leaves where the spec names a value (R68, R660): PS, FPS, FEC, SR0 and SR3 cleared, so kernel mode, priority 0
and no relocation; the latches cleared; the console unit idle; the microcode waits for power. That the event latch is cleared is
the decision D7 (R60: not stated, the model clears it at power-up only; log 25); that SR3 is cleared is the inference that R50 marks
as its own (derived: the source says it of SR0 only). -/
def Obligations.ResetValues : Prop :=
  State.reset.ps = 0 ∧ State.reset.fps = 0 ∧ State.reset.fec = 0 ∧ State.reset.sr0 = 0 ∧ State.reset.sr3 = 0 ∧
  State.reset.eventFF = false ∧ State.reset.powerFailFF = false ∧ State.reset.stackOverflow = false ∧
  State.reset.slu.rxDone = false ∧ State.reset.slu.txReady = true ∧ State.reset.run = .powerWait ∧
  State.reset.isKernel = true ∧ State.reset.priority = 0 ∧ State.reset.relocating = false

/-- The invariant holds at reset. Its clauses on PS<11:9> (log 8), on the unnamed bits of SR0 and SR3 (log 9) and on the
transmitter (log 27) are the model's choices. -/
def Obligations.ResetMeetsInvariant : Prop := State.reset.Inv

/-- Every step keeps the invariant: memory in canonical form, the unimplemented bits of PS, PDRs, SR0 and SR3 zero, a
floating exception code of R455, and the lines and the console consistent with the run state. Its clauses on PS<11:9>
(D17, log 8), on the unnamed bits of SR0 and SR3 (D28, log 9) and on the transmitter (log 27) are the model's choices. -/
def Obligations.StepKeepsInvariant : Prop :=
  ∀ s t : State, s.Inv → step s = .next t → t.Inv

/-- No step changes the configuration: jumpers and options are constants of a run (R10). -/
def Obligations.StepKeepsConfiguration : Prop :=
  ∀ s t : State, step s = .next t → t.cfg = s.cfg

/-- The machine stops only where the log says: at the window of a device without a description (log 32), and at a translated
reference in mode 01 or 10 under the parameter's default (log 11); a configuration with neither never stops. That these two
stop is the model's choice. -/
def Obligations.StopsAreTheDeclaredOnes : Prop :=
  (∀ s e, step s = .fault e →
    ∃ a r, e = .deviceWindow a ∧ regionAt s.cfg (wordAddr a) = some r ∧ r.kind = .device) ∧
  (∀ s r, step s = .refused r →
    r = .reservedModeTranslation ∧ s.cfg.reservedMode = .refuse ∧ s.cfg.hasMmu = true) ∧
  (∀ s, totalConfig s.cfg → ∃ t, step s = .next t)

/-- The four power-up modes, when BPOK is asserted (R662 to R667): mode 0 loads R7 and the PS from locations 24 and 26, mode 2
R7 with the bootstrap address and the PS with 340; then the console is entered when the halt line is asserted, else the fetch
follows; nothing is pushed, and nothing else changes. Mode 1 enters the console. Mode 3 takes the trap sequence of a reserved
instruction and then fetches, whatever the halt line; where an abort cuts that sequence short, the abort's sequence is taken
under the same rule. That mode 0 is a plain load that is followed by a fetch without a service state is the decision D46 (log 47),
PS<11:9> stay 0 by D17 (log 8); an abort inside the sequence is taken in the next step (log 23). -/
def Obligations.PowerUpLoadsStart : Prop :=
  let start (s : State) : State := if s.bhalt then odtEnter s else { s with run := .run }
  let trapped (x : Host.Outcome State Fault Refusal) (t : State) : Prop :=
    (t.run = .run → x = .next t) ∧ ∀ d, t.run = .trapping d → x = .next { t with run := .powerTrap d }
  (∀ s : State, s.inputs = [] → s.bdmr = false → s.run = .powerWait → s.bpok = true →
    (s.cfg.powerUpMode = 0 → s.busInputs = [] → isRam s 0o24 → isRam s 0o26 →
      step s = .next (start { s with pc := s.mem.readWord 0o24, ps := s.mem.readWord 0o26 &&& 0o170777 })) ∧
    (s.cfg.powerUpMode = 1 → step s = .next (odtEnter s)) ∧
    (s.cfg.powerUpMode = 2 →
      step s = .next (start { s with
        pc := if s.cfg.w8Boot173000 then 0o173000 else BitVec.ofNat 16 (s.cfg.bootAddrHi.toNat * 512)
        ps := 0o340 })) ∧
    (∀ t, s.cfg.powerUpMode = 3 → enterTrap .reservedInstruction s = .next t →
      trapped (step s) t ∧ Trap.reservedInstruction.vector = 0o10)) ∧
  (∀ (s t : State) (c : Trap), s.inputs = [] → s.bdmr = false → s.run = .powerTrap c → enterTrap c s = .next t →
    trapped (step s) t)

/-! # Registers, memory and operands -/

/-- The PS at its address 777776 (R37 to R39): a read gives all of it, a byte read one of its bytes; a word write loads every
field except T, a byte write at 777776 or 777777 the fields of that byte, T excepted; bits 11:9 stay 0 (the model's choice
D17, log 8); nothing else changes. -/
def Obligations.ExplicitPsAccess : Prop :=
  ∀ s : State,
    physRead 0o777776 s = .ok s.ps s ∧
    physReadByte 0o777776 s = .ok (s.ps.extractLsb' 0 8) s ∧ physReadByte 0o777777 s = .ok (s.ps.extractLsb' 8 8) s ∧
    (∀ v : Word, ∃ t, physWrite 0o777776 v s = .ok () t ∧ { t with ps := s.ps } = s ∧
      ∀ k, k < 16 → t.ps.getLsbD k =
        if k = 4 then s.ps.getLsbD k else if 9 ≤ k ∧ k ≤ 11 then false else v.getLsbD k) ∧
    (∀ (odd : Fin 2) (b : Byte), ∃ t, physWriteByte (0o777776 + BitVec.ofNat 18 odd.val) b s = .ok () t ∧
      { t with ps := s.ps } = s ∧
      ∀ k, k < 16 → t.ps.getLsbD k =
        if k = 4 then s.ps.getLsbD k else if 9 ≤ k ∧ k ≤ 11 then false
        else if k / 8 = odd.val then b.getLsbD (k % 8) else s.ps.getLsbD k)

/-- Page registers (R43 to R45, at the addresses of R102): they read as they stand; a word write to a page address register
stores all its bits, one to a page descriptor register its program-written bits, a byte write does the same with the word in
which that byte is replaced; all of them clear the W bit of that page. W is set by a write reference that the translation
lets pass (R141), at the translation (the model's choice, log 45). Nothing else changes. -/
def Obligations.PageRegisterAccess : Prop :=
  ∀ (s : State) (i : Fin 8) (v : Word) (odd : Fin 2) (b : Byte), s.cfg.hasMmu = true →
    let at_ (base : PAddr) : PAddr := base + BitVec.ofNat 18 (2 * i.val)
    let byteAt (base : PAddr) : PAddr := base + BitVec.ofNat 18 (2 * i.val + odd.val)
    let keep (x : Word) : Word := x &&& ~~~0o100
    physRead (at_ 0o772340) s = .ok s.kpar[i] s ∧ physRead (at_ 0o777640) s = .ok s.upar[i] s ∧
    physRead (at_ 0o772300) s = .ok s.kpdr[i] s ∧ physRead (at_ 0o777600) s = .ok s.updr[i] s ∧
    physWrite (at_ 0o772340) v s =
      .ok () { s with kpar := s.kpar.set i v, kpdr := s.kpdr.set i (keep s.kpdr[i]) } ∧
    physWrite (at_ 0o777640) v s =
      .ok () { s with upar := s.upar.set i v, updr := s.updr.set i (keep s.updr[i]) } ∧
    physWrite (at_ 0o772300) v s = .ok () { s with kpdr := s.kpdr.set i (v &&& 0o077416) } ∧
    physWrite (at_ 0o777600) v s = .ok () { s with updr := s.updr.set i (v &&& 0o077416) } ∧
    physWriteByte (byteAt 0o772340) b s =
      .ok () { s with kpar := s.kpar.set i (withByte odd b s.kpar[i]), kpdr := s.kpdr.set i (keep s.kpdr[i]) } ∧
    physWriteByte (byteAt 0o777640) b s =
      .ok () { s with upar := s.upar.set i (withByte odd b s.upar[i]), updr := s.updr.set i (keep s.updr[i]) } ∧
    physWriteByte (byteAt 0o772300) b s =
      .ok () { s with kpdr := s.kpdr.set i (withByte odd b s.kpdr[i] &&& 0o077416) } ∧
    physWriteByte (byteAt 0o777600) b s =
      .ok () { s with updr := s.updr.set i (withByte odd b s.updr[i] &&& 0o077416) } ∧
    (∀ (va : Word) (a : PAddr) (t : State), s.sr0.getLsbD 0 = true → va.toNat / 8192 = i.val →
      (translate 0 va .write s = .ok a t → t = { s with kpdr := s.kpdr.set i (s.kpdr[i] ||| 0o100) }) ∧
      (translate 3 va .write s = .ok a t → t = { s with updr := s.updr.set i (s.updr[i] ||| 0o100) }))

/-- The memory management status registers at their addresses (R46 to R50): SR0 reads as it stands and takes bits 15:13 and 0 from
a write, its mode and page fields keeping their values; SR1 reads 0 and ignores writes; SR2 reads as it stands, ignores
writes, and takes the address of an instruction at its fetch unless a flag of SR0<15:13> is set; SR3 takes bits 5:4; a byte
write is a write of the word in which that byte is replaced. Without the MMU the processor does not answer at these
addresses (R42). That the unnamed bits of SR0 and SR3 are 0 is the model's choice D28 (log 9). -/
def Obligations.StatusRegisterAccess : Prop :=
  ∀ s : State,
    (s.cfg.hasMmu = true →
      physRead 0o777572 s = .ok s.sr0 s ∧ physRead 0o777574 s = .ok 0 s ∧ physRead 0o777576 s = .ok s.sr2 s ∧
      physRead 0o772516 s = .ok s.sr3 s ∧
      (∀ v : Word, ∃ x, physWrite 0o777572 v s = .ok () { s with sr0 := x } ∧
        ∀ k, k < 16 → x.getLsbD k =
          if k = 0 ∨ 13 ≤ k then v.getLsbD k else if k = 4 ∨ 7 ≤ k then false else s.sr0.getLsbD k) ∧
      (∀ v : Word, physWrite 0o777574 v s = .ok () s ∧ physWrite 0o777576 v s = .ok () s) ∧
      (∀ v : Word, ∃ x, physWrite 0o772516 v s = .ok () { s with sr3 := x } ∧
        ∀ k, k < 16 → x.getLsbD k = if k = 4 ∨ k = 5 then v.getLsbD k else false) ∧
      (∀ (a : PAddr) (r : Word) (odd : Fin 2) (b : Byte),
        (a = 0o777572 ∨ a = 0o777574 ∨ a = 0o777576 ∨ a = 0o772516) → physRead a s = .ok r s →
        physWriteByte (a + BitVec.ofNat 18 odd.val) b s = physWrite a (withByte odd b r) s) ∧
      (∀ a : Word, trackSR2 a s = if s.sr0.toNat / 8192 = 0 then { s with sr2 := a } else s)) ∧
    (∀ a : PAddr, s.cfg.hasMmu = false → s.busInputs = [] → regionAt s.cfg a.toNat = none →
      a = 0o777572 ∨ a = 0o777574 ∨ a = 0o777576 ∨ a = 0o772516 →
      physRead a s = .trap .busTimeout s ∧ ∀ v, physWrite a v s = .trap .busTimeout s)

/-- The console serial line unit (R602 to R607): what a program or the console microcode reads at its four addresses, what a word
or byte write does there, and what the terminal does: a character that arrives takes the place of one not read, and a
character that has been printed leaves the transmitter ready. Reading RBUF clears the receiver's done flag; no other read
changes anything. The odd bytes are not used. A write of XBUF replaces a character being sent, and the enables stand at bit 6
(the model's choices, log 27, 35). -/
def Obligations.ConsoleRegisters : Prop :=
  ∀ s : State, s.busInputs = [] → hasConsole s →
    let d := s.slu
    let status (done ie : Bool) : Word := BitVec.ofNat 16 (128 * bitNat done + 64 * bitNat ie)
    let low (b : Byte) : List (PAddr × Slu) :=
      [(0o777560, { d with rxIe := b.getLsbD 6 }), (0o777562, d), (0o777564, { d with txIe := b.getLsbD 6 }),
       (0o777566, { d with txChar := some b, txReady := false })]
    physRead 0o777560 s = .ok (status d.rxDone d.rxIe) s ∧
    physRead 0o777562 s = .ok (d.rxChar.setWidth 16) { s with slu := { d with rxDone := false } } ∧
    physRead 0o777564 s = .ok (status d.txReady d.txIe) s ∧
    physRead 0o777566 s = .ok 0 s ∧
    (∀ v : Word, ∀ x ∈ low (v.setWidth 8), physWrite x.1 v s = .ok () { s with slu := x.2 }) ∧
    (∀ b : Byte, ∀ x ∈ low b,
      physWriteByte x.1 b s = .ok () { s with slu := x.2 } ∧ physWriteByte (x.1 + 1) b s = .ok () s) ∧
    (∀ (c : Byte) (rest : List Input), s.bdcok = true → s.inputs = .bus (.typed c) :: rest →
      step s = .next { s with inputs := rest, slu := { d with rxChar := c, rxDone := true } }) ∧
    (∀ (c : Byte) (rest : List Input), s.bdcok = true → s.inputs = .bus .sent :: rest → d.txChar = some c →
      step s = .next { s with
        inputs := rest, slu := { d with txReady := true, txChar := none, printed := d.printed ++ [c] } })

/-- What the console makes of a character it has read, in each of its ten states (R613 to R615, R621 to R632): the echo, the
digits collected, the location designated, and the actions that follow, down to the error response to every character that is
not valid there. The rule of `consoleRule` is written in numbers. That an error forgets the last location, the H of the prompt
states only, and the bytes of a dump are the decisions of D45 and R629 (log 28). -/
def Obligations.ConsoleCommands : Prop :=
  ∀ (c : Byte) (o : Odt), odtChar c o = consoleRule c o

/-- What the console does in one step (R610, R612, R620, R621, R626 to R628, R631), the unit being there: it waits for a
character or reads one and reacts to it; waits for the transmitter or hands it the next character; reads or writes a
location, which is a register, the PS (whose T is kept) or a physical address; goes or proceeds; sends the bytes of a dump
from memory. A reference that nothing answers gives the error response. On entry RBUF is read once, then R7 and the prompt
are to be printed. One action a step, and the order of a dump's bytes, are the model's choices (D45, log 28); so are that G
keeps SR0 and SR3 and clears the pending stack overflow (D31, log 28), that BINIT clears the console unit's interrupt enables
(G13, log 27, 35) and that a deposit into the PS leaves PS<11:9> 0 (D17, log 8), and that bit 0 of an odd address is ignored
(D3, log 12). -/
def Obligations.ConsoleActions : Prop :=
  (∀ s : State, odtEnter s =
    { s with
      run := .odt
      odt := { st := .prompt, opened := none, last := none, acc := 0, lastS := false, dumpHi := none
               todo := .flush :: show_ ([13, 10] ++ octal6 s.pc.toNat ++ [13, 10, 64]) } }) ∧
  ∀ s : State, atConsole s →
    let left (rest : List OdtAct) : Odt := { s.odt with todo := rest }
    (s.odt.todo = [] → step s = .next (if s.slu.rxDone then
      { s with slu := { s.slu with rxDone := false }, odt := odtChar s.slu.rxChar s.odt } else s)) ∧
    (∀ c rest, s.odt.todo = .out c :: rest → step s = .next (if s.slu.txReady then
      { s with slu := { s.slu with txChar := some c, txReady := false }, odt := left rest } else s)) ∧
    (∀ rest, s.odt.todo = .flush :: rest →
      step s = .next { s with slu := { s.slu with rxDone := false }, odt := left rest }) ∧
    (∀ r rest, s.odt.todo = .examine (.reg r) :: rest →
      step s = .next { s with odt := opened (.reg r) (s.reg r) s.odt }) ∧
    (∀ rest, s.odt.todo = .examine .ps :: rest → step s = .next { s with odt := opened .ps s.ps s.odt }) ∧
    (∀ a rest, s.odt.todo = .examine (.addr a) :: rest →
      (isRam s a → step s = .next { s with odt := opened (.addr a) (s.mem.readWord a) s.odt }) ∧
      (nothingAt s a → step s = .next { s with odt := consoleError [] })) ∧
    (∀ r v rest, s.odt.todo = .deposit (.reg r) v :: rest →
      step s = .next { s.setReg r v with odt := left rest }) ∧
    (∀ v rest, s.odt.todo = .deposit .ps v :: rest →
      step s = .next { s with ps := v &&& 0o170757 ||| s.ps &&& 0o20, odt := left rest }) ∧
    (∀ a v rest, s.odt.todo = .deposit (.addr a) v :: rest →
      (isRam s a → step s = .next { s with mem := s.mem.writeWord a v, odt := left rest }) ∧
      (nothingAt s a → step s = .next { s with odt := consoleError [] })) ∧
    (∀ a rest, s.odt.todo = .go a :: rest →
      step s = serviceState { s with
        pc := a, ps := 0, fps := if s.cfg.hasMmu then 0 else s.fps, stackOverflow := false, inhibitT := false, run := .run
        slu := { s.slu with rxDone := false, rxIe := false, txReady := true, txIe := false, txChar := none }
        odt := Odt.reset }) ∧
    (∀ rest, s.odt.todo = .proceed :: rest → step s = .next { s with run := .run, odt := Odt.reset }) ∧
    (∀ rest a n, s.odt.todo = .dump a n :: rest →
      (n = 0 → step s = .next { s with odt := left newPrompt }) ∧
      (n ≠ 0 → nothingAt s (a.setWidth 18) → step s = .next { s with odt := consoleError [] }) ∧
      (isRam s (a.setWidth 18) →
        let w := s.mem.readWord (a.setWidth 18)
        (2 ≤ n → a.toNat % 2 = 0 → step s = .next { s with
          odt := left (show_ [w.toNat % 256, w.toNat / 256] ++ [.dump (a + 2) (n - 2)]) }) ∧
        (n = 1 → a.toNat % 2 = 0 → step s = .next { s with odt := left (show_ [w.toNat % 256] ++ [.dump (a + 1) 0]) }) ∧
        (n ≠ 0 → a.toNat % 2 = 1 → step s = .next { s with
          odt := left (show_ [w.toNat / 256] ++ [.dump (a + 1) (n - 1)]) })))

/-- In memory a word reads as it was written, the other words keep their contents, and a byte write changes one byte of the
word (R84, R86, R87), no other agent acting. The address of a word may be odd: that its bit 0 is ignored is the decision D3 (R90,
log 12). -/
def Obligations.MemoryReadsBack : Prop :=
  ∀ (s : State) (a : PAddr), s.mem.wf → s.busInputs = [] → isRam s a →
    (∀ v, ∃ t, physWrite a v s = .ok () t ∧ physRead a t = .ok v t ∧
      ∀ b, isRam s b → wordAddr b ≠ wordAddr a → physRead b t = .ok (s.mem.readWord b) t) ∧
    (∀ v, ∃ t, physWriteByte a v s = .ok () t ∧ physReadByte a t = .ok v t ∧
      ∀ b, isRam s b → b ≠ a → physReadByte b t = .ok (s.mem.read b.toNat) t)

/-- The eight addressing modes for an operand of every size, 1, 2, 4 or 8 bytes (R202, R211 to R218, R474): the location, and the
register's new value, which for modes 6 and 7 is the old one but for R7, past the index word. The sizes are those of a byte, a
word, an F datum, L integer or STST pair, and a D datum. A register is stepped before the reference it addresses (the model's
choice D35, log 15), and R6 and R7 step by 2 for a byte (G3 of the spec, log 35). -/
def Obligations.AddressingModes : Prop :=
  ∀ n ∈ [1, 2, 4, 8], ∀ (r : Reg) (s : State),
    let up (m : AMode) : Word := BitVec.ofNat 16 ((s.reg r).toNat + stepRule n m r)
    let down (m : AMode) : Word := BitVec.ofInt 16 ((s.reg r).toNat - stepRule n m r)
    let fetched : State := { s with pc := s.pc + 2 }
    locate n ⟨.reg, r⟩ s = .ok (.reg r) s ∧
    locate n ⟨.deferred, r⟩ s = .ok (.mem (s.reg r)) s ∧
    locate n ⟨.autoInc, r⟩ s = .ok (.mem (s.reg r)) (s.setReg r (up .autoInc)) ∧
    (∃ t, locate n ⟨.autoDec, r⟩ s = .ok (.mem (down .autoDec)) t ∧ t.reg r = down .autoDec) ∧
    (∀ p t, readWord (s.reg r) (s.setReg r (up .autoIncDef)) = .ok p t →
      locate n ⟨.autoIncDef, r⟩ s = .ok (.mem p) t ∧ t.reg r = up .autoIncDef) ∧
    (∀ u p t, locate 2 ⟨.autoDec, r⟩ s = .ok (.mem (down .autoDecDef)) u → readWord (down .autoDecDef) u = .ok p t →
      locate n ⟨.autoDecDef, r⟩ s = .ok (.mem p) t ∧ t.reg r = down .autoDecDef) ∧
    (∀ x t, readWord s.pc fetched = .ok x t →
      locate n ⟨.index, r⟩ s = .ok (.mem (t.reg r + x)) t ∧ t.reg r = fetched.reg r) ∧
    (∀ x t p u, readWord s.pc fetched = .ok x t → readWord (t.reg r + x) t = .ok p u →
      locate n ⟨.indexDef, r⟩ s = .ok (.mem p) u ∧ u.reg r = fetched.reg r)

/-- Evaluating and reading operands changes the specifier's register and R7, and leaves the traces that `Frame` names (a W
bit, the receiver's done flag, the mark of a stack overflow); all the rest of the state, memory included, is unchanged but for
what other agents do on the bus meanwhile. -/
def Obligations.OperandFrame : Prop :=
  ∀ (o : Operand) (s t : State),
    (∀ n l, locate n o s = .ok l t → Frame (touching s o) s t) ∧
    (∀ k p, wordPlace k o s = .ok p t → Frame (touching s o) s t) ∧
    (∀ k p, bytePlace k o s = .ok p t → Frame (touching s o) s t) ∧
    (∀ v, loadWord o s = .ok v t → Frame (touching s o) s t) ∧
    (∀ v, loadByte o s = .ok v t → Frame (touching s o) s t) ∧
    (∀ dbl x p, fpRead dbl o s x p t → Frame (touching s o) s t)

/-! # Memory management -/

/-- Translation maps an address of a page that allows the reference (R122, R123, R130 to R138): mode 00 uses the kernel page
registers, mode 11 the user ones, modes 01 and 10 those that the parameter names (log 11); the block number is added to the
page's first block modulo 2^12 (D8, log 13), the displacement is kept; a write sets the page's W bit (R141), and nothing else
changes. That a downward page allows the blocks from its length field on is presumed (D4 and G1, log 14). Without
relocation the top page of the virtual space is the I/O page and nothing is checked or changed (R82, R120; D18, log 46). -/
def Obligations.TranslationMaps : Prop :=
  (∀ (m : BitVec 2) (user : Bool) (va : Word) (k : Access) (s : State),
    s.cfg.hasMmu = true → s.sr0.getLsbD 0 = true → pagesOf s.cfg m = some user →
    let page := va.toNat / 8192
    let block := va.toNat / 64 % 128
    let par := (if user then s.upar else s.kpar)[page]!.toNat
    let pdr := (if user then s.updr else s.kpdr)[page]!.toNat
    (pdr / 2 % 4 = 3 ∨ pdr / 2 % 4 = 1 ∧ k = .read) →
    (if pdr / 8 % 2 = 0 then block ≤ pdr / 256 % 128 else pdr / 256 % 128 ≤ block) →
    ∃ a t, translate m va k s = .ok a t ∧
      a.toNat = (par % 4096 + block) % 4096 * 64 + va.toNat % 64 ∧
      { t with kpdr := s.kpdr, updr := s.updr } = s ∧
      t.kpdr = (if user = false ∧ k = .write then s.kpdr.set! page (s.kpdr[page]! ||| 0o100) else s.kpdr) ∧
      t.updr = (if user = true ∧ k = .write then s.updr.set! page (s.updr[page]! ||| 0o100) else s.updr)) ∧
  (∀ (m : BitVec 2) (va : Word) (k : Access) (s : State), (s.cfg.hasMmu = false ∨ s.sr0.getLsbD 0 = false) →
    ∃ a, translate m va k s = .ok a s ∧
      a.toNat = if va.toNat / 8192 = 7 then va.toNat + 0o600000 else va.toNat)

/-- Translation aborts a reference that its page does not allow (R136 to R139, R143): a nonresident page, a block past the
page's length (for a downward page presumed: D4 and G1, log 14), a write to a read-only page. The flags are OR-ed into
SR0<15:13>; mode and page go to SR0<6:5> and SR0<3:1> unless a flag was set before; nothing else changes (D28, log 9). In modes
01 and 10 the page registers are those that the parameter names, and SR0<6:5> record the reserved mode, or the reference aborts as
for a nonresident page, or the model refuses (R123, log 11). -/
def Obligations.TranslationAborts : Prop :=
  ∀ (m : BitVec 2) (va : Word) (k : Access) (s : State), s.cfg.hasMmu = true → s.sr0.getLsbD 0 = true →
    let page := va.toNat / 8192
    let block := va.toNat / 64 % 128
    let aborts (nr pl ro : Prop) : Prop :=
      ∃ t, translate m va k s = .trap .mmuAbort t ∧ { t with sr0 := s.sr0 } = s ∧
        (t.sr0.getLsbD 15 = true ↔ s.sr0.getLsbD 15 = true ∨ nr) ∧
        (t.sr0.getLsbD 14 = true ↔ s.sr0.getLsbD 14 = true ∨ pl) ∧
        (t.sr0.getLsbD 13 = true ↔ s.sr0.getLsbD 13 = true ∨ ro) ∧
        (if s.sr0.toNat / 8192 = 0 then t.sr0.toNat / 32 % 4 = m.toNat ∧ t.sr0.toNat / 2 % 8 = page
         else t.sr0.toNat / 32 % 4 = s.sr0.toNat / 32 % 4 ∧ t.sr0.toNat / 2 % 8 = s.sr0.toNat / 2 % 8) ∧
        t.sr0 &&& 0o017621 = s.sr0 &&& 0o017621
    (∀ user : Bool, pagesOf s.cfg m = some user →
      let pdr := (if user then s.updr else s.kpdr)[page]!.toNat
      let nr := pdr / 2 % 4 = 0 ∨ pdr / 2 % 4 = 2
      let pl := if pdr / 8 % 2 = 0 then pdr / 256 % 128 < block else block < pdr / 256 % 128
      let ro := pdr / 2 % 4 = 1 ∧ k = .write
      nr ∨ pl ∨ ro → aborts nr pl ro) ∧
    (m = 1 ∨ m = 2 → s.cfg.reservedMode = .abortNonresident → aborts True False False) ∧
    (m = 1 ∨ m = 2 → s.cfg.reservedMode = .refuse → translate m va k s = .refused .reservedModeTranslation)

/-! # Exceptions -/

/-- `TrapSequence` of R560, step by step: the new PS and PC are read from the vector in kernel space, the current mode, SI,
priority, T and codes come from the vector, the previous mode is the old current mode, bits 11:9 are 0; old PS and old PC
are pushed on the new mode's stack; R7 takes the new PC. `t` is the state it leaves. -/
def Sys2Proof.Spec.trapTaken (c : Trap) (s t : State) : Prop :=
  ∃ nps npc s1 s2 s3 s4 ps,
    readWordMode 0 (c.vector + 2) s = .ok nps s1 ∧ readWordMode 0 c.vector s1 = .ok npc s2 ∧
    (ps.extractLsb' 14 2 = nps.extractLsb' 14 2 ∧ ps.extractLsb' 12 2 = s.ps.extractLsb' 14 2 ∧
      ps.extractLsb' 9 3 = (0 : BitVec 3) ∧ ps.extractLsb' 0 9 = nps.extractLsb' 0 9) ∧
    push s.ps { s2 with ps := ps } = .ok () s3 ∧ push s3.pc s3 = .ok () s4 ∧
    t = { s4 with pc := npc, run := .run }

/-- EMT, TRAP, BPT and IOT take the trap sequence through 30, 34, 14 and 20, and the reserved and unassigned words through 10
(R370 to R374, R189, R545), whatever their low bits. That the codes in no list of the spec trap through 10 is D10 (log 22); that
the new PS has bits 11:9 clear is D17 (log 8). -/
def Obligations.TrapInstructions : Prop :=
  ∀ (i : Instr) (c : Trap) (s t : State), trapsBy i = some c → trapTaken c s t →
    exec i s = .next t ∧
    c.vector = (match c with | .emt => 0o30 | .trap => 0o34 | .bpt => 0o14 | .iot => 0o20 | _ => 0o10)

/-- The trap sequence with relocation off, vector and stack in memory, no other agent acting (R560): the new mode's stack pointer
is 4 lower, the old PS lies above the old PC, R7 and PS come from the vector; the other stack pointers, the general registers
and the rest of memory keep their contents. A kernel stack below 400 is marked, but not by the stack overflow's own sequence
nor by the one on the new stack at location 2 (R552, R562; D12, D13, log 23, 24). PS<11:9> are 0 by D17 (log 8). Before that, for
relocation on or off: where its four references are answered, every other cause's sequence leaves what R560 says; a
second push after one that lands on the PS is log 51. That bit 0 of an odd stack pointer is ignored is D3 (log 12). -/
def Obligations.TrapSequenceEffect : Prop :=
  (∀ (c : Trap) (s t : State), c ≠ .stackOverflow → c ≠ .doubleTimeout → trapTaken c s t → enterTrap c s = .next t) ∧
  ∀ (c : Trap) (s : State), s.mem.wf → s.busInputs = [] → s.relocating = false →
    let v := c.vector
    let nps := s.mem.readWord (unmapped (v + 2))
    let m : BitVec 2 := nps.extractLsb' 14 2
    let sp := s.spOf m
    isRam s (unmapped v) → isRam s (unmapped (v + 2)) → isRam s (unmapped (sp - 2)) → isRam s (unmapped (sp - 4)) →
    ∃ t, enterTrap c s = .next t ∧ t.run = .run ∧ t.pc = s.mem.readWord (unmapped v) ∧
      t.mode = m ∧ t.prevMode = s.mode ∧ t.ps &&& 0o777 = nps &&& 0o777 ∧ t.ps &&& 0o7000 = 0 ∧
      t.spOf m = sp - 4 ∧ t.mem.readWord (unmapped (sp - 2)) = s.ps ∧ t.mem.readWord (unmapped (sp - 4)) = s.pc ∧
      t.stackOverflow = (s.stackOverflow ||
        decide (c ≠ .stackOverflow ∧ c ≠ .doubleTimeout ∧ m = 0 ∧ (sp - 2 < 0o400#16 ∨ sp - 4 < 0o400#16))) ∧
      Frame { Allow.nothing with
          sp := fun k => k == m
          ps := 0o177777
          byte := fun b => wordBytes (unmapped (sp - 2)) b || wordBytes (unmapped (sp - 4)) b }
        { s with run := .run } t

/-- Where a reference of a double operand instruction can abort before its destination is written: the read of a source in
memory, the evaluation of the destination, the read of the destination (R201, R224). `t` is the state at the abort. -/
def Sys2Proof.Spec.operandAborts (k : Access) (reads : Bool) (src dst : Operand) (s : State) (c : Trap) (t : State) : Prop :=
  (src.mode ≠ .reg ∧ loadWord src s = .trap c t) ∨
  (src.mode = .reg ∧ wordPlace k dst s = .trap c t) ∨
  (src.mode ≠ .reg ∧ ∃ x u, loadWord src s = .ok x u ∧ wordPlace k dst u = .trap c t) ∨
  (reads = true ∧ ∃ x p u, sourceAndPlace k src dst s x p u ∧ readPlace p u = .trap c t)

/-- The byte form. -/
def Sys2Proof.Spec.operandAbortsByte (k : Access) (reads : Bool) (src dst : Operand) (s : State) (c : Trap) (t : State) :
    Prop :=
  (src.mode ≠ .reg ∧ loadByte src s = .trap c t) ∨
  (src.mode = .reg ∧ bytePlace k dst s = .trap c t) ∨
  (src.mode ≠ .reg ∧ ∃ x u, loadByte src s = .ok x u ∧ bytePlace k dst u = .trap c t) ∨
  (reads = true ∧ ∃ x p u, sourceAndPlaceByte k src dst s x p u ∧ readPlaceByte p u = .trap c t)

/-- An abort of a reference to an operand ends a single or double operand instruction at once and is taken from the state at
the abort, whose PS still has the old condition codes (R201, R224, R544; that they are kept is D35, log 16): the instructions
that rewrite an operand, with the evaluation, the read, and the write (of ROM that gives it no reply, R101); TST and TSTB; CLR,
CLRB and SXT with the evaluation and the write; the comparisons; MOV and MOVB with all their references. -/
def Obligations.OperandAbortIsTaken : Prop :=
  (∀ i o f s c t, rewritesWord i = some (o, f) →
    (wordPlace .write o s = .trap c t ∨ ∃ p u, wordPlace .write o s = .ok p u ∧ readPlace p u = .trap c t) →
    exec i s = enterTrap c t ∧ t.ps = s.ps) ∧
  (∀ i o f s c t, rewritesByte i = some (o, f) →
    (bytePlace .write o s = .trap c t ∨ ∃ p u, bytePlace .write o s = .ok p u ∧ readPlaceByte p u = .trap c t) →
    exec i s = enterTrap c t ∧ t.ps = s.ps) ∧
  (∀ o s c t, loadWord o s = .trap c t → exec (.tst o) s = enterTrap c t ∧ t.ps = s.ps) ∧
  (∀ o s c t, loadByte o s = .trap c t → exec (.tstb o) s = enterTrap c t ∧ t.ps = s.ps) ∧
  (∀ i o s c t, (i = .clr o ∨ i = .sxt o) → wordPlace .write o s = .trap c t →
    exec i s = enterTrap c t ∧ t.ps = s.ps) ∧
  (∀ o s c t, bytePlace .write o s = .trap c t → exec (.clrb o) s = enterTrap c t ∧ t.ps = s.ps) ∧
  (∀ i src dst s c t,
    ((∃ f, combinesWord i = some (src, dst, f)) ∧ operandAborts .write true src dst s c t ∨
      (∃ f, comparesWord i = some (src, dst, f)) ∧ operandAborts .read true src dst s c t ∨
      i = .mov src dst ∧ operandAborts .write false src dst s c t) →
    exec i s = enterTrap c t ∧ t.ps = s.ps) ∧
  (∀ i src dst s c t,
    ((∃ f, combinesByte i = some (src, dst, f)) ∧ operandAbortsByte .write true src dst s c t ∨
      (∃ f, comparesByte i = some (src, dst, f)) ∧ operandAbortsByte .read true src dst s c t ∨
      i = .movb src dst ∧ operandAbortsByte .write false src dst s c t) →
    exec i s = enterTrap c t ∧ t.ps = s.ps) ∧
  (∀ src dst s x p u c t, sourceAndPlace .write src dst s x p u → writePlace p x u = .trap c t →
    exec (.mov src dst) s = enterTrap c t ∧ t.ps = s.ps) ∧
  (∀ src dst s x p u c t, sourceAndPlaceByte .write src dst s x p u → writePlaceByte p x u = .trap c t →
    exec (.movb src dst) s = enterTrap c t ∧ t.ps = s.ps) ∧
  (∀ o s p u c t, wordPlace .write o s = .ok p u → writePlace p 0 u = .trap c t →
    exec (.clr o) s = enterTrap c t ∧ t.ps = s.ps) ∧
  (∀ o s p u c t, bytePlace .write o s = .ok p u → writePlaceByte p 0 u = .trap c t →
    exec (.clrb o) s = enterTrap c t ∧ t.ps = s.ps) ∧
  (∀ o s p u c t, wordPlace .write o s = .ok p u → writePlace p (if s.cc.n then 0o177777 else 0) u = .trap c t →
    exec (.sxt o) s = enterTrap c t ∧ t.ps = s.ps) ∧
  (∀ i o f s p u d v c t, rewritesWord i = some (o, f) → wordPlace .write o s = .ok p u → readPlace p u = .ok d v →
    rewritePlace p (f d s.cc).1 v = .trap c t → exec i s = enterTrap c t ∧ t.ps = s.ps) ∧
  (∀ i o f s p u d v c t, rewritesByte i = some (o, f) → bytePlace .write o s = .ok p u → readPlaceByte p u = .ok d v →
    rewritePlaceByte p (f d s.cc).1 v = .trap c t → exec i s = enterTrap c t ∧ t.ps = s.ps) ∧
  (∀ i src dst f s x p u d v c t, combinesWord i = some (src, dst, f) → sourceAndPlace .write src dst s x p u →
    readPlace p u = .ok d v → rewritePlace p (f x d s.cc).1 v = .trap c t → exec i s = enterTrap c t ∧ t.ps = s.ps) ∧
  (∀ i src dst f s x p u d v c t, combinesByte i = some (src, dst, f) → sourceAndPlaceByte .write src dst s x p u →
    readPlaceByte p u = .ok d v → rewritePlaceByte p (f x d s.cc).1 v = .trap c t →
    exec i s = enterTrap c t ∧ t.ps = s.ps)

/-- The kernel stack limit (R552): a push, and modes 4 and 5 on R6 for an operand of any size, mark a stack overflow exactly when
the mode is kernel and the stepped R6 is below 400. The reference goes on, below the limit or above it: a push whose address is
translated to memory that replies is answered, no other agent acting; mode 4 yields its location, and mode 5 the one that its
pointer gives. The other modes of a specifier mark nothing, and the stack overflow's own trap sequence marks nothing, whether its
references are answered or not. When the mark is made, and that steps by 1, 4 and 8 count too, is the decision D12 (log 24). That a
byte steps R6 by 2 is presumed (G3, log 35). -/
def Obligations.StackLimitMarks : Prop :=
  (∀ v s a t, s.busInputs = [] → translate s.mode (s.reg .r6 - 2) .write (lowered s) = .ok a t →
    (Place.phys a).plain s.cfg → ∃ u, push v s = .ok () u) ∧
  (∀ n s, let a := s.reg .r6 - BitVec.ofNat 16 (if n = 1 then 2 else n)
    ∃ t, locate n ⟨.autoDec, .r6⟩ s = .ok (.mem a) t ∧ t.reg .r6 = a) ∧
  (∀ n s p t, readWord (s.reg .r6 - 2) (lowered s) = .ok p t → locate n ⟨.autoDecDef, .r6⟩ s = .ok (.mem p) t) ∧
  (∀ v s t, push v s = .ok () t →
    t.stackOverflow = (s.stackOverflow || (decide (s.mode = 0) && decide ((s.reg .r6 - 2).toNat < 0o400)))) ∧
  (∀ n o s l t, locate n o s = .ok l t →
    t.stackOverflow =
      (s.stackOverflow ||
        (decide (s.mode = 0) && decide (o.reg = .r6 ∧ (o.mode = .autoDec ∨ o.mode = .autoDecDef)) &&
          decide ((s.reg .r6 -
            if o.mode = .autoDec then BitVec.ofNat 16 (if n = 1 then 2 else n) else 2).toNat < 0o400)))) ∧
  (∀ s t, enterTrap .stackOverflow s = .next t → t.stackOverflow = s.stackOverflow)

/-- The service state (R543, R550, R553 to R556): the highest pending condition is taken, one at a time, its latch cleared or its
request removed. In order: trace unless RTT inhibits it, stack overflow, power fail; the requests above the processor's
priority by level 7, the event line, levels 6, 5 and 4, of one level the first of the list, through the vector it supplies, or
transparently if no device answers; the console unit's own request at level 4, through 60 or 64; the halt line, which enters
the console. A request at or below the priority is not taken, and with nothing pending nothing is. The order and the place of
the event line are D7, D14 and D44 (log 25), the choice among devices D15 (log 26), the console unit's requests D16 (log 27). -/
def Obligations.ServiceArbitration : Prop :=
  ∀ s : State,
    let s' := { s with inhibitT := false }
    let traced := s.tBit = true ∧ s.inhibitT = false
    let latched := traced ∨ s.stackOverflow = true ∨ s.powerFailFF = true
    let event := s.eventFF = true ∧ s.cfg.w4EventDisabled = false ∧ s.priority < 6
    (traced → serviceState s = enterTrap .trace s') ∧
    (¬traced → s.stackOverflow = true → serviceState s = enterTrap .stackOverflow { s' with stackOverflow := false }) ∧
    (¬traced → s.stackOverflow = false → s.powerFailFF = true →
      serviceState s = enterTrap .powerFail { s' with powerFailFF := false }) ∧
    (¬latched → event → (∀ r ∈ s.irqs, r.level ≠ .l7) →
      serviceState s = enterTrap .event { s' with eventFF := false }) ∧
    (∀ r : Irq, ¬latched → s.irqs.find? (fun q => decide (q.level = r.level)) = some r → s.priority < r.level.toNat →
      (∀ q ∈ s.irqs, q.level.toNat ≤ r.level.toNat) → (r.level = .l7 ∨ ¬event) →
      serviceState s = (match r.vector with
        | some v => enterTrap (.device v) { s' with irqs := s.irqs.erase r }
        | none => .next { s' with irqs := s.irqs.erase r, run := .run })) ∧
    (∀ v : Word, ¬latched → ¬event → s.irqs = [] → s.priority < 4 →
      (s.slu.rxIe = true ∧ s.slu.rxDone = true ∧ v = 0o60 ∨
        (s.slu.rxIe && s.slu.rxDone) = false ∧ s.slu.txIe = true ∧ s.slu.txReady = true ∧ v = 0o64) →
      serviceState s = enterTrap (.device v) s') ∧
    (∀ v t, arbitrate s = .take (.device v) t →
      (∃ r ∈ s.irqs, r.vector = some v ∧ s.priority < r.level.toNat) ∨ (sluVector s.slu = some v ∧ s.priority < 4)) ∧
    (¬latched → ¬event → (∀ r ∈ s.irqs, r.level.toNat ≤ s.priority) → (s.priority < 4 → sluVector s.slu = none) →
      serviceState s = .next (if s.bhalt then odtEnter s' else s')) ∧
    (∀ v, (Trap.device v).vector = v) ∧ Trap.event.vector = 0o100 ∧ Trap.powerFail.vector = 0o24 ∧
    Trap.trace.vector = 0o14 ∧ Trap.stackOverflow.vector = 4

/-- The double bus error (R562): when a push of the sequence for a bus time-out times out, R6 becomes 4 and the next step does
the sequence again. The value 4 is deduced (D13 and G16 of the spec, log 23). -/
def Obligations.DoubleBusError : Prop :=
  ∀ s nps npc s1 s2 u,
    readWordMode 0 6 s = .ok nps s1 → readWordMode 0 4 s1 = .ok npc s2 →
    (push s.ps { s2 with ps := trapPs s.ps nps } = .trap .busTimeout u ∨
      ∃ z, push s.ps { s2 with ps := trapPs s.ps nps } = .ok () z ∧ push z.pc z = .trap .busTimeout u) →
    ∃ t, enterTrap .busTimeout s = .next t ∧ t.run = .trapping .doubleTimeout ∧ t.reg .r6 = 4 ∧
      (t.inputs = [] → t.bdmr = false → step t = afterInstr (enterTrap .doubleTimeout t)) ∧
      Trap.doubleTimeout.vector = 4

/-! # Single operand instructions -/

/-- COM, INC, DEC, NEG, ADC, SBC, ROR, ROL, ASR, ASL, SWAB and the byte forms (R234 to R257, R262): when the operand can be
evaluated and read, and replies to a write, the instruction completes; its result and codes are those of its rule; the codes are
set and then the result is written, so that a write to the PS itself wins (R272; D32, log 16). No other agent comes between the
read and the write (R88). The flags of SBC, ROL and ASR are D25 (log 36); the kept high byte of a register, and ASR's sign, are G4
and G5 (log 35). -/
def Obligations.SingleOperandResults : Prop :=
  (∀ i o f s p t d u, rewritesWord i = some (o, f) → wordPlace .write o s = .ok p t → readPlace p t = .ok d u →
    p.writable s.cfg → ∃ v, exec i s = .next v ∧ rewritePlace p (f d s.cc).1 (u.setCC (f d s.cc).2) = .ok () v) ∧
  (∀ i o f s p t d u, rewritesByte i = some (o, f) → bytePlace .write o s = .ok p t → readPlaceByte p t = .ok d u →
    p.writable s.cfg →
    ∃ v, exec i s = .next v ∧ rewritePlaceByte p (f d s.cc).1 (u.setCC (f d s.cc).2) = .ok () v)

/-- CLR, CLRB, SXT (R232, R233, R264) do not read their operand; where it can be written, they complete with their value and
codes, which are set before the write (D32, log 16). TST and TSTB (R242, R243) only read it; N and Z describe it, V and C are
cleared. That CLRB keeps the high
byte of a register is presumed (G4, log 35). -/
def Obligations.ClearSignExtendAndTest : Prop :=
  ∀ (o : Operand) (s t : State),
    (∀ p v, wordPlace .write o s = .ok p t → writePlace p 0 (t.setCC ⟨false, true, false, false⟩) = .ok () v →
      exec (.clr o) s = .next v) ∧
    (∀ p v, bytePlace .write o s = .ok p t → writePlaceByte p 0 (t.setCC ⟨false, true, false, false⟩) = .ok () v →
      exec (.clrb o) s = .next v) ∧
    (∀ p v, wordPlace .write o s = .ok p t →
      writePlace p (if s.cc.n then 0o177777 else 0) (t.setCC ⟨s.cc.n, !s.cc.n, false, s.cc.c⟩) = .ok () v →
      exec (.sxt o) s = .next v) ∧
    (∀ d : Word, loadWord o s = .ok d t → exec (.tst o) s = .next (t.setCC (codesOf d false false))) ∧
    (∀ d : Byte, loadByte o s = .ok d t → exec (.tstb o) s = .next (t.setCC (codesOf d false false)))

/-- The frame of the single operand instructions that write (R230): in memory only the bytes stored change, no other agent
acting; apart from a destination that is a register of the processor or of the console, nothing changes but the destination,
the specifier's register, R7 and the condition codes. Of the instructions that rewrite, the destination answers the read and the
write; of CLR, CLRB and SXT, which do not read it, the write. -/
def Obligations.SingleOperandFrame : Prop :=
  (∀ i o s p t v, ((∃ f, rewritesWord i = some (o, f)) ∧ (∃ d u, readPlace p t = .ok d u) ∧ p.writable s.cfg ∨
      (i = .clr o ∨ i = .sxt o) ∧ ∃ x u, writePlace p x t = .ok () u) →
    wordPlace .write o s = .ok p t → exec i s = .next v →
    (s.busInputs = [] → ∀ b, (∀ a, p = .phys a → wordBytes a b = false) → v.mem.read b = s.mem.read b) ∧
    (p.plain s.cfg → Frame ((touching s o).word s.mode p).codes s v)) ∧
  (∀ i o s p t v, ((∃ f, rewritesByte i = some (o, f)) ∧ (∃ d u, readPlaceByte p t = .ok d u) ∧ p.writable s.cfg ∨
      i = .clrb o ∧ ∃ x u, writePlaceByte p x t = .ok () u) →
    bytePlace .write o s = .ok p t → exec i s = .next v →
    (s.busInputs = [] → ∀ b, (∀ a, p = .phys a → b ≠ a.toNat) → v.mem.read b = s.mem.read b) ∧
    (p.plain s.cfg → Frame ((touching s o).octet s.mode p).codes s v))

/-! # Double operand instructions -/

/-- ADD, SUB, BIC, BIS, XOR and the byte forms (R286, R287, R292 to R296): source before destination, a register source read
last (R201, R220, R221); where the destination replies to a write the instruction completes, the result and the codes are those
of the rule, and the result goes to the destination, after the codes (D32, log 16) and with no other agent between (R88). CMP, BIT
and the byte forms (R284, R285, R290, R291) only read both operands; CMP's codes are those of source minus destination. The carry
and overflow of ADD and CMP are D25 (log 36). That a byte
instruction keeps the high byte of a register is presumed (G4, log 35). -/
def Obligations.DoubleOperandResults : Prop :=
  (∀ i src dst f s x p t d u, combinesWord i = some (src, dst, f) → sourceAndPlace .write src dst s x p t →
    readPlace p t = .ok d u → p.writable s.cfg →
    ∃ v, exec i s = .next v ∧ rewritePlace p (f x d s.cc).1 (u.setCC (f x d s.cc).2) = .ok () v) ∧
  (∀ i src dst f s x p t d u, combinesByte i = some (src, dst, f) → sourceAndPlaceByte .write src dst s x p t →
    readPlaceByte p t = .ok d u → p.writable s.cfg →
    ∃ v, exec i s = .next v ∧ rewritePlaceByte p (f x d s.cc).1 (u.setCC (f x d s.cc).2) = .ok () v) ∧
  (∀ i src dst f s x p t d u, comparesWord i = some (src, dst, f) → sourceAndPlace .read src dst s x p t →
    readPlace p t = .ok d u → exec i s = .next (u.setCC (f x d s.cc))) ∧
  (∀ i src dst f s x p t d u, comparesByte i = some (src, dst, f) → sourceAndPlaceByte .read src dst s x p t →
    readPlaceByte p t = .ok d u → exec i s = .next (u.setCC (f x d s.cc)))

/-- MOV and MOVB (R282, R283): the destination is not read; the codes describe the source, V is cleared and C kept; they are set
before the store (D32, log 16); MOVB to a register extends the sign. -/
def Obligations.MoveResults : Prop :=
  (∀ src dst s x p t v, sourceAndPlace .write src dst s x p t →
    writePlace p x (t.setCC (codesOf x false s.cc.c)) = .ok () v → exec (.mov src dst) s = .next v) ∧
  (∀ src dst s x r t, sourceAndPlaceByte .write src dst s x (.reg r) t →
    exec (.movb src dst) s =
      .next ((t.setCC (codesOf x false s.cc.c)).setReg r (BitVec.ofInt 16 x.toInt))) ∧
  (∀ src dst s x a t v, sourceAndPlaceByte .write src dst s x (.phys a) t →
    physWriteByte a x (t.setCC (codesOf x false s.cc.c)) = .ok () v → exec (.movb src dst) s = .next v)

/-- The frame of the double operand instructions (R280): in memory only the bytes stored change, no other agent acting, and a
comparison stores nothing; apart from a destination that is a register of the processor or of the console, nothing changes but the
destination, the specifiers' registers, R7 and the condition codes. Of the instructions that rewrite, the destination answers the
read and the write; of MOV and MOVB, which do not read it, the write. -/
def Obligations.DoubleOperandFrame : Prop :=
  (∀ i src dst s x p t v,
    ((∃ f, combinesWord i = some (src, dst, f)) ∧ (∃ d u, readPlace p t = .ok d u) ∧ p.writable s.cfg ∨
      i = .mov src dst ∧ ∃ y u, writePlace p y t = .ok () u) →
    sourceAndPlace .write src dst s x p t → exec i s = .next v →
    (s.busInputs = [] → ∀ b, (∀ a, p = .phys a → wordBytes a b = false) → v.mem.read b = s.mem.read b) ∧
    (p.plain s.cfg → Frame ((touching2 s src dst).word s.mode p).codes s v)) ∧
  (∀ i src dst s x p t v,
    ((∃ f, combinesByte i = some (src, dst, f)) ∧ (∃ d u, readPlaceByte p t = .ok d u) ∧ p.writable s.cfg ∨
      i = .movb src dst ∧ ∃ y u, writePlaceByte p y t = .ok () u) →
    sourceAndPlaceByte .write src dst s x p t → exec i s = .next v →
    (s.busInputs = [] → ∀ b, (∀ a, p = .phys a → b ≠ a.toNat) → v.mem.read b = s.mem.read b) ∧
    (p.plain s.cfg → Frame ((touching2 s src dst).octet s.mode p).codes s v)) ∧
  (∀ i src dst f s x p t v, comparesWord i = some (src, dst, f) → sourceAndPlace .read src dst s x p t →
    (∃ d u, readPlace p t = .ok d u) → exec i s = .next v → Frame (touching2 s src dst).codes s v) ∧
  (∀ i src dst f s x p t v, comparesByte i = some (src, dst, f) → sourceAndPlaceByte .read src dst s x p t →
    (∃ d u, readPlaceByte p t = .ok d u) → exec i s = .next v → Frame (touching2 s src dst).codes s v)

/-! # Extended integer instructions -/

/-- MUL (R300): the signed product, both halves for an even register, the low half for an odd one; C says that it does not fit
in sixteen bits (D21, log 37). The source is read first (D36, log 38). -/
def Obligations.MultiplyResult : Prop :=
  ∀ (r : Reg) (o : Operand) (s t : State) (x : Word), loadWord o s = .ok x t →
    let p := (t.reg r).toInt * x.toInt
    let cc : CC := ⟨decide (p < 0), decide (p = 0), false, decide (p < -32768 ∨ 32767 < p)⟩
    exec (.mul r o) s = .next
      ((if r.toNat % 2 = 0 then
          (t.setReg r (BitVec.ofInt 16 (p / 65536))).setReg (regOf (r.toNat + 1)) (BitVec.ofInt 16 p)
        else t.setReg r (BitVec.ofInt 16 p)).setCC cc)

/-- DIV (R301) of an even register pair: by zero, V and C; a quotient that does not fit, V; otherwise the quotient toward zero
and the remainder of the dividend's sign. That overflow and a zero divisor leave the registers, with N and Z clear, is D20 (log 37),
that the source is read first D36 (log 38). With an odd register the register and the codes are free, and nothing else changes
(D23; log 18). -/
def Obligations.DivideResult : Prop :=
  ∀ (r : Reg) (o : Operand) (s t : State) (x : Word), loadWord o s = .ok x t →
    let lo := regOf (r.toNat + 1)
    let d : Int := (t.reg r).toInt * 65536 + (t.reg lo).toNat
    let q : Int := if (d < 0) = (x.toInt < 0) then d.natAbs / x.toInt.natAbs else -(d.natAbs / x.toInt.natAbs : Nat)
    if r.toNat % 2 = 1 then
      ∃ w cc, exec (.div r o) s = .next { (t.setReg r w).setCC cc with free := t.free + 2 }
    else if x = 0 then exec (.div r o) s = .next (t.setCC ⟨false, false, true, true⟩)
    else if q < -32768 ∨ 32767 < q then exec (.div r o) s = .next (t.setCC ⟨false, false, true, false⟩)
    else exec (.div r o) s = .next
      (((t.setReg r (BitVec.ofInt 16 q)).setReg lo (BitVec.ofInt 16 (d - q * x.toInt))).setCC
        ⟨decide (q < 0), decide (q = 0), false, false⟩)

/-- The shift count of ASH and ASHC: the low six bits of the source, -32 to 31 (R302, R303). -/
def Sys2Proof.Spec.countRule (x : Word) : Int := if x.toNat % 64 < 32 then x.toNat % 64 else x.toNat % 64 - 64

/-- An arithmetic shift of a `w`-bit value by a count (R302, R303): left, C is the last bit shifted out and V says that the
bits that passed through the sign were not all equal; right, rounded toward minus infinity. -/
def Sys2Proof.Spec.shiftRule (w : Nat) (x : BitVec w) (c : Int) (y : BitVec w) (cc : CC) : Prop :=
  cc.n = decide (2 ^ (w - 1) ≤ y.toNat) ∧ cc.z = decide (y.toNat = 0) ∧
  (if 0 < c then
    y = BitVec.ofNat w (x.toNat * 2 ^ c.toNat) ∧
    cc.c = (decide (c.toNat ≤ w) && x.getLsbD (w - c.toNat)) ∧
    (cc.v = true ↔ x.toInt * 2 ^ c.toNat ≠ y.toInt)
   else if c < 0 then
    y = BitVec.ofInt w (x.toInt / 2 ^ (-c).toNat) ∧
    cc.c = (if (-c).toNat ≤ w then x.getLsbD ((-c).toNat - 1) else x.getLsbD (w - 1)) ∧ cc.v = false
   else y = x ∧ cc.c = false ∧ cc.v = false)

/-- ASH (R302) shifts a register by the signed six-bit count, ASHC (R303) an even register pair as one 32-bit word. With an odd
register ASHC's right shift rotates the register and leaves the codes free, its left shift leaves register and codes
free, a count of 0 leaves the register (D22; log 19). That V says `changed at any step` is D22 too (log 37), that the source is
read first D36 (log 38). -/
def Obligations.ShiftResults : Prop :=
  ∀ (r : Reg) (o : Operand) (s t : State) (x : Word), loadWord o s = .ok x t →
    (∃ y cc, shiftRule 16 (t.reg r) (countRule x) y cc ∧ exec (.ash r o) s = .next ((t.setReg r y).setCC cc)) ∧
    if r.toNat % 2 = 0 then
      ∃ y cc, shiftRule 32 (t.reg r ++ t.reg (regOf (r.toNat + 1))) (countRule x) y cc ∧
        exec (.ashc r o) s = .next
          (((t.setReg r (y.extractLsb' 16 16)).setReg (regOf (r.toNat + 1)) (y.extractLsb' 0 16)).setCC cc)
    else if countRule x < 0 then
      ∃ cc, exec (.ashc r o) s =
        .next { (t.setReg r ((t.reg r).rotateRight ((-countRule x).toNat % 16))).setCC cc with free := t.free + 1 }
    else if countRule x = 0 then exec (.ashc r o) s = .next (t.setCC (codesOf (t.reg r) false false))
    else ∃ w cc, exec (.ashc r o) s = .next { (t.setReg r w).setCC cc with free := t.free + 2 }

/-- The frame of MUL, DIV, ASH and ASHC (R299): no memory is written; nothing changes but the register, the next one of an even
pair, the source specifier's register, R7 and the condition codes. -/
def Obligations.ExtendedIntegerFrame : Prop :=
  ∀ (i : Instr) (r : Reg) (o : Operand) (s t v : State) (x : Word),
    (i = .mul r o ∨ i = .div r o ∨ i = .ash r o ∨ i = .ashc r o) → loadWord o s = .ok x t → exec i s = .next v →
    Frame ((((touching s o).reg s.mode r).reg s.mode (orOne r)).codes) s v

/-! # Branches, jumps and subroutines -/

/-- The branches (R320 to R337): the word is the base code with the offset in its low byte; when the condition on the codes
holds, twice the signed offset is added to R7, which is past the branch; otherwise nothing changes. Nothing else changes. -/
def Obligations.BranchResults : Prop :=
  ∀ (i : Instr) (base : Nat) (k : BitVec 8) (c : CC → Prop) (s : State), branchRule i = some (base, k, c) →
    (encode i).toNat = base + k.toNat ∧ decodeWord (encode i) = i.canonical ∧
    (c s.cc → exec i s = .next { s with pc := BitVec.ofInt 16 (s.pc.toNat + 2 * k.toInt) }) ∧
    (¬ c s.cc → exec i s = .next s)

/-- After `CMP a,b` the signed branches compare a with b as signed numbers and the unsigned branches as unsigned ones, whether
or not the subtraction overflows (R320). -/
def Obligations.BranchesAfterCompare : Prop :=
  ∀ (a b : Word) (s : State) (k : BitVec 8),
    let x := (aluCmp a b s.cc).2
    let taken := { s.setCC x with pc := BitVec.ofInt 16 (s.pc.toNat + 2 * k.toInt) }
    let go (i : BitVec 8 → Instr) (c : Bool) : Prop := exec (i k) (s.setCC x) = .next (if c then taken else s.setCC x)
    go .beq (decide (a = b)) ∧ go .bne (decide (a ≠ b)) ∧
    go .blt (decide (a.toInt < b.toInt)) ∧ go .bge (decide (b.toInt ≤ a.toInt)) ∧
    go .ble (decide (a.toInt ≤ b.toInt)) ∧ go .bgt (decide (b.toInt < a.toInt)) ∧
    go .blo (decide (a.toNat < b.toNat)) ∧ go .bhis (decide (b.toNat ≤ a.toNat)) ∧
    go .blos (decide (a.toNat ≤ b.toNat)) ∧ go .bhi (decide (b.toNat < a.toNat))

/-- SOB, JMP, JSR, RTS and MARK (R340, R350 to R353). SOB decrements the register and, unless it has become 0, subtracts twice
the offset from R7; codes and all the rest are unchanged. A jump's target is what the specifier evaluates to; JSR then pushes the
link register, the link register takes R7, and R7 takes the target; with R6 as the link the pushed word is free (D37; log 20);
with mode 0 both are illegal instructions. RTS: R7 takes the register and the register the popped word; MARK first sets SP above
its parameters and uses R5. -/
def Obligations.JumpsAndSubroutines : Prop :=
  (∀ (r : Reg) (nn : BitVec 6) (s : State),
    let t := s.setReg r (BitVec.ofInt 16 ((s.reg r).toNat - 1))
    exec (.sob r nn) s = .next
      (if t.reg r = 0 then t else { t with pc := BitVec.ofInt 16 (t.pc.toNat - 2 * nn.toNat) })) ∧
  (∀ (r : Reg) (o : Operand) (s : State),
    (∀ va t, o.mode ≠ .reg → locate 2 o s = .ok (.mem va) t → exec (.jmp o) s = .next { t with pc := va }) ∧
    (∀ va t z, o.mode ≠ .reg → locate 2 o s = .ok (.mem va) t → push 0 t = .ok () z →
      ∃ w u, (r ≠ .r6 → w = t.reg r) ∧
        push w (if r = .r6 then { t with free := t.free + 1 } else t) = .ok () u ∧
        exec (.jsr r o) s = .next { u.setReg r u.pc with pc := va }) ∧
    (o.mode = .reg → exec (.jmp o) s = enterTrap .illegalInstruction s ∧
      exec (.jsr r o) s = enterTrap .illegalInstruction s ∧ Trap.illegalInstruction.vector = 4)) ∧
  (∀ r s v u, pop { s with pc := s.reg r } = .ok v u → exec (.rts r) s = .next (u.setReg r v)) ∧
  (∀ (nn : BitVec 6) s v u,
    pop { s.setReg .r6 (BitVec.ofNat 16 (s.pc.toNat + 2 * nn.toNat)) with pc := s.r5 } = .ok v u →
    exec (.mark nn) s = .next { u with r5 := v })

/-- The frame of JMP, JSR, RTS and MARK, the stack being memory: JSR stores the one word below the stack pointer, the others
store nothing; nothing changes but R7, R6 and the registers named. -/
def Obligations.SubroutineFrame : Prop :=
  (∀ o s va t v, o.mode ≠ .reg → locate 2 o s = .ok (.mem va) t → exec (.jmp o) s = .next v →
    Frame (touching s o) s v) ∧
  (∀ r o s va t z v a, o.mode ≠ .reg → locate 2 o s = .ok (.mem va) t → push 0 t = .ok () z → pushPlace t a →
    (Place.phys a).plain s.cfg → exec (.jsr r o) s = .next v →
    Frame ((((touching s o).reg s.mode .r6).reg s.mode r).word s.mode (.phys a)) s v) ∧
  (∀ r s x u v, pop { s with pc := s.reg r } = .ok x u → exec (.rts r) s = .next v →
    Frame ((Allow.nothing.reg s.mode .r6).reg s.mode r) s v) ∧
  (∀ (nn : BitVec 6) s x u v,
    pop { s.setReg .r6 (BitVec.ofNat 16 (s.pc.toNat + 2 * nn.toNat)) with pc := s.r5 } = .ok x u →
    exec (.mark nn) s = .next v → Frame ((Allow.nothing.reg s.mode .r6).reg s.mode .r5) s v)

/-! # Returns from a trap, HALT, WAIT, RESET -/

/-- RTI and RTT (R376, R377): R7 and the PS are popped with the stack pointer in force before; in kernel mode all of the PS is
loaded (PS<11:9> stay 0: D17, log 8), else, modes 01 and 10 included (D5, log 10), the codes, T and SI only; RTT makes the next
service state skip the trace test (D14, log 25). -/
def Obligations.ReturnFromTrap : Prop :=
  ∀ (s s1 s2 : State) (npc nps : Word), pop s = .ok npc s1 → pop s1 = .ok nps s2 →
    ∃ ps, (if s.mode = 0 then ps = nps &&& 0o170777
           else ps &&& 0o437 = nps &&& 0o437 ∧ ps &&& 0o170340 = s.ps &&& 0o170340 ∧ ps &&& 0o7000 = 0) ∧
      exec .rti s = .next { s2 with pc := npc, ps := ps } ∧
      exec .rtt s = .next { s2 with pc := npc, ps := ps, inhibitT := true } ∧
      Frame { Allow.nothing.reg s.mode .r6 with ps := 0o177777 } s { s2 with pc := npc, ps := ps }

/-- HALT (R380, R668): a reserved instruction outside kernel mode; with BPOK negated, the restart, whose next step clears PS,
FPS, FEC, SR0, SR3 and the latches and waits for power; with W7 installed a reserved instruction; else the console is entered.
That modes 01 and 10 are not kernel here is D5 (log 10); that the restart clears the event latch is D7 (R60: not stated; log 25),
and that it clears SR3 is the inference that R50 marks as its own. -/
def Obligations.HaltResult : Prop :=
  ∀ s : State,
    if s.mode ≠ 0 then exec .halt s = enterTrap .reservedInstruction s
    else if s.bpok = false then
      exec .halt s = .next { s with run := .haltPowerTest } ∧
      ∀ t, t = { s with run := .haltPowerTest, inputs := [], bdmr := false } →
        ∃ u, step t = .next u ∧ u.run = .powerWait ∧ u.ps = 0 ∧ u.fps = 0 ∧ u.fec = 0 ∧ u.sr0 = 0 ∧ u.sr3 = 0 ∧
          u.eventFF = false ∧ u.powerFailFF = false ∧ u.stackOverflow = false ∧ u.mem = t.mem ∧ u.pc = t.pc
    else if s.cfg.w7HaltTraps = true then exec .halt s = enterTrap .reservedInstruction s
    else exec .halt s = .next (odtEnter s)

/-- WAIT (R381) changes nothing but the run state; the processor then idles until a service condition is present, which is
taken with R7 past the WAIT. RESET (R382, R670): in kernel mode the bus is initialised (the console's flags and interrupt
enables: G13, log 27, 35) and SR0 and SR3 are cleared, nothing else, the event latch included (D7, log 50); in any other mode it is
no operation, modes 01 and 10 included (D5, log 10). What ends a WAIT is D30 (log 25). -/
def Obligations.WaitAndReset : Prop :=
  ∀ s : State,
    exec .wait s = .next { s with run := .wait } ∧
    (s.run = .wait → s.inputs = [] → s.bdmr = false →
      (arbitrate s = .idle → step s = .next s) ∧ (arbitrate s ≠ .idle → step s = serviceState s)) ∧
    (s.mode ≠ 0 → exec .reset s = .next s) ∧
    (s.mode = 0 →
      ∃ t, exec .reset s = .next t ∧ t.slu.rxDone = false ∧ t.slu.rxIe = false ∧ t.slu.txReady = true ∧
        t.slu.txIe = false ∧ t.slu.printed = s.slu.printed ∧
        { t with slu := s.slu, sr0 := s.sr0, sr3 := s.sr3 } = s ∧
        (s.cfg.hasMmu = true → t.sr0 = 0 ∧ t.sr3 = 0) ∧ (s.cfg.hasMmu = false → t.sr0 = s.sr0 ∧ t.sr3 = s.sr3))

/-! # Condition codes, processor status, previous space -/

/-- The condition code operators (R400 to R403): codes 000240 to 000277, bit 4 the sense and bits 3:0 the mask; the selected
codes are set or cleared, the others kept; nothing else changes. -/
def Obligations.ConditionCodeOperators : Prop :=
  ∀ i t m s, codeOperator i = some (t, m) →
    (encode i).toNat = 0o240 + 16 * bitNat t + 8 * bitNat m.n + 4 * bitNat m.z + 2 * bitNat m.v + bitNat m.c ∧
    decodeWord (encode i) = i.canonical ∧
    exec i s = .next (s.setCC ⟨if m.n then t else s.cc.n, if m.z then t else s.cc.z, if m.v then t else s.cc.v,
      if m.c then t else s.cc.c⟩)

/-- MFPT, MFPS and MTPS (R410 to R412): MFPT loads 3 into R0 and changes nothing else; MFPS stores PS<7:0> as it stood, extended
into a register (D24, log 35), and sets the codes before the store (D32, log 16); MTPS loads the codes, in kernel mode the
priority too (modes 01 and 10 are not kernel: D5, log 10), and never T nor the high byte. -/
def Obligations.ProcessorStatusMoves : Prop :=
  (∀ s, exec .mfpt s = .next { s with r0 := 3 }) ∧
  (∀ o s r t, bytePlace .write o s = .ok (.reg r) t →
    exec (.mfps o) s = .next ((t.setCC (codesOf (s.ps.setWidth 8) false s.cc.c)).setReg r
      ((s.ps.setWidth 8).signExtend 16))) ∧
  (∀ o s a t v, bytePlace .write o s = .ok (.phys a) t →
    physWriteByte a (s.ps.setWidth 8) (t.setCC (codesOf (s.ps.setWidth 8) false s.cc.c)) = .ok () v →
    exec (.mfps o) s = .next v) ∧
  (∀ o s t (x : Byte), loadByte o s = .ok x t →
    ∃ ps, exec (.mtps o) s = .next { t with ps := ps } ∧
      (∀ k, k < 4 → ps.getLsbD k = x.getLsbD k) ∧
      (∀ k, 5 ≤ k → k < 8 → ps.getLsbD k = if s.mode = 0 then x.getLsbD k else s.ps.getLsbD k) ∧
      (∀ k, k = 4 ∨ 8 ≤ k → ps.getLsbD k = s.ps.getLsbD k))

/-- MFPI, MFPD, MTPI and MTPD (R414 to R417): register 6 is the previous mode's stack pointer, the other registers are not
banked, memory is referenced in the previous mode's space; MFPI pushes the word on the current stack, MTPI pops it
before its destination is evaluated; the codes describe the word, and are set before the push or the store (D32, log 16). That
modes 01 and 10 have stack pointers of their own is D5 (log 10); that MTPI pops before its destination is evaluated follows R416,
where R65 speaks of a destination latched before the pop (log 52). -/
def Obligations.PreviousSpaceMoves : Prop :=
  (∀ (i : Instr) (o : Operand) (s : State), (i = .mfpi o ∨ i = .mfpd o) →
    (∀ v, o.mode = .reg →
      let x := if o.reg = .r6 then s.spOf s.prevMode else s.reg o.reg
      push x (s.setCC (codesOf x false s.cc.c)) = .ok () v → exec i s = .next v) ∧
    (∀ va t x u v, locate 2 o s = .ok (.mem va) t → readWordMode s.prevMode va t = .ok x u →
      push x (u.setCC (codesOf x false s.cc.c)) = .ok () v → exec i s = .next v)) ∧
  (∀ (i : Instr) (o : Operand) (s s1 : State) (x : Word), (i = .mtpi o ∨ i = .mtpd o) → pop s = .ok x s1 →
    (o.mode = .reg → o.reg = .r6 →
      exec i s = .next ((s1.setCC (codesOf x false s.cc.c)).setSpOf s.prevMode x)) ∧
    (o.mode = .reg → o.reg ≠ .r6 → exec i s = .next ((s1.setCC (codesOf x false s.cc.c)).setReg o.reg x)) ∧
    (∀ va t v, locate 2 o s1 = .ok (.mem va) t →
      writeWordMode s.prevMode va x (t.setCC (codesOf x false s.cc.c)) = .ok () v → exec i s = .next v))

/-- The frame of MFPS, MFPI, MFPD, MTPI and MTPD: in memory only the byte or the word stored changes; nothing changes but it,
the specifier's register, R6, R7 and the condition codes. That
MTPI pops before its destination is evaluated is log 52. -/
def Obligations.StatusAndSpaceFrame : Prop :=
  (∀ o s p t v, bytePlace .write o s = .ok p t → p.plain s.cfg → exec (.mfps o) s = .next v →
    Frame ((touching s o).octet s.mode p).codes s v) ∧
  (∀ (i : Instr) (o : Operand) (s v : State) (x : Word) (a : PAddr), (i = .mfpi o ∨ i = .mfpd o) → o.mode = .reg →
    x = (if o.reg = .r6 then s.spOf s.prevMode else s.reg o.reg) →
    push x (s.setCC (codesOf x false s.cc.c)) = .ok () v → pushPlace (s.setCC (codesOf x false s.cc.c)) a →
    (Place.phys a).plain s.cfg → Frame (((Allow.nothing.reg s.mode .r6).word s.mode (.phys a)).codes) s v) ∧
  (∀ o s va t x u v a, locate 2 o s = .ok (.mem va) t → readWordMode s.prevMode va t = .ok x u →
    push x (u.setCC (codesOf x false s.cc.c)) = .ok () v → pushPlace (u.setCC (codesOf x false s.cc.c)) a →
    (Place.phys a).plain s.cfg → (exec (.mfpi o) s = .next v ∧ exec (.mfpd o) s = .next v) ∧
    Frame ((((touching s o).reg s.mode .r6).word s.mode (.phys a)).codes) s v) ∧
  (∀ (i : Instr) (o : Operand) (s s1 v : State) (x : Word), (i = .mtpi o ∨ i = .mtpd o) → pop s = .ok x s1 →
    o.mode = .reg → exec i s = .next v →
    Frame ((if o.reg = .r6 then Allow.nothing.reg s.prevMode .r6 else touching s o).reg s.mode .r6).codes s v) ∧
  (∀ (i : Instr) (o : Operand) (s s1 t v : State) (x va : Word) (a : PAddr) (y : State), (i = .mtpi o ∨ i = .mtpd o) →
    pop s = .ok x s1 → locate 2 o s1 = .ok (.mem va) t →
    translate s.prevMode va .write (t.setCC (codesOf x false s.cc.c)) = .ok a y → (Place.phys a).plain s.cfg →
    exec i s = .next v → Frame ((((touching s o).reg s.mode .r6).word s.mode (.phys a)).codes) s v)

/-! # Floating point -/

/-- Floating operands (R433, R439, R471 to R474): an accumulator is read and written whole in double precision and by its high
half in single; in memory the most significant word comes first, an F datum has two words, a D datum four, and an immediate
operand one; words that are missing read as 0 (G17, log 35); the low half of an accumulator is free after a write in single
precision (D38, log 21). What is written to memory reads back, no other agent acting. The order
of the words is ascending (D42, log 42), and bit 0 of an odd address is ignored (D3, log 12). -/
def Obligations.FloatingOperands : Prop :=
  (∀ dbl i s, readFp dbl (.acc i) s = .ok (accDatum dbl i s) s) ∧
  (∀ dbl i x s, ∃ v, writeFp dbl (.acc i) x s = .ok () v ∧ accSet dbl i x s v) ∧
  (∀ (va : Word) (s : State), s.mem.wf → s.busInputs = [] → s.relocating = false →
    (∀ k : Fin 4, isRam s (unmapped (va + BitVec.ofNat 16 (2 * k.val)))) →
    let w (k : Nat) := s.mem.readWord (unmapped (va + BitVec.ofNat 16 (2 * k)))
    readFp true (.mem va false) s = .ok (w 0 ++ w 1 ++ w 2 ++ w 3) s ∧
    readFp false (.mem va false) s = .ok (w 0 ++ w 1 ++ (0 : BitVec 32)) s ∧
    (∀ dbl, readFp dbl (.mem va true) s = .ok (w 0 ++ (0 : BitVec 48)) s) ∧
    ∀ x, ∃ v1 v2 v3, writeFp true (.mem va false) x s = .ok () v1 ∧ readFp true (.mem va false) v1 = .ok x v1 ∧
      writeFp false (.mem va false) x s = .ok () v2 ∧
      readFp false (.mem va false) v2 = .ok (x.extractLsb' 32 32 ++ (0 : BitVec 32)) v2 ∧
      writeFp true (.mem va true) x s = .ok () v3 ∧
      readFp true (.mem va true) v3 = .ok (x.extractLsb' 48 16 ++ (0 : BitVec 48)) v3)

/-- LDF, LDD, STF and STD (R480, R481) are bit copies; the codes describe what was loaded, even when a trapping -0 is not loaded; a
store changes no codes. CLR, TST, NEG and ABS (R482 to R485): CLR does not read its operand; an operand with biased exponent 0 is
replaced by exact 0; the codes describe the new contents; a trapping -0 is reported after execution. The codes of a -0 are D39
(log 39); what an exception records, and its trap as the last act, D40 (log 40); the free low half D38 (log 21). The
words of a store go up in order (D42, log 42), each under the mode that the PS then names (log 51). The
bit numbers of a datum are presumed (D29 and G8, log 35). -/
def Obligations.FloatingMoves : Prop :=
  (∀ i a o s x p u, (i = .ldf a o ∨ i = .ldd a o) → s.cfg.fpp = true → fpRead s.fd o s x p u →
    let t := u.setFCC (floatCodes x false false)
    if undefinedVariable p x s then ends (exec i s) s (some 12) t
    else ∃ v, accSet s.fd (acIndex a) x t v ∧ exec i s = .next v) ∧
  (∀ i a o s p t v, (i = .stf a o ∨ i = .std a o) → s.cfg.fpp = true → fpPlace s.fd o s p t →
    writeFp s.fd p (accDatum s.fd (acIndex a) t) t = .ok () v → exec i s = .next v) ∧
  (∀ i o s p t v, (i = .clrf o ∨ i = .clrd o) → s.cfg.fpp = true → fpPlace s.fd o s p t → writeFp s.fd p 0 t = .ok () v →
    exec i s = .next (v.setFCC ⟨false, true, false, false⟩)) ∧
  (∀ i o s x p u, (i = .tstf o ∨ i = .tstd o) → s.cfg.fpp = true → fpRead s.fd o s x p u →
    ends (exec i s) s (if undefinedVariable p x s then some 12 else none) (u.setFCC (floatCodes x false false))) ∧
  (∀ i o s x p u v y,
    ((i = .negf o ∨ i = .negd o) ∧ y = (if expOf x = 0 then 0 else x ^^^ 0x8000000000000000) ∨
     (i = .absf o ∨ i = .absd o) ∧ y = (if expOf x = 0 then 0 else x &&& 0x7fffffffffffffff)) →
    s.cfg.fpp = true → fpRead s.fd o s x p u → writeFp s.fd p y u = .ok () v →
    ends (exec i s) s (if undefinedVariable p x s then some 12 else none) (v.setFCC (floatCodes y false false)))

/-- ADD, SUB, MUL and DIV (R443 to R446, R486 to R489): a trapping -0 and a divisor with exponent 0 (code 4) end the
instruction before it; else the accumulator takes the exact result of the operands' numbers, chopped or rounded once, with
overflow and underflow as R446 says, and the codes describe it. The codes of a stored -0 are D39 (log 39); what an exception
records, and its trap as the last act, D40 (log 40); the free low half D38 (log 21). The
bit numbers of a datum are presumed (D29 and G8, log 35). -/
def Obligations.FloatingArithmetic : Prop :=
  ∀ i a o f s x p u, floatArithmetic i = some (a, o, f) → s.cfg.fpp = true → fpRead s.fd o s x p u →
    if undefinedVariable p x s then ends (exec i s) s (some 12) u
    else if (i = .divf a o ∨ i = .divd a o) ∧ expOf x = 0 then ends (exec i s) s (some 4) u
    else ∃ d v code t,
      resultRule s.fd s.ft s.fiv s.fiu (f (datumVal (accDatum s.fd (acIndex a) u)) (datumVal x)) d v code ∧
      accSet s.fd (acIndex a) d u t ∧ ends (exec i s) s code (t.setFCC (floatCodes d v false))

/-- CMP (R490): the codes are those of source minus accumulator, as numbers; two operands with exponent 0 leave exact 0 in the
accumulator; a trapping -0 ends the instruction before it. What the exception records, and its trap as the last act, is D40
(log 40); the free low half of the accumulator D38 (log 21). The
bit numbers of a datum are presumed (D29 and G8, log 35). -/
def Obligations.FloatingCompare : Prop :=
  ∀ i a o s x p u, (i = .cmpf a o ∨ i = .cmpd a o) → s.cfg.fpp = true → fpRead s.fd o s x p u →
    let y := accDatum s.fd (acIndex a) u
    let t := u.setFCC ⟨decide (datumVal x < datumVal y), decide (datumVal x = datumVal y), false, false⟩
    if undefinedVariable p x s then ends (exec i s) s (some 12) u
    else if expOf x = 0 ∧ expOf y = 0 then ∃ v, accSet s.fd (acIndex a) 0 t v ∧ exec i s = .next v
    else exec i s = .next t

/-- MOD (R491): the product is parted into integer and fraction; the integer part goes to AC or 1 when that is another
accumulator, the fraction to AC, and the codes describe the fraction; a trapping -0 ends the instruction before it. In double
precision the product has 64 bits (D41, log 41). The codes of a -0 are D39 (log 39); what an exception records, and its trap as
the last act, D40 (log 40); the free low half D38 (log 21). The
bit numbers of a datum are presumed (D29 and G8, log 35). -/
def Obligations.FloatingModulo : Prop :=
  ∀ i a o s x p u, (i = .modf a o ∨ i = .modd a o) → s.cfg.fpp = true → fpRead s.fd o s x p u →
    let j : Fin 6 := Fin.ofNat 6 ((acIndex a).val ||| 1)
    if undefinedVariable p x s then ends (exec i s) s (some 12) u
    else ∃ q hi lo v code t w,
      productRule s.fd (datumVal (accDatum s.fd (acIndex a) u) * datumVal x) q ∧
      modRule s.fd s.ft s.fiv s.fiu q hi lo v code ∧
      (if j = acIndex a then t = u else accSet s.fd j hi u t) ∧ accSet s.fd (acIndex a) lo t w ∧
      ends (exec i s) s code (w.setFCC (floatCodes lo v false))

/-- LDCDF, LDCFD, STCFD and STCDF (R492, R493): the operand in memory, or the accumulator it names, has the other precision; an
exponent of 0 becomes exact 0, and the codes then show the operand's sign; to double precision the low half is 0; to single
precision the datum is chopped or rounded, with overflow as those rules say. The codes of a datum with exponent 0 are D39
(log 39); what an exception records, and its trap as the last act, D40 (log 40); the free low half D38 (log 21). The
words of a store go up in order (D42, log 42), each under the mode that the PS then names (log 51). The
bit numbers of a datum are presumed (D29 and G8, log 35). -/
def Obligations.FloatingConversions : Prop :=
  (∀ i a o s x p u, (i = .ldcdf a o ∨ i = .ldcfd a o) → s.cfg.fpp = true → fpRead (!s.fd) o s x p u →
    if undefinedVariable p x s then ends (exec i s) s (some 12) (u.setFCC ⟨true, true, false, false⟩)
    else if expOf x = 0 then
      ∃ v, accSet s.fd (acIndex a) 0 (u.setFCC (floatCodes x false false)) v ∧ exec i s = .next v
    else if s.fd then ∃ v, accSet true (acIndex a) x (u.setFCC (floatCodes x false false)) v ∧ exec i s = .next v
    else ∃ d v code t, singleRule s.ft s.fiv x d v code ∧ accSet false (acIndex a) d u t ∧
      ends (exec i s) s code (t.setFCC (floatCodes d v false))) ∧
  (∀ i a o s p t, (i = .stcfd a o ∨ i = .stcdf a o) → s.cfg.fpp = true → fpPlace (!s.fd) o s p t →
    let x := accDatum s.fd (acIndex a) t
    if expOf x = 0 then
      ∀ v, writeFp (!s.fd) p 0 t = .ok () v → exec i s = .next (v.setFCC (floatCodes x false false))
    else if s.fd then
      ∃ d v code, singleRule s.ft s.fiv x d v code ∧
        ∀ w, writeFp false p d t = .ok () w → ends (exec i s) s code (w.setFCC (floatCodes x v false))
    else ∀ v, writeFp true p x t = .ok () v → exec i s = .next (v.setFCC (floatCodes x false false)))

/-- LDCIF, LDCID, LDCLF and LDCLD (R494): the integer as a number, chopped or rounded to the precision. STCFI, STCFL, STCDI and
STCDL (R495): the number's integer part toward zero, or 0 with C and FC set, and exception 6 if FIC is set, where it is
outside the range, whose ends count as outside; the codes go to PS and FPS. What is stored in a register or an immediate is D43
(log 43); that the codes of the PS are set before the store D32 (log 16); what an exception records, and its trap as the last
act, D40 (log 40); the free low half D38 (log 21). The
words of a store go up in order (D42, log 42), each under the mode that the PS then names (log 51). That a
long integer has its high word first, and the bit numbers of a datum, are presumed (D29, G8 and G9, log 35). -/
def Obligations.IntegerConversions : Prop :=
  (∀ i a o s n u, (i = .ldcif a o ∨ i = .ldcid a o ∨ i = .ldclf a o ∨ i = .ldcld a o) → s.cfg.fpp = true →
    integerSource o s n u →
    ∃ d t, (if n = 0 then d = 0 else
        ∃ k e, narrow (widthOf s.fd) s.ft n k e ∧ d = pattern (decide (n < 0)) (widthOf s.fd) k e) ∧
      accSet s.fd (acIndex a) d u t ∧ exec i s = .next (t.setFCC (floatCodes d false false))) ∧
  (∀ i a o s l t v, (i = .stcfi a o ∨ i = .stcdi a o ∨ i = .stcfl a o ∨ i = .stcdl a o) → s.cfg.fpp = true →
    locate (if s.fl then 4 else 2) o s = .ok l t →
    let x := datumVal (accDatum s.fd (acIndex a) t)
    let n : ℤ := (if x < 0 then -1 else 1) * ⌊|x|⌋
    let jl : ℤ := if s.fl then 2 ^ 31 - 1 else 2 ^ 15 - 1
    let fits : Bool := decide (-jl - 1 < n ∧ n < jl + 1)
    let res : ℤ := if fits then n else 0
    let cc : CC := ⟨decide (res < 0), decide (res = 0), false, !fits⟩
    let hi : Word := BitVec.ofInt 16 (res / 65536)
    let lo : Word := BitVec.ofInt 16 res
    let ws := if s.fl = false then [lo] else if o.mode = .autoInc ∧ o.reg = .r7 then [hi] else [hi, lo]
    stores ws l (t.setCC cc) v →
    ends (exec i s) s (if !fits && s.fic then some 6 else none) (v.setFCC cc))

/-- LDEXP (R496): the exponent field takes the low byte of the integer plus 200, and an integer above 177 or below -177 is an
overflow or an underflow, which without its enable leaves exact 0. STEXP (R497): the exponent less 200 is stored, and
describes itself in both sets of codes. LDFPS, STFPS, STST (R502 to R504): the status register, whose bits 13, 12 and 4 are
stored as 0, and the exception registers. That the FPS holds those three bits is D33 (log 44); STEXP's codes before its store
D32 (log 16); the codes of a -0 D39 (log 39); what an exception records, and its trap as the last act, D40 (log 40); the free
low half D38 (log 21). The
words of a store go up in order (D42, log 42), each under the mode that the PS then names (log 51). The bit
numbers of a datum are presumed (D29 and G8, log 35). -/
def Obligations.ExponentAndStatusMoves : Prop :=
  (∀ a o s w u, s.cfg.fpp = true → loadWord o s = .ok w u →
    let n := w.toInt
    let i := acIndex a
    let old := s.ac[i]
    let hi : BitVec 32 := (old.hi &&& 0x807fffff) ||| (BitVec.ofInt 8 (n + 128)).setWidth 32 <<< 23
    let t := { u with ac := u.ac.set i ⟨hi, old.lo⟩ }
    let d := accDatum s.fd i t
    if 127 < n then
      if s.fiv then ends (exec (.ldexp a o) s) s (some 8) (t.setFCC (floatCodes d true false))
      else ∃ v, accSet s.fd i 0 u v ∧ exec (.ldexp a o) s = .next (v.setFCC (floatCodes 0 true false))
    else if n < -127 then
      if s.fiu then ends (exec (.ldexp a o) s) s (some 10) (t.setFCC (floatCodes d false false))
      else ∃ v, accSet s.fd i 0 u v ∧ exec (.ldexp a o) s = .next (v.setFCC (floatCodes 0 false false))
    else exec (.ldexp a o) s = .next (t.setFCC (floatCodes d false false))) ∧
  (∀ a o s l t v, s.cfg.fpp = true → locate 2 o s = .ok l t →
    let r : Word := BitVec.ofInt 16 (expOf (accDatum s.fd (acIndex a) t) - 128)
    let cc := codesOf r false false
    stores [r] l (t.setCC cc) v → exec (.stexp a o) s = .next (v.setFCC cc)) ∧
  (∀ o s w u, s.cfg.fpp = true → loadWord o s = .ok w u → exec (.ldfps o) s = .next { u with fps := w }) ∧
  (∀ o s l t v, s.cfg.fpp = true → locate 2 o s = .ok l t → stores [s.fps &&& 0o147757] l t v →
    exec (.stfps o) s = .next v) ∧
  (∀ o s l t v, s.cfg.fpp = true → locate 4 o s = .ok l t →
    stores (if o.mode = .autoInc ∧ o.reg = .r7 then [s.fec.setWidth 16] else [s.fec.setWidth 16, s.fea]) l t v →
    exec (.stst o) s = .next v)

/-- SETF, SETD, SETI, SETL and CFCC (R498 to R501, R505): their words, and the mode bits they set or clear, or the codes they
copy to the PS; nothing else changes. -/
def Obligations.FloatingModes : Prop :=
  decodeWord 0o170001 = .setf ∧ decodeWord 0o170011 = .setd ∧ decodeWord 0o170002 = .seti ∧
  decodeWord 0o170012 = .setl ∧ decodeWord 0o170000 = .cfcc ∧
  ∀ s : State, s.cfg.fpp = true →
    exec .setf s = .next { s with fps := s.fps &&& 0o177577 } ∧
    exec .setd s = .next { s with fps := s.fps ||| 0o200 } ∧
    exec .seti s = .next { s with fps := s.fps &&& 0o177677 } ∧
    exec .setl s = .next { s with fps := s.fps ||| 0o100 } ∧
    exec .cfcc s = .next { s with ps := s.ps &&& 0o177760 ||| s.fps &&& 0o17 }

/-- The opcode error (R455, R456, R470 step 2): an unassigned floating code, and a floating specifier that names accumulator 6
or 7, record code 2 and do nothing else. Without the option every floating code is a reserved instruction (R190; D9, log 22).
That the unassigned codes have this error is D34 (log 22); what it records, and its trap as the last act, D40 (log 40). -/
def Obligations.FloatingOpcodeErrors : Prop :=
  (∀ w s, s.cfg.fpp = true → ends (exec (.unassigned170003 w) s) s (some 2) s ∧
    ends (exec (.unassigned170013 w) s) s (some 2) s) ∧
  (∀ i o b s, floatSpecifier i = some (o, b) → s.cfg.fpp = true → o.mode = .reg → o.reg = .r6 ∨ o.reg = .r7 →
    ends (exec i s) s (some 2) s) ∧
  (∀ i s, i.wellFormed = true → isFloating i = true → s.cfg.fpp = false → exec i s = enterTrap .reservedInstruction s)

/-- The frame of the floating instructions, before a trap through 244 if there is one. Those that only read their operand
write no memory, and nothing changes but their accumulators, the specifier's register, R7, the floating codes, FER, FEC
and FEA. Those that store change, no other agent acting, the bytes of the words they store, which are as many as R474 to R477
say and begin at the address that the specifier evaluates to, each translated; STF, STD, STFPS and STST change nothing besides,
CLR and STEXP codes only, the other conversions codes and the record of an exception. -/
def Obligations.FloatingFrame : Prop :=
  (∀ i l o b s x p u, floatReader i = some (l, o, b) → s.cfg.fpp = true → fpRead (s.fd ^^ b) o s x p u →
    framed (exec i s) { touching s o with acc := fun j => l.contains j, fps := 0o100017, exc := true } s) ∧
  (∀ i o b f s va t, floatWriter i = some (o, b, f) → s.cfg.fpp = true → s.busInputs = [] → o.mode ≠ .reg →
    locate (if s.fd ^^ b then 8 else 4) o s = .ok (.mem va) t →
    let n := if o.mode = .autoInc ∧ o.reg = .r7 then 1 else if s.fd ^^ b then 4 else 2
    plainWords s.mode va n t →
    framed (exec i s) { f (touching s o) with byte := wordsAt s.mode va n t } s) ∧
  (∀ i o b f s d, floatWriter i = some (o, b, f) → s.cfg.fpp = true → o.mode = .reg → accOf o.reg = some d →
    framed (exec i s) { f Allow.nothing with acc := fun j => j == d } s) ∧
  (∀ i o s va t x u, (i = .negf o ∨ i = .negd o ∨ i = .absf o ∨ i = .absd o) → s.cfg.fpp = true → s.busInputs = [] →
    o.mode ≠ .reg → locate (if s.fd then 8 else 4) o s = .ok (.mem va) t →
    let n := if o.mode = .autoInc ∧ o.reg = .r7 then 1 else if s.fd then 4 else 2
    readFp s.fd (.mem va (decide (n = 1))) t = .ok x u → plainWords s.mode va n u →
    framed (exec i s) { touching s o with byte := wordsAt s.mode va n u, fps := 0o100017, exc := true } s) ∧
  (∀ i o s d, (i = .negf o ∨ i = .negd o ∨ i = .absf o ∨ i = .absd o) → s.cfg.fpp = true → o.mode = .reg →
    accOf o.reg = some d → framed (exec i s) { Allow.nothing with acc := fun j => j == d, fps := 0o17 } s) ∧
  (∀ i o k n f s l t, wordStorer s.fl i = some (o, k, n, f) → s.cfg.fpp = true → locate k o s = .ok l t →
    (∀ r, l = .reg r → framed (exec i s) (f (touching s o)) s) ∧
    (∀ va, l = .mem va → s.busInputs = [] → plainWords s.mode va n t →
      framed (exec i s) { f (touching s o) with byte := wordsAt s.mode va n t } s)) ∧
  (∀ i (a : Ac) o s n u, (i = .ldcif a o ∨ i = .ldcid a o ∨ i = .ldclf a o ∨ i = .ldcld a o) → s.cfg.fpp = true →
    integerSource o s n u →
    framed (exec i s) { touching s o with acc := fun j => j == acIndex a, fps := 0o17 } s) ∧
  (∀ (a : Ac) o s x u, s.cfg.fpp = true → loadWord o s = .ok x u →
    framed (exec (.ldexp a o) s) { touching s o with acc := fun j => j == acIndex a, fps := 0o100017, exc := true } s) ∧
  (∀ o s x u, s.cfg.fpp = true → loadWord o s = .ok x u →
    framed (exec (.ldfps o) s) { touching s o with fps := 0o177777 } s)
end

