-- ==== Sys2Proof/Laws/Memory.lean ====
section
/-! SUPPORT. Memory: reading after writing, and the canonical form that every write keeps. -/

namespace Sys2Proof.Machine

/-- An address below every listed one reads as unlisted. -/
theorem Memory.read_of_lt {m : Memory} {a : Nat} (h : ∀ x ∈ m, a < x.1) : m.read a = unlistedByte := by
  induction m with
  | nil => rfl
  | cons x m ih =>
    obtain ⟨b, w⟩ := x
    have hb : a < b := h (b, w) (by simp)
    simp only [Memory.read, if_neg (by omega : ¬ b = a)]
    exact ih fun y hy => h y (by simp [hy])

/-- What `Memory.cons` reads as. -/
theorem Memory.read_cons {m : Memory} {a : Nat} {v : Byte} (h : ∀ x ∈ m, a < x.1) (b : Nat) :
    (Memory.cons a v m).read b = if b = a then v else m.read b := by
  unfold Memory.cons
  split
  · next hv =>
    split
    · next hb => subst hb; rw [Memory.read_of_lt h, hv]
    · rfl
  · by_cases hb : b = a
    · simp [Memory.read, hb]
    · simp [Memory.read, hb, Ne.symm hb]

/-- The entries of `Memory.cons`. -/
theorem Memory.mem_cons {m : Memory} {a : Nat} {v : Byte} {x : Host.Cell} (h : x ∈ Memory.cons a v m) :
    (x = (a, v) ∧ v ≠ unlistedByte) ∨ x ∈ m := by
  unfold Memory.cons at h
  split at h
  · exact .inr h
  · next hv => exact (List.mem_cons.mp h).imp (fun h => ⟨h, hv⟩) id

/-- The entries after a write. -/
theorem Memory.mem_write {m : Memory} {a : Nat} {v : Byte} {x : Host.Cell} (h : x ∈ m.write a v) :
    (x = (a, v) ∧ v ≠ unlistedByte) ∨ x ∈ m := by
  induction m with
  | nil => exact Memory.mem_cons h
  | cons y m ih =>
    obtain ⟨b, w⟩ := y
    simp only [Memory.write] at h
    split at h
    · exact Memory.mem_cons h
    · split at h
      · exact (Memory.mem_cons h).imp id (List.mem_cons_of_mem _)
      · rcases List.mem_cons.mp h with h | h
        · exact .inr (h ▸ List.mem_cons_self)
        · exact (ih h).imp id (List.mem_cons_of_mem _)

/-- The tail of a memory in canonical form. -/
theorem Memory.wf_tail {x : Host.Cell} {m : Memory} (h : Memory.wf (x :: m)) : Memory.wf m :=
  ⟨(List.pairwise_cons.mp h.1).2, fun y hy => h.2 y (List.mem_cons_of_mem _ hy)⟩

/-- The first address is below the others. -/
theorem Memory.wf_head {x : Host.Cell} {m : Memory} (h : Memory.wf (x :: m)) : ∀ y ∈ m, x.1 < y.1 :=
  (List.pairwise_cons.mp h.1).1

/-- `Memory.cons` in front of later addresses keeps the canonical form. -/
theorem Memory.wf_cons {m : Memory} {a : Nat} {v : Byte} (hm : m.wf) (ha : a < 2 ^ 18) (h : ∀ x ∈ m, a < x.1) :
    (Memory.cons a v m).wf := by
  unfold Memory.cons
  split
  · exact hm
  · next hv =>
    refine ⟨List.pairwise_cons.mpr ⟨h, hm.1⟩, fun x hx => ?_⟩
    rcases List.mem_cons.mp hx with rfl | hx
    · exact ⟨ha, hv⟩
    · exact hm.2 x hx

/-- A write keeps the canonical form. -/
theorem Memory.wf_write {m : Memory} {a : Nat} {v : Byte} (hm : m.wf) (ha : a < 2 ^ 18) : (m.write a v).wf := by
  induction m with
  | nil => exact Memory.wf_cons hm ha (by simp)
  | cons y m ih =>
    obtain ⟨b, w⟩ := y
    simp only [Memory.write]
    split
    · next hb =>
      refine Memory.wf_cons hm ha fun x hx => ?_
      rcases List.mem_cons.mp hx with rfl | hx
      · exact hb
      · exact Nat.lt_trans hb (Memory.wf_head hm x hx)
    · split
      · next hb => subst hb; exact Memory.wf_cons (Memory.wf_tail hm) ha (Memory.wf_head hm)
      · refine ⟨List.pairwise_cons.mpr ⟨fun x hx => ?_, (ih (Memory.wf_tail hm)).1⟩, fun x hx => ?_⟩
        · rcases Memory.mem_write hx with ⟨rfl, -⟩ | hx
          · show b < a; omega
          · exact Memory.wf_head hm x hx
        · rcases List.mem_cons.mp hx with rfl | hx
          · exact hm.2 _ List.mem_cons_self
          · exact (ih (Memory.wf_tail hm)).2 x hx

/-- A byte read after a write: the written byte at the written address, the old byte anywhere else. -/
theorem Memory.read_write {m : Memory} (hm : m.wf) (a : Nat) (v : Byte) (b : Nat) :
    (m.write a v).read b = if b = a then v else m.read b := by
  induction m with
  | nil => exact Memory.read_cons (by simp) b
  | cons y m ih =>
    obtain ⟨c, w⟩ := y
    simp only [Memory.write]
    split
    · next hc =>
      refine Memory.read_cons (fun x hx => ?_) b
      rcases List.mem_cons.mp hx with rfl | hx
      · exact hc
      · exact Nat.lt_trans hc (Memory.wf_head hm x hx)
    · split
      · next hc =>
        subst hc
        rw [Memory.read_cons (Memory.wf_head hm) b]
        by_cases hb : b = a
        · simp [hb]
        · simp [Memory.read, hb, Ne.symm hb]
      · next hc hac =>
        simp only [Memory.read, ih (Memory.wf_tail hm)]
        by_cases hb : c = b
        · subst hb; simp [Ne.symm hac]
        · simp [hb]

/-- A write elsewhere leaves a byte, whether or not the memory is in canonical form. -/
theorem Memory.read_write_ne (m : Memory) {a b : Nat} (v : Byte) (h : b ≠ a) : (m.write a v).read b = m.read b := by
  have hc : ∀ m : Memory, (Memory.cons a v m).read b = m.read b := fun m => by
    unfold Memory.cons; split
    · rfl
    · simp [Memory.read, Ne.symm h]
  induction m with
  | nil => exact hc []
  | cons y m ih =>
    obtain ⟨c, w⟩ := y
    simp only [Memory.write]
    split
    · exact hc _
    · split
      · next hac => subst hac; rw [hc]; simp [Memory.read, Ne.symm h]
      · simp only [Memory.read, ih]

/-- A word's address is even and inside the space. -/
theorem wordAddr_lt (a : PAddr) : wordAddr a + 1 < 2 ^ 18 := by
  have := a.isLt; unfold wordAddr; omega

/-- A word write keeps the canonical form. -/
theorem Memory.wf_writeWord {m : Memory} (hm : m.wf) (a : PAddr) (v : Word) : (m.writeWord a v).wf :=
  Memory.wf_write (Memory.wf_write hm (Nat.lt_of_succ_lt (wordAddr_lt a))) (wordAddr_lt a)

/-- A word write leaves the bytes outside the word. -/
theorem Memory.read_writeWord_ne (m : Memory) (a : PAddr) (v : Word) {b : Nat} (h0 : b ≠ wordAddr a)
    (h1 : b ≠ wordAddr a + 1) : (m.writeWord a v).read b = m.read b := by
  unfold Memory.writeWord
  rw [Memory.read_write_ne _ _ h1, Memory.read_write_ne _ _ h0]

/-- Two halves make the word. -/
theorem halves (v : Word) : ((v >>> 8).setWidth 8 : Byte) ++ (v.setWidth 8 : Byte) = v := by
  ext i hi
  simp only [BitVec.getElem_append]
  split
  · simp [BitVec.getLsbD_eq_getElem hi]
  · next h =>
    have : 8 + (i - 8) = i := by omega
    simp [this, BitVec.getLsbD_eq_getElem hi]

/-- A word read after a word write at the same address. -/
theorem Memory.readWord_writeWord {m : Memory} (hm : m.wf) (a : PAddr) (v : Word) :
    (m.writeWord a v).readWord a = v := by
  have h1 : (m.write (wordAddr a) (v.setWidth 8)).wf := Memory.wf_write hm (Nat.lt_of_succ_lt (wordAddr_lt a))
  unfold Memory.readWord Memory.writeWord
  rw [Memory.read_write h1, Memory.read_write h1, if_pos rfl, if_neg (by omega), Memory.read_write hm, if_pos rfl]
  exact halves v

/-- The empty memory is in canonical form. -/
theorem Memory.wf_nil : Memory.wf [] := ⟨List.Pairwise.nil, by simp⟩

end Sys2Proof.Machine
end

