-- ==== Sys2Proof/Laws/Res.lean ====
section
/-! SUPPORT. The result of a piece of an instruction: how `Res.bind` answers. -/

namespace Sys2Proof.Machine

@[simp] theorem Res.bind_ok {α β : Type} (a : α) (s : State) (f : α → State → Res β) :
    (Res.ok a s).bind f = f a s := rfl

@[simp] theorem Res.bind_trap {α β : Type} (t : Trap) (s : State) (f : α → State → Res β) :
    (Res.trap t s : Res α).bind f = .trap t s := rfl

@[simp] theorem Res.bind_fault {α β : Type} (e : Fault) (f : α → State → Res β) :
    (Res.fault e : Res α).bind f = .fault e := rfl

@[simp] theorem Res.bind_refused {α β : Type} (r : Refusal) (f : α → State → Res β) :
    (Res.refused r : Res α).bind f = .refused r := rfl

/-- A sequence answers when both of its parts do. -/
theorem Res.bind_eq_ok {α β : Type} {x : Res α} {f : α → State → Res β} {b : β} {t : State} :
    x.bind f = .ok b t ↔ ∃ a u, x = .ok a u ∧ f a u = .ok b t := by
  cases x with
  | ok a u => exact ⟨fun h => ⟨a, u, rfl, h⟩, fun ⟨_, _, h, h'⟩ => by cases h; exact h'⟩
  | trap c u => exact ⟨nofun, fun ⟨_, _, h, _⟩ => nomatch h⟩
  | fault e => exact ⟨nofun, fun ⟨_, _, h, _⟩ => nomatch h⟩
  | refused r => exact ⟨nofun, fun ⟨_, _, h, _⟩ => nomatch h⟩

/-- A sequence traps where its first part does, or its second part after it. -/
theorem Res.bind_eq_trap {α β : Type} {x : Res α} {f : α → State → Res β} {c : Trap} {t : State} :
    x.bind f = .trap c t ↔ x = .trap c t ∨ ∃ a u, x = .ok a u ∧ f a u = .trap c t := by
  cases x with
  | ok a u =>
    exact ⟨fun h => .inr ⟨a, u, rfl, h⟩, fun h => h.elim nofun fun ⟨_, _, h, h'⟩ => by cases h; exact h'⟩
  | trap c u => exact ⟨fun h => .inl (by cases h; rfl), fun h => h.elim (by rintro ⟨⟩; rfl) fun ⟨_, _, h, _⟩ => nomatch h⟩
  | fault e => exact ⟨nofun, fun h => h.elim nofun fun ⟨_, _, h, _⟩ => nomatch h⟩
  | refused r => exact ⟨nofun, fun h => h.elim nofun fun ⟨_, _, h, _⟩ => nomatch h⟩

/-- Sequences nest to the right. -/
theorem Res.bind_bind {α β γ : Type} (x : Res α) (f : α → State → Res β) (g : β → State → Res γ) :
    (x.bind f).bind g = x.bind fun a s => (f a s).bind g := by
  cases x <;> rfl

/-- `P` holds of the state that a piece leaves, whether it answers or traps. -/
def Res.Sat {α : Type} (P : State → Prop) : Res α → Prop
  | .ok _ s => P s
  | .trap _ s => P s
  | .fault _ => True
  | .refused _ => True

/-- `P` holds of the state that a step leaves. -/
def outcomeSat (P : State → Prop) : Host.Outcome State Fault Refusal → Prop
  | .next s => P s
  | .fault _ => True
  | .refused _ => True

theorem Res.Sat.bind {α β : Type} {P : State → Prop} {x : Res α} {f : α → State → Res β} (hx : x.Sat P)
    (hf : ∀ a s, P s → (f a s).Sat P) : (x.bind f).Sat P := by
  cases x with
  | ok a s => exact hf a s hx
  | trap c s => exact hx
  | fault e => trivial
  | refused r => trivial

theorem outcomeSat.finish {P : State → Prop} {x : Res Unit} (hx : x.Sat P)
    (ht : ∀ t s, P s → outcomeSat P (enterTrap t s)) : outcomeSat P (finish x) := by
  cases x with
  | ok a s => exact hx
  | trap c s => exact ht c s hx
  | fault e => trivial
  | refused r => trivial

/-- The stop of a piece, if it stops. -/
def Res.stopOf {α : Type} : Res α → Option (Fault ⊕ Refusal)
  | .ok _ _ => none
  | .trap _ _ => none
  | .fault e => some (.inl e)
  | .refused r => some (.inr r)

/-- The stop of a step, if it stops. -/
def outcomeStop : Host.Outcome State Fault Refusal → Option (Fault ⊕ Refusal)
  | .next _ => none
  | .fault e => some (.inl e)
  | .refused r => some (.inr r)

/-- The instruction that answers, its outcome. -/
@[simp] theorem finish_ok (s : State) : finish (.ok () s) = .next s := rfl
@[simp] theorem finish_trap (t : Trap) (s : State) : finish (.trap t s) = enterTrap t s := rfl

end Sys2Proof.Machine
end

