-- ==== Sys2Proof/Laws/State.lean ====
section
/-! SUPPORT. One lemma for each field and each update of the state, so that no later proof unfolds a record update; then
what reading a register after writing one gives. -/

namespace Sys2Proof.Machine

/-! ## Condition codes -/

@[simp] theorem State.setCC_cfg (s : State) (x : CC) : (s.setCC x).cfg = s.cfg := rfl
@[simp] theorem State.setCC_r0 (s : State) (x : CC) : (s.setCC x).r0 = s.r0 := rfl
@[simp] theorem State.setCC_r1 (s : State) (x : CC) : (s.setCC x).r1 = s.r1 := rfl
@[simp] theorem State.setCC_r2 (s : State) (x : CC) : (s.setCC x).r2 = s.r2 := rfl
@[simp] theorem State.setCC_r3 (s : State) (x : CC) : (s.setCC x).r3 = s.r3 := rfl
@[simp] theorem State.setCC_r4 (s : State) (x : CC) : (s.setCC x).r4 = s.r4 := rfl
@[simp] theorem State.setCC_r5 (s : State) (x : CC) : (s.setCC x).r5 = s.r5 := rfl
@[simp] theorem State.setCC_sp0 (s : State) (x : CC) : (s.setCC x).sp0 = s.sp0 := rfl
@[simp] theorem State.setCC_sp1 (s : State) (x : CC) : (s.setCC x).sp1 = s.sp1 := rfl
@[simp] theorem State.setCC_sp2 (s : State) (x : CC) : (s.setCC x).sp2 = s.sp2 := rfl
@[simp] theorem State.setCC_sp3 (s : State) (x : CC) : (s.setCC x).sp3 = s.sp3 := rfl
@[simp] theorem State.setCC_pc (s : State) (x : CC) : (s.setCC x).pc = s.pc := rfl
@[simp] theorem State.setCC_kpar (s : State) (x : CC) : (s.setCC x).kpar = s.kpar := rfl
@[simp] theorem State.setCC_kpdr (s : State) (x : CC) : (s.setCC x).kpdr = s.kpdr := rfl
@[simp] theorem State.setCC_upar (s : State) (x : CC) : (s.setCC x).upar = s.upar := rfl
@[simp] theorem State.setCC_updr (s : State) (x : CC) : (s.setCC x).updr = s.updr := rfl
@[simp] theorem State.setCC_sr0 (s : State) (x : CC) : (s.setCC x).sr0 = s.sr0 := rfl
@[simp] theorem State.setCC_sr2 (s : State) (x : CC) : (s.setCC x).sr2 = s.sr2 := rfl
@[simp] theorem State.setCC_sr3 (s : State) (x : CC) : (s.setCC x).sr3 = s.sr3 := rfl
@[simp] theorem State.setCC_ac (s : State) (x : CC) : (s.setCC x).ac = s.ac := rfl
@[simp] theorem State.setCC_fps (s : State) (x : CC) : (s.setCC x).fps = s.fps := rfl
@[simp] theorem State.setCC_fec (s : State) (x : CC) : (s.setCC x).fec = s.fec := rfl
@[simp] theorem State.setCC_fea (s : State) (x : CC) : (s.setCC x).fea = s.fea := rfl
@[simp] theorem State.setCC_eventFF (s : State) (x : CC) : (s.setCC x).eventFF = s.eventFF := rfl
@[simp] theorem State.setCC_powerFailFF (s : State) (x : CC) : (s.setCC x).powerFailFF = s.powerFailFF := rfl
@[simp] theorem State.setCC_stackOverflow (s : State) (x : CC) : (s.setCC x).stackOverflow = s.stackOverflow := rfl
@[simp] theorem State.setCC_inhibitT (s : State) (x : CC) : (s.setCC x).inhibitT = s.inhibitT := rfl
@[simp] theorem State.setCC_run (s : State) (x : CC) : (s.setCC x).run = s.run := rfl
@[simp] theorem State.setCC_odt (s : State) (x : CC) : (s.setCC x).odt = s.odt := rfl
@[simp] theorem State.setCC_mem (s : State) (x : CC) : (s.setCC x).mem = s.mem := rfl
@[simp] theorem State.setCC_slu (s : State) (x : CC) : (s.setCC x).slu = s.slu := rfl
@[simp] theorem State.setCC_bhalt (s : State) (x : CC) : (s.setCC x).bhalt = s.bhalt := rfl
@[simp] theorem State.setCC_bpok (s : State) (x : CC) : (s.setCC x).bpok = s.bpok := rfl
@[simp] theorem State.setCC_bdcok (s : State) (x : CC) : (s.setCC x).bdcok = s.bdcok := rfl
@[simp] theorem State.setCC_bdmr (s : State) (x : CC) : (s.setCC x).bdmr = s.bdmr := rfl
@[simp] theorem State.setCC_irqs (s : State) (x : CC) : (s.setCC x).irqs = s.irqs := rfl
@[simp] theorem State.setCC_parity (s : State) (x : CC) : (s.setCC x).parity = s.parity := rfl
@[simp] theorem State.setCC_inputs (s : State) (x : CC) : (s.setCC x).inputs = s.inputs := rfl
@[simp] theorem State.setCC_busInputs (s : State) (x : CC) : (s.setCC x).busInputs = s.busInputs := rfl
@[simp] theorem State.setCC_free (s : State) (x : CC) : (s.setCC x).free = s.free := rfl

/-! ## Loads of the status word -/

@[simp] theorem State.setPs_cfg (s : State) (v : Word) : (s.setPs v).cfg = s.cfg := rfl
@[simp] theorem State.setPs_r0 (s : State) (v : Word) : (s.setPs v).r0 = s.r0 := rfl
@[simp] theorem State.setPs_r1 (s : State) (v : Word) : (s.setPs v).r1 = s.r1 := rfl
@[simp] theorem State.setPs_r2 (s : State) (v : Word) : (s.setPs v).r2 = s.r2 := rfl
@[simp] theorem State.setPs_r3 (s : State) (v : Word) : (s.setPs v).r3 = s.r3 := rfl
@[simp] theorem State.setPs_r4 (s : State) (v : Word) : (s.setPs v).r4 = s.r4 := rfl
@[simp] theorem State.setPs_r5 (s : State) (v : Word) : (s.setPs v).r5 = s.r5 := rfl
@[simp] theorem State.setPs_sp0 (s : State) (v : Word) : (s.setPs v).sp0 = s.sp0 := rfl
@[simp] theorem State.setPs_sp1 (s : State) (v : Word) : (s.setPs v).sp1 = s.sp1 := rfl
@[simp] theorem State.setPs_sp2 (s : State) (v : Word) : (s.setPs v).sp2 = s.sp2 := rfl
@[simp] theorem State.setPs_sp3 (s : State) (v : Word) : (s.setPs v).sp3 = s.sp3 := rfl
@[simp] theorem State.setPs_pc (s : State) (v : Word) : (s.setPs v).pc = s.pc := rfl
@[simp] theorem State.setPs_kpar (s : State) (v : Word) : (s.setPs v).kpar = s.kpar := rfl
@[simp] theorem State.setPs_kpdr (s : State) (v : Word) : (s.setPs v).kpdr = s.kpdr := rfl
@[simp] theorem State.setPs_upar (s : State) (v : Word) : (s.setPs v).upar = s.upar := rfl
@[simp] theorem State.setPs_updr (s : State) (v : Word) : (s.setPs v).updr = s.updr := rfl
@[simp] theorem State.setPs_sr0 (s : State) (v : Word) : (s.setPs v).sr0 = s.sr0 := rfl
@[simp] theorem State.setPs_sr2 (s : State) (v : Word) : (s.setPs v).sr2 = s.sr2 := rfl
@[simp] theorem State.setPs_sr3 (s : State) (v : Word) : (s.setPs v).sr3 = s.sr3 := rfl
@[simp] theorem State.setPs_ac (s : State) (v : Word) : (s.setPs v).ac = s.ac := rfl
@[simp] theorem State.setPs_fps (s : State) (v : Word) : (s.setPs v).fps = s.fps := rfl
@[simp] theorem State.setPs_fec (s : State) (v : Word) : (s.setPs v).fec = s.fec := rfl
@[simp] theorem State.setPs_fea (s : State) (v : Word) : (s.setPs v).fea = s.fea := rfl
@[simp] theorem State.setPs_eventFF (s : State) (v : Word) : (s.setPs v).eventFF = s.eventFF := rfl
@[simp] theorem State.setPs_powerFailFF (s : State) (v : Word) : (s.setPs v).powerFailFF = s.powerFailFF := rfl
@[simp] theorem State.setPs_stackOverflow (s : State) (v : Word) : (s.setPs v).stackOverflow = s.stackOverflow := rfl
@[simp] theorem State.setPs_inhibitT (s : State) (v : Word) : (s.setPs v).inhibitT = s.inhibitT := rfl
@[simp] theorem State.setPs_run (s : State) (v : Word) : (s.setPs v).run = s.run := rfl
@[simp] theorem State.setPs_odt (s : State) (v : Word) : (s.setPs v).odt = s.odt := rfl
@[simp] theorem State.setPs_mem (s : State) (v : Word) : (s.setPs v).mem = s.mem := rfl
@[simp] theorem State.setPs_slu (s : State) (v : Word) : (s.setPs v).slu = s.slu := rfl
@[simp] theorem State.setPs_bhalt (s : State) (v : Word) : (s.setPs v).bhalt = s.bhalt := rfl
@[simp] theorem State.setPs_bpok (s : State) (v : Word) : (s.setPs v).bpok = s.bpok := rfl
@[simp] theorem State.setPs_bdcok (s : State) (v : Word) : (s.setPs v).bdcok = s.bdcok := rfl
@[simp] theorem State.setPs_bdmr (s : State) (v : Word) : (s.setPs v).bdmr = s.bdmr := rfl
@[simp] theorem State.setPs_irqs (s : State) (v : Word) : (s.setPs v).irqs = s.irqs := rfl
@[simp] theorem State.setPs_parity (s : State) (v : Word) : (s.setPs v).parity = s.parity := rfl
@[simp] theorem State.setPs_inputs (s : State) (v : Word) : (s.setPs v).inputs = s.inputs := rfl
@[simp] theorem State.setPs_busInputs (s : State) (v : Word) : (s.setPs v).busInputs = s.busInputs := rfl
@[simp] theorem State.setPs_free (s : State) (v : Word) : (s.setPs v).free = s.free := rfl

/-! ## Explicit writes of the status word -/

@[simp] theorem State.setPsExplicit_cfg (s : State) (v : Word) : (s.setPsExplicit v).cfg = s.cfg := rfl
@[simp] theorem State.setPsExplicit_r0 (s : State) (v : Word) : (s.setPsExplicit v).r0 = s.r0 := rfl
@[simp] theorem State.setPsExplicit_r1 (s : State) (v : Word) : (s.setPsExplicit v).r1 = s.r1 := rfl
@[simp] theorem State.setPsExplicit_r2 (s : State) (v : Word) : (s.setPsExplicit v).r2 = s.r2 := rfl
@[simp] theorem State.setPsExplicit_r3 (s : State) (v : Word) : (s.setPsExplicit v).r3 = s.r3 := rfl
@[simp] theorem State.setPsExplicit_r4 (s : State) (v : Word) : (s.setPsExplicit v).r4 = s.r4 := rfl
@[simp] theorem State.setPsExplicit_r5 (s : State) (v : Word) : (s.setPsExplicit v).r5 = s.r5 := rfl
@[simp] theorem State.setPsExplicit_sp0 (s : State) (v : Word) : (s.setPsExplicit v).sp0 = s.sp0 := rfl
@[simp] theorem State.setPsExplicit_sp1 (s : State) (v : Word) : (s.setPsExplicit v).sp1 = s.sp1 := rfl
@[simp] theorem State.setPsExplicit_sp2 (s : State) (v : Word) : (s.setPsExplicit v).sp2 = s.sp2 := rfl
@[simp] theorem State.setPsExplicit_sp3 (s : State) (v : Word) : (s.setPsExplicit v).sp3 = s.sp3 := rfl
@[simp] theorem State.setPsExplicit_pc (s : State) (v : Word) : (s.setPsExplicit v).pc = s.pc := rfl
@[simp] theorem State.setPsExplicit_kpar (s : State) (v : Word) : (s.setPsExplicit v).kpar = s.kpar := rfl
@[simp] theorem State.setPsExplicit_kpdr (s : State) (v : Word) : (s.setPsExplicit v).kpdr = s.kpdr := rfl
@[simp] theorem State.setPsExplicit_upar (s : State) (v : Word) : (s.setPsExplicit v).upar = s.upar := rfl
@[simp] theorem State.setPsExplicit_updr (s : State) (v : Word) : (s.setPsExplicit v).updr = s.updr := rfl
@[simp] theorem State.setPsExplicit_sr0 (s : State) (v : Word) : (s.setPsExplicit v).sr0 = s.sr0 := rfl
@[simp] theorem State.setPsExplicit_sr2 (s : State) (v : Word) : (s.setPsExplicit v).sr2 = s.sr2 := rfl
@[simp] theorem State.setPsExplicit_sr3 (s : State) (v : Word) : (s.setPsExplicit v).sr3 = s.sr3 := rfl
@[simp] theorem State.setPsExplicit_ac (s : State) (v : Word) : (s.setPsExplicit v).ac = s.ac := rfl
@[simp] theorem State.setPsExplicit_fps (s : State) (v : Word) : (s.setPsExplicit v).fps = s.fps := rfl
@[simp] theorem State.setPsExplicit_fec (s : State) (v : Word) : (s.setPsExplicit v).fec = s.fec := rfl
@[simp] theorem State.setPsExplicit_fea (s : State) (v : Word) : (s.setPsExplicit v).fea = s.fea := rfl
@[simp] theorem State.setPsExplicit_eventFF (s : State) (v : Word) : (s.setPsExplicit v).eventFF = s.eventFF := rfl
@[simp] theorem State.setPsExplicit_powerFailFF (s : State) (v : Word) : (s.setPsExplicit v).powerFailFF = s.powerFailFF := rfl
@[simp] theorem State.setPsExplicit_stackOverflow (s : State) (v : Word) : (s.setPsExplicit v).stackOverflow = s.stackOverflow := rfl
@[simp] theorem State.setPsExplicit_inhibitT (s : State) (v : Word) : (s.setPsExplicit v).inhibitT = s.inhibitT := rfl
@[simp] theorem State.setPsExplicit_run (s : State) (v : Word) : (s.setPsExplicit v).run = s.run := rfl
@[simp] theorem State.setPsExplicit_odt (s : State) (v : Word) : (s.setPsExplicit v).odt = s.odt := rfl
@[simp] theorem State.setPsExplicit_mem (s : State) (v : Word) : (s.setPsExplicit v).mem = s.mem := rfl
@[simp] theorem State.setPsExplicit_slu (s : State) (v : Word) : (s.setPsExplicit v).slu = s.slu := rfl
@[simp] theorem State.setPsExplicit_bhalt (s : State) (v : Word) : (s.setPsExplicit v).bhalt = s.bhalt := rfl
@[simp] theorem State.setPsExplicit_bpok (s : State) (v : Word) : (s.setPsExplicit v).bpok = s.bpok := rfl
@[simp] theorem State.setPsExplicit_bdcok (s : State) (v : Word) : (s.setPsExplicit v).bdcok = s.bdcok := rfl
@[simp] theorem State.setPsExplicit_bdmr (s : State) (v : Word) : (s.setPsExplicit v).bdmr = s.bdmr := rfl
@[simp] theorem State.setPsExplicit_irqs (s : State) (v : Word) : (s.setPsExplicit v).irqs = s.irqs := rfl
@[simp] theorem State.setPsExplicit_parity (s : State) (v : Word) : (s.setPsExplicit v).parity = s.parity := rfl
@[simp] theorem State.setPsExplicit_inputs (s : State) (v : Word) : (s.setPsExplicit v).inputs = s.inputs := rfl
@[simp] theorem State.setPsExplicit_busInputs (s : State) (v : Word) : (s.setPsExplicit v).busInputs = s.busInputs := rfl
@[simp] theorem State.setPsExplicit_free (s : State) (v : Word) : (s.setPsExplicit v).free = s.free := rfl

/-! ## Floating condition codes -/

@[simp] theorem State.setFCC_cfg (s : State) (x : CC) : (s.setFCC x).cfg = s.cfg := rfl
@[simp] theorem State.setFCC_r0 (s : State) (x : CC) : (s.setFCC x).r0 = s.r0 := rfl
@[simp] theorem State.setFCC_r1 (s : State) (x : CC) : (s.setFCC x).r1 = s.r1 := rfl
@[simp] theorem State.setFCC_r2 (s : State) (x : CC) : (s.setFCC x).r2 = s.r2 := rfl
@[simp] theorem State.setFCC_r3 (s : State) (x : CC) : (s.setFCC x).r3 = s.r3 := rfl
@[simp] theorem State.setFCC_r4 (s : State) (x : CC) : (s.setFCC x).r4 = s.r4 := rfl
@[simp] theorem State.setFCC_r5 (s : State) (x : CC) : (s.setFCC x).r5 = s.r5 := rfl
@[simp] theorem State.setFCC_sp0 (s : State) (x : CC) : (s.setFCC x).sp0 = s.sp0 := rfl
@[simp] theorem State.setFCC_sp1 (s : State) (x : CC) : (s.setFCC x).sp1 = s.sp1 := rfl
@[simp] theorem State.setFCC_sp2 (s : State) (x : CC) : (s.setFCC x).sp2 = s.sp2 := rfl
@[simp] theorem State.setFCC_sp3 (s : State) (x : CC) : (s.setFCC x).sp3 = s.sp3 := rfl
@[simp] theorem State.setFCC_pc (s : State) (x : CC) : (s.setFCC x).pc = s.pc := rfl
@[simp] theorem State.setFCC_ps (s : State) (x : CC) : (s.setFCC x).ps = s.ps := rfl
@[simp] theorem State.setFCC_kpar (s : State) (x : CC) : (s.setFCC x).kpar = s.kpar := rfl
@[simp] theorem State.setFCC_kpdr (s : State) (x : CC) : (s.setFCC x).kpdr = s.kpdr := rfl
@[simp] theorem State.setFCC_upar (s : State) (x : CC) : (s.setFCC x).upar = s.upar := rfl
@[simp] theorem State.setFCC_updr (s : State) (x : CC) : (s.setFCC x).updr = s.updr := rfl
@[simp] theorem State.setFCC_sr0 (s : State) (x : CC) : (s.setFCC x).sr0 = s.sr0 := rfl
@[simp] theorem State.setFCC_sr2 (s : State) (x : CC) : (s.setFCC x).sr2 = s.sr2 := rfl
@[simp] theorem State.setFCC_sr3 (s : State) (x : CC) : (s.setFCC x).sr3 = s.sr3 := rfl
@[simp] theorem State.setFCC_ac (s : State) (x : CC) : (s.setFCC x).ac = s.ac := rfl
@[simp] theorem State.setFCC_fec (s : State) (x : CC) : (s.setFCC x).fec = s.fec := rfl
@[simp] theorem State.setFCC_fea (s : State) (x : CC) : (s.setFCC x).fea = s.fea := rfl
@[simp] theorem State.setFCC_eventFF (s : State) (x : CC) : (s.setFCC x).eventFF = s.eventFF := rfl
@[simp] theorem State.setFCC_powerFailFF (s : State) (x : CC) : (s.setFCC x).powerFailFF = s.powerFailFF := rfl
@[simp] theorem State.setFCC_stackOverflow (s : State) (x : CC) : (s.setFCC x).stackOverflow = s.stackOverflow := rfl
@[simp] theorem State.setFCC_inhibitT (s : State) (x : CC) : (s.setFCC x).inhibitT = s.inhibitT := rfl
@[simp] theorem State.setFCC_run (s : State) (x : CC) : (s.setFCC x).run = s.run := rfl
@[simp] theorem State.setFCC_odt (s : State) (x : CC) : (s.setFCC x).odt = s.odt := rfl
@[simp] theorem State.setFCC_mem (s : State) (x : CC) : (s.setFCC x).mem = s.mem := rfl
@[simp] theorem State.setFCC_slu (s : State) (x : CC) : (s.setFCC x).slu = s.slu := rfl
@[simp] theorem State.setFCC_bhalt (s : State) (x : CC) : (s.setFCC x).bhalt = s.bhalt := rfl
@[simp] theorem State.setFCC_bpok (s : State) (x : CC) : (s.setFCC x).bpok = s.bpok := rfl
@[simp] theorem State.setFCC_bdcok (s : State) (x : CC) : (s.setFCC x).bdcok = s.bdcok := rfl
@[simp] theorem State.setFCC_bdmr (s : State) (x : CC) : (s.setFCC x).bdmr = s.bdmr := rfl
@[simp] theorem State.setFCC_irqs (s : State) (x : CC) : (s.setFCC x).irqs = s.irqs := rfl
@[simp] theorem State.setFCC_parity (s : State) (x : CC) : (s.setFCC x).parity = s.parity := rfl
@[simp] theorem State.setFCC_inputs (s : State) (x : CC) : (s.setFCC x).inputs = s.inputs := rfl
@[simp] theorem State.setFCC_busInputs (s : State) (x : CC) : (s.setFCC x).busInputs = s.busInputs := rfl
@[simp] theorem State.setFCC_free (s : State) (x : CC) : (s.setFCC x).free = s.free := rfl

/-! ## Floating exceptions -/

@[simp] theorem State.recordFp_cfg (s : State) (c : BitVec 4) (a : Word) : (recordFp c a s).cfg = s.cfg := rfl
@[simp] theorem State.recordFp_r0 (s : State) (c : BitVec 4) (a : Word) : (recordFp c a s).r0 = s.r0 := rfl
@[simp] theorem State.recordFp_r1 (s : State) (c : BitVec 4) (a : Word) : (recordFp c a s).r1 = s.r1 := rfl
@[simp] theorem State.recordFp_r2 (s : State) (c : BitVec 4) (a : Word) : (recordFp c a s).r2 = s.r2 := rfl
@[simp] theorem State.recordFp_r3 (s : State) (c : BitVec 4) (a : Word) : (recordFp c a s).r3 = s.r3 := rfl
@[simp] theorem State.recordFp_r4 (s : State) (c : BitVec 4) (a : Word) : (recordFp c a s).r4 = s.r4 := rfl
@[simp] theorem State.recordFp_r5 (s : State) (c : BitVec 4) (a : Word) : (recordFp c a s).r5 = s.r5 := rfl
@[simp] theorem State.recordFp_sp0 (s : State) (c : BitVec 4) (a : Word) : (recordFp c a s).sp0 = s.sp0 := rfl
@[simp] theorem State.recordFp_sp1 (s : State) (c : BitVec 4) (a : Word) : (recordFp c a s).sp1 = s.sp1 := rfl
@[simp] theorem State.recordFp_sp2 (s : State) (c : BitVec 4) (a : Word) : (recordFp c a s).sp2 = s.sp2 := rfl
@[simp] theorem State.recordFp_sp3 (s : State) (c : BitVec 4) (a : Word) : (recordFp c a s).sp3 = s.sp3 := rfl
@[simp] theorem State.recordFp_pc (s : State) (c : BitVec 4) (a : Word) : (recordFp c a s).pc = s.pc := rfl
@[simp] theorem State.recordFp_ps (s : State) (c : BitVec 4) (a : Word) : (recordFp c a s).ps = s.ps := rfl
@[simp] theorem State.recordFp_kpar (s : State) (c : BitVec 4) (a : Word) : (recordFp c a s).kpar = s.kpar := rfl
@[simp] theorem State.recordFp_kpdr (s : State) (c : BitVec 4) (a : Word) : (recordFp c a s).kpdr = s.kpdr := rfl
@[simp] theorem State.recordFp_upar (s : State) (c : BitVec 4) (a : Word) : (recordFp c a s).upar = s.upar := rfl
@[simp] theorem State.recordFp_updr (s : State) (c : BitVec 4) (a : Word) : (recordFp c a s).updr = s.updr := rfl
@[simp] theorem State.recordFp_sr0 (s : State) (c : BitVec 4) (a : Word) : (recordFp c a s).sr0 = s.sr0 := rfl
@[simp] theorem State.recordFp_sr2 (s : State) (c : BitVec 4) (a : Word) : (recordFp c a s).sr2 = s.sr2 := rfl
@[simp] theorem State.recordFp_sr3 (s : State) (c : BitVec 4) (a : Word) : (recordFp c a s).sr3 = s.sr3 := rfl
@[simp] theorem State.recordFp_ac (s : State) (c : BitVec 4) (a : Word) : (recordFp c a s).ac = s.ac := rfl
@[simp] theorem State.recordFp_eventFF (s : State) (c : BitVec 4) (a : Word) : (recordFp c a s).eventFF = s.eventFF := rfl
@[simp] theorem State.recordFp_powerFailFF (s : State) (c : BitVec 4) (a : Word) : (recordFp c a s).powerFailFF = s.powerFailFF := rfl
@[simp] theorem State.recordFp_stackOverflow (s : State) (c : BitVec 4) (a : Word) : (recordFp c a s).stackOverflow = s.stackOverflow := rfl
@[simp] theorem State.recordFp_inhibitT (s : State) (c : BitVec 4) (a : Word) : (recordFp c a s).inhibitT = s.inhibitT := rfl
@[simp] theorem State.recordFp_run (s : State) (c : BitVec 4) (a : Word) : (recordFp c a s).run = s.run := rfl
@[simp] theorem State.recordFp_odt (s : State) (c : BitVec 4) (a : Word) : (recordFp c a s).odt = s.odt := rfl
@[simp] theorem State.recordFp_mem (s : State) (c : BitVec 4) (a : Word) : (recordFp c a s).mem = s.mem := rfl
@[simp] theorem State.recordFp_slu (s : State) (c : BitVec 4) (a : Word) : (recordFp c a s).slu = s.slu := rfl
@[simp] theorem State.recordFp_bhalt (s : State) (c : BitVec 4) (a : Word) : (recordFp c a s).bhalt = s.bhalt := rfl
@[simp] theorem State.recordFp_bpok (s : State) (c : BitVec 4) (a : Word) : (recordFp c a s).bpok = s.bpok := rfl
@[simp] theorem State.recordFp_bdcok (s : State) (c : BitVec 4) (a : Word) : (recordFp c a s).bdcok = s.bdcok := rfl
@[simp] theorem State.recordFp_bdmr (s : State) (c : BitVec 4) (a : Word) : (recordFp c a s).bdmr = s.bdmr := rfl
@[simp] theorem State.recordFp_irqs (s : State) (c : BitVec 4) (a : Word) : (recordFp c a s).irqs = s.irqs := rfl
@[simp] theorem State.recordFp_parity (s : State) (c : BitVec 4) (a : Word) : (recordFp c a s).parity = s.parity := rfl
@[simp] theorem State.recordFp_inputs (s : State) (c : BitVec 4) (a : Word) : (recordFp c a s).inputs = s.inputs := rfl
@[simp] theorem State.recordFp_busInputs (s : State) (c : BitVec 4) (a : Word) : (recordFp c a s).busInputs = s.busInputs := rfl
@[simp] theorem State.recordFp_free (s : State) (c : BitVec 4) (a : Word) : (recordFp c a s).free = s.free := rfl

/-! ## Stack pointer cells -/

@[simp] theorem State.setSpOf_cfg (s : State) (m : BitVec 2) (v : Word) : (s.setSpOf m v).cfg = s.cfg := by
  unfold State.setSpOf; (repeat' split) <;> rfl
@[simp] theorem State.setSpOf_r0 (s : State) (m : BitVec 2) (v : Word) : (s.setSpOf m v).r0 = s.r0 := by
  unfold State.setSpOf; (repeat' split) <;> rfl
@[simp] theorem State.setSpOf_r1 (s : State) (m : BitVec 2) (v : Word) : (s.setSpOf m v).r1 = s.r1 := by
  unfold State.setSpOf; (repeat' split) <;> rfl
@[simp] theorem State.setSpOf_r2 (s : State) (m : BitVec 2) (v : Word) : (s.setSpOf m v).r2 = s.r2 := by
  unfold State.setSpOf; (repeat' split) <;> rfl
@[simp] theorem State.setSpOf_r3 (s : State) (m : BitVec 2) (v : Word) : (s.setSpOf m v).r3 = s.r3 := by
  unfold State.setSpOf; (repeat' split) <;> rfl
@[simp] theorem State.setSpOf_r4 (s : State) (m : BitVec 2) (v : Word) : (s.setSpOf m v).r4 = s.r4 := by
  unfold State.setSpOf; (repeat' split) <;> rfl
@[simp] theorem State.setSpOf_r5 (s : State) (m : BitVec 2) (v : Word) : (s.setSpOf m v).r5 = s.r5 := by
  unfold State.setSpOf; (repeat' split) <;> rfl
@[simp] theorem State.setSpOf_pc (s : State) (m : BitVec 2) (v : Word) : (s.setSpOf m v).pc = s.pc := by
  unfold State.setSpOf; (repeat' split) <;> rfl
@[simp] theorem State.setSpOf_ps (s : State) (m : BitVec 2) (v : Word) : (s.setSpOf m v).ps = s.ps := by
  unfold State.setSpOf; (repeat' split) <;> rfl
@[simp] theorem State.setSpOf_kpar (s : State) (m : BitVec 2) (v : Word) : (s.setSpOf m v).kpar = s.kpar := by
  unfold State.setSpOf; (repeat' split) <;> rfl
@[simp] theorem State.setSpOf_kpdr (s : State) (m : BitVec 2) (v : Word) : (s.setSpOf m v).kpdr = s.kpdr := by
  unfold State.setSpOf; (repeat' split) <;> rfl
@[simp] theorem State.setSpOf_upar (s : State) (m : BitVec 2) (v : Word) : (s.setSpOf m v).upar = s.upar := by
  unfold State.setSpOf; (repeat' split) <;> rfl
@[simp] theorem State.setSpOf_updr (s : State) (m : BitVec 2) (v : Word) : (s.setSpOf m v).updr = s.updr := by
  unfold State.setSpOf; (repeat' split) <;> rfl
@[simp] theorem State.setSpOf_sr0 (s : State) (m : BitVec 2) (v : Word) : (s.setSpOf m v).sr0 = s.sr0 := by
  unfold State.setSpOf; (repeat' split) <;> rfl
@[simp] theorem State.setSpOf_sr2 (s : State) (m : BitVec 2) (v : Word) : (s.setSpOf m v).sr2 = s.sr2 := by
  unfold State.setSpOf; (repeat' split) <;> rfl
@[simp] theorem State.setSpOf_sr3 (s : State) (m : BitVec 2) (v : Word) : (s.setSpOf m v).sr3 = s.sr3 := by
  unfold State.setSpOf; (repeat' split) <;> rfl
@[simp] theorem State.setSpOf_ac (s : State) (m : BitVec 2) (v : Word) : (s.setSpOf m v).ac = s.ac := by
  unfold State.setSpOf; (repeat' split) <;> rfl
@[simp] theorem State.setSpOf_fps (s : State) (m : BitVec 2) (v : Word) : (s.setSpOf m v).fps = s.fps := by
  unfold State.setSpOf; (repeat' split) <;> rfl
@[simp] theorem State.setSpOf_fec (s : State) (m : BitVec 2) (v : Word) : (s.setSpOf m v).fec = s.fec := by
  unfold State.setSpOf; (repeat' split) <;> rfl
@[simp] theorem State.setSpOf_fea (s : State) (m : BitVec 2) (v : Word) : (s.setSpOf m v).fea = s.fea := by
  unfold State.setSpOf; (repeat' split) <;> rfl
@[simp] theorem State.setSpOf_eventFF (s : State) (m : BitVec 2) (v : Word) : (s.setSpOf m v).eventFF = s.eventFF := by
  unfold State.setSpOf; (repeat' split) <;> rfl
@[simp] theorem State.setSpOf_powerFailFF (s : State) (m : BitVec 2) (v : Word) : (s.setSpOf m v).powerFailFF = s.powerFailFF := by
  unfold State.setSpOf; (repeat' split) <;> rfl
@[simp] theorem State.setSpOf_stackOverflow (s : State) (m : BitVec 2) (v : Word) : (s.setSpOf m v).stackOverflow = s.stackOverflow := by
  unfold State.setSpOf; (repeat' split) <;> rfl
@[simp] theorem State.setSpOf_inhibitT (s : State) (m : BitVec 2) (v : Word) : (s.setSpOf m v).inhibitT = s.inhibitT := by
  unfold State.setSpOf; (repeat' split) <;> rfl
@[simp] theorem State.setSpOf_run (s : State) (m : BitVec 2) (v : Word) : (s.setSpOf m v).run = s.run := by
  unfold State.setSpOf; (repeat' split) <;> rfl
@[simp] theorem State.setSpOf_odt (s : State) (m : BitVec 2) (v : Word) : (s.setSpOf m v).odt = s.odt := by
  unfold State.setSpOf; (repeat' split) <;> rfl
@[simp] theorem State.setSpOf_mem (s : State) (m : BitVec 2) (v : Word) : (s.setSpOf m v).mem = s.mem := by
  unfold State.setSpOf; (repeat' split) <;> rfl
@[simp] theorem State.setSpOf_slu (s : State) (m : BitVec 2) (v : Word) : (s.setSpOf m v).slu = s.slu := by
  unfold State.setSpOf; (repeat' split) <;> rfl
@[simp] theorem State.setSpOf_bhalt (s : State) (m : BitVec 2) (v : Word) : (s.setSpOf m v).bhalt = s.bhalt := by
  unfold State.setSpOf; (repeat' split) <;> rfl
@[simp] theorem State.setSpOf_bpok (s : State) (m : BitVec 2) (v : Word) : (s.setSpOf m v).bpok = s.bpok := by
  unfold State.setSpOf; (repeat' split) <;> rfl
@[simp] theorem State.setSpOf_bdcok (s : State) (m : BitVec 2) (v : Word) : (s.setSpOf m v).bdcok = s.bdcok := by
  unfold State.setSpOf; (repeat' split) <;> rfl
@[simp] theorem State.setSpOf_bdmr (s : State) (m : BitVec 2) (v : Word) : (s.setSpOf m v).bdmr = s.bdmr := by
  unfold State.setSpOf; (repeat' split) <;> rfl
@[simp] theorem State.setSpOf_irqs (s : State) (m : BitVec 2) (v : Word) : (s.setSpOf m v).irqs = s.irqs := by
  unfold State.setSpOf; (repeat' split) <;> rfl
@[simp] theorem State.setSpOf_parity (s : State) (m : BitVec 2) (v : Word) : (s.setSpOf m v).parity = s.parity := by
  unfold State.setSpOf; (repeat' split) <;> rfl
@[simp] theorem State.setSpOf_inputs (s : State) (m : BitVec 2) (v : Word) : (s.setSpOf m v).inputs = s.inputs := by
  unfold State.setSpOf; (repeat' split) <;> rfl
@[simp] theorem State.setSpOf_busInputs (s : State) (m : BitVec 2) (v : Word) : (s.setSpOf m v).busInputs = s.busInputs := by
  unfold State.setSpOf; (repeat' split) <;> rfl
@[simp] theorem State.setSpOf_free (s : State) (m : BitVec 2) (v : Word) : (s.setSpOf m v).free = s.free := by
  unfold State.setSpOf; (repeat' split) <;> rfl

/-! ## General registers -/

@[simp] theorem State.setReg_cfg (s : State) (r : Reg) (v : Word) : (s.setReg r v).cfg = s.cfg := by
  cases r <;> first | rfl | exact State.setSpOf_cfg _ _ _
@[simp] theorem State.setReg_ps (s : State) (r : Reg) (v : Word) : (s.setReg r v).ps = s.ps := by
  cases r <;> first | rfl | exact State.setSpOf_ps _ _ _
@[simp] theorem State.setReg_kpar (s : State) (r : Reg) (v : Word) : (s.setReg r v).kpar = s.kpar := by
  cases r <;> first | rfl | exact State.setSpOf_kpar _ _ _
@[simp] theorem State.setReg_kpdr (s : State) (r : Reg) (v : Word) : (s.setReg r v).kpdr = s.kpdr := by
  cases r <;> first | rfl | exact State.setSpOf_kpdr _ _ _
@[simp] theorem State.setReg_upar (s : State) (r : Reg) (v : Word) : (s.setReg r v).upar = s.upar := by
  cases r <;> first | rfl | exact State.setSpOf_upar _ _ _
@[simp] theorem State.setReg_updr (s : State) (r : Reg) (v : Word) : (s.setReg r v).updr = s.updr := by
  cases r <;> first | rfl | exact State.setSpOf_updr _ _ _
@[simp] theorem State.setReg_sr0 (s : State) (r : Reg) (v : Word) : (s.setReg r v).sr0 = s.sr0 := by
  cases r <;> first | rfl | exact State.setSpOf_sr0 _ _ _
@[simp] theorem State.setReg_sr2 (s : State) (r : Reg) (v : Word) : (s.setReg r v).sr2 = s.sr2 := by
  cases r <;> first | rfl | exact State.setSpOf_sr2 _ _ _
@[simp] theorem State.setReg_sr3 (s : State) (r : Reg) (v : Word) : (s.setReg r v).sr3 = s.sr3 := by
  cases r <;> first | rfl | exact State.setSpOf_sr3 _ _ _
@[simp] theorem State.setReg_ac (s : State) (r : Reg) (v : Word) : (s.setReg r v).ac = s.ac := by
  cases r <;> first | rfl | exact State.setSpOf_ac _ _ _
@[simp] theorem State.setReg_fps (s : State) (r : Reg) (v : Word) : (s.setReg r v).fps = s.fps := by
  cases r <;> first | rfl | exact State.setSpOf_fps _ _ _
@[simp] theorem State.setReg_fec (s : State) (r : Reg) (v : Word) : (s.setReg r v).fec = s.fec := by
  cases r <;> first | rfl | exact State.setSpOf_fec _ _ _
@[simp] theorem State.setReg_fea (s : State) (r : Reg) (v : Word) : (s.setReg r v).fea = s.fea := by
  cases r <;> first | rfl | exact State.setSpOf_fea _ _ _
@[simp] theorem State.setReg_eventFF (s : State) (r : Reg) (v : Word) : (s.setReg r v).eventFF = s.eventFF := by
  cases r <;> first | rfl | exact State.setSpOf_eventFF _ _ _
@[simp] theorem State.setReg_powerFailFF (s : State) (r : Reg) (v : Word) : (s.setReg r v).powerFailFF = s.powerFailFF := by
  cases r <;> first | rfl | exact State.setSpOf_powerFailFF _ _ _
@[simp] theorem State.setReg_stackOverflow (s : State) (r : Reg) (v : Word) : (s.setReg r v).stackOverflow = s.stackOverflow := by
  cases r <;> first | rfl | exact State.setSpOf_stackOverflow _ _ _
@[simp] theorem State.setReg_inhibitT (s : State) (r : Reg) (v : Word) : (s.setReg r v).inhibitT = s.inhibitT := by
  cases r <;> first | rfl | exact State.setSpOf_inhibitT _ _ _
@[simp] theorem State.setReg_run (s : State) (r : Reg) (v : Word) : (s.setReg r v).run = s.run := by
  cases r <;> first | rfl | exact State.setSpOf_run _ _ _
@[simp] theorem State.setReg_odt (s : State) (r : Reg) (v : Word) : (s.setReg r v).odt = s.odt := by
  cases r <;> first | rfl | exact State.setSpOf_odt _ _ _
@[simp] theorem State.setReg_mem (s : State) (r : Reg) (v : Word) : (s.setReg r v).mem = s.mem := by
  cases r <;> first | rfl | exact State.setSpOf_mem _ _ _
@[simp] theorem State.setReg_slu (s : State) (r : Reg) (v : Word) : (s.setReg r v).slu = s.slu := by
  cases r <;> first | rfl | exact State.setSpOf_slu _ _ _
@[simp] theorem State.setReg_bhalt (s : State) (r : Reg) (v : Word) : (s.setReg r v).bhalt = s.bhalt := by
  cases r <;> first | rfl | exact State.setSpOf_bhalt _ _ _
@[simp] theorem State.setReg_bpok (s : State) (r : Reg) (v : Word) : (s.setReg r v).bpok = s.bpok := by
  cases r <;> first | rfl | exact State.setSpOf_bpok _ _ _
@[simp] theorem State.setReg_bdcok (s : State) (r : Reg) (v : Word) : (s.setReg r v).bdcok = s.bdcok := by
  cases r <;> first | rfl | exact State.setSpOf_bdcok _ _ _
@[simp] theorem State.setReg_bdmr (s : State) (r : Reg) (v : Word) : (s.setReg r v).bdmr = s.bdmr := by
  cases r <;> first | rfl | exact State.setSpOf_bdmr _ _ _
@[simp] theorem State.setReg_irqs (s : State) (r : Reg) (v : Word) : (s.setReg r v).irqs = s.irqs := by
  cases r <;> first | rfl | exact State.setSpOf_irqs _ _ _
@[simp] theorem State.setReg_parity (s : State) (r : Reg) (v : Word) : (s.setReg r v).parity = s.parity := by
  cases r <;> first | rfl | exact State.setSpOf_parity _ _ _
@[simp] theorem State.setReg_inputs (s : State) (r : Reg) (v : Word) : (s.setReg r v).inputs = s.inputs := by
  cases r <;> first | rfl | exact State.setSpOf_inputs _ _ _
@[simp] theorem State.setReg_busInputs (s : State) (r : Reg) (v : Word) : (s.setReg r v).busInputs = s.busInputs := by
  cases r <;> first | rfl | exact State.setSpOf_busInputs _ _ _
@[simp] theorem State.setReg_free (s : State) (r : Reg) (v : Word) : (s.setReg r v).free = s.free := by
  cases r <;> first | rfl | exact State.setSpOf_free _ _ _

/-! ## The mark of a stack overflow -/

@[simp] theorem State.noteStack_cfg (s : State) (v : Word) : (s.noteStack v).cfg = s.cfg := by
  unfold State.noteStack; split <;> rfl
@[simp] theorem State.noteStack_r0 (s : State) (v : Word) : (s.noteStack v).r0 = s.r0 := by
  unfold State.noteStack; split <;> rfl
@[simp] theorem State.noteStack_r1 (s : State) (v : Word) : (s.noteStack v).r1 = s.r1 := by
  unfold State.noteStack; split <;> rfl
@[simp] theorem State.noteStack_r2 (s : State) (v : Word) : (s.noteStack v).r2 = s.r2 := by
  unfold State.noteStack; split <;> rfl
@[simp] theorem State.noteStack_r3 (s : State) (v : Word) : (s.noteStack v).r3 = s.r3 := by
  unfold State.noteStack; split <;> rfl
@[simp] theorem State.noteStack_r4 (s : State) (v : Word) : (s.noteStack v).r4 = s.r4 := by
  unfold State.noteStack; split <;> rfl
@[simp] theorem State.noteStack_r5 (s : State) (v : Word) : (s.noteStack v).r5 = s.r5 := by
  unfold State.noteStack; split <;> rfl
@[simp] theorem State.noteStack_sp0 (s : State) (v : Word) : (s.noteStack v).sp0 = s.sp0 := by
  unfold State.noteStack; split <;> rfl
@[simp] theorem State.noteStack_sp1 (s : State) (v : Word) : (s.noteStack v).sp1 = s.sp1 := by
  unfold State.noteStack; split <;> rfl
@[simp] theorem State.noteStack_sp2 (s : State) (v : Word) : (s.noteStack v).sp2 = s.sp2 := by
  unfold State.noteStack; split <;> rfl
@[simp] theorem State.noteStack_sp3 (s : State) (v : Word) : (s.noteStack v).sp3 = s.sp3 := by
  unfold State.noteStack; split <;> rfl
@[simp] theorem State.noteStack_pc (s : State) (v : Word) : (s.noteStack v).pc = s.pc := by
  unfold State.noteStack; split <;> rfl
@[simp] theorem State.noteStack_ps (s : State) (v : Word) : (s.noteStack v).ps = s.ps := by
  unfold State.noteStack; split <;> rfl
@[simp] theorem State.noteStack_kpar (s : State) (v : Word) : (s.noteStack v).kpar = s.kpar := by
  unfold State.noteStack; split <;> rfl
@[simp] theorem State.noteStack_kpdr (s : State) (v : Word) : (s.noteStack v).kpdr = s.kpdr := by
  unfold State.noteStack; split <;> rfl
@[simp] theorem State.noteStack_upar (s : State) (v : Word) : (s.noteStack v).upar = s.upar := by
  unfold State.noteStack; split <;> rfl
@[simp] theorem State.noteStack_updr (s : State) (v : Word) : (s.noteStack v).updr = s.updr := by
  unfold State.noteStack; split <;> rfl
@[simp] theorem State.noteStack_sr0 (s : State) (v : Word) : (s.noteStack v).sr0 = s.sr0 := by
  unfold State.noteStack; split <;> rfl
@[simp] theorem State.noteStack_sr2 (s : State) (v : Word) : (s.noteStack v).sr2 = s.sr2 := by
  unfold State.noteStack; split <;> rfl
@[simp] theorem State.noteStack_sr3 (s : State) (v : Word) : (s.noteStack v).sr3 = s.sr3 := by
  unfold State.noteStack; split <;> rfl
@[simp] theorem State.noteStack_ac (s : State) (v : Word) : (s.noteStack v).ac = s.ac := by
  unfold State.noteStack; split <;> rfl
@[simp] theorem State.noteStack_fps (s : State) (v : Word) : (s.noteStack v).fps = s.fps := by
  unfold State.noteStack; split <;> rfl
@[simp] theorem State.noteStack_fec (s : State) (v : Word) : (s.noteStack v).fec = s.fec := by
  unfold State.noteStack; split <;> rfl
@[simp] theorem State.noteStack_fea (s : State) (v : Word) : (s.noteStack v).fea = s.fea := by
  unfold State.noteStack; split <;> rfl
@[simp] theorem State.noteStack_eventFF (s : State) (v : Word) : (s.noteStack v).eventFF = s.eventFF := by
  unfold State.noteStack; split <;> rfl
@[simp] theorem State.noteStack_powerFailFF (s : State) (v : Word) : (s.noteStack v).powerFailFF = s.powerFailFF := by
  unfold State.noteStack; split <;> rfl
@[simp] theorem State.noteStack_inhibitT (s : State) (v : Word) : (s.noteStack v).inhibitT = s.inhibitT := by
  unfold State.noteStack; split <;> rfl
@[simp] theorem State.noteStack_run (s : State) (v : Word) : (s.noteStack v).run = s.run := by
  unfold State.noteStack; split <;> rfl
@[simp] theorem State.noteStack_odt (s : State) (v : Word) : (s.noteStack v).odt = s.odt := by
  unfold State.noteStack; split <;> rfl
@[simp] theorem State.noteStack_mem (s : State) (v : Word) : (s.noteStack v).mem = s.mem := by
  unfold State.noteStack; split <;> rfl
@[simp] theorem State.noteStack_slu (s : State) (v : Word) : (s.noteStack v).slu = s.slu := by
  unfold State.noteStack; split <;> rfl
@[simp] theorem State.noteStack_bhalt (s : State) (v : Word) : (s.noteStack v).bhalt = s.bhalt := by
  unfold State.noteStack; split <;> rfl
@[simp] theorem State.noteStack_bpok (s : State) (v : Word) : (s.noteStack v).bpok = s.bpok := by
  unfold State.noteStack; split <;> rfl
@[simp] theorem State.noteStack_bdcok (s : State) (v : Word) : (s.noteStack v).bdcok = s.bdcok := by
  unfold State.noteStack; split <;> rfl
@[simp] theorem State.noteStack_bdmr (s : State) (v : Word) : (s.noteStack v).bdmr = s.bdmr := by
  unfold State.noteStack; split <;> rfl
@[simp] theorem State.noteStack_irqs (s : State) (v : Word) : (s.noteStack v).irqs = s.irqs := by
  unfold State.noteStack; split <;> rfl
@[simp] theorem State.noteStack_parity (s : State) (v : Word) : (s.noteStack v).parity = s.parity := by
  unfold State.noteStack; split <;> rfl
@[simp] theorem State.noteStack_inputs (s : State) (v : Word) : (s.noteStack v).inputs = s.inputs := by
  unfold State.noteStack; split <;> rfl
@[simp] theorem State.noteStack_busInputs (s : State) (v : Word) : (s.noteStack v).busInputs = s.busInputs := by
  unfold State.noteStack; split <;> rfl
@[simp] theorem State.noteStack_free (s : State) (v : Word) : (s.noteStack v).free = s.free := by
  unfold State.noteStack; split <;> rfl

/-! ## The mark of a stack overflow, by register -/

@[simp] theorem State.noteStackReg_cfg (s : State) (r : Reg) (v : Word) : (s.noteStackReg r v).cfg = s.cfg := by
  unfold State.noteStackReg; split <;> first | exact State.noteStack_cfg _ _ | rfl
@[simp] theorem State.noteStackReg_r0 (s : State) (r : Reg) (v : Word) : (s.noteStackReg r v).r0 = s.r0 := by
  unfold State.noteStackReg; split <;> first | exact State.noteStack_r0 _ _ | rfl
@[simp] theorem State.noteStackReg_r1 (s : State) (r : Reg) (v : Word) : (s.noteStackReg r v).r1 = s.r1 := by
  unfold State.noteStackReg; split <;> first | exact State.noteStack_r1 _ _ | rfl
@[simp] theorem State.noteStackReg_r2 (s : State) (r : Reg) (v : Word) : (s.noteStackReg r v).r2 = s.r2 := by
  unfold State.noteStackReg; split <;> first | exact State.noteStack_r2 _ _ | rfl
@[simp] theorem State.noteStackReg_r3 (s : State) (r : Reg) (v : Word) : (s.noteStackReg r v).r3 = s.r3 := by
  unfold State.noteStackReg; split <;> first | exact State.noteStack_r3 _ _ | rfl
@[simp] theorem State.noteStackReg_r4 (s : State) (r : Reg) (v : Word) : (s.noteStackReg r v).r4 = s.r4 := by
  unfold State.noteStackReg; split <;> first | exact State.noteStack_r4 _ _ | rfl
@[simp] theorem State.noteStackReg_r5 (s : State) (r : Reg) (v : Word) : (s.noteStackReg r v).r5 = s.r5 := by
  unfold State.noteStackReg; split <;> first | exact State.noteStack_r5 _ _ | rfl
@[simp] theorem State.noteStackReg_sp0 (s : State) (r : Reg) (v : Word) : (s.noteStackReg r v).sp0 = s.sp0 := by
  unfold State.noteStackReg; split <;> first | exact State.noteStack_sp0 _ _ | rfl
@[simp] theorem State.noteStackReg_sp1 (s : State) (r : Reg) (v : Word) : (s.noteStackReg r v).sp1 = s.sp1 := by
  unfold State.noteStackReg; split <;> first | exact State.noteStack_sp1 _ _ | rfl
@[simp] theorem State.noteStackReg_sp2 (s : State) (r : Reg) (v : Word) : (s.noteStackReg r v).sp2 = s.sp2 := by
  unfold State.noteStackReg; split <;> first | exact State.noteStack_sp2 _ _ | rfl
@[simp] theorem State.noteStackReg_sp3 (s : State) (r : Reg) (v : Word) : (s.noteStackReg r v).sp3 = s.sp3 := by
  unfold State.noteStackReg; split <;> first | exact State.noteStack_sp3 _ _ | rfl
@[simp] theorem State.noteStackReg_pc (s : State) (r : Reg) (v : Word) : (s.noteStackReg r v).pc = s.pc := by
  unfold State.noteStackReg; split <;> first | exact State.noteStack_pc _ _ | rfl
@[simp] theorem State.noteStackReg_ps (s : State) (r : Reg) (v : Word) : (s.noteStackReg r v).ps = s.ps := by
  unfold State.noteStackReg; split <;> first | exact State.noteStack_ps _ _ | rfl
@[simp] theorem State.noteStackReg_kpar (s : State) (r : Reg) (v : Word) : (s.noteStackReg r v).kpar = s.kpar := by
  unfold State.noteStackReg; split <;> first | exact State.noteStack_kpar _ _ | rfl
@[simp] theorem State.noteStackReg_kpdr (s : State) (r : Reg) (v : Word) : (s.noteStackReg r v).kpdr = s.kpdr := by
  unfold State.noteStackReg; split <;> first | exact State.noteStack_kpdr _ _ | rfl
@[simp] theorem State.noteStackReg_upar (s : State) (r : Reg) (v : Word) : (s.noteStackReg r v).upar = s.upar := by
  unfold State.noteStackReg; split <;> first | exact State.noteStack_upar _ _ | rfl
@[simp] theorem State.noteStackReg_updr (s : State) (r : Reg) (v : Word) : (s.noteStackReg r v).updr = s.updr := by
  unfold State.noteStackReg; split <;> first | exact State.noteStack_updr _ _ | rfl
@[simp] theorem State.noteStackReg_sr0 (s : State) (r : Reg) (v : Word) : (s.noteStackReg r v).sr0 = s.sr0 := by
  unfold State.noteStackReg; split <;> first | exact State.noteStack_sr0 _ _ | rfl
@[simp] theorem State.noteStackReg_sr2 (s : State) (r : Reg) (v : Word) : (s.noteStackReg r v).sr2 = s.sr2 := by
  unfold State.noteStackReg; split <;> first | exact State.noteStack_sr2 _ _ | rfl
@[simp] theorem State.noteStackReg_sr3 (s : State) (r : Reg) (v : Word) : (s.noteStackReg r v).sr3 = s.sr3 := by
  unfold State.noteStackReg; split <;> first | exact State.noteStack_sr3 _ _ | rfl
@[simp] theorem State.noteStackReg_ac (s : State) (r : Reg) (v : Word) : (s.noteStackReg r v).ac = s.ac := by
  unfold State.noteStackReg; split <;> first | exact State.noteStack_ac _ _ | rfl
@[simp] theorem State.noteStackReg_fps (s : State) (r : Reg) (v : Word) : (s.noteStackReg r v).fps = s.fps := by
  unfold State.noteStackReg; split <;> first | exact State.noteStack_fps _ _ | rfl
@[simp] theorem State.noteStackReg_fec (s : State) (r : Reg) (v : Word) : (s.noteStackReg r v).fec = s.fec := by
  unfold State.noteStackReg; split <;> first | exact State.noteStack_fec _ _ | rfl
@[simp] theorem State.noteStackReg_fea (s : State) (r : Reg) (v : Word) : (s.noteStackReg r v).fea = s.fea := by
  unfold State.noteStackReg; split <;> first | exact State.noteStack_fea _ _ | rfl
@[simp] theorem State.noteStackReg_eventFF (s : State) (r : Reg) (v : Word) : (s.noteStackReg r v).eventFF = s.eventFF := by
  unfold State.noteStackReg; split <;> first | exact State.noteStack_eventFF _ _ | rfl
@[simp] theorem State.noteStackReg_powerFailFF (s : State) (r : Reg) (v : Word) : (s.noteStackReg r v).powerFailFF = s.powerFailFF := by
  unfold State.noteStackReg; split <;> first | exact State.noteStack_powerFailFF _ _ | rfl
@[simp] theorem State.noteStackReg_inhibitT (s : State) (r : Reg) (v : Word) : (s.noteStackReg r v).inhibitT = s.inhibitT := by
  unfold State.noteStackReg; split <;> first | exact State.noteStack_inhibitT _ _ | rfl
@[simp] theorem State.noteStackReg_run (s : State) (r : Reg) (v : Word) : (s.noteStackReg r v).run = s.run := by
  unfold State.noteStackReg; split <;> first | exact State.noteStack_run _ _ | rfl
@[simp] theorem State.noteStackReg_odt (s : State) (r : Reg) (v : Word) : (s.noteStackReg r v).odt = s.odt := by
  unfold State.noteStackReg; split <;> first | exact State.noteStack_odt _ _ | rfl
@[simp] theorem State.noteStackReg_mem (s : State) (r : Reg) (v : Word) : (s.noteStackReg r v).mem = s.mem := by
  unfold State.noteStackReg; split <;> first | exact State.noteStack_mem _ _ | rfl
@[simp] theorem State.noteStackReg_slu (s : State) (r : Reg) (v : Word) : (s.noteStackReg r v).slu = s.slu := by
  unfold State.noteStackReg; split <;> first | exact State.noteStack_slu _ _ | rfl
@[simp] theorem State.noteStackReg_bhalt (s : State) (r : Reg) (v : Word) : (s.noteStackReg r v).bhalt = s.bhalt := by
  unfold State.noteStackReg; split <;> first | exact State.noteStack_bhalt _ _ | rfl
@[simp] theorem State.noteStackReg_bpok (s : State) (r : Reg) (v : Word) : (s.noteStackReg r v).bpok = s.bpok := by
  unfold State.noteStackReg; split <;> first | exact State.noteStack_bpok _ _ | rfl
@[simp] theorem State.noteStackReg_bdcok (s : State) (r : Reg) (v : Word) : (s.noteStackReg r v).bdcok = s.bdcok := by
  unfold State.noteStackReg; split <;> first | exact State.noteStack_bdcok _ _ | rfl
@[simp] theorem State.noteStackReg_bdmr (s : State) (r : Reg) (v : Word) : (s.noteStackReg r v).bdmr = s.bdmr := by
  unfold State.noteStackReg; split <;> first | exact State.noteStack_bdmr _ _ | rfl
@[simp] theorem State.noteStackReg_irqs (s : State) (r : Reg) (v : Word) : (s.noteStackReg r v).irqs = s.irqs := by
  unfold State.noteStackReg; split <;> first | exact State.noteStack_irqs _ _ | rfl
@[simp] theorem State.noteStackReg_parity (s : State) (r : Reg) (v : Word) : (s.noteStackReg r v).parity = s.parity := by
  unfold State.noteStackReg; split <;> first | exact State.noteStack_parity _ _ | rfl
@[simp] theorem State.noteStackReg_inputs (s : State) (r : Reg) (v : Word) : (s.noteStackReg r v).inputs = s.inputs := by
  unfold State.noteStackReg; split <;> first | exact State.noteStack_inputs _ _ | rfl
@[simp] theorem State.noteStackReg_busInputs (s : State) (r : Reg) (v : Word) : (s.noteStackReg r v).busInputs = s.busInputs := by
  unfold State.noteStackReg; split <;> first | exact State.noteStack_busInputs _ _ | rfl
@[simp] theorem State.noteStackReg_free (s : State) (r : Reg) (v : Word) : (s.noteStackReg r v).free = s.free := by
  unfold State.noteStackReg; split <;> first | exact State.noteStack_free _ _ | rfl

/-! ## The record of an abort -/

@[simp] theorem State.recordAbort_cfg (s : State) (m : BitVec 2) (va : Word) (nr pl ro : Bool) : (recordAbort m va nr pl ro s).cfg = s.cfg := by
  rfl
@[simp] theorem State.recordAbort_r0 (s : State) (m : BitVec 2) (va : Word) (nr pl ro : Bool) : (recordAbort m va nr pl ro s).r0 = s.r0 := by
  rfl
@[simp] theorem State.recordAbort_r1 (s : State) (m : BitVec 2) (va : Word) (nr pl ro : Bool) : (recordAbort m va nr pl ro s).r1 = s.r1 := by
  rfl
@[simp] theorem State.recordAbort_r2 (s : State) (m : BitVec 2) (va : Word) (nr pl ro : Bool) : (recordAbort m va nr pl ro s).r2 = s.r2 := by
  rfl
@[simp] theorem State.recordAbort_r3 (s : State) (m : BitVec 2) (va : Word) (nr pl ro : Bool) : (recordAbort m va nr pl ro s).r3 = s.r3 := by
  rfl
@[simp] theorem State.recordAbort_r4 (s : State) (m : BitVec 2) (va : Word) (nr pl ro : Bool) : (recordAbort m va nr pl ro s).r4 = s.r4 := by
  rfl
@[simp] theorem State.recordAbort_r5 (s : State) (m : BitVec 2) (va : Word) (nr pl ro : Bool) : (recordAbort m va nr pl ro s).r5 = s.r5 := by
  rfl
@[simp] theorem State.recordAbort_sp0 (s : State) (m : BitVec 2) (va : Word) (nr pl ro : Bool) : (recordAbort m va nr pl ro s).sp0 = s.sp0 := by
  rfl
@[simp] theorem State.recordAbort_sp1 (s : State) (m : BitVec 2) (va : Word) (nr pl ro : Bool) : (recordAbort m va nr pl ro s).sp1 = s.sp1 := by
  rfl
@[simp] theorem State.recordAbort_sp2 (s : State) (m : BitVec 2) (va : Word) (nr pl ro : Bool) : (recordAbort m va nr pl ro s).sp2 = s.sp2 := by
  rfl
@[simp] theorem State.recordAbort_sp3 (s : State) (m : BitVec 2) (va : Word) (nr pl ro : Bool) : (recordAbort m va nr pl ro s).sp3 = s.sp3 := by
  rfl
@[simp] theorem State.recordAbort_pc (s : State) (m : BitVec 2) (va : Word) (nr pl ro : Bool) : (recordAbort m va nr pl ro s).pc = s.pc := by
  rfl
@[simp] theorem State.recordAbort_ps (s : State) (m : BitVec 2) (va : Word) (nr pl ro : Bool) : (recordAbort m va nr pl ro s).ps = s.ps := by
  rfl
@[simp] theorem State.recordAbort_kpar (s : State) (m : BitVec 2) (va : Word) (nr pl ro : Bool) : (recordAbort m va nr pl ro s).kpar = s.kpar := by
  rfl
@[simp] theorem State.recordAbort_kpdr (s : State) (m : BitVec 2) (va : Word) (nr pl ro : Bool) : (recordAbort m va nr pl ro s).kpdr = s.kpdr := by
  rfl
@[simp] theorem State.recordAbort_upar (s : State) (m : BitVec 2) (va : Word) (nr pl ro : Bool) : (recordAbort m va nr pl ro s).upar = s.upar := by
  rfl
@[simp] theorem State.recordAbort_updr (s : State) (m : BitVec 2) (va : Word) (nr pl ro : Bool) : (recordAbort m va nr pl ro s).updr = s.updr := by
  rfl
@[simp] theorem State.recordAbort_sr2 (s : State) (m : BitVec 2) (va : Word) (nr pl ro : Bool) : (recordAbort m va nr pl ro s).sr2 = s.sr2 := by
  rfl
@[simp] theorem State.recordAbort_sr3 (s : State) (m : BitVec 2) (va : Word) (nr pl ro : Bool) : (recordAbort m va nr pl ro s).sr3 = s.sr3 := by
  rfl
@[simp] theorem State.recordAbort_ac (s : State) (m : BitVec 2) (va : Word) (nr pl ro : Bool) : (recordAbort m va nr pl ro s).ac = s.ac := by
  rfl
@[simp] theorem State.recordAbort_fps (s : State) (m : BitVec 2) (va : Word) (nr pl ro : Bool) : (recordAbort m va nr pl ro s).fps = s.fps := by
  rfl
@[simp] theorem State.recordAbort_fec (s : State) (m : BitVec 2) (va : Word) (nr pl ro : Bool) : (recordAbort m va nr pl ro s).fec = s.fec := by
  rfl
@[simp] theorem State.recordAbort_fea (s : State) (m : BitVec 2) (va : Word) (nr pl ro : Bool) : (recordAbort m va nr pl ro s).fea = s.fea := by
  rfl
@[simp] theorem State.recordAbort_eventFF (s : State) (m : BitVec 2) (va : Word) (nr pl ro : Bool) : (recordAbort m va nr pl ro s).eventFF = s.eventFF := by
  rfl
@[simp] theorem State.recordAbort_powerFailFF (s : State) (m : BitVec 2) (va : Word) (nr pl ro : Bool) : (recordAbort m va nr pl ro s).powerFailFF = s.powerFailFF := by
  rfl
@[simp] theorem State.recordAbort_stackOverflow (s : State) (m : BitVec 2) (va : Word) (nr pl ro : Bool) : (recordAbort m va nr pl ro s).stackOverflow = s.stackOverflow := by
  rfl
@[simp] theorem State.recordAbort_inhibitT (s : State) (m : BitVec 2) (va : Word) (nr pl ro : Bool) : (recordAbort m va nr pl ro s).inhibitT = s.inhibitT := by
  rfl
@[simp] theorem State.recordAbort_run (s : State) (m : BitVec 2) (va : Word) (nr pl ro : Bool) : (recordAbort m va nr pl ro s).run = s.run := by
  rfl
@[simp] theorem State.recordAbort_odt (s : State) (m : BitVec 2) (va : Word) (nr pl ro : Bool) : (recordAbort m va nr pl ro s).odt = s.odt := by
  rfl
@[simp] theorem State.recordAbort_mem (s : State) (m : BitVec 2) (va : Word) (nr pl ro : Bool) : (recordAbort m va nr pl ro s).mem = s.mem := by
  rfl
@[simp] theorem State.recordAbort_slu (s : State) (m : BitVec 2) (va : Word) (nr pl ro : Bool) : (recordAbort m va nr pl ro s).slu = s.slu := by
  rfl
@[simp] theorem State.recordAbort_bhalt (s : State) (m : BitVec 2) (va : Word) (nr pl ro : Bool) : (recordAbort m va nr pl ro s).bhalt = s.bhalt := by
  rfl
@[simp] theorem State.recordAbort_bpok (s : State) (m : BitVec 2) (va : Word) (nr pl ro : Bool) : (recordAbort m va nr pl ro s).bpok = s.bpok := by
  rfl
@[simp] theorem State.recordAbort_bdcok (s : State) (m : BitVec 2) (va : Word) (nr pl ro : Bool) : (recordAbort m va nr pl ro s).bdcok = s.bdcok := by
  rfl
@[simp] theorem State.recordAbort_bdmr (s : State) (m : BitVec 2) (va : Word) (nr pl ro : Bool) : (recordAbort m va nr pl ro s).bdmr = s.bdmr := by
  rfl
@[simp] theorem State.recordAbort_irqs (s : State) (m : BitVec 2) (va : Word) (nr pl ro : Bool) : (recordAbort m va nr pl ro s).irqs = s.irqs := by
  rfl
@[simp] theorem State.recordAbort_parity (s : State) (m : BitVec 2) (va : Word) (nr pl ro : Bool) : (recordAbort m va nr pl ro s).parity = s.parity := by
  rfl
@[simp] theorem State.recordAbort_inputs (s : State) (m : BitVec 2) (va : Word) (nr pl ro : Bool) : (recordAbort m va nr pl ro s).inputs = s.inputs := by
  rfl
@[simp] theorem State.recordAbort_busInputs (s : State) (m : BitVec 2) (va : Word) (nr pl ro : Bool) : (recordAbort m va nr pl ro s).busInputs = s.busInputs := by
  rfl
@[simp] theorem State.recordAbort_free (s : State) (m : BitVec 2) (va : Word) (nr pl ro : Bool) : (recordAbort m va nr pl ro s).free = s.free := by
  rfl

/-! ## The W bit -/

@[simp] theorem State.noteWrite_cfg (s : State) (u : Bool) (i : Fin 8) (k : Access) : (noteWrite u i k s).cfg = s.cfg := by
  cases k <;> cases u <;> rfl
@[simp] theorem State.noteWrite_r0 (s : State) (u : Bool) (i : Fin 8) (k : Access) : (noteWrite u i k s).r0 = s.r0 := by
  cases k <;> cases u <;> rfl
@[simp] theorem State.noteWrite_r1 (s : State) (u : Bool) (i : Fin 8) (k : Access) : (noteWrite u i k s).r1 = s.r1 := by
  cases k <;> cases u <;> rfl
@[simp] theorem State.noteWrite_r2 (s : State) (u : Bool) (i : Fin 8) (k : Access) : (noteWrite u i k s).r2 = s.r2 := by
  cases k <;> cases u <;> rfl
@[simp] theorem State.noteWrite_r3 (s : State) (u : Bool) (i : Fin 8) (k : Access) : (noteWrite u i k s).r3 = s.r3 := by
  cases k <;> cases u <;> rfl
@[simp] theorem State.noteWrite_r4 (s : State) (u : Bool) (i : Fin 8) (k : Access) : (noteWrite u i k s).r4 = s.r4 := by
  cases k <;> cases u <;> rfl
@[simp] theorem State.noteWrite_r5 (s : State) (u : Bool) (i : Fin 8) (k : Access) : (noteWrite u i k s).r5 = s.r5 := by
  cases k <;> cases u <;> rfl
@[simp] theorem State.noteWrite_sp0 (s : State) (u : Bool) (i : Fin 8) (k : Access) : (noteWrite u i k s).sp0 = s.sp0 := by
  cases k <;> cases u <;> rfl
@[simp] theorem State.noteWrite_sp1 (s : State) (u : Bool) (i : Fin 8) (k : Access) : (noteWrite u i k s).sp1 = s.sp1 := by
  cases k <;> cases u <;> rfl
@[simp] theorem State.noteWrite_sp2 (s : State) (u : Bool) (i : Fin 8) (k : Access) : (noteWrite u i k s).sp2 = s.sp2 := by
  cases k <;> cases u <;> rfl
@[simp] theorem State.noteWrite_sp3 (s : State) (u : Bool) (i : Fin 8) (k : Access) : (noteWrite u i k s).sp3 = s.sp3 := by
  cases k <;> cases u <;> rfl
@[simp] theorem State.noteWrite_pc (s : State) (u : Bool) (i : Fin 8) (k : Access) : (noteWrite u i k s).pc = s.pc := by
  cases k <;> cases u <;> rfl
@[simp] theorem State.noteWrite_ps (s : State) (u : Bool) (i : Fin 8) (k : Access) : (noteWrite u i k s).ps = s.ps := by
  cases k <;> cases u <;> rfl
@[simp] theorem State.noteWrite_kpar (s : State) (u : Bool) (i : Fin 8) (k : Access) : (noteWrite u i k s).kpar = s.kpar := by
  cases k <;> cases u <;> rfl
@[simp] theorem State.noteWrite_upar (s : State) (u : Bool) (i : Fin 8) (k : Access) : (noteWrite u i k s).upar = s.upar := by
  cases k <;> cases u <;> rfl
@[simp] theorem State.noteWrite_sr0 (s : State) (u : Bool) (i : Fin 8) (k : Access) : (noteWrite u i k s).sr0 = s.sr0 := by
  cases k <;> cases u <;> rfl
@[simp] theorem State.noteWrite_sr2 (s : State) (u : Bool) (i : Fin 8) (k : Access) : (noteWrite u i k s).sr2 = s.sr2 := by
  cases k <;> cases u <;> rfl
@[simp] theorem State.noteWrite_sr3 (s : State) (u : Bool) (i : Fin 8) (k : Access) : (noteWrite u i k s).sr3 = s.sr3 := by
  cases k <;> cases u <;> rfl
@[simp] theorem State.noteWrite_ac (s : State) (u : Bool) (i : Fin 8) (k : Access) : (noteWrite u i k s).ac = s.ac := by
  cases k <;> cases u <;> rfl
@[simp] theorem State.noteWrite_fps (s : State) (u : Bool) (i : Fin 8) (k : Access) : (noteWrite u i k s).fps = s.fps := by
  cases k <;> cases u <;> rfl
@[simp] theorem State.noteWrite_fec (s : State) (u : Bool) (i : Fin 8) (k : Access) : (noteWrite u i k s).fec = s.fec := by
  cases k <;> cases u <;> rfl
@[simp] theorem State.noteWrite_fea (s : State) (u : Bool) (i : Fin 8) (k : Access) : (noteWrite u i k s).fea = s.fea := by
  cases k <;> cases u <;> rfl
@[simp] theorem State.noteWrite_eventFF (s : State) (u : Bool) (i : Fin 8) (k : Access) : (noteWrite u i k s).eventFF = s.eventFF := by
  cases k <;> cases u <;> rfl
@[simp] theorem State.noteWrite_powerFailFF (s : State) (u : Bool) (i : Fin 8) (k : Access) : (noteWrite u i k s).powerFailFF = s.powerFailFF := by
  cases k <;> cases u <;> rfl
@[simp] theorem State.noteWrite_stackOverflow (s : State) (u : Bool) (i : Fin 8) (k : Access) : (noteWrite u i k s).stackOverflow = s.stackOverflow := by
  cases k <;> cases u <;> rfl
@[simp] theorem State.noteWrite_inhibitT (s : State) (u : Bool) (i : Fin 8) (k : Access) : (noteWrite u i k s).inhibitT = s.inhibitT := by
  cases k <;> cases u <;> rfl
@[simp] theorem State.noteWrite_run (s : State) (u : Bool) (i : Fin 8) (k : Access) : (noteWrite u i k s).run = s.run := by
  cases k <;> cases u <;> rfl
@[simp] theorem State.noteWrite_odt (s : State) (u : Bool) (i : Fin 8) (k : Access) : (noteWrite u i k s).odt = s.odt := by
  cases k <;> cases u <;> rfl
@[simp] theorem State.noteWrite_mem (s : State) (u : Bool) (i : Fin 8) (k : Access) : (noteWrite u i k s).mem = s.mem := by
  cases k <;> cases u <;> rfl
@[simp] theorem State.noteWrite_slu (s : State) (u : Bool) (i : Fin 8) (k : Access) : (noteWrite u i k s).slu = s.slu := by
  cases k <;> cases u <;> rfl
@[simp] theorem State.noteWrite_bhalt (s : State) (u : Bool) (i : Fin 8) (k : Access) : (noteWrite u i k s).bhalt = s.bhalt := by
  cases k <;> cases u <;> rfl
@[simp] theorem State.noteWrite_bpok (s : State) (u : Bool) (i : Fin 8) (k : Access) : (noteWrite u i k s).bpok = s.bpok := by
  cases k <;> cases u <;> rfl
@[simp] theorem State.noteWrite_bdcok (s : State) (u : Bool) (i : Fin 8) (k : Access) : (noteWrite u i k s).bdcok = s.bdcok := by
  cases k <;> cases u <;> rfl
@[simp] theorem State.noteWrite_bdmr (s : State) (u : Bool) (i : Fin 8) (k : Access) : (noteWrite u i k s).bdmr = s.bdmr := by
  cases k <;> cases u <;> rfl
@[simp] theorem State.noteWrite_irqs (s : State) (u : Bool) (i : Fin 8) (k : Access) : (noteWrite u i k s).irqs = s.irqs := by
  cases k <;> cases u <;> rfl
@[simp] theorem State.noteWrite_parity (s : State) (u : Bool) (i : Fin 8) (k : Access) : (noteWrite u i k s).parity = s.parity := by
  cases k <;> cases u <;> rfl
@[simp] theorem State.noteWrite_inputs (s : State) (u : Bool) (i : Fin 8) (k : Access) : (noteWrite u i k s).inputs = s.inputs := by
  cases k <;> cases u <;> rfl
@[simp] theorem State.noteWrite_busInputs (s : State) (u : Bool) (i : Fin 8) (k : Access) : (noteWrite u i k s).busInputs = s.busInputs := by
  cases k <;> cases u <;> rfl
@[simp] theorem State.noteWrite_free (s : State) (u : Bool) (i : Fin 8) (k : Access) : (noteWrite u i k s).free = s.free := by
  cases k <;> cases u <;> rfl

/-! ## Registers -/

/-- Two states with the same registers and status word read the same registers. -/
theorem State.spOf_congr {s t : State} (h0 : t.sp0 = s.sp0) (h1 : t.sp1 = s.sp1) (h2 : t.sp2 = s.sp2)
    (h3 : t.sp3 = s.sp3) (m : BitVec 2) : t.spOf m = s.spOf m := by
  simp only [State.spOf, h0, h1, h2, h3]

@[simp] theorem State.setCC_spOf (s : State) (x : CC) (m : BitVec 2) : (s.setCC x).spOf m = s.spOf m := rfl

@[simp] theorem State.noteStack_spOf (s : State) (v : Word) (m : BitVec 2) : (s.noteStack v).spOf m = s.spOf m :=
  State.spOf_congr (by simp) (by simp) (by simp) (by simp) m

@[simp] theorem State.noteStackReg_spOf (s : State) (r : Reg) (v : Word) (m : BitVec 2) :
    (s.noteStackReg r v).spOf m = s.spOf m :=
  State.spOf_congr (by simp) (by simp) (by simp) (by simp) m

@[simp] theorem State.setReg_mode (s : State) (r : Reg) (v : Word) : (s.setReg r v).mode = s.mode := by
  simp [State.mode]

@[simp] theorem State.setReg_cc (s : State) (r : Reg) (v : Word) : (s.setReg r v).cc = s.cc := by
  simp [State.cc]

@[simp] theorem State.noteStackReg_mode (s : State) (r : Reg) (v : Word) : (s.noteStackReg r v).mode = s.mode := by
  simp [State.mode]

@[simp] theorem State.noteStack_mode (s : State) (v : Word) : (s.noteStack v).mode = s.mode := by
  simp [State.mode]

@[simp] theorem State.noteWrite_mode (s : State) (u : Bool) (i : Fin 8) (k : Access) :
    (noteWrite u i k s).mode = s.mode := by
  simp [State.mode]

/-- The four modes. -/
theorem mode_cases (m : BitVec 2) : m = 0 ∨ m = 1 ∨ m = 2 ∨ m = 3 := by
  revert m; decide

/-- A written stack pointer cell reads as written. -/
@[simp] theorem State.setSpOf_spOf (s : State) (m : BitVec 2) (v : Word) : (s.setSpOf m v).spOf m = v := by
  rcases mode_cases m with rfl | rfl | rfl | rfl <;> rfl

/-- The other stack pointer cells stay. -/
theorem State.setSpOf_spOf_ne (s : State) {m k : BitVec 2} (v : Word) (h : k ≠ m) :
    (s.setSpOf m v).spOf k = s.spOf k := by
  rcases mode_cases m with rfl | rfl | rfl | rfl <;> rcases mode_cases k with rfl | rfl | rfl | rfl <;>
    first | rfl | exact absurd rfl h

/-- A written register reads as written. -/
@[simp] theorem State.setReg_reg (s : State) (r : Reg) (v : Word) : (s.setReg r v).reg r = v := by
  cases r <;> first | rfl | simp [State.reg, State.setReg, State.mode]

/-- The other registers stay. -/
theorem State.setReg_reg_ne (s : State) {r q : Reg} (v : Word) (h : q ≠ r) : (s.setReg r v).reg q = s.reg q := by
  cases r <;> cases q <;> first | rfl | exact absurd rfl h | (simp [State.reg, State.setReg, State.mode])

/-- A write of a register other than R6 leaves the stack pointer cells. -/
theorem State.setReg_spOf_ne (s : State) {r : Reg} (v : Word) (h : r ≠ .r6) (m : BitVec 2) :
    (s.setReg r v).spOf m = s.spOf m := by
  cases r <;> first | rfl | exact absurd rfl h

/-- A write of R6 leaves the stack pointer cells of the other modes. -/
theorem State.setReg_r6_spOf_ne (s : State) {m : BitVec 2} (v : Word) (h : m ≠ s.mode) :
    (s.setReg .r6 v).spOf m = s.spOf m :=
  State.setSpOf_spOf_ne s v h

end Sys2Proof.Machine
end

