-- ==== Sys2Proof/Laws/Frame.lean ====
section
/-! SUPPORT. Frames: they compose, and what each shared operation over registers, memory and operands leaves unchanged
when it answers. -/

namespace Sys2Proof.Machine

/-! ## The order of allowances -/

/-- `w'` allows all that `w` allows. -/
structure Allow.Le (w w' : Allow) : Prop where
  gen  : ∀ r, w.gen r = true → w'.gen r = true
  sp   : ∀ m, w.sp m = true → w'.sp m = true
  ps   : w.ps &&& ~~~w'.ps = 0
  byte : ∀ a, w.byte a = true → w'.byte a = true
  acc  : ∀ i, w.acc i = true → w'.acc i = true
  fps  : w.fps &&& ~~~w'.fps = 0
  exc  : w.exc = true → w'.exc = true

/-- What a smaller mask leaves alone, a larger mask leaves alone. -/
theorem mask_mono {a b m m' : Word} (hm : m &&& ~~~m' = 0) (h : a &&& ~~~m = b &&& ~~~m) :
    a &&& ~~~m' = b &&& ~~~m' := by
  have e : ~~~m' = ~~~m &&& ~~~m' := by
    apply BitVec.eq_of_getLsbD_eq
    intro i hi
    have h1 := congrArg (BitVec.getLsbD · i) hm
    simp only [BitVec.getLsbD_and, BitVec.getLsbD_not, hi, decide_true, Bool.true_and] at h1 ⊢
    cases hm1 : m.getLsbD i <;> simp_all
  rw [e, ← BitVec.and_assoc, h, BitVec.and_assoc]

theorem Allow.Le.refl (w : Allow) : w.Le w :=
  ⟨fun _ h => h, fun _ h => h, by simp, fun _ h => h, fun _ h => h, by simp, fun h => h⟩

theorem Allow.Le.nothing (w : Allow) : Allow.nothing.Le w :=
  ⟨nofun, nofun, by simp [Allow.nothing], nofun, nofun, by simp [Allow.nothing], nofun⟩

/-- A register that an allowance covers. -/
def Allow.permits (w : Allow) (m : BitVec 2) (r : Reg) : Prop :=
  match r with
  | .r6 => w.sp m = true
  | .r7 => True
  | q => w.gen q = true

theorem Allow.permits_reg (w : Allow) (m : BitVec 2) (r : Reg) : (w.reg m r).permits m r := by
  cases r <;> simp [Allow.permits, Allow.reg]

theorem Allow.Le.permits {w w' : Allow} (h : w.Le w') {m : BitVec 2} {r : Reg} (hp : w.permits m r) :
    w'.permits m r := by
  cases r <;> first | exact h.gen _ hp | exact h.sp _ hp | trivial

theorem Allow.le_reg (w : Allow) (m : BitVec 2) (r : Reg) : w.Le (w.reg m r) :=
  ⟨fun x h => by simp [Allow.reg, h], fun x h => by simp [Allow.reg, h], by simp [Allow.reg],
   fun _ h => h, fun _ h => h, by simp [Allow.reg], fun h => h⟩

theorem Allow.le_codes (w : Allow) : w.Le w.codes :=
  ⟨fun _ h => h, fun _ h => h, by
    apply BitVec.eq_of_getLsbD_eq; intro i hi; simp [Allow.codes, hi]; intro h1 h2; simp [h1] at h2,
   fun _ h => h, fun _ h => h, by simp [Allow.codes], fun h => h⟩

theorem Allow.le_word (w : Allow) (m : BitVec 2) (p : Place) : w.Le (w.word m p) := by
  cases p with
  | reg r => exact w.le_reg m r
  | phys a =>
    exact ⟨fun _ h => h, fun _ h => h, by simp [Allow.word], fun x h => by simp [Allow.word, h], fun _ h => h,
      by simp [Allow.word], fun h => h⟩

theorem Allow.le_octet (w : Allow) (m : BitVec 2) (p : Place) : w.Le (w.octet m p) := by
  cases p with
  | reg r => exact w.le_reg m r
  | phys a =>
    exact ⟨fun _ h => h, fun _ h => h, by simp [Allow.octet], fun x h => by simp [Allow.octet, h], fun _ h => h,
      by simp [Allow.octet], fun h => h⟩

theorem Allow.Le.trans {u v w : Allow} (h : u.Le v) (h' : v.Le w) : u.Le w :=
  ⟨fun r k => h'.gen r (h.gen r k), fun r k => h'.sp r (h.sp r k), by
    have := mask_mono h'.ps (a := u.ps) (b := 0) (by simpa using h.ps)
    simpa using this,
   fun r k => h'.byte r (h.byte r k), fun r k => h'.acc r (h.acc r k), by
    have := mask_mono h'.fps (a := u.fps) (b := 0) (by simpa using h.fps)
    simpa using this,
   fun k => h'.exc (h.exc k)⟩

/-! ## Frames compose -/

theorem Frame.refl (w : Allow) (s : State) : Frame w s s :=
  ⟨fun _ _ _ _ => rfl, fun _ _ => rfl, rfl, fun _ _ _ => rfl, fun _ _ => rfl, rfl, fun _ => ⟨rfl, rfl⟩, rfl,
   fun h => ⟨h, rfl, rfl⟩⟩

theorem Frame.trans {w : Allow} {s t u : State} (h : Frame w s t) (k : Frame w t u) : Frame w s u :=
  ⟨fun r h6 h7 hr => (k.gen r h6 h7 hr).trans (h.gen r h6 h7 hr), fun m hm => (k.sp m hm).trans (h.sp m hm),
   k.ps.trans h.ps, fun q a ha => (k.byte (h.bus q).1 a ha).trans (h.byte q a ha), fun i hi => (k.acc i hi).trans (h.acc i hi),
   k.fps.trans h.fps, fun e => ⟨(k.exc e).1.trans (h.exc e).1, (k.exc e).2.trans (h.exc e).2⟩, k.base.trans h.base,
   fun q => have q' := h.bus q; have k' := k.bus q'.1; ⟨k'.1, k'.2.1.trans q'.2.1, k'.2.2.trans q'.2.2⟩⟩

theorem bool_false_of {a b : Bool} (h : a = true → b = true) (hb : b = false) : a = false := by
  cases a <;> simp_all

theorem Frame.mono {w w' : Allow} (hw : w.Le w') {s t : State} (h : Frame w s t) : Frame w' s t :=
  ⟨fun r h6 h7 hr => h.gen r h6 h7 (bool_false_of (hw.gen r) hr), fun m hm => h.sp m (bool_false_of (hw.sp m) hm),
   mask_mono hw.ps h.ps, fun q a ha => h.byte q a (bool_false_of (hw.byte a) ha),
   fun i hi => h.acc i (bool_false_of (hw.acc i) hi), mask_mono hw.fps h.fps,
   fun e => h.exc (bool_false_of hw.exc e), h.base, h.bus⟩

/-- What is not blotted out: the fields that no instruction statement allows to change. -/
theorem State.base_eq {s t : State} (h : t.base = s.base) :
    t.cfg = s.cfg ∧ t.kpar = s.kpar ∧ t.upar = s.upar ∧ t.sr0 = s.sr0 ∧ t.sr2 = s.sr2 ∧ t.sr3 = s.sr3 ∧
    t.eventFF = s.eventFF ∧ t.powerFailFF = s.powerFailFF ∧ t.inhibitT = s.inhibitT ∧ t.run = s.run ∧ t.odt = s.odt ∧
    t.bhalt = s.bhalt ∧ t.bpok = s.bpok ∧ t.bdcok = s.bdcok ∧ t.bdmr = s.bdmr ∧ t.irqs = s.irqs ∧
    t.inputs = s.inputs :=
  ⟨(congrArg State.cfg h :), (congrArg State.kpar h :), (congrArg State.upar h :), (congrArg State.sr0 h :), (congrArg State.sr2 h :),
   (congrArg State.sr3 h :), (congrArg State.eventFF h :), (congrArg State.powerFailFF h :), (congrArg State.inhibitT h :),
   (congrArg State.run h :), (congrArg State.odt h :), (congrArg State.bhalt h :), (congrArg State.bpok h :), (congrArg State.bdcok h :),
   (congrArg State.bdmr h :), (congrArg State.irqs h :), (congrArg State.inputs h :)⟩

/-! ## Registers -/

theorem State.setReg_base (s : State) (r : Reg) (v : Word) : (s.setReg r v).base = s.base := by
  cases r <;> first | rfl | (simp only [State.setReg, State.setSpOf]; (repeat' split) <;> rfl)

theorem State.setSpOf_base (s : State) (m : BitVec 2) (v : Word) : (s.setSpOf m v).base = s.base := by
  simp only [State.setSpOf]; (repeat' split) <;> rfl

theorem State.setSpOf_reg (s : State) (m : BitVec 2) (v : Word) {r : Reg} (h : r ≠ .r6) :
    (s.setSpOf m v).reg r = s.reg r := by
  cases r <;> first | exact absurd rfl h | simp [State.reg]

theorem Frame.setReg {w : Allow} {s : State} {r : Reg} (v : Word) (h : w.permits s.mode r) :
    Frame w s (s.setReg r v) := by
  refine ⟨fun q h6 h7 hq => ?_, fun m hm => ?_, by simp, by simp, by simp, by simp, by simp, s.setReg_base r v, fun q => ⟨by simpa using q, by simp, by simp⟩⟩
  · refine s.setReg_reg_ne v fun e => ?_
    subst e; cases q <;> simp_all [Allow.permits]
  · by_cases e : r = .r6
    · subst e; exact s.setReg_r6_spOf_ne v fun e => by subst e; simp_all [Allow.permits]
    · exact s.setReg_spOf_ne v e m

theorem Frame.setSpOf {w : Allow} {s : State} {m : BitVec 2} (v : Word) (h : w.sp m = true) :
    Frame w s (s.setSpOf m v) :=
  ⟨fun q h6 h7 hq => s.setSpOf_reg m v h6, fun k hk => s.setSpOf_spOf_ne v fun e => by subst e; simp_all, by simp,
   by simp, by simp, by simp, by simp, s.setSpOf_base m v, fun q => ⟨by simpa using q, by simp, by simp⟩⟩

theorem Frame.noteStack (w : Allow) (s : State) (v : Word) : Frame w s (s.noteStack v) :=
  ⟨fun q h6 h7 hq => by unfold State.noteStack; cases q <;> split <;> rfl, by simp, by simp, by simp, by simp, by simp,
   by simp, by unfold State.noteStack; split <;> rfl, fun q => ⟨by simpa using q, by simp, by simp⟩⟩

theorem Frame.noteStackReg (w : Allow) (s : State) (r : Reg) (v : Word) : Frame w s (s.noteStackReg r v) := by
  unfold State.noteStackReg; split
  · exact Frame.noteStack w s v
  · exact Frame.refl w s

theorem setCC_ps_mask (s : State) (x : CC) : (s.setCC x).ps &&& ~~~(0o17 : Word) = s.ps &&& ~~~(0o17 : Word) := by
  apply BitVec.eq_of_getLsbD_eq
  intro i hi
  simp only [State.setCC, BitVec.getLsbD_and, BitVec.getLsbD_append, BitVec.getLsbD_not]
  by_cases h : i < 4
  · have : i = 0 ∨ i = 1 ∨ i = 2 ∨ i = 3 := by omega
    rcases this with rfl | rfl | rfl | rfl <;> simp
  · have h4 : 4 + (i - 4) = i := by omega
    simp [h, h4, show i - 4 < 12 by omega]

theorem Frame.setCC {w : Allow} (s : State) (x : CC) (h : (0o17 : Word) &&& ~~~w.ps = 0) : Frame w s (s.setCC x) :=
  ⟨fun q h6 h7 hq => by cases q <;> first | rfl | exact absurd rfl h6, by simp, mask_mono h (setCC_ps_mask s x), by simp,
   by simp, by simp, by simp, rfl, fun q => ⟨q, rfl, rfl⟩⟩

theorem Frame.pc (w : Allow) (s : State) (v : Word) : Frame w s { s with pc := v } :=
  ⟨fun q h6 h7 hq => by cases q <;> first | rfl | exact absurd rfl h7, fun m hm => rfl, rfl, fun _ a ha => rfl, fun i hi => rfl, rfl, fun e => ⟨rfl, rfl⟩, rfl, fun q => ⟨q, rfl, rfl⟩⟩

/-! ## References -/

/-- A bit that a mask does not keep may be set first. -/
theorem or_and_of_disjoint {v a m : Word} (h : a &&& m = 0) : (v ||| a) &&& m = v &&& m := by
  apply BitVec.eq_of_getLsbD_eq
  intro i hi
  have h1 := congrArg (BitVec.getLsbD · i) h
  simp only [BitVec.getLsbD_and, BitVec.getLsbD_or] at h1 ⊢
  cases hm1 : m.getLsbD i <;> simp_all

theorem clearW_setW (v : Word) : clearW (setW v) = clearW v := or_and_of_disjoint (by decide)

end Sys2Proof.Machine
end

