-- ==== Sys2Proof/Laws/Refs.lean ====
section
/-! SUPPORT. What each shared operation over references and operands can do when it answers: its frame, what it keeps
exactly, and when a write is sure to answer. -/

namespace Sys2Proof.Machine

/-! ## Translation (spec/21_memory_management.md R135) -/

theorem map_set_clearW {p : Vector Word 8} {i : Fin 8} {v : Word} (h : clearW v = clearW p[i]) :
    (p.set i v).map clearW = p.map clearW := by
  refine Vector.ext fun j hj => ?_
  simp only [Vector.getElem_map, Vector.getElem_set]
  split
  · next e => subst e; exact h
  · rfl

theorem Frame.noteWrite (w : Allow) (u : Bool) (i : Fin 8) (k : Access) (s : State) :
    Frame w s (noteWrite u i k s) := by
  refine ⟨fun q h6 h7 hq => ?_, fun m hm => ?_, by simp, by simp, by simp, by simp, by simp, ?_,
    fun q => ⟨by simpa using q, by simp, by simp⟩⟩
  · cases k <;> cases u <;> cases q <;> rfl
  · exact State.spOf_congr (by simp) (by simp) (by simp) (by simp) m
  · cases k
    · rfl
    · have e : ∀ p : Vector Word 8, (p.set i (setW p[i])).map clearW = p.map clearW :=
        fun p => map_set_clearW (clearW_setW _)
      cases u
      · show { s.base with kpdr := (s.kpdr.set i (setW s.kpdr[i])).map clearW } = s.base
        rw [e]; rfl
      · show { s.base with updr := (s.updr.set i (setW s.updr[i])).map clearW } = s.base
        rw [e]; rfl

/-- A translation that answers changes W bits only. -/
theorem translate_frame {w : Allow} {m : BitVec 2} {va : Word} {k : Access} {s t : State} {a : PAddr}
    (h : translate m va k s = .ok a t) : Frame w s t := by
  have key : ∀ u, translateIn u m va k s = .ok a t → Frame w s t := by
    intro u h
    simp only [translateIn] at h; split at h <;> cases h
    exact Frame.noteWrite w _ _ k s
  unfold translate at h
  split at h
  · split at h
    · exact key _ h
    · exact key _ h
    · cases h
    · cases h
  · cases h; exact Frame.refl w s

/-- A translation that aborts leaves everything but SR0. -/
theorem translate_trap {m : BitVec 2} {va : Word} {k : Access} {s t : State} {c : Trap}
    (h : translate m va k s = .trap c t) :
    c = .mmuAbort ∧ ∃ nr pl ro, t = recordAbort m va nr pl ro s := by
  have key : ∀ u, translateIn u m va k s = .trap c t → c = .mmuAbort ∧ ∃ nr pl ro, t = recordAbort m va nr pl ro s := by
    intro u h
    simp only [translateIn] at h; split at h <;> cases h
    exact ⟨rfl, _, _, _, rfl⟩
  unfold translate at h
  split at h
  · split at h
    · exact key _ h
    · exact key _ h
    · cases h; exact ⟨rfl, _, _, _, rfl⟩
    · cases h
  · cases h

/-! ## Bus cycles (spec/20_memory.md R86, R87) -/

theorem slaveRead_frame {w : Allow} {a : PAddr} {s t : State} {v : Word} (h : slaveRead a s = .ok v t) :
    Frame w s t := by
  unfold slaveRead at h
  split at h
  · cases h
  · split at h
    · cases h
    · cases h
      refine ⟨fun q h6 h7 hq => by cases q <;> rfl, fun m hm => rfl, rfl, fun _ _ _ => rfl,
        fun _ _ => rfl, rfl, fun _ => ⟨rfl, rfl⟩, rfl, fun q => ⟨q, rfl, ?_⟩⟩
      cases sluRegAt (wordAddr a) <;> rfl
    · split at h
      · cases h
      · cases h; exact Frame.refl w s

/-! ## The other agents -/

/-- What another agent's reference can change. -/
theorem slaveRead_eq {a : PAddr} {s t : State} {v : Word} (h : slaveRead a s = .ok v t) :
    ∃ d, t = { s with slu := d } := by
  unfold slaveRead at h
  split at h
  · cases h
  · split at h
    · cases h
    · cases h; exact ⟨_, rfl⟩
    · split at h
      · cases h
      · cases h; exact ⟨_, rfl⟩

theorem slaveWrite_eq {a : PAddr} {v : Word} {s t : State} (h : slaveWrite a v s = .ok () t) :
    ∃ m d, t = { s with mem := m, slu := d } := by
  unfold slaveWrite at h
  split at h
  · cases h
  · split at h
    · cases h
    · cases h; exact ⟨_, _, rfl⟩
    · split at h <;> cases h; exact ⟨_, _, rfl⟩
    · cases h; exact ⟨_, _, rfl⟩

theorem slaveWriteByte_eq {a : PAddr} {v : Byte} {s t : State} (h : slaveWriteByte a v s = .ok () t) :
    ∃ m d, t = { s with mem := m, slu := d } := by
  unfold slaveWriteByte at h
  split at h
  · cases h
  · split at h
    · cases h
    · split at h <;> cases h <;> exact ⟨_, _, rfl⟩
    · split at h <;> cases h; exact ⟨_, _, rfl⟩
    · cases h; exact ⟨_, _, rfl⟩

/-- What a DMA reference is answered, a slave answers. -/
theorem dmaReply_ok {α : Type} {a : PAddr} {x : Res α} {s u : State} {v : α} (h : dmaReply a x s = .ok v u) :
    x = .ok v u := by
  unfold dmaReply at h
  split at h
  · cases h
  · exact h

theorem dma_eq {α : Type} {x : Res α} {s t : State} (h : dma x s = .ok () t)
    (hx : ∀ a u, x = .ok a u → ∃ m d, u = { s with mem := m, slu := d }) :
    ∃ m d, t = { s with mem := m, slu := d } := by
  cases x with
  | ok a u => cases h; exact hx a _ rfl
  | trap c u => cases h; exact ⟨_, _, rfl⟩
  | fault e => cases h
  | refused r => cases h

/-- All that another agent can change: memory, the console unit and the parity plan. -/
theorem busAction_eq {e : BusInput} {s t : State} (h : busAction e s = .ok () t) :
    ∃ m d p, t = { s with mem := m, slu := d, parity := p } := by
  cases e with
  | typed c => cases h; exact ⟨_, _, _, rfl⟩
  | sent =>
    cases h; unfold transmitted; split
    · exact ⟨_, _, _, rfl⟩
    · exact ⟨_, _, _, rfl⟩
  | parity a b => cases h; exact ⟨_, _, _, rfl⟩
  | dmaRead a =>
    obtain ⟨m, d, rfl⟩ := dma_eq h fun _ u hu => by obtain ⟨d, rfl⟩ := slaveRead_eq (dmaReply_ok hu); exact ⟨_, _, rfl⟩
    exact ⟨_, _, _, rfl⟩
  | dmaWrite a v => obtain ⟨m, d, rfl⟩ := dma_eq h fun _ _ hu => slaveWrite_eq (dmaReply_ok hu); exact ⟨_, _, _, rfl⟩
  | dmaWriteByte a v => obtain ⟨m, d, rfl⟩ := dma_eq h fun _ _ hu => slaveWriteByte_eq (dmaReply_ok hu); exact ⟨_, _, _, rfl⟩

theorem busActions_eq {es : List BusInput} : ∀ {s t : State}, busActions es s = .ok () t →
    ∃ m d p, t = { s with mem := m, slu := d, parity := p } := by
  induction es with
  | nil => intro s t h; cases h; exact ⟨_, _, _, rfl⟩
  | cons e es ih =>
    intro s t h
    obtain ⟨_, u, hu, h⟩ := Res.bind_eq_ok.mp h
    obtain ⟨m, d, p, rfl⟩ := busAction_eq hu
    obtain ⟨m', d', p', rfl⟩ := ih h
    exact ⟨_, _, _, rfl⟩

/-- All that the other agents' turn can change. -/
theorem busTurn_eq {s t : State} (h : busTurn s = .ok () t) :
    ∃ m d p b, t = { s with mem := m, slu := d, parity := p, busInputs := b } := by
  unfold busTurn at h
  split at h
  · cases h; exact ⟨_, _, _, _, rfl⟩
  · obtain ⟨m, d, p, rfl⟩ := busActions_eq h; exact ⟨_, _, _, _, rfl⟩

theorem startCycle_eq {a : PAddr} {s t : State} (h : startCycle a s = .ok () t) :
    ∃ m d p b, t = { s with mem := m, slu := d, parity := p, busInputs := b } := by
  unfold startCycle at h
  split at h
  · cases h; exact ⟨_, _, _, _, rfl⟩
  · exact busTurn_eq h

/-- With an empty schedule a reference begins at once. -/
theorem startCycle_quiet {a : PAddr} {s : State} (h : s.busInputs = []) : startCycle a s = .ok () s := by
  unfold startCycle busTurn
  rw [h]
  split <;> rfl

/-- The other agents never make the processor's reference trap. -/
theorem busActions_no_trap {es : List BusInput} : ∀ {s u : State} {c : Trap}, busActions es s ≠ .trap c u := by
  induction es with
  | nil => exact nofun
  | cons e es ih =>
    intro s u c h
    rcases Res.bind_eq_trap.mp h with h | ⟨_, t, _, h⟩
    · have key : ∀ {α : Type} (x : Res α) (s : State), dma x s ≠ .trap c u := by intro α x s; cases x <;> nofun
      cases e <;> first | exact key _ _ h | cases h
    · exact ih h

theorem startCycle_no_trap {a : PAddr} {s u : State} {c : Trap} : startCycle a s ≠ .trap c u := by
  intro h
  unfold startCycle at h
  split at h
  · cases h
  · unfold busTurn at h
    split at h
    · cases h
    · exact busActions_no_trap h

/-- The other agents change nothing of what a frame speaks of. -/
theorem startCycle_frame {w : Allow} {a : PAddr} {s t : State} (h : startCycle a s = .ok () t) : Frame w s t := by
  by_cases q : s.busInputs = []
  · rw [startCycle_quiet q] at h; cases h; exact Frame.refl w s
  · obtain ⟨m, d, p, b, rfl⟩ := startCycle_eq h
    exact ⟨fun r _ _ _ => by cases r <;> rfl, fun _ _ => rfl, rfl, fun e => absurd e q, fun _ _ => rfl, rfl,
      fun _ => ⟨rfl, rfl⟩, rfl, fun e => absurd e q⟩

theorem startCycle_cfg {a : PAddr} {s t : State} (h : startCycle a s = .ok () t) : t.cfg = s.cfg := by
  obtain ⟨m, d, p, b, rfl⟩ := startCycle_eq h; rfl

/-! ## References of the processor -/

/-- A reference without other agents is the bus cycle itself. -/
@[simp] theorem physRead_quiet {a : PAddr} {s : State} (h : s.busInputs = []) : physRead a s = cycleRead a s := by
  simp only [physRead, startCycle_quiet h, Res.bind_ok]

@[simp] theorem physWrite_quiet {a : PAddr} {v : Word} {s : State} (h : s.busInputs = []) :
    physWrite a v s = cycleWrite a v s := by
  simp only [physWrite, startCycle_quiet h, Res.bind_ok]

@[simp] theorem physWriteByte_quiet {a : PAddr} {v : Byte} {s : State} (h : s.busInputs = []) :
    physWriteByte a v s = cycleWriteByte a v s := by
  simp only [physWriteByte, startCycle_quiet h, Res.bind_ok]

theorem cycleRead_frame {w : Allow} {a : PAddr} {s t : State} {v : Word} (h : cycleRead a s = .ok v t) :
    Frame w s t := by
  unfold cycleRead at h
  split at h
  · cases h; exact Frame.refl w s
  · exact slaveRead_frame h

/-- A word read leaves everything but the receiver's done flag. -/
theorem physRead_frame {w : Allow} {a : PAddr} {s t : State} {v : Word} (h : physRead a s = .ok v t) :
    Frame w s t := by
  obtain ⟨_, u, hu, h⟩ := Res.bind_eq_ok.mp h
  exact (startCycle_frame hu).trans (cycleRead_frame h)

/-- A byte read is a word read. -/
theorem physReadByte_ok {a : PAddr} {s t : State} {b : Byte} (h : physReadByte a s = .ok b t) :
    ∃ v, physRead a s = .ok v t ∧ b = selectByte (a.getLsbD 0) v := by
  obtain ⟨v, u, hv, h⟩ := Res.bind_eq_ok.mp h
  cases h; exact ⟨v, hv, rfl⟩

theorem physReadByte_frame {w : Allow} {a : PAddr} {s t : State} {b : Byte} (h : physReadByte a s = .ok b t) :
    Frame w s t := by
  obtain ⟨v, hv, -⟩ := physReadByte_ok h
  exact physRead_frame hv

/-- Where a word read answers, a write answers, in every state of the same configuration, unless the place is ROM that gives
writes no reply. -/
theorem cycleWrite_total {a : PAddr} {s t : State} {x : Word} (h : physRead a s = .ok x t)
    (hp : (Place.phys a).writable s.cfg) (v : Word) {u : State} (hu : u.cfg = s.cfg) :
    ∃ z, cycleWrite a v u = .ok () z := by
  obtain ⟨_, s', hs, h⟩ := Res.bind_eq_ok.mp h
  unfold cycleRead at h; unfold cycleWrite; rw [startCycle_cfg hs] at h; rw [hu]
  split at h
  · next hi => exact ⟨_, rfl⟩
  · next hi =>
    unfold slaveRead at h; unfold slaveWrite; rw [startCycle_cfg hs] at h; rw [hu]
    split at h
    · cases h
    · next r hr =>
      have hk := hp hi r hr
      match e : r.kind with
      | .ram => exact ⟨_, rfl⟩
      | .rom true => exact ⟨_, rfl⟩
      | .rom false => exact absurd e hk
      | .console => exact ⟨_, rfl⟩
      | .device => simp only [e] at h; cases h

/-- The byte form. -/
theorem cycleWriteByte_total {a : PAddr} {s t : State} {x : Word} (h : physRead a s = .ok x t)
    (hp : (Place.phys a).writable s.cfg) (v : Byte) {u : State} (hu : u.cfg = s.cfg) :
    ∃ z, cycleWriteByte a v u = .ok () z := by
  obtain ⟨_, s', hs, h⟩ := Res.bind_eq_ok.mp h
  unfold cycleRead at h; unfold cycleWriteByte; rw [startCycle_cfg hs] at h; rw [hu]
  split at h
  · next hi => exact ⟨_, rfl⟩
  · next hi =>
    unfold slaveRead at h; unfold slaveWriteByte; rw [startCycle_cfg hs] at h; rw [hu]
    split at h
    · cases h
    · next r hr =>
      have hk := hp hi r hr
      match e : r.kind with
      | .ram => exact ⟨_, rfl⟩
      | .rom true => exact ⟨_, rfl⟩
      | .rom false => exact absurd e hk
      | .console => dsimp only; split <;> exact ⟨_, rfl⟩
      | .device => simp only [e] at h; cases h

theorem writeIntReg_mem (r : IntReg) (v : Word) (s : State) : (writeIntReg r v s).mem = s.mem := by
  cases r <;> rfl

/-- The bytes that a word write can change, wherever it goes. -/
theorem cycleWrite_byte {a : PAddr} {v : Word} {s t : State} (h : cycleWrite a v s = .ok () t) {b : Nat}
    (hb : wordBytes a b = false) : t.mem.read b = s.mem.read b := by
  have h01 : b ≠ wordAddr a ∧ b ≠ wordAddr a + 1 := by simpa [wordBytes] using hb
  unfold cycleWrite at h
  split at h
  · cases h; rw [writeIntReg_mem]
  · unfold slaveWrite at h
    split at h
    · cases h
    · split at h
      · cases h
      · cases h; rfl
      · split at h <;> cases h; rfl
      · cases h; exact Memory.read_writeWord_ne _ _ _ h01.1 h01.2

/-- The byte that a byte write can change. -/
theorem cycleWriteByte_byte {a : PAddr} {v : Byte} {s t : State} (h : cycleWriteByte a v s = .ok () t) {b : Nat}
    (hb : b ≠ a.toNat) : t.mem.read b = s.mem.read b := by
  unfold cycleWriteByte at h
  split at h
  · cases h; rw [writeIntReg_mem]
  · unfold slaveWriteByte at h
    split at h
    · cases h
    · split at h
      · cases h
      · split at h <;> cases h <;> rfl
      · split at h <;> cases h; rfl
      · cases h; exact Memory.read_write_ne _ _ hb

/-- Memory replaced, and nothing else. -/
theorem Frame.mem {w : Allow} {s : State} {m : Memory} (h : ∀ a, w.byte a = false → m.read a = s.mem.read a) :
    Frame w s { s with mem := m } :=
  ⟨fun q h6 h7 hq => by cases q <;> rfl, fun _ _ => rfl, rfl, fun _ => h, fun _ _ => rfl, rfl,
   fun _ => ⟨rfl, rfl⟩, rfl, fun q => ⟨q, rfl, rfl⟩⟩

/-- A word write to memory changes the word's two bytes and nothing else. -/
theorem cycleWrite_frame {w : Allow} {a : PAddr} {v : Word} {s t : State} (h : cycleWrite a v s = .ok () t)
    (hp : (Place.phys a).plain s.cfg) (hw : ∀ b, wordBytes a b = true → w.byte b = true) : Frame w s t := by
  obtain ⟨h1, q, hq, h2⟩ := hp
  unfold cycleWrite at h
  rw [h1] at h
  dsimp only at h
  unfold slaveWrite at h
  rw [hq] at h
  rcases h2 with hk | hk <;> simp only [hk, if_true] at h <;> cases h
  · refine Frame.mem fun b hb => ?_
    have := bool_false_of (hw b) hb
    have h01 : b ≠ wordAddr a ∧ b ≠ wordAddr a + 1 := by simpa [wordBytes] using this
    exact Memory.read_writeWord_ne _ _ _ h01.1 h01.2
  · exact Frame.refl w s

/-- A byte write to memory changes that byte and nothing else. -/
theorem cycleWriteByte_frame {w : Allow} {a : PAddr} {v : Byte} {s t : State} (h : cycleWriteByte a v s = .ok () t)
    (hp : (Place.phys a).plain s.cfg) (hw : w.byte a.toNat = true) : Frame w s t := by
  obtain ⟨h1, q, hq, h2⟩ := hp
  unfold cycleWriteByte at h
  rw [h1] at h
  dsimp only at h
  unfold slaveWriteByte at h
  rw [hq] at h
  rcases h2 with hk | hk <;> simp only [hk, if_true] at h <;> cases h
  · refine Frame.mem fun b hb => Memory.read_write_ne _ _ fun e => ?_
    subst e; simp_all
  · exact Frame.refl w s

theorem physWrite_frame {w : Allow} {a : PAddr} {v : Word} {s t : State} (h : physWrite a v s = .ok () t)
    (hp : (Place.phys a).plain s.cfg) (hw : ∀ b, wordBytes a b = true → w.byte b = true) : Frame w s t := by
  obtain ⟨_, u, hu, h⟩ := Res.bind_eq_ok.mp h
  exact (startCycle_frame hu).trans (cycleWrite_frame h (by rw [startCycle_cfg hu]; exact hp) hw)

theorem physWriteByte_frame {w : Allow} {a : PAddr} {v : Byte} {s t : State} (h : physWriteByte a v s = .ok () t)
    (hp : (Place.phys a).plain s.cfg) (hw : w.byte a.toNat = true) : Frame w s t := by
  obtain ⟨_, u, hu, h⟩ := Res.bind_eq_ok.mp h
  exact (startCycle_frame hu).trans (cycleWriteByte_frame h (by rw [startCycle_cfg hu]; exact hp) hw)

/-! ## Virtual references and the stack -/

theorem Frame.ps_eq {w : Allow} {s t : State} (h : Frame w s t) (hw : w.ps = 0) : t.ps = s.ps := by
  have e : ~~~(0 : Word) = BitVec.allOnes 16 := rfl
  have := h.ps
  rwa [hw, e, BitVec.and_allOnes, BitVec.and_allOnes] at this

theorem Frame.mode_eq {w : Allow} {s t : State} (h : Frame w s t) (hw : w.ps = 0) : t.mode = s.mode := by
  simp only [State.mode, h.ps_eq hw]

theorem readWordMode_frame {w : Allow} {m : BitVec 2} {va : Word} {s t : State} {v : Word}
    (h : readWordMode m va s = .ok v t) : Frame w s t := by
  obtain ⟨a, u, ha, h⟩ := Res.bind_eq_ok.mp h
  exact (translate_frame ha).trans (physRead_frame h)

theorem readWord_frame {w : Allow} {va : Word} {s t : State} {v : Word} (h : readWord va s = .ok v t) :
    Frame w s t := readWordMode_frame h

theorem fetchWord_frame {w : Allow} {s t : State} {v : Word} (h : fetchWord s = .ok v t) : Frame w s t :=
  (Frame.pc w s _).trans (readWord_frame h)

/-- Evaluating a specifier changes its own register and R7, and nothing else. -/
theorem locate_frame {w : Allow} {n : Nat} {o : Operand} {s t : State} {l : Loc} (h : locate n o s = .ok l t)
    (hw : w.permits s.mode o.reg) : Frame w s t := by
  obtain ⟨m, r⟩ := o
  cases m <;> simp only [locate] at h
  · cases h; exact Frame.refl w s
  · cases h; exact Frame.refl w s
  · cases h; exact Frame.setReg _ hw
  · obtain ⟨p, u, hp, h⟩ := Res.bind_eq_ok.mp h
    cases h; exact (Frame.setReg _ hw).trans (readWord_frame hp)
  · cases h; exact (Frame.setReg _ hw).trans (Frame.noteStackReg _ _ _ _)
  · obtain ⟨p, u, hp, h⟩ := Res.bind_eq_ok.mp h
    cases h; exact ((Frame.setReg _ hw).trans (Frame.noteStackReg _ _ _ _)).trans (readWord_frame hp)
  · obtain ⟨p, u, hp, h⟩ := Res.bind_eq_ok.mp h
    cases h; exact fetchWord_frame hp
  · obtain ⟨p, u, hp, h⟩ := Res.bind_eq_ok.mp h
    obtain ⟨q, z, hq, h⟩ := Res.bind_eq_ok.mp h
    cases h; exact (fetchWord_frame hp).trans (readWord_frame hq)

/-- Translating a location changes W bits only. -/
theorem placeOf_frame {w : Allow} {k : Access} {l : Loc} {s t : State} {p : Place} (h : placeOf k l s = .ok p t) :
    Frame w s t := by
  cases l with
  | reg r => cases h; exact Frame.refl w s
  | mem va =>
    obtain ⟨a, u, ha, h⟩ := Res.bind_eq_ok.mp h
    cases h; exact translate_frame ha

theorem readPlace_frame {w : Allow} {p : Place} {s t : State} {v : Word} (h : readPlace p s = .ok v t) :
    Frame w s t := by
  cases p with
  | reg r => cases h; exact Frame.refl w s
  | phys a => exact physRead_frame h

theorem readPlaceByte_frame {w : Allow} {p : Place} {s t : State} {v : Byte} (h : readPlaceByte p s = .ok v t) :
    Frame w s t := by
  cases p with
  | reg r => cases h; exact Frame.refl w s
  | phys a => exact physReadByte_frame h

/-- A word write at a plain place changes that word and nothing else. -/
theorem writePlace_frame {w : Allow} {p : Place} {v : Word} {s t : State} (h : writePlace p v s = .ok () t)
    (hp : p.plain s.cfg) : Frame (w.word s.mode p) s t := by
  cases p with
  | reg r => cases h; exact Frame.setReg v (Allow.permits_reg _ _ _)
  | phys a => exact physWrite_frame h hp fun b hb => by simp [Allow.word, hb]

theorem writePlaceByte_frame {w : Allow} {p : Place} {v : Byte} {s t : State} (h : writePlaceByte p v s = .ok () t)
    (hp : p.plain s.cfg) : Frame (w.octet s.mode p) s t := by
  cases p with
  | reg r => cases h; exact Frame.setReg _ (Allow.permits_reg _ _ _)
  | phys a => exact physWriteByte_frame h hp (by simp [Allow.octet])

theorem writePlaceByteExt_frame {w : Allow} {p : Place} {v : Byte} {s t : State}
    (h : writePlaceByteExt p v s = .ok () t) (hp : p.plain s.cfg) : Frame (w.octet s.mode p) s t := by
  cases p with
  | reg r => cases h; exact Frame.setReg _ (Allow.permits_reg _ _ _)
  | phys a => exact physWriteByte_frame h hp (by simp [Allow.octet])

/-- The output half of a read-modify-write at a plain place. -/
theorem rewritePlace_frame {w : Allow} {p : Place} {v : Word} {s t : State} (h : rewritePlace p v s = .ok () t)
    (hp : p.plain s.cfg) : Frame (w.word s.mode p) s t := by
  cases p with
  | reg r => cases h; exact Frame.setReg v (Allow.permits_reg _ _ _)
  | phys a => exact cycleWrite_frame h hp fun b hb => by simp [Allow.word, hb]

theorem rewritePlaceByte_frame {w : Allow} {p : Place} {v : Byte} {s t : State} (h : rewritePlaceByte p v s = .ok () t)
    (hp : p.plain s.cfg) : Frame (w.octet s.mode p) s t := by
  cases p with
  | reg r => cases h; exact Frame.setReg _ (Allow.permits_reg _ _ _)
  | phys a => exact cycleWriteByte_frame h hp (by simp [Allow.octet])

/-- Where a place could be read, a writable one can be written. -/
theorem rewritePlace_total {p : Place} {s t : State} {x : Word} (h : readPlace p s = .ok x t) (hp : p.writable s.cfg)
    (v : Word) {u : State} (hu : u.cfg = s.cfg) : ∃ z, rewritePlace p v u = .ok () z := by
  cases p with
  | reg r => exact ⟨_, rfl⟩
  | phys a => exact cycleWrite_total h hp v hu

theorem rewritePlaceByte_total {p : Place} {s t : State} {x : Byte} (h : readPlaceByte p s = .ok x t)
    (hp : p.writable s.cfg) (v : Byte) {u : State} (hu : u.cfg = s.cfg) : ∃ z, rewritePlaceByte p v u = .ok () z := by
  cases p with
  | reg r => exact ⟨_, rfl⟩
  | phys a => obtain ⟨y, hy, -⟩ := physReadByte_ok h; exact cycleWriteByte_total hy hp v hu

/-- Popping a word changes the current stack pointer and nothing else. -/
theorem pop_frame {w : Allow} {s t : State} {v : Word} (h : pop s = .ok v t) (hw : w.sp s.mode = true) :
    Frame w s t :=
  (Frame.setReg (r := .r6) _ hw).trans (readWord_frame h)

/-- The state in which a push writes. -/
def pushed (s : State) : State := (s.setReg .r6 (s.reg .r6 - 2)).noteStack (s.reg .r6 - 2)

theorem pushed_frame {w : Allow} {s : State} (hw : w.sp s.mode = true) : Frame w s (pushed s) :=
  (Frame.setReg (r := .r6) _ hw).trans (Frame.noteStack _ _ _)

end Sys2Proof.Machine
end

