-- ==== Sys2Proof/Laws/Ops.lean ====
section
/-! SUPPORT. What the shared operations over operands, the stack and exceptions do when their parts answer: one lemma for
each, to be cited instead of unfolding it. -/

namespace Sys2Proof.Machine

/-! ## Condition codes and translation do not meet -/

/-- Change the state that a piece leaves. -/
def Res.mapState {α : Type} (f : State → State) : Res α → Res α
  | .ok a s => .ok a (f s)
  | .trap c s => .trap c (f s)
  | .fault e => .fault e
  | .refused r => .refused r

@[simp] theorem State.setCC_mode (s : State) (x : CC) : (s.setCC x).mode = s.mode := by
  apply BitVec.eq_of_getLsbD_eq
  intro i hi
  have : ¬ 14 + i < 4 := by omega
  simp only [State.mode, State.setCC, BitVec.getLsbD_extractLsb', BitVec.getLsbD_append, this, hi, decide_true,
    Bool.true_and, if_false]
  have e : 4 + (14 + i - 4) = 14 + i := by omega
  have h2 : 14 + i - 4 < 12 := by omega
  simp [h2, e]

@[simp] theorem State.setCC_prevMode (s : State) (x : CC) : (s.setCC x).prevMode = s.prevMode := by
  apply BitVec.eq_of_getLsbD_eq
  intro i hi
  have : ¬ 12 + i < 4 := by omega
  simp only [State.prevMode, State.setCC, BitVec.getLsbD_extractLsb', BitVec.getLsbD_append, this, hi, decide_true,
    Bool.true_and, if_false]
  have e : 4 + (12 + i - 4) = 12 + i := by omega
  have h2 : 12 + i - 4 < 12 := by omega
  simp [h2, e]

theorem State.cc_of_ps {s t : State} (h : t.ps = s.ps) : t.cc = s.cc := by simp [State.cc, h]

@[simp] theorem State.setCC_reg (s : State) (x : CC) (r : Reg) : (s.setCC x).reg r = s.reg r := by
  cases r <;> first | rfl | simp only [State.reg, State.setCC_mode, State.setCC_spOf]

/-- Translation neither looks at the condition codes nor changes them. -/
theorem translate_setCC (m : BitVec 2) (va : Word) (k : Access) (s : State) (x : CC) :
    translate m va k (s.setCC x) = (translate m va k s).mapState (·.setCC x) := by
  have key : ∀ u, translateIn u m va k (s.setCC x) = (translateIn u m va k s).mapState (·.setCC x) := by
    intro u
    have e1 : pdrOf u (pageOf va) (s.setCC x) = pdrOf u (pageOf va) s := rfl
    have e2 : parOf u (pageOf va) (s.setCC x) = parOf u (pageOf va) s := rfl
    simp only [translateIn, e1, e2]
    split
    · rfl
    · simp only [Res.mapState]; congr 1; cases k <;> cases u <;> rfl
  unfold translate
  rw [show (s.setCC x).relocating = s.relocating from rfl, show (s.setCC x).cfg = s.cfg from rfl]
  split
  · cases pageSetOf s.cfg.reservedMode m
    · exact key _
    · exact key _
    · rfl
    · rfl
  · rfl

theorem placeOf_setCC (k : Access) (l : Loc) (s : State) (x : CC) :
    placeOf k l (s.setCC x) = (placeOf k l s).mapState (·.setCC x) := by
  cases l with
  | reg r => rfl
  | mem va =>
    simp only [placeOf, State.setCC_mode, translate_setCC]
    cases translate s.mode va k s <;> rfl

/-! ## Condition codes and the bus do not meet -/

theorem slaveRead_setCC (a : PAddr) (s : State) (x : CC) :
    slaveRead a (s.setCC x) = (slaveRead a s).mapState (·.setCC x) := by
  unfold slaveRead
  rw [show (s.setCC x).cfg = s.cfg from rfl]
  split
  · rfl
  · split <;> try rfl
    rw [show (s.setCC x).parity = s.parity from rfl]
    split <;> rfl

theorem slaveWrite_setCC (a : PAddr) (v : Word) (s : State) (x : CC) :
    slaveWrite a v (s.setCC x) = (slaveWrite a v s).mapState (·.setCC x) := by
  unfold slaveWrite
  rw [show (s.setCC x).cfg = s.cfg from rfl]
  split
  · rfl
  · split <;> try rfl
    split <;> rfl

theorem slaveWriteByte_setCC (a : PAddr) (v : Byte) (s : State) (x : CC) :
    slaveWriteByte a v (s.setCC x) = (slaveWriteByte a v s).mapState (·.setCC x) := by
  unfold slaveWriteByte
  rw [show (s.setCC x).cfg = s.cfg from rfl]
  split
  · rfl
  · split <;> try rfl
    all_goals (split <;> rfl)

theorem dma_setCC {α : Type} (y : Res α) (s : State) (x : CC) :
    dma (y.mapState (·.setCC x)) (s.setCC x) = (dma y s).mapState (·.setCC x) := by cases y <;> rfl

theorem dmaReply_setCC {α : Type} (a : PAddr) (y : Res α) (s : State) (x : CC) :
    dmaReply a (y.mapState (·.setCC x)) (s.setCC x) = (dmaReply a y s).mapState (·.setCC x) := by
  unfold dmaReply
  rw [show (s.setCC x).cfg = s.cfg from rfl]
  split <;> rfl

theorem busAction_setCC (e : BusInput) (s : State) (x : CC) :
    busAction e (s.setCC x) = (busAction e s).mapState (·.setCC x) := by
  cases e with
  | sent =>
    simp only [busAction, transmitted]
    rw [show (s.setCC x).slu = s.slu from rfl]
    split <;> rfl
  | dmaRead a => simp only [busAction, slaveRead_setCC, dmaReply_setCC, dma_setCC]
  | dmaWrite a v => simp only [busAction, slaveWrite_setCC, dmaReply_setCC, dma_setCC]
  | dmaWriteByte a v => simp only [busAction, slaveWriteByte_setCC, dmaReply_setCC, dma_setCC]
  | _ => rfl

theorem busActions_setCC (l : List BusInput) (s : State) (x : CC) :
    busActions l (s.setCC x) = (busActions l s).mapState (·.setCC x) := by
  induction l generalizing s with
  | nil => rfl
  | cons e l ih =>
    simp only [busActions, busAction_setCC]
    cases busAction e s <;> simp only [Res.mapState, Res.bind, ih]

/-- The other agents neither look at the condition codes nor change them. -/
theorem startCycle_setCC (a : PAddr) (s : State) (x : CC) :
    startCycle a (s.setCC x) = (startCycle a s).mapState (·.setCC x) := by
  unfold startCycle busTurn
  rw [show (s.setCC x).cfg = s.cfg from rfl, show (s.setCC x).busInputs = s.busInputs from rfl]
  split
  · rfl
  · split
    · rfl
    · rename_i es rest _
      exact busActions_setCC es { s with busInputs := rest } x

/-- The write itself: if it aborts, it aborts whatever the condition codes are, and leaves them. -/
theorem cycleWrite_trap_setCC {a : PAddr} {v : Word} {s u : State} {c : Trap} (h : cycleWrite a v s = .trap c u) (x : CC) :
    cycleWrite a v (s.setCC x) = .trap c (u.setCC x) := by
  unfold cycleWrite at *
  rw [show (s.setCC x).cfg = s.cfg from rfl]
  split at h
  · cases h
  · rw [slaveWrite_setCC, h]; rfl

/-- The byte form. -/
theorem cycleWriteByte_trap_setCC {a : PAddr} {v : Byte} {s u : State} {c : Trap} (h : cycleWriteByte a v s = .trap c u)
    (x : CC) : cycleWriteByte a v (s.setCC x) = .trap c (u.setCC x) := by
  unfold cycleWriteByte at *
  rw [show (s.setCC x).cfg = s.cfg from rfl]
  split at h
  · cases h
  · rw [slaveWriteByte_setCC, h]; rfl

/-- The same of a write with the other agents' turn before it. -/
theorem startCycle_trap_setCC {a : PAddr} {f : State → Res Unit} {s u : State} {c : Trap} {x : CC}
    (h : ((startCycle a s).bind fun _ s => f s) = .trap c u)
    (hf : ∀ s u, f s = .trap c u → f (s.setCC x) = .trap c (u.setCC x)) :
    ((startCycle a (s.setCC x)).bind fun _ s => f s) = .trap c (u.setCC x) := by
  rw [startCycle_setCC]
  cases hs : startCycle a s with
  | ok y t => rw [hs] at h; exact hf t u h
  | trap d t => exact absurd hs startCycle_no_trap
  | fault f => rw [hs] at h; cases h
  | refused r => rw [hs] at h; cases h

theorem physWrite_trap_setCC {a : PAddr} {v : Word} {s u : State} {c : Trap} (h : physWrite a v s = .trap c u) (x : CC) :
    physWrite a v (s.setCC x) = .trap c (u.setCC x) :=
  startCycle_trap_setCC h fun _ _ h => cycleWrite_trap_setCC h x

theorem physWriteByte_trap_setCC {a : PAddr} {v : Byte} {s u : State} {c : Trap} (h : physWriteByte a v s = .trap c u)
    (x : CC) : physWriteByte a v (s.setCC x) = .trap c (u.setCC x) :=
  startCycle_trap_setCC h fun _ _ h => cycleWriteByte_trap_setCC h x

/-- A place that answers a write of one value answers a write of any. -/
theorem writePlace_answers {p : Place} {v : Word} {s t : State} (h : writePlace p v s = .ok () t) (w : Word) (x : CC) :
    ∃ z, writePlace p w (s.setCC x) = .ok () z := by
  cases p with
  | reg r => exact ⟨_, rfl⟩
  | phys a =>
    obtain ⟨_, u, hu, h⟩ := Res.bind_eq_ok.mp (show physWrite a v s = .ok () t from h)
    suffices ∃ z, cycleWrite a w (u.setCC x) = .ok () z by
      obtain ⟨z, hz⟩ := this
      exact ⟨z, by simp only [writePlace, physWrite, startCycle_setCC, hu, Res.mapState, Res.bind_ok, hz]⟩
    unfold cycleWrite slaveWrite at *
    rw [show (u.setCC x).cfg = u.cfg from rfl]
    split at h
    · exact ⟨_, rfl⟩
    · split at h
      · cases h
      · split at h
        · cases h
        · exact ⟨_, rfl⟩
        · split at h
          · next hr => exact ⟨_, if_pos hr⟩
          · cases h
        · exact ⟨_, rfl⟩

/-- The byte form. -/
theorem writePlaceByte_answers {p : Place} {v : Byte} {s t : State} (h : writePlaceByte p v s = .ok () t) (w : Byte) (x : CC) :
    ∃ z, writePlaceByte p w (s.setCC x) = .ok () z := by
  cases p with
  | reg r => exact ⟨_, rfl⟩
  | phys a =>
    obtain ⟨_, u, hu, h⟩ := Res.bind_eq_ok.mp (show physWriteByte a v s = .ok () t from h)
    suffices ∃ z, cycleWriteByte a w (u.setCC x) = .ok () z by
      obtain ⟨z, hz⟩ := this
      exact ⟨z, by simp only [writePlaceByte, physWriteByte, startCycle_setCC, hu, Res.mapState, Res.bind_ok, hz]⟩
    unfold cycleWriteByte slaveWriteByte at *
    rw [show (u.setCC x).cfg = u.cfg from rfl]
    split at h
    · exact ⟨_, rfl⟩
    · split at h
      · cases h
      · split at h
        · cases h
        · split <;> exact ⟨_, rfl⟩
        · split at h
          · next hr => exact ⟨_, if_pos hr⟩
          · cases h
        · exact ⟨_, rfl⟩

/-! ## Committing a result -/

theorem commit_ok {cc : CC} {f : State → Res Unit} {s v : State} (h : f (s.setCC cc) = .ok () v) :
    commit cc f s = .ok () v := by
  simp only [commit, h]

/-- A store that aborts is the store without the new codes. -/
theorem commit_trap {cc : CC} {f : State → Res Unit} {s v : State} {c : Trap} (h : f (s.setCC cc) = .trap c v) :
    commit cc f s = f s := by
  simp only [commit, h]

/-- A store that aborts, aborts in the state that has the old codes. -/
theorem commit_abort {cc : CC} {f : State → Res Unit} {s u z : State} {c d : Trap} (h : f s = .trap c u)
    (hz : f (s.setCC cc) = .trap d z) : commit cc f s = .trap c u := by rw [commit_trap hz, h]

/-! ## Reading operands -/

theorem loadWord_eq_ok {o : Operand} {s t : State} {v : Word} :
    loadWord o s = .ok v t ↔
      ∃ l u p z, locate 2 o s = .ok l u ∧ placeOf .read l u = .ok p z ∧ readPlace p z = .ok v t := by
  simp only [loadWord, Res.bind_eq_ok]
  exact ⟨fun ⟨l, u, hl, p, z, hp, h⟩ => ⟨l, u, p, z, hl, hp, h⟩, fun ⟨l, u, p, z, hl, hp, h⟩ => ⟨l, u, hl, p, z, hp, h⟩⟩

theorem loadByte_eq_ok {o : Operand} {s t : State} {v : Byte} :
    loadByte o s = .ok v t ↔
      ∃ l u p z, locate 1 o s = .ok l u ∧ placeOf .read l u = .ok p z ∧ readPlaceByte p z = .ok v t := by
  simp only [loadByte, Res.bind_eq_ok]
  exact ⟨fun ⟨l, u, hl, p, z, hp, h⟩ => ⟨l, u, p, z, hl, hp, h⟩, fun ⟨l, u, p, z, hl, hp, h⟩ => ⟨l, u, hl, p, z, hp, h⟩⟩

theorem loadWord_frame {w : Allow} {o : Operand} {s t : State} {v : Word} (h : loadWord o s = .ok v t)
    (hw : w.permits s.mode o.reg) : Frame w s t := by
  obtain ⟨l, u, p, z, hl, hp, h⟩ := loadWord_eq_ok.mp h
  exact (locate_frame hl hw).trans ((placeOf_frame hp).trans (readPlace_frame h))

theorem loadByte_frame {w : Allow} {o : Operand} {s t : State} {v : Byte} (h : loadByte o s = .ok v t)
    (hw : w.permits s.mode o.reg) : Frame w s t := by
  obtain ⟨l, u, p, z, hl, hp, h⟩ := loadByte_eq_ok.mp h
  exact (locate_frame hl hw).trans ((placeOf_frame hp).trans (readPlaceByte_frame h))

/-- Reading a place leaves the registers. -/
theorem readPlace_reg {p : Place} {s t : State} {v : Word} (h : readPlace p s = .ok v t) (r : Reg) :
    t.reg r = s.reg r := by
  cases p with
  | reg q => cases h; rfl
  | phys a =>
    obtain ⟨_, u, hu, h⟩ := Res.bind_eq_ok.mp (show physRead a s = .ok v t from h)
    obtain ⟨m, d, q, b, rfl⟩ := startCycle_eq hu
    have e : t.reg r = ({ s with mem := m, slu := d, parity := q, busInputs := b } : State).reg r := by
      unfold cycleRead at h
      split at h
      · cases h; rfl
      · obtain ⟨d', rfl⟩ := slaveRead_eq h; cases r <;> rfl
    rw [e]; cases r <;> rfl

theorem readPlaceByte_reg {p : Place} {s t : State} {v : Byte} (h : readPlaceByte p s = .ok v t) (r : Reg) :
    t.reg r = s.reg r := by
  cases p with
  | reg q => cases h; rfl
  | phys a =>
    obtain ⟨x, hx, -⟩ := physReadByte_ok h
    exact readPlace_reg (p := .phys a) hx r

theorem readPlace_ps {p : Place} {s t : State} {v : Word} (h : readPlace p s = .ok v t) : t.ps = s.ps :=
  (readPlace_frame (w := Allow.nothing) h).ps_eq rfl

theorem readPlaceByte_ps {p : Place} {s t : State} {v : Byte} (h : readPlaceByte p s = .ok v t) : t.ps = s.ps :=
  (readPlaceByte_frame (w := Allow.nothing) h).ps_eq rfl

theorem placeOf_ps {k : Access} {l : Loc} {s t : State} {p : Place} (h : placeOf k l s = .ok p t) : t.ps = s.ps :=
  (placeOf_frame (w := Allow.nothing) h).ps_eq rfl

theorem locate_ps {n : Nat} {o : Operand} {s t : State} {l : Loc} (h : locate n o s = .ok l t) : t.ps = s.ps :=
  (locate_frame (w := Allow.nothing.reg s.mode o.reg) h (Allow.permits_reg _ _ _)).ps_eq rfl

theorem loadWord_ps {o : Operand} {s t : State} {v : Word} (h : loadWord o s = .ok v t) : t.ps = s.ps :=
  (loadWord_frame (w := Allow.nothing.reg s.mode o.reg) h (Allow.permits_reg _ _ _)).ps_eq rfl

theorem loadByte_ps {o : Operand} {s t : State} {v : Byte} (h : loadByte o s = .ok v t) : t.ps = s.ps :=
  (loadByte_frame (w := Allow.nothing.reg s.mode o.reg) h (Allow.permits_reg _ _ _)).ps_eq rfl

/-! ## The shapes of the single operand instructions -/

theorem modifyWord_ok {f : Alu1 16} {o : Operand} {s u z t v : State} {l : Loc} {p : Place} {d : Word}
    (hl : locate 2 o s = .ok l u) (hp : placeOf .write l u = .ok p z) (hd : readPlace p z = .ok d t)
    (hv : rewritePlace p (f d s.cc).1 (t.setCC (f d s.cc).2) = .ok () v) : modifyWord f o s = .ok () v := by
  have e : t.cc = s.cc := State.cc_of_ps (((readPlace_ps hd).trans (placeOf_ps hp)).trans (locate_ps hl))
  simp only [modifyWord, hl, hp, hd, Res.bind_ok, e]
  exact commit_ok hv

theorem modifyByte_ok {f : Alu1 8} {o : Operand} {s u z t v : State} {l : Loc} {p : Place} {d : Byte}
    (hl : locate 1 o s = .ok l u) (hp : placeOf .write l u = .ok p z) (hd : readPlaceByte p z = .ok d t)
    (hv : rewritePlaceByte p (f d s.cc).1 (t.setCC (f d s.cc).2) = .ok () v) : modifyByte f o s = .ok () v := by
  have e : t.cc = s.cc := State.cc_of_ps (((readPlaceByte_ps hd).trans (placeOf_ps hp)).trans (locate_ps hl))
  simp only [modifyByte, hl, hp, hd, Res.bind_ok, e]
  exact commit_ok hv

theorem setWord_ok {f : Alu1 16} {o : Operand} {s u z v : State} {l : Loc} {p : Place} (hl : locate 2 o s = .ok l u)
    (hp : placeOf .write l u = .ok p z) (hv : writePlace p (f 0 s.cc).1 (z.setCC (f 0 s.cc).2) = .ok () v) :
    setWord f o s = .ok () v := by
  have e : u.cc = s.cc := State.cc_of_ps (locate_ps hl)
  simp only [setWord, hl, Res.bind_ok, e]
  exact commit_ok (by simp only [storeAt, placeOf_setCC, hp, Res.mapState, Res.bind_ok]; exact hv)

theorem setByte_ok {f : Alu1 8} {o : Operand} {s u z v : State} {l : Loc} {p : Place} (hl : locate 1 o s = .ok l u)
    (hp : placeOf .write l u = .ok p z) (hv : writePlaceByte p (f 0 s.cc).1 (z.setCC (f 0 s.cc).2) = .ok () v) :
    setByte f o s = .ok () v := by
  have e : u.cc = s.cc := State.cc_of_ps (locate_ps hl)
  simp only [setByte, hl, Res.bind_ok, e]
  exact commit_ok (by simp only [storeByteAt, placeOf_setCC, hp, Res.mapState, Res.bind_ok]; exact hv)

theorem testWord_ok {f : Alu1 16} {o : Operand} {s t : State} {d : Word} (h : loadWord o s = .ok d t) :
    testWord f o s = .ok () (t.setCC (f d s.cc).2) := by
  simp only [testWord, h, Res.bind_ok, State.cc_of_ps (loadWord_ps h)]

theorem testByte_ok {f : Alu1 8} {o : Operand} {s t : State} {d : Byte} (h : loadByte o s = .ok d t) :
    testByte f o s = .ok () (t.setCC (f d s.cc).2) := by
  simp only [testByte, h, Res.bind_ok, State.cc_of_ps (loadByte_ps h)]

/-! ## The stack -/

/-- A push that answers: R6 is two lower, the word is written where its new value translates to. -/
theorem push_eq_ok {v : Word} {s t : State} :
    push v s = .ok () t ↔
      ∃ a u, translate s.mode (s.reg .r6 - 2) .write (pushed s) = .ok a u ∧ physWrite a v u = .ok () t := by
  simp only [push, writeWord, writeWordMode, Res.bind_eq_ok, State.noteStack_mode, State.setReg_mode, pushed]

/-- A pop that answers: R6 is two higher, the word is read where its old value translates to. -/
theorem pop_eq_ok {v : Word} {s t : State} :
    pop s = .ok v t ↔
      ∃ a u, translate s.mode (s.reg .r6) .read (s.setReg .r6 (s.reg .r6 + 2)) = .ok a u ∧ physRead a u = .ok v t := by
  simp only [pop, readWord, readWordMode, Res.bind_eq_ok, State.setReg_mode]

/-! ## Taking an exception -/

/-- A trap sequence whose four references answer (R560). -/
theorem enterTrap_ok {c : Trap} {s s1 s2 s3 s4 : State} {nps npc : Word} (h1 : c ≠ .stackOverflow)
    (h2 : c ≠ .doubleTimeout) (hps : readWordMode 0 (c.vector + 2) s = .ok nps s1)
    (hpc : readWordMode 0 c.vector s1 = .ok npc s2) (h3 : push s.ps { s2 with ps := trapPs s.ps nps } = .ok () s3)
    (h4 : push s3.pc s3 = .ok () s4) : enterTrap c s = .next { s4 with pc := npc, run := .run } := by
  have e1 : s1.ps = s.ps := (readWordMode_frame (w := Allow.nothing) hps).ps_eq rfl
  have e2 : s2.ps = s.ps := ((readWordMode_frame (w := Allow.nothing) hpc).ps_eq rfl).trans e1
  have e3 : s3.reg .r7 = s3.pc := rfl
  have k : ∀ v x, pushTrap c v x = push v x := by
    intro v x; cases c <;> first | rfl | exact absurd rfl h1 | exact absurd rfl h2
  simp only [enterTrap, readVector, hps, hpc, Res.bind_ok, pushFrame, k, e2, h3, e3, h4]

/-- A vector that cannot be read starts the sequence of that abort (R561). -/
theorem enterTrap_vector {c d : Trap} {s u : State} (h : readVector c.vector s = .trap d u) :
    enterTrap c s = .next { u with run := .trapping d } := by
  simp only [enterTrap, h, nestedTrap]

/-- A stack that cannot be written starts the sequence of that abort (R561, R562). -/
theorem enterTrap_push {c d : Trap} {s s2 u : State} {nps npc : Word} (h : readVector c.vector s = .ok (nps, npc) s2)
    (hp : pushFrame c s2.ps npc { s2 with ps := trapPs s2.ps nps } = .trap d u) :
    enterTrap c s = .next (nestedPush c d u) := by
  simp only [enterTrap, h, hp]

/-- The mark of a stack overflow after a push that keeps it. -/
theorem keepMark_mark {m : Bool} {y : Res Unit} {t : State} :
    (keepMark m y = .ok () t → t.stackOverflow = m) ∧ ∀ c, keepMark m y = .trap c t → t.stackOverflow = m := by
  cases y <;> exact ⟨fun h => by cases h <;> rfl, fun c h => by cases h <;> rfl⟩

/-- A trap sequence of power-up mode 3 that is answered whole is followed by the fetch (R667). -/
theorem startTrap_ran {c : Trap} {s t : State} (h : enterTrap c s = .next t) (hr : t.run = .run) :
    startTrap c s = .next t := by simp only [startTrap, h, hr]

/-- One that an abort cuts short is followed by that abort's, under the same rule (R667). -/
theorem startTrap_cut {c d : Trap} {s t : State} (h : enterTrap c s = .next t) (hr : t.run = .trapping d) :
    startTrap c s = .next { t with run := .powerTrap d } := by simp only [startTrap, h, hr]

/-- What a trap sequence leaves the processor doing: running, or beginning the sequence of an abort. -/
theorem enterTrap_run {c : Trap} {s t : State} (h : enterTrap c s = .next t) : t.run = .run ∨ ∃ d, t.run = .trapping d := by
  unfold enterTrap at h
  split at h
  · cases h; exact .inr ⟨_, rfl⟩
  · cases h
  · cases h
  · split at h
    · cases h; unfold nestedPush; split <;> exact .inr ⟨_, rfl⟩
    · cases h
    · cases h
    · cases h; exact .inl rfl

end Sys2Proof.Machine
end

