-- ==== Sys2Proof/Laws/Keeps.lean ====
section
/-! SUPPORT. What every operation of the running processor keeps, whether it answers or traps: the configuration, the
canonical form of memory, the bits that are always zero, and that it is powered. -/

namespace Sys2Proof.Machine

/-- The invariant while the processor is powered, with the configuration. -/
structure Kept (c : Config) (s : State) : Prop where
  cfg   : s.cfg = c
  mem   : s.mem.wf
  ps    : s.ps &&& 0o007000#16 = 0
  kpdr  : ∀ i : Fin 8, s.kpdr[i] &&& 0o100261#16 = 0
  updr  : ∀ i : Fin 8, s.updr[i] &&& 0o100261#16 = 0
  sr0   : s.sr0 &&& 0o017620#16 = 0
  sr3   : s.sr3 &&& 0o177717#16 = 0
  fec   : s.fec ∈ fecValues
  run   : s.run ≠ .powerOff
  bdcok : s.bdcok = true
  slu   : s.slu.txReady = true ↔ s.slu.txChar = none

theorem Kept.inv {c : Config} {s : State} (h : Kept c s) : s.Inv :=
  ⟨h.mem, h.ps, h.kpdr, h.updr, h.sr0, h.sr3, h.fec, ⟨fun e => absurd e h.run, fun e => by simp [h.bdcok] at e⟩, h.slu⟩

/-- A change of other parts of the state. -/
theorem Kept.of_eq {c : Config} {s t : State} (h : Kept c s) (h1 : t.cfg = s.cfg) (h2 : t.mem = s.mem) (h3 : t.ps = s.ps)
    (h4 : t.kpdr = s.kpdr) (h5 : t.updr = s.updr) (h6 : t.sr0 = s.sr0) (h7 : t.sr3 = s.sr3) (h8 : t.fec = s.fec)
    (h9 : t.run = s.run) (h10 : t.bdcok = s.bdcok) (h11 : t.slu = s.slu) : Kept c t :=
  ⟨h1 ▸ h.cfg, h2 ▸ h.mem, h3 ▸ h.ps, h4 ▸ h.kpdr, h5 ▸ h.updr, h6 ▸ h.sr0, h7 ▸ h.sr3, h8 ▸ h.fec, h9 ▸ h.run,
   h10 ▸ h.bdcok, h11 ▸ h.slu⟩

/-! ## Bits -/

theorem and_eq_zero_iff {w : Nat} {a m : BitVec w} :
    a &&& m = 0 ↔ ∀ i, m.getLsbD i = true → a.getLsbD i = false := by
  constructor
  · intro h i hm
    have := congrArg (BitVec.getLsbD · i) h
    simpa [hm] using this
  · intro h
    apply BitVec.eq_of_getLsbD_eq
    intro i hi
    simp only [BitVec.getLsbD_and]
    cases hm : m.getLsbD i
    · simp
    · simp [h i hm]

/-- A value cut to a mask has no bit outside it. -/
theorem masked_zero {a k m : Word} (h : k &&& m = 0) : (a &&& k) &&& m = 0 := by
  rw [BitVec.and_assoc, h]; simp

theorem or_zero {a b m : Word} (ha : a &&& m = 0) (hb : b &&& m = 0) : (a ||| b) &&& m = 0 := by
  rw [or_and_of_disjoint hb, ha]

/-! ## Elementary updates -/

theorem Kept.setReg {c : Config} {s : State} (h : Kept c s) (r : Reg) (v : Word) : Kept c (s.setReg r v) :=
  h.of_eq (by simp) (by simp) (by simp) (by simp) (by simp) (by simp) (by simp) (by simp) (by simp) (by simp) (by simp)

theorem Kept.setSpOf {c : Config} {s : State} (h : Kept c s) (m : BitVec 2) (v : Word) : Kept c (s.setSpOf m v) :=
  h.of_eq (by simp) (by simp) (by simp) (by simp) (by simp) (by simp) (by simp) (by simp) (by simp) (by simp) (by simp)

theorem Kept.noteStack {c : Config} {s : State} (h : Kept c s) (v : Word) : Kept c (s.noteStack v) :=
  h.of_eq (by simp) (by simp) (by simp) (by simp) (by simp) (by simp) (by simp) (by simp) (by simp) (by simp) (by simp)

theorem Kept.noteStackReg {c : Config} {s : State} (h : Kept c s) (r : Reg) (v : Word) : Kept c (s.noteStackReg r v) :=
  h.of_eq (by simp) (by simp) (by simp) (by simp) (by simp) (by simp) (by simp) (by simp) (by simp) (by simp) (by simp)

theorem Kept.pc {c : Config} {s : State} (h : Kept c s) (v : Word) : Kept c { s with pc := v } :=
  h.of_eq rfl rfl rfl rfl rfl rfl rfl rfl rfl rfl rfl

theorem Kept.setPs {c : Config} {s : State} (h : Kept c s) {v : Word} (hv : v &&& 0o007000#16 = 0) :
    Kept c { s with ps := v } :=
  ⟨h.cfg, h.mem, hv, h.kpdr, h.updr, h.sr0, h.sr3, h.fec, h.run, h.bdcok, h.slu⟩

theorem Kept.setRun {c : Config} {s : State} (h : Kept c s) {r : RunState} (hr : r ≠ .powerOff) :
    Kept c { s with run := r } :=
  ⟨h.cfg, h.mem, h.ps, h.kpdr, h.updr, h.sr0, h.sr3, h.fec, hr, h.bdcok, h.slu⟩

theorem Kept.setMem {c : Config} {s : State} (h : Kept c s) {m : Memory} (hm : m.wf) : Kept c { s with mem := m } :=
  ⟨h.cfg, hm, h.ps, h.kpdr, h.updr, h.sr0, h.sr3, h.fec, h.run, h.bdcok, h.slu⟩

theorem Kept.setSlu {c : Config} {s : State} (h : Kept c s) {d : Slu} (hd : d.txReady = true ↔ d.txChar = none) :
    Kept c { s with slu := d } :=
  ⟨h.cfg, h.mem, h.ps, h.kpdr, h.updr, h.sr0, h.sr3, h.fec, h.run, h.bdcok, hd⟩

theorem Kept.setCC {c : Config} {s : State} (h : Kept c s) (x : CC) : Kept c (s.setCC x) := by
  refine h.setPs ?_
  have h1 := setCC_ps_mask s x
  have h2 : (s.setCC x).ps &&& 0o007000#16 = ((s.setCC x).ps &&& ~~~(0o17 : Word)) &&& 0o007000#16 := by
    rw [BitVec.and_assoc]; rfl
  rw [show (s.ps.extractLsb' 4 12 ++ x.bits : Word) = (s.setCC x).ps from rfl, h2, h1, BitVec.and_assoc]
  exact h.ps

theorem trapPs_zero (old vec : Word) : trapPs old vec &&& 0o007000#16 = 0 := by
  refine or_zero (masked_zero (by decide)) ?_
  refine and_eq_zero_iff.mpr fun i hi => ?_
  rcases Nat.lt_or_ge i 12 with h | h
  · simp only [BitVec.getLsbD_ushiftRight, BitVec.getLsbD_and]
    have : (0o140000#16).getLsbD (2 + i) = false := by
      have h' : 2 + i < 14 := by omega
      revert h'; generalize 2 + i = j; intro h'
      rcases Nat.lt_or_ge j 16 with hj | hj
      · have : ∀ j : Fin 14, (0o140000#16).getLsbD j.val = false := by decide
        exact this ⟨j, h'⟩
      · omega
    simp [this]
  · exfalso
    have : ∀ j, 12 ≤ j → (0o007000#16).getLsbD j = false := by
      intro j hj
      simp only [BitVec.getLsbD, BitVec.toNat_ofNat]
      exact Nat.testBit_lt_two_pow (Nat.lt_of_lt_of_le (by decide) (Nat.pow_le_pow_right (by decide) hj))
    rw [this i h] at hi; cases hi

/-! ## References -/

theorem vec_set_all {p : Vector Word 8} {m : Word} (hp : ∀ i : Fin 8, p[i] &&& m = 0) (j : Fin 8) {v : Word}
    (hv : v &&& m = 0) (i : Fin 8) : (p.set j v)[i] &&& m = 0 := by
  simp only [Fin.getElem_fin, Vector.getElem_set]
  split
  · exact hv
  · exact hp i

theorem Kept.noteWrite {c : Config} {s : State} (h : Kept c s) (u : Bool) (i : Fin 8) (k : Access) :
    Kept c (noteWrite u i k s) := by
  cases k
  · exact h
  · cases u
    · exact ⟨h.cfg, h.mem, h.ps, vec_set_all h.kpdr i (or_zero (h.kpdr i) (by decide)), h.updr, h.sr0, h.sr3, h.fec, h.run,
        h.bdcok, h.slu⟩
    · exact ⟨h.cfg, h.mem, h.ps, h.kpdr, vec_set_all h.updr i (or_zero (h.updr i) (by decide)), h.sr0, h.sr3, h.fec, h.run,
        h.bdcok, h.slu⟩

theorem flags_zero (a b d : Bool) :
    ((BitVec.ofBool a ++ BitVec.ofBool b ++ BitVec.ofBool d ++ (0 : BitVec 13) : Word)) &&& 0o017620#16 = 0 := by
  cases a <;> cases b <;> cases d <;> decide

theorem track_zero (m : BitVec 2) (p : BitVec 3) :
    (((0 : BitVec 9) ++ m ++ (0 : BitVec 1) ++ p ++ (0 : BitVec 1) : Word)) &&& 0o017620#16 = 0 := by
  have : ∀ m : BitVec 2, ∀ p : BitVec 3,
      (((0 : BitVec 9) ++ m ++ (0 : BitVec 1) ++ p ++ (0 : BitVec 1) : Word)) &&& 0o017620#16 = 0 := by decide
  exact this m p

theorem Kept.recordAbort {c : Config} {s : State} (h : Kept c s) (m : BitVec 2) (va : Word) (nr pl ro : Bool) :
    Kept c (recordAbort m va nr pl ro s) := by
  refine ⟨h.cfg, h.mem, h.ps, h.kpdr, h.updr, or_zero ?_ (flags_zero nr pl ro), h.sr3, h.fec, h.run, h.bdcok, h.slu⟩
  split
  · refine or_zero ?_ (track_zero _ _)
    rw [BitVec.and_assoc, BitVec.and_comm (0o177621#16), ← BitVec.and_assoc, h.sr0]; simp
  · exact h.sr0

theorem translate_kept {c : Config} {s : State} (h : Kept c s) (m : BitVec 2) (va : Word) (k : Access) :
    (translate m va k s).Sat (Kept c) := by
  have key : ∀ u, (translateIn u m va k s).Sat (Kept c) := by
    intro u
    unfold translateIn
    dsimp only
    split
    · exact h.recordAbort _ _ _ _ _
    · exact h.noteWrite _ _ _
  unfold translate
  split
  · split
    · exact key _
    · exact key _
    · exact h.recordAbort _ _ _ _ _
    · trivial
  · exact h

theorem sluRead_tx (r : SluReg) (d : Slu) : (sluRead r d).2.txReady = d.txReady ∧ (sluRead r d).2.txChar = d.txChar := by
  cases r <;> exact ⟨rfl, rfl⟩

theorem sluWriteLow_tx (r : SluReg) (v : Byte) {d : Slu} (h : d.txReady = true ↔ d.txChar = none) :
    (sluWriteLow r v d).txReady = true ↔ (sluWriteLow r v d).txChar = none := by
  cases r
  · exact h
  · exact h
  · exact h
  · simp [sluWriteLow]

theorem slaveRead_kept {c : Config} {s : State} (h : Kept c s) (a : PAddr) : (slaveRead a s).Sat (Kept c) := by
  unfold slaveRead
  split
  · exact h
  · split
    · trivial
    · have e := sluRead_tx (sluRegAt (wordAddr a)) s.slu
      exact h.setSlu (d := (sluRead (sluRegAt (wordAddr a)) s.slu).2) (by rw [e.1, e.2]; exact h.slu)
    · split <;> exact h

theorem slaveWrite_kept {c : Config} {s : State} (h : Kept c s) (a : PAddr) (v : Word) :
    (slaveWrite a v s).Sat (Kept c) := by
  unfold slaveWrite
  split
  · exact h
  · split
    · trivial
    · exact h.setSlu (sluWriteLow_tx _ _ h.slu)
    · split <;> exact h
    · exact h.setMem (Memory.wf_writeWord h.mem a v)

theorem slaveWriteByte_kept {c : Config} {s : State} (h : Kept c s) (a : PAddr) (v : Byte) :
    (slaveWriteByte a v s).Sat (Kept c) := by
  unfold slaveWriteByte
  split
  · exact h
  · split
    · trivial
    · split
      · exact h
      · exact h.setSlu (sluWriteLow_tx _ _ h.slu)
    · split <;> exact h
    · exact h.setMem (Memory.wf_write h.mem a.isLt)

theorem writeIntReg_kept {c : Config} {s : State} (h : Kept c s) (r : IntReg) (v : Word) : Kept c (writeIntReg r v s) := by
  cases r with
  | ps => exact h.setPs (or_zero (masked_zero (by decide)) (masked_zero (by decide)))
  | sr0 =>
    exact ⟨h.cfg, h.mem, h.ps, h.kpdr, h.updr, or_zero (masked_zero (by decide)) (masked_zero (by decide)), h.sr3, h.fec,
      h.run, h.bdcok, h.slu⟩
  | sr1 => exact h
  | sr2 => exact h
  | sr3 => exact ⟨h.cfg, h.mem, h.ps, h.kpdr, h.updr, h.sr0, masked_zero (by decide), h.fec, h.run, h.bdcok, h.slu⟩
  | kpdr i =>
    exact ⟨h.cfg, h.mem, h.ps, vec_set_all h.kpdr i (masked_zero (by decide)), h.updr, h.sr0, h.sr3, h.fec, h.run,
      h.bdcok, h.slu⟩
  | kpar i =>
    refine ⟨h.cfg, h.mem, h.ps, vec_set_all h.kpdr i ?_, h.updr, h.sr0, h.sr3, h.fec, h.run, h.bdcok, h.slu⟩
    have := h.kpdr i
    unfold clearW; rw [BitVec.and_assoc, BitVec.and_comm (0o177677#16), ← BitVec.and_assoc, this]; simp
  | updr i =>
    exact ⟨h.cfg, h.mem, h.ps, h.kpdr, vec_set_all h.updr i (masked_zero (by decide)), h.sr0, h.sr3, h.fec, h.run,
      h.bdcok, h.slu⟩
  | upar i =>
    refine ⟨h.cfg, h.mem, h.ps, h.kpdr, vec_set_all h.updr i ?_, h.sr0, h.sr3, h.fec, h.run, h.bdcok, h.slu⟩
    have := h.updr i
    unfold clearW; rw [BitVec.and_assoc, BitVec.and_comm (0o177677#16), ← BitVec.and_assoc, this]; simp

theorem dmaReply_kept {c : Config} {s : State} (h : Kept c s) {α : Type} {x : Res α} (a : PAddr) (hx : x.Sat (Kept c)) :
    (dmaReply a x s).Sat (Kept c) := by
  unfold dmaReply; split
  · exact h
  · exact hx

theorem dma_kept {c : Config} {s : State} (h : Kept c s) {α : Type} {x : Res α} (hx : x.Sat (Kept c)) :
    (dma x s).Sat (Kept c) := by
  cases x with
  | ok a u => exact hx
  | trap e u => exact h
  | fault e => trivial
  | refused r => trivial

/-- The other agents keep what the processor keeps. -/
theorem busAction_kept {c : Config} {s : State} (h : Kept c s) (e : BusInput) : (busAction e s).Sat (Kept c) := by
  cases e with
  | typed k => exact h.setSlu (d := { s.slu with rxChar := k, rxDone := true }) h.slu
  | sent =>
    show Kept c (transmitted s)
    unfold transmitted; split
    · exact h
    · exact h.setSlu (by simp)
  | parity a b => exact h.of_eq rfl rfl rfl rfl rfl rfl rfl rfl rfl rfl rfl
  | dmaRead a => exact dma_kept h (dmaReply_kept h a (slaveRead_kept h a))
  | dmaWrite a v => exact dma_kept h (dmaReply_kept h a (slaveWrite_kept h a v))
  | dmaWriteByte a v => exact dma_kept h (dmaReply_kept h a (slaveWriteByte_kept h a v))

theorem busActions_kept {c : Config} (es : List BusInput) :
    ∀ {s : State} (_ : Kept c s), (busActions es s).Sat (Kept c) := by
  induction es with
  | nil => exact fun h => h
  | cons e es ih => exact fun h => (busAction_kept h e).bind fun _ _ h => ih h

theorem startCycle_kept {c : Config} {s : State} (h : Kept c s) (a : PAddr) : (startCycle a s).Sat (Kept c) := by
  unfold startCycle; split
  · exact h
  · unfold busTurn; split
    · exact h
    · exact busActions_kept _ (h.of_eq rfl rfl rfl rfl rfl rfl rfl rfl rfl rfl rfl)

theorem cycleRead_kept {c : Config} {s : State} (h : Kept c s) (a : PAddr) : (cycleRead a s).Sat (Kept c) := by
  unfold cycleRead; split
  · exact h
  · exact slaveRead_kept h a

theorem cycleWrite_kept {c : Config} {s : State} (h : Kept c s) (a : PAddr) (v : Word) :
    (cycleWrite a v s).Sat (Kept c) := by
  unfold cycleWrite; split
  · exact writeIntReg_kept h _ _
  · exact slaveWrite_kept h a v

theorem cycleWriteByte_kept {c : Config} {s : State} (h : Kept c s) (a : PAddr) (v : Byte) :
    (cycleWriteByte a v s).Sat (Kept c) := by
  unfold cycleWriteByte; split
  · exact writeIntReg_kept h _ _
  · exact slaveWriteByte_kept h a v

theorem physRead_kept {c : Config} {s : State} (h : Kept c s) (a : PAddr) : (physRead a s).Sat (Kept c) :=
  (startCycle_kept h a).bind fun _ _ h => cycleRead_kept h a

theorem physReadByte_kept {c : Config} {s : State} (h : Kept c s) (a : PAddr) : (physReadByte a s).Sat (Kept c) :=
  (physRead_kept h a).bind fun _ _ h => h

theorem physWrite_kept {c : Config} {s : State} (h : Kept c s) (a : PAddr) (v : Word) :
    (physWrite a v s).Sat (Kept c) :=
  (startCycle_kept h a).bind fun _ _ h => cycleWrite_kept h a v

theorem physWriteByte_kept {c : Config} {s : State} (h : Kept c s) (a : PAddr) (v : Byte) :
    (physWriteByte a v s).Sat (Kept c) :=
  (startCycle_kept h a).bind fun _ _ h => cycleWriteByte_kept h a v

theorem readWordMode_kept {c : Config} {s : State} (h : Kept c s) (m : BitVec 2) (va : Word) :
    (readWordMode m va s).Sat (Kept c) :=
  (translate_kept h m va .read).bind fun a _ h => physRead_kept h a

theorem writeWordMode_kept {c : Config} {s : State} (h : Kept c s) (m : BitVec 2) (va v : Word) :
    (writeWordMode m va v s).Sat (Kept c) :=
  (translate_kept h m va .write).bind fun a _ h => physWrite_kept h a v

theorem fetchWord_kept {c : Config} {s : State} (h : Kept c s) : (fetchWord s).Sat (Kept c) :=
  readWordMode_kept (h.pc _) _ _

/-! ## The stack and exceptions -/

theorem push_kept {c : Config} {s : State} (h : Kept c s) (v : Word) : (push v s).Sat (Kept c) :=
  writeWordMode_kept ((h.setReg _ _).noteStack _) _ _ _

theorem pop_kept {c : Config} {s : State} (h : Kept c s) : (pop s).Sat (Kept c) :=
  readWordMode_kept (h.setReg _ _) _ _

theorem keepMark_kept {c : Config} {x : Res Unit} (h : x.Sat (Kept c)) (b : Bool) : (keepMark b x).Sat (Kept c) := by
  cases x with
  | ok a s => exact Kept.of_eq (s := s) h rfl rfl rfl rfl rfl rfl rfl rfl rfl rfl rfl
  | trap e s => exact Kept.of_eq (s := s) h rfl rfl rfl rfl rfl rfl rfl rfl rfl rfl rfl
  | fault e => trivial
  | refused r => trivial

theorem pushTrap_kept {c : Config} {s : State} (h : Kept c s) (t : Trap) (v : Word) : (pushTrap t v s).Sat (Kept c) := by
  cases t <;> first | exact keepMark_kept (push_kept h v) _ | exact push_kept h v

theorem enterTrap_kept {c : Config} (t : Trap) (s : State) (h : Kept c s) : outcomeSat (Kept c) (enterTrap t s) := by
  have h1 : (readVector t.vector s).Sat (Kept c) :=
    (readWordMode_kept h _ _).bind fun _ _ h => (readWordMode_kept h _ _).bind fun _ _ h => h
  unfold enterTrap
  split
  · next u s' e => rw [e] at h1; exact Kept.setRun h1 nofun
  · trivial
  · trivial
  · next nps npc s' e =>
    rw [e] at h1
    have h2 : (pushFrame t s'.ps npc { s' with ps := trapPs s'.ps nps }).Sat (Kept c) :=
      (pushTrap_kept (Kept.setPs h1 (trapPs_zero _ _)) _ _).bind fun _ _ h =>
        (pushTrap_kept h _ _).bind fun _ _ h => h.pc _
    split
    · next u s'' e2 =>
      rw [e2] at h2
      unfold nestedPush; split
      · exact Kept.setRun (Kept.setReg h2 _ _) nofun
      · exact Kept.setRun (Kept.setReg h2 _ _) nofun
      · exact Kept.setRun h2 nofun
    · trivial
    · trivial
    · next s'' e2 => rw [e2] at h2; exact Kept.setRun h2 nofun

theorem startTrap_kept {c : Config} (t : Trap) (s : State) (h : Kept c s) : outcomeSat (Kept c) (startTrap t s) := by
  have k := enterTrap_kept t s h
  unfold startTrap
  cases e : enterTrap t s with
  | next u =>
    rw [e] at k
    dsimp only
    split
    · exact Kept.setRun k nofun
    · exact k
  | fault _ => trivial
  | refused _ => trivial

theorem finish_kept {c : Config} {x : Res Unit} (h : x.Sat (Kept c)) : outcomeSat (Kept c) (finish x) :=
  outcomeSat.finish h fun t s => enterTrap_kept t s

/-! ## Operands -/

theorem locate_kept {c : Config} {s : State} (h : Kept c s) (n : Nat) (o : Operand) : (locate n o s).Sat (Kept c) := by
  obtain ⟨m, r⟩ := o
  cases m <;> simp only [locate]
  · exact h
  · exact h
  · exact h.setReg _ _
  · exact (readWordMode_kept (h.setReg _ _) _ _).bind fun _ _ h => h
  · exact (h.setReg _ _).noteStackReg _ _
  · exact (readWordMode_kept ((h.setReg _ _).noteStackReg _ _) _ _).bind fun _ _ h => h
  · exact (fetchWord_kept h).bind fun _ _ h => h
  · exact (fetchWord_kept h).bind fun _ _ h => (readWordMode_kept h _ _).bind fun _ _ h => h

theorem placeOf_kept {c : Config} {s : State} (h : Kept c s) (k : Access) (l : Loc) : (placeOf k l s).Sat (Kept c) := by
  cases l with
  | reg r => exact h
  | mem va => exact (translate_kept h _ _ _).bind fun _ _ h => h

theorem readPlace_kept {c : Config} {s : State} (h : Kept c s) (p : Place) : (readPlace p s).Sat (Kept c) := by
  cases p with
  | reg r => exact h
  | phys a => exact physRead_kept h a

theorem readPlaceByte_kept {c : Config} {s : State} (h : Kept c s) (p : Place) : (readPlaceByte p s).Sat (Kept c) := by
  cases p with
  | reg r => exact h
  | phys a => exact physReadByte_kept h a

theorem writePlace_kept {c : Config} {s : State} (h : Kept c s) (p : Place) (v : Word) :
    (writePlace p v s).Sat (Kept c) := by
  cases p with
  | reg r => exact h.setReg _ _
  | phys a => exact physWrite_kept h a v

theorem writePlaceByte_kept {c : Config} {s : State} (h : Kept c s) (p : Place) (v : Byte) :
    (writePlaceByte p v s).Sat (Kept c) := by
  cases p with
  | reg r => exact h.setReg _ _
  | phys a => exact physWriteByte_kept h a v

theorem rewritePlace_kept {c : Config} {s : State} (h : Kept c s) (p : Place) (v : Word) :
    (rewritePlace p v s).Sat (Kept c) := by
  cases p with
  | reg r => exact h.setReg _ _
  | phys a => exact cycleWrite_kept h a v

theorem rewritePlaceByte_kept {c : Config} {s : State} (h : Kept c s) (p : Place) (v : Byte) :
    (rewritePlaceByte p v s).Sat (Kept c) := by
  cases p with
  | reg r => exact h.setReg _ _
  | phys a => exact cycleWriteByte_kept h a v

theorem writePlaceByteExt_kept {c : Config} {s : State} (h : Kept c s) (p : Place) (v : Byte) :
    (writePlaceByteExt p v s).Sat (Kept c) := by
  cases p with
  | reg r => exact h.setReg _ _
  | phys a => exact physWriteByte_kept h a v

theorem loadWord_kept {c : Config} {s : State} (h : Kept c s) (o : Operand) : (loadWord o s).Sat (Kept c) :=
  (locate_kept h _ _).bind fun l _ h => (placeOf_kept h _ l).bind fun p _ h => readPlace_kept h p

theorem loadByte_kept {c : Config} {s : State} (h : Kept c s) (o : Operand) : (loadByte o s).Sat (Kept c) :=
  (locate_kept h _ _).bind fun l _ h => (placeOf_kept h _ l).bind fun p _ h => readPlaceByte_kept h p

theorem storeAt_kept {c : Config} {s : State} (h : Kept c s) (v : Word) (l : Loc) : (storeAt v l s).Sat (Kept c) :=
  (placeOf_kept h _ l).bind fun p _ h => writePlace_kept h p v

theorem storeByteAt_kept {c : Config} {s : State} (h : Kept c s) (v : Byte) (l : Loc) : (storeByteAt v l s).Sat (Kept c) :=
  (placeOf_kept h _ l).bind fun p _ h => writePlaceByte_kept h p v

theorem storeByteExtAt_kept {c : Config} {s : State} (h : Kept c s) (v : Byte) (l : Loc) :
    (storeByteExtAt v l s).Sat (Kept c) :=
  (placeOf_kept h _ l).bind fun p _ h => writePlaceByteExt_kept h p v

theorem commit_kept {c : Config} {s : State} (h : Kept c s) (cc : CC) {f : State → Res Unit}
    (hf : ∀ s, Kept c s → (f s).Sat (Kept c)) : (commit cc f s).Sat (Kept c) := by
  unfold commit
  split
  · exact hf _ h
  · exact hf _ (h.setCC cc)

/-! ## Floating operands -/

theorem Kept.setAc {c : Config} {s : State} (h : Kept c s) (v : Vector Acc 6) (n : Nat) :
    Kept c { s with ac := v, free := n } :=
  h.of_eq rfl rfl rfl rfl rfl rfl rfl rfl rfl rfl rfl

theorem Kept.setFCC {c : Config} {s : State} (h : Kept c s) (x : CC) : Kept c (s.setFCC x) :=
  h.of_eq rfl rfl rfl rfl rfl rfl rfl rfl rfl rfl rfl

theorem Kept.recordFp {c : Config} {s : State} (h : Kept c s) {code : BitVec 4} (hc : code ∈ fecValues) (a : Word) :
    Kept c (recordFp code a s) :=
  ⟨h.cfg, h.mem, h.ps, h.kpdr, h.updr, h.sr0, h.sr3, hc, h.run, h.bdcok, h.slu⟩

theorem fpException_kept {c : Config} {s : State} (h : Kept c s) {code : BitVec 4} (hc : code ∈ fecValues) (a : Word) :
    (fpException code a s).Sat (Kept c) := by
  unfold fpException; split <;> exact h.recordFp hc a

theorem fpEnd_kept {c : Config} {s : State} (h : Kept c s) {code : Option (BitVec 4)}
    (hc : ∀ k, code = some k → k ∈ fecValues) (a : Word) : (fpEnd code a s).Sat (Kept c) := by
  cases code with
  | none => exact h
  | some k => exact fpException_kept h (hc k rfl) a

theorem writeAcc_kept {c : Config} {s : State} (h : Kept c s) (dbl : Bool) (i : Fin 6) (x : Datum) :
    (writeAcc dbl i x s).Sat (Kept c) := by
  unfold writeAcc; split <;> exact h.of_eq rfl rfl rfl rfl rfl rfl rfl rfl rfl rfl rfl

theorem readWords_kept {c : Config} (n : Nat) : ∀ {s : State} (_ : Kept c s) (va : Word), (readWords n va s).Sat (Kept c) := by
  induction n with
  | zero => exact fun h _ => h
  | succ n ih => exact fun h _ => (readWordMode_kept h _ _).bind fun _ _ h => (ih h _).bind fun _ _ h => h

theorem writeWords_kept {c : Config} (ws : List Word) :
    ∀ {s : State} (_ : Kept c s) (va : Word), (writeWords ws va s).Sat (Kept c) := by
  induction ws with
  | nil => exact fun h _ => h
  | cons w ws ih => exact fun h _ => (writeWordMode_kept h _ _ _).bind fun _ _ h => ih h _

theorem readFp_kept {c : Config} {s : State} (h : Kept c s) (dbl : Bool) (p : FpPlace) : (readFp dbl p s).Sat (Kept c) := by
  cases p with
  | acc i => exact h
  | mem va imm => exact (readWords_kept _ h _).bind fun _ _ h => h

theorem writeFp_kept {c : Config} {s : State} (h : Kept c s) (dbl : Bool) (p : FpPlace) (x : Datum) :
    (writeFp dbl p x s).Sat (Kept c) := by
  cases p with
  | acc i => exact writeAcc_kept h dbl i x
  | mem va imm => exact writeWords_kept _ h _

theorem withFpp_kept {c : Config} {s : State} (h : Kept c s) {f : State → Res Unit} (hf : (f s).Sat (Kept c)) :
    (withFpp f s).Sat (Kept c) := by
  unfold withFpp; split
  · exact hf
  · exact h

theorem fpOperand_kept {c : Config} {s : State} (h : Kept c s) (dbl : Bool) (o : Operand) (a : Word)
    {body : FpPlace → State → Res Unit} (hb : ∀ p s, Kept c s → (body p s).Sat (Kept c)) :
    (fpOperand dbl o a body s).Sat (Kept c) := by
  unfold fpOperand
  split
  · split
    · exact fpException_kept h (by decide) a
    · exact hb _ _ h
  · refine Res.Sat.bind (Res.Sat.bind (locate_kept h _ _) fun l s h => ?_) fun va s h => hb _ _ h
    cases l <;> exact h

theorem storeWords_kept {c : Config} {s : State} (h : Kept c s) (ws : List Word) (l : Loc) :
    (storeWords ws l s).Sat (Kept c) := by
  cases l with
  | reg r => exact h.setReg _ _
  | mem va => exact writeWords_kept _ h _

theorem fpSource_kept {c : Config} {s : State} (h : Kept c s) (o : Operand) {body : Datum → State → Res Unit}
    (hb : ∀ x s, Kept c s → (body x s).Sat (Kept c)) : (fpSource o body s).Sat (Kept c) :=
  withFpp_kept h (fpOperand_kept h _ _ _ fun p s h => (readFp_kept h _ p).bind fun x s h => by
    split
    · exact fpException_kept h (by decide) _
    · exact hb x s h)

/-- The exceptions of a result are overflow and underflow. -/
theorem resultOf_code (L : Nat) (chop fiv fiu : Bool) (x : Exact) (k : BitVec 4)
    (h : (resultOf L chop fiv fiu x).2.2 = some k) : k ∈ fecValues := by
  unfold resultOf at h
  split at h
  · cases h
  · dsimp only at h
    split at h
    · split at h <;> cases h; decide
    · split at h
      · split at h <;> cases h; decide
      · cases h

theorem fpResult_kept {c : Config} {s : State} (h : Kept c s) (i : Fin 6) (x : Exact) (a : Word) :
    (fpResult i x a s).Sat (Kept c) :=
  (writeAcc_kept h _ _ _).bind fun _ _ h => fpEnd_kept (h.setFCC _) (fun k e => resultOf_code _ _ _ _ _ k e) a

end Sys2Proof.Machine
end

