-- ==== Sys2Proof/Tests/Slice0.lean ====
section
/-! SUPPORT. Tests. The first part checks WellFormed and the decoder; the second runs one instruction each, and its expected
results are copied from the rules' worked examples and from the tables of spec/95_test_vectors.md named before them; the
third shows, for each statement with hypotheses, a concrete state and operands that meet them all. -/

namespace Sys2Proof.Machine.Tests

open Sys2Proof Sys2Proof.Machine

/-! ## WellFormed: each check refuses a word outside its row's range, and takes the range's two ends -/

theorem smoke_reserved000010 : (Instr.reserved000010 0o7).wellFormed = false ∧ (Instr.reserved000010 0o100).wellFormed = false ∧
    (Instr.reserved000010 0o10).wellFormed = true ∧ (Instr.reserved000010 0o77).wellFormed = true := by decide

theorem smoke_reserved000210 : (Instr.reserved000210 0o207).wellFormed = false ∧ (Instr.reserved000210 0o240).wellFormed = false ∧
    (Instr.reserved000210 0o210).wellFormed = true ∧ (Instr.reserved000210 0o237).wellFormed = true := by decide

theorem smoke_reserved007000 : (Instr.reserved007000 0o6777).wellFormed = false ∧ (Instr.reserved007000 0o10000).wellFormed = false ∧
    (Instr.reserved007000 0o7000).wellFormed = true ∧ (Instr.reserved007000 0o7777).wellFormed = true := by decide

theorem smoke_reserved075000 : (Instr.reserved075000 0o74777).wellFormed = false ∧ (Instr.reserved075000 0o77000).wellFormed = false ∧
    (Instr.reserved075000 0o75000).wellFormed = true ∧ (Instr.reserved075000 0o76777).wellFormed = true := by decide

theorem smoke_reserved107000 : (Instr.reserved107000 0o106777).wellFormed = false ∧ (Instr.reserved107000 0o110000).wellFormed = false ∧
    (Instr.reserved107000 0o107000).wellFormed = true ∧ (Instr.reserved107000 0o107777).wellFormed = true := by decide

theorem smoke_unassigned170003 : (Instr.unassigned170003 0o170002).wellFormed = false ∧
    (Instr.unassigned170003 0o170011).wellFormed = false ∧
    (Instr.unassigned170003 0o170003).wellFormed = true ∧ (Instr.unassigned170003 0o170010).wellFormed = true := by decide

theorem smoke_unassigned170013 : (Instr.unassigned170013 0o170012).wellFormed = false ∧
    (Instr.unassigned170013 0o170100).wellFormed = false ∧
    (Instr.unassigned170013 0o170013).wellFormed = true ∧ (Instr.unassigned170013 0o170077).wellFormed = true := by decide

/-- Mode 3 on register 5. -/
abbrev d35 : Operand := ⟨.autoIncDef, .r5⟩

/-- Mode 6 on register 2. -/
abbrev s62 : Operand := ⟨.index, .r2⟩

/-! ## Decoding: a word of every constructor, written from the encoding column of spec/opcode_table.json -/

theorem decode_control : ∀ p ∈ ([
    (0o000000, .halt), (0o000001, .wait), (0o000002, .rti), (0o000003, .bpt), (0o000004, .iot), (0o000005,
    .reset), (0o000006, .rtt), (0o000007, .mfpt)] : List (Word × Instr)),
    decodeWord p.1 = p.2 := by decide

theorem decode_single : ∀ p ∈ ([
    (0o000135, .jmp d35), (0o000335, .swab d35), (0o005035, .clr d35), (0o005135, .com d35), (0o005235, .inc
    d35), (0o005335, .dec d35), (0o005435, .neg d35), (0o005535, .adc d35), (0o005635, .sbc d35), (0o005735,
    .tst d35), (0o006035, .ror d35), (0o006135, .rol d35), (0o006235, .asr d35), (0o006335, .asl d35),
    (0o105035, .clrb d35), (0o105135, .comb d35), (0o105235, .incb d35), (0o105335, .decb d35), (0o105435, .negb
    d35), (0o105535, .adcb d35), (0o105635, .sbcb d35), (0o105735, .tstb d35), (0o106035, .rorb d35), (0o106135,
    .rolb d35), (0o106235, .asrb d35), (0o106335, .aslb d35), (0o006535, .mfpi d35), (0o006635, .mtpi d35),
    (0o006735, .sxt d35), (0o106435, .mtps d35), (0o106535, .mfpd d35), (0o106635, .mtpd d35), (0o106735, .mfps
    d35)] : List (Word × Instr)),
    decodeWord p.1 = p.2 := by decide

theorem decode_register : ∀ p ∈ ([
    (0o000205, .rts .r5), (0o004435, .jsr .r4 d35), (0o006435, .mark 0o35), (0o070435, .mul .r4 d35), (0o071435,
    .div .r4 d35), (0o072435, .ash .r4 d35), (0o073435, .ashc .r4 d35), (0o074435, .xor .r4 d35), (0o077435,
    .sob .r4 0o35)] : List (Word × Instr)),
    decodeWord p.1 = p.2 := by decide

theorem decode_condition : ∀ p ∈ ([
    (0o000240, .nop), (0o000241, .clc), (0o000242, .clv), (0o000244, .clz), (0o000250, .cln), (0o000257, .ccc),
    (0o000261, .sec), (0o000262, .sev), (0o000264, .sez), (0o000270, .sen), (0o000277, .scc), (0o000266, .ccop
    true false true true false)] : List (Word × Instr)),
    decodeWord p.1 = p.2 := by decide

theorem decode_branch : ∀ p ∈ ([
    (0o000775, .br 0o375), (0o001375, .bne 0o375), (0o001775, .beq 0o375), (0o002375, .bge 0o375), (0o002775,
    .blt 0o375), (0o003375, .bgt 0o375), (0o003775, .ble 0o375), (0o100375, .bpl 0o375), (0o100775, .bmi 0o375),
    (0o101375, .bhi 0o375), (0o101775, .blos 0o375), (0o102375, .bvc 0o375), (0o102775, .bvs 0o375), (0o103375,
    .bcc 0o375), (0o103775, .bcs 0o375), (0o104123, .emt 0o123), (0o104523, .trap 0o123)] : List (Word × Instr)),
    decodeWord p.1 = p.2 := by decide

theorem decode_double : ∀ p ∈ ([
    (0o016235, .mov s62 d35), (0o026235, .cmp s62 d35), (0o036235, .bit s62 d35), (0o046235, .bic s62 d35),
    (0o056235, .bis s62 d35), (0o066235, .add s62 d35), (0o116235, .movb s62 d35), (0o126235, .cmpb s62 d35),
    (0o136235, .bitb s62 d35), (0o146235, .bicb s62 d35), (0o156235, .bisb s62 d35), (0o166235, .sub s62 d35)] : List (Word × Instr)),
    decodeWord p.1 = p.2 := by decide

theorem decode_float0 : ∀ p ∈ ([
    (0o170000, false, false, .cfcc), (0o170001, false, false, .setf), (0o170002, false, false, .seti),
    (0o170011, false, false, .setd), (0o170012, false, false, .setl)] : List (Word × Bool × Bool × Instr)),
    (decodeWord p.1).underModes p.2.1 p.2.2.1 = p.2.2.2 := by decide

theorem decode_float1 : ∀ p ∈ ([
    (0o170135, false, false, .ldfps d35), (0o170235, false, false, .stfps d35), (0o170335, false, false, .stst
    d35), (0o170435, false, false, .clrf d35), (0o170435, true, false, .clrd d35), (0o170535, false, false,
    .tstf d35), (0o170535, true, false, .tstd d35), (0o170635, false, false, .absf d35), (0o170635, true, false,
    .absd d35), (0o170735, false, false, .negf d35), (0o170735, true, false, .negd d35)] : List (Word × Bool × Bool × Instr)),
    (decodeWord p.1).underModes p.2.1 p.2.2.1 = p.2.2.2 := by decide

theorem decode_float2 : ∀ p ∈ ([
    (0o171235, false, false, .mulf .ac2 d35), (0o171235, true, false, .muld .ac2 d35), (0o171635, false, false,
    .modf .ac2 d35), (0o171635, true, false, .modd .ac2 d35), (0o172235, false, false, .addf .ac2 d35),
    (0o172235, true, false, .addd .ac2 d35), (0o172635, false, false, .ldf .ac2 d35), (0o172635, true, false,
    .ldd .ac2 d35), (0o173235, false, false, .subf .ac2 d35), (0o173235, true, false, .subd .ac2 d35),
    (0o173635, false, false, .cmpf .ac2 d35), (0o173635, true, false, .cmpd .ac2 d35), (0o174235, false, false,
    .stf .ac2 d35), (0o174235, true, false, .std .ac2 d35), (0o174635, false, false, .divf .ac2 d35), (0o174635,
    true, false, .divd .ac2 d35), (0o175235, false, false, .stexp .ac2 d35), (0o175635, false, false, .stcfi
    .ac2 d35), (0o175635, false, true, .stcfl .ac2 d35), (0o175635, true, false, .stcdi .ac2 d35), (0o175635,
    true, true, .stcdl .ac2 d35), (0o176235, false, false, .stcfd .ac2 d35), (0o176235, true, false, .stcdf .ac2
    d35), (0o176635, false, false, .ldexp .ac2 d35), (0o177235, false, false, .ldcif .ac2 d35), (0o177235,
    false, true, .ldclf .ac2 d35), (0o177235, true, false, .ldcid .ac2 d35), (0o177235, true, true, .ldcld .ac2
    d35), (0o177635, false, false, .ldcdf .ac2 d35), (0o177635, true, false, .ldcfd .ac2 d35)] : List (Word × Bool × Bool × Instr)),
    (decodeWord p.1).underModes p.2.1 p.2.2.1 = p.2.2.2 := by decide

theorem decode_reserved : ∀ p ∈ ([
    (0o000010, .reserved000010 0o000010), (0o000077, .reserved000010 0o000077), (0o000210, .reserved000210
    0o000210), (0o000237, .reserved000210 0o000237), (0o007000, .reserved007000 0o007000), (0o007777,
    .reserved007000 0o007777), (0o075000, .reserved075000 0o075000), (0o076777, .reserved075000 0o076777),
    (0o107000, .reserved107000 0o107000), (0o107777, .reserved107000 0o107777), (0o170003, .unassigned170003
    0o170003), (0o170010, .unassigned170003 0o170010), (0o170013, .unassigned170013 0o170013), (0o170077,
    .unassigned170013 0o170077)] : List (Word × Instr)),
    decodeWord p.1 = p.2 := by decide

/-- The second spellings of BCC and BCS (R187) have the words that decode to those. -/
theorem decode_bhis_blo : encode (.bhis 0o375) = 0o103375 ∧ decodeWord 0o103375 = .bcc 0o375 ∧
    encode (.blo 0o375) = 0o103775 ∧ decodeWord 0o103775 = .bcs 0o375 := by decide

/-! ## One instruction -/

/-- The default configuration with the floating point option. -/
def fullConfig : Config := { resetConfig with hasFpp := true }

/-- The start state of spec/95_test_vectors.md: kernel mode, relocation off, the instruction under test at 001000; with the
floating point option. -/
def start : State := { State.reset with cfg := fullConfig, run := .run, pc := 0o1000 }

/-- Words in memory, by physical address. -/
def holding (l : List (Nat × Word)) (s : State) : State :=
  { s with mem := l.foldl (fun m p => m.writeWord (BitVec.ofNat 18 p.1) p.2) s.mem }

/-- What an outcome's next state shows. -/
def nextOf {α : Type} (x : Host.Outcome State Fault Refusal) (f : State → α) : Option α :=
  match x with
  | .next t => some (f t)
  | _ => none

/-- The state after one step over the words of an instruction placed at R7. -/
def ran (ws : List Word) (s : State) : Option State :=
  nextOf (step (holding (ws.mapIdx fun i w => (s.pc.toNat + 2 * i, w)) s)) id

/-- An accumulator from its four words. -/
def acc (a b c d : Word) : Acc := ⟨a ++ b, c ++ d⟩

/-- A word of memory. -/
def wordOf (t : State) (a : PAddr) : Word := t.mem.readWord a

/-! ## Table V-SO -/

theorem test_clr :
    (ran [0o5024] (holding [(0o2000, 0o123456)] { start with ps := 0o13, r4 := 0o2000 })).map (fun t => (t.r4, t.ps, wordOf t 0o2000)) =
      some (0o2002, 4, 0) := by decide

theorem test_com :
    (ran [0o5100] { start with r0 := 0o13333 }).map (fun t => (t.r0, t.ps)) =
      some (0o164444, 0o11) := by decide

theorem test_com_again :
    (ran [0o5100] { start with r0 := 0o177777 }).map (fun t => (t.r0, t.ps)) =
      some (0, 5) := by decide

theorem test_inc :
    (ran [0o5200] { start with ps := 1, r0 := 0o77777 }).map (fun t => (t.r0, t.ps)) =
      some (0o100000, 0o13) := by decide

theorem test_inc_again :
    (ran [0o5200] { start with r0 := 0o177777 }).map (fun t => (t.r0, t.ps)) =
      some (0, 4) := by decide

theorem test_dec :
    (ran [0o5300] { start with ps := 1, r0 := 0o100000 }).map (fun t => (t.r0, t.ps)) =
      some (0o77777, 3) := by decide

theorem test_dec_again :
    (ran [0o5300] { start with r0 := 0 }).map (fun t => (t.r0, t.ps)) =
      some (0o177777, 0o10) := by decide

theorem test_neg :
    (ran [0o5400] { start with r0 := 0o100000 }).map (fun t => (t.r0, t.ps)) =
      some (0o100000, 0o13) := by decide

theorem test_neg_again :
    (ran [0o5400] { start with ps := 1, r0 := 0 }).map (fun t => (t.r0, t.ps)) =
      some (0, 4) := by decide

theorem test_tst :
    (ran [0o5700] { start with ps := 3, r0 := 0o100000 }).map (fun t => (t.r0, t.ps)) =
      some (0o100000, 0o10) := by decide

theorem test_tst_again :
    (ran [0o5726] (holding [(0o776, 0o100000)] { start with ps := 3, sp0 := 0o776 })).map (fun t => (t.reg .r6, t.ps)) =
      some (0o1000, 0o10) := by decide

theorem test_adc :
    (ran [0o5500] { start with ps := 1, r0 := 0o77777 }).map (fun t => (t.r0, t.ps)) =
      some (0o100000, 0o12) := by decide

theorem test_adc_again :
    (ran [0o5500] { start with r0 := 0o177777 }).map (fun t => (t.r0, t.ps)) =
      some (0o177777, 0o10) := by decide

theorem test_sbc :
    (ran [0o5600] { start with ps := 1, r0 := 0 }).map (fun t => (t.r0, t.ps)) =
      some (0o177777, 0o11) := by decide

theorem test_sbc_again :
    (ran [0o5600] { start with r0 := 0 }).map (fun t => (t.r0, t.ps)) =
      some (0, 4) := by decide

theorem test_ror :
    (ran [0o6000] { start with r0 := 1 }).map (fun t => (t.r0, t.ps)) =
      some (0, 7) := by decide

theorem test_ror_again :
    (ran [0o6000] { start with ps := 1, r0 := 0 }).map (fun t => (t.r0, t.ps)) =
      some (0o100000, 0o12) := by decide

theorem test_rol :
    (ran [0o6100] { start with r0 := 0o100000 }).map (fun t => (t.r0, t.ps)) =
      some (0, 7) := by decide

theorem test_rol_again :
    (ran [0o6100] { start with ps := 1, r0 := 0o40000 }).map (fun t => (t.r0, t.ps)) =
      some (0o100001, 0o12) := by decide

theorem test_asr :
    (ran [0o6200] { start with r0 := 0o100001 }).map (fun t => (t.r0, t.ps)) =
      some (0o140000, 0o11) := by decide

theorem test_asr_again :
    (ran [0o6200] { start with r0 := 1 }).map (fun t => (t.r0, t.ps)) =
      some (0, 7) := by decide

theorem test_asl :
    (ran [0o6300] { start with r0 := 0o40000 }).map (fun t => (t.r0, t.ps)) =
      some (0o100000, 0o12) := by decide

theorem test_asl_again :
    (ran [0o6300] { start with r0 := 0o100000 }).map (fun t => (t.r0, t.ps)) =
      some (0, 7) := by decide

theorem test_swab :
    (ran [0o300] { start with ps := 3, r0 := 0o77400 }).map (fun t => (t.r0, t.ps)) =
      some (0o177, 0) := by decide

theorem test_swab_again :
    (ran [0o300] { start with ps := 1, r0 := 0o377 }).map (fun t => (t.r0, t.ps)) =
      some (0o177400, 4) := by decide

theorem test_sxt :
    (ran [0o6700] { start with ps := 7, r0 := 0o5555 }).map (fun t => (t.r0, t.ps)) =
      some (0, 5) := by decide

theorem test_sxt_again :
    (ran [0o6701] { start with ps := 0o11, r1 := 0o123 }).map (fun t => (t.r1, t.ps)) =
      some (0o177777, 0o11) := by decide

theorem test_clrb :
    (ran [0o105024] (holding [(0o2000, 0o123456)] { start with r4 := 0o2001 })).map (fun t => (t.r4, t.ps, wordOf t 0o2000)) =
      some (0o2002, 4, 0o56) := by decide

theorem test_clrb_again :
    (ran [0o105026] (holding [(0o2000, 0o123456)] { start with sp0 := 0o2000 })).map (fun t => (t.reg .r6, wordOf t 0o2000)) =
      some (0o2002, 0o123400) := by decide

theorem test_comb :
    (ran [0o105100] { start with r0 := 0o123400 }).map (fun t => (t.r0, t.ps)) =
      some (0o123777, 0o11) := by decide

theorem test_incb :
    (ran [0o105200] { start with ps := 1, r0 := 0o377 }).map (fun t => (t.r0, t.ps)) =
      some (0, 5) := by decide

theorem test_incb_again :
    (ran [0o105237, 0o2001] (holding [(0o2000, 0o77400)] { start with ps := 1 })).map (fun t => (t.pc, t.ps, wordOf t 0o2000)) =
      some (0o1004, 0o13, 0o100000) := by decide

theorem test_decb :
    (ran [0o105301] { start with r1 := 0o200 }).map (fun t => (t.r1, t.ps)) =
      some (0o177, 2) := by decide

theorem test_decb_again :
    (ran [0o105300] { start with ps := 1, r0 := 0o1000 }).map (fun t => (t.r0, t.ps)) =
      some (0o1377, 0o11) := by decide

theorem test_negb :
    (ran [0o105400] { start with r0 := 0o200 }).map (fun t => (t.r0, t.ps)) =
      some (0o200, 0o13) := by decide

theorem test_negb_again :
    (ran [0o105400] { start with r0 := 1 }).map (fun t => (t.r0, t.ps)) =
      some (0o377, 0o11) := by decide

theorem test_tstb :
    (ran [0o105700] { start with ps := 3, r0 := 0o200 }).map (fun t => t.ps) =
      some 0o10 := by decide

theorem test_tstb_again :
    (ran [0o105700] { start with ps := 3, r0 := 0o177400 }).map (fun t => t.ps) =
      some 4 := by decide

theorem test_adcb :
    (ran [0o105500] { start with ps := 1, r0 := 0o377 }).map (fun t => (t.r0, t.ps)) =
      some (0, 5) := by decide

theorem test_adcb_again :
    (ran [0o105500] { start with ps := 1, r0 := 0o177 }).map (fun t => (t.r0, t.ps)) =
      some (0o200, 0o12) := by decide

theorem test_sbcb :
    (ran [0o105600] { start with ps := 1, r0 := 0o200 }).map (fun t => (t.r0, t.ps)) =
      some (0o177, 2) := by decide

theorem test_sbcb_again :
    (ran [0o105600] { start with ps := 1, r0 := 0o1000 }).map (fun t => (t.r0, t.ps)) =
      some (0o1377, 0o11) := by decide

theorem test_rorb :
    (ran [0o106000] { start with ps := 1, r0 := 0o401 }).map (fun t => (t.r0, t.ps)) =
      some (0o600, 0o11) := by decide

theorem test_rolb :
    (ran [0o106100] { start with ps := 1, r0 := 0o200 }).map (fun t => (t.r0, t.ps)) =
      some (1, 3) := by decide

theorem test_rolb_again :
    (ran [0o106100] { start with r0 := 0o125300 }).map (fun t => (t.r0, t.ps)) =
      some (0o125200, 0o11) := by decide

theorem test_asrb :
    (ran [0o106200] { start with r0 := 0o201 }).map (fun t => (t.r0, t.ps)) =
      some (0o300, 0o11) := by decide

theorem test_asrb_again :
    (ran [0o106200] { start with r0 := 0o377 }).map (fun t => (t.r0, t.ps)) =
      some (0o377, 0o11) := by decide

theorem test_aslb :
    (ran [0o106300] { start with r0 := 0o300 }).map (fun t => (t.r0, t.ps)) =
      some (0o200, 0o11) := by decide

theorem test_aslb_again :
    (ran [0o106300] { start with r0 := 0o177600 }).map (fun t => (t.r0, t.ps)) =
      some (0o177400, 7) := by decide

/-! ## Table V-DO -/

theorem test_mov :
    (ran [0o10001] { start with ps := 3, r0 := 0o100000 }).map (fun t => (t.r1, t.ps)) =
      some (0o100000, 0o11) := by decide

theorem test_mov_again :
    (ran [0o10040] { start with r0 := 0o2000 }).map (fun t => (t.r0, wordOf t 0o1776)) =
      some (0o1776, 0o1776) := by decide

theorem test_movb :
    (ran [0o111100] (holding [(0o2000, 0o177400)] { start with ps := 1, r0 := 0o52525, r1 := 0o2001 })).map (fun t => (t.r0, t.ps)) =
      some (0o177777, 0o11) := by decide

theorem test_add :
    (ran [0o60020] (holding [(0o2000, 1)] { start with r0 := 0o2000 })).map (fun t => (t.r0, t.ps, wordOf t 0o2000)) =
      some (0o2002, 0, 0o2003) := by decide

theorem test_add_again :
    (ran [0o60001] { start with r0 := 0o77777, r1 := 1 }).map (fun t => (t.r1, t.ps)) =
      some (0o100000, 0o12) := by decide

theorem test_sub :
    (ran [0o160001] { start with r0 := 1, r1 := 0 }).map (fun t => (t.r1, t.ps)) =
      some (0o177777, 0o11) := by decide

theorem test_sub_again :
    (ran [0o160001] { start with r0 := 0o100000, r1 := 0o77777 }).map (fun t => (t.r1, t.ps)) =
      some (0o177777, 0o13) := by decide

theorem test_cmp :
    (ran [0o20001] { start with r0 := 0o100000, r1 := 1 }).map (fun t => t.ps) =
      some 2 := by decide

theorem test_cmp_again :
    (ran [0o20001] { start with r0 := 1, r1 := 1 }).map (fun t => t.ps) =
      some 4 := by decide

theorem test_cmpb :
    (ran [0o120001] { start with r0 := 0o200, r1 := 1 }).map (fun t => t.ps) =
      some 2 := by decide

theorem test_cmpb_again :
    (ran [0o120001] { start with r0 := 0o177, r1 := 0o200 }).map (fun t => t.ps) =
      some 0o13 := by decide

theorem test_bit :
    (ran [0o30001] { start with ps := 0o13, r0 := 0o300, r1 := 0o400 }).map (fun t => t.ps) =
      some 5 := by decide

theorem test_bitb :
    (ran [0o130001] { start with ps := 3, r0 := 0o177600, r1 := 0o200 }).map (fun t => t.ps) =
      some 0o11 := by decide

theorem test_bic :
    (ran [0o40001] { start with ps := 3, r0 := 0o177400, r1 := 0o123456 }).map (fun t => (t.r1, t.ps)) =
      some (0o56, 1) := by decide

theorem test_bicb :
    (ran [0o140001] { start with r0 := 0o17, r1 := 0o123477 }).map (fun t => (t.r1, t.ps)) =
      some (0o123460, 0) := by decide

theorem test_bis :
    (ran [0o50001] { start with ps := 3, r0 := 0o100000, r1 := 1 }).map (fun t => (t.r1, t.ps)) =
      some (0o100001, 0o11) := by decide

theorem test_bisb :
    (ran [0o150001] { start with r0 := 0o200, r1 := 1 }).map (fun t => (t.r1, t.ps)) =
      some (0o201, 0o10) := by decide

theorem test_xor :
    (ran [0o74001] { start with ps := 3, r0 := 0o177777, r1 := 0o177777 }).map (fun t => (t.r1, t.ps)) =
      some (0, 5) := by decide

theorem test_xor_again :
    (ran [0o74002] { start with r0 := 0o1234, r2 := 0o1111 }).map (fun t => t.r2) =
      some 0o325 := by decide

/-! ## Table V-EIS -/

theorem test_mul :
    (ran [0o70027, 0o177776] { start with r0 := 3, r1 := 0o7777 }).map (fun t => (t.r0, t.r1, t.pc, t.ps)) =
      some (0o177777, 0o177772, 0o1004, 0o10) := by decide

theorem test_mul_again :
    (ran [0o70302] { start with r2 := 0o400, r3 := 0o400 }).map (fun t => (t.r3, t.ps)) =
      some (0, 1) := by decide

theorem test_div :
    (ran [0o71027, 3] { start with r0 := 0o177777, r1 := 0o177754 }).map (fun t => (t.r0, t.r1, t.pc, t.ps)) =
      some (0o177772, 0o177776, 0o1004, 0o10) := by decide

theorem test_div_again :
    (ran [0o71002] { start with r0 := 0o177777, r1 := 0o100000, r2 := 0o177777 }).map (fun t => t.ps) =
      some 2 := by decide

theorem test_ash :
    (ran [0o72027, 0o20] { start with r0 := 1 }).map (fun t => (t.r0, t.pc, t.ps)) =
      some (0, 0o1004, 7) := by decide

theorem test_ash_again :
    (ran [0o72027, 0o40] { start with r0 := 0o100000 }).map (fun t => (t.r0, t.pc, t.ps)) =
      some (0o177777, 0o1004, 0o11) := by decide

theorem test_ashc :
    (ran [0o73027, 0o20] { start with r0 := 0, r1 := 0o123456 }).map (fun t => (t.r0, t.r1, t.pc, t.ps)) =
      some (0o123456, 0, 0o1004, 0o12) := by decide

theorem test_ashc_again :
    (ran [0o73027, 0o40] { start with r0 := 0o100000, r1 := 0 }).map (fun t => (t.r0, t.r1, t.pc, t.ps)) =
      some (0o177777, 0o177777, 0o1004, 0o11) := by decide

/-! ## Table V-JS -/

theorem test_jmp :
    (ran [0o133] (holding [(0o2000, 0o3000)] { start with r3 := 0o2000 })).map (fun t => (t.r3, t.pc)) =
      some (0o2002, 0o3000) := by decide

theorem test_jmp_again :
    (ran [0o103] (holding [(4, 0o4000), (6, 0o340)] { start with ps := 5, sp0 := 0o1000, r3 := 0o2000 })).map (fun t => (t.reg .r6, t.pc, t.ps, wordOf t 0o776, wordOf t 0o774)) =
      some (0o774, 0o4000, 0o340, 5, 0o1002) := by decide

theorem test_jsr :
    (ran [0o4537, 0o2000] { start with pc := 0o1100, sp0 := 0o1000, r5 := 0o555 }).map (fun t => (t.r5, t.reg .r6, t.pc, wordOf t 0o776)) =
      some (0o1104, 0o776, 0o2000, 0o555) := by decide

theorem test_jsr_again :
    (ran [0o4736] (holding [(0o776, 0o2000)] { start with pc := 0o1100, sp0 := 0o776 })).map (fun t => (t.reg .r6, t.pc, wordOf t 0o776)) =
      some (0o776, 0o2000, 0o1102) := by decide

theorem test_rts :
    (ran [0o205] (holding [(0o776, 0o555)] { start with sp0 := 0o776, r5 := 0o1104 })).map (fun t => (t.r5, t.reg .r6, t.pc)) =
      some (0o555, 0o1000, 0o1104) := by decide

theorem test_rts_again :
    (ran [0o207] (holding [(0o776, 0o1104)] { start with sp0 := 0o776 })).map (fun t => (t.reg .r6, t.pc)) =
      some (0o1000, 0o1104) := by decide

theorem test_mark :
    (ran [0o6402] (holding [(0o776, 0o123)] { start with pc := 0o770, r5 := 0o2000 })).map (fun t => (t.r5, t.reg .r6, t.pc)) =
      some (0o123, 0o1000, 0o2000) := by decide

/-! ## Table V-TR -/

theorem test_emt :
    (ran [0o104077] (holding [(0o30, 0o2000), (0o32, 0o341)] { start with ps := 5, sp0 := 0o1000 })).map (fun t => (t.reg .r6, t.pc, t.ps, wordOf t 0o776, wordOf t 0o774)) =
      some (0o774, 0o2000, 0o341, 5, 0o1002) := by decide

theorem test_trap :
    (ran [0o104403] (holding [(0o34, 0o2000), (0o36, 0o340)] { start with ps := 0o140000, sp0 := 0o1000, sp3 := 0o7000 })).map (fun t => (t.sp0, t.sp3, t.pc, t.ps, wordOf t 0o776, wordOf t 0o774)) =
      some (0o774, 0o7000, 0o2000, 0o30340, 0o140000, 0o1002) := by decide

theorem test_bpt :
    (ran [3] (holding [(0o14, 0o2000), (0o16, 0o340)] { start with ps := 0o12, sp0 := 0o1000 })).map (fun t => (t.reg .r6, t.pc, t.ps, wordOf t 0o776, wordOf t 0o774)) =
      some (0o774, 0o2000, 0o340, 0o12, 0o1002) := by decide

theorem test_iot :
    (ran [4] (holding [(0o20, 0o2000), (0o22, 0o200)] { start with sp0 := 0o1000 })).map (fun t => (t.reg .r6, t.pc, t.ps, wordOf t 0o776, wordOf t 0o774)) =
      some (0o774, 0o2000, 0o200, 0, 0o1002) := by decide

theorem test_reserved000210 :
    (ran [0o210] (holding [(0o10, 0o2000), (0o12, 0o340)] { start with sp0 := 0o1000 })).map (fun t => (t.reg .r6, t.pc, t.ps, wordOf t 0o776, wordOf t 0o774)) =
      some (0o774, 0o2000, 0o340, 0, 0o1002) := by decide

theorem test_reset :
    (ran [5] { start with ps := 0o140000 }).map (fun t => t.pc) =
      some 0o1002 := by decide

theorem test_rti :
    (ran [2] (holding [(0o774, 0o2000), (0o776, 0o170017)] { start with ps := 0o340, sp0 := 0o774 })).map (fun t => (t.sp0, t.pc, t.ps)) =
      some (0o1000, 0o2000, 0o170017) := by decide

theorem test_rti_again :
    (ran [2] (holding [(0o7000, 0o2000), (0o7002, 0o357)] { start with ps := 0o140000, sp3 := 0o7000 })).map (fun t => (t.reg .r6, t.pc, t.ps)) =
      some (0o7004, 0o2000, 0o140017) := by decide

theorem test_mfpt :
    (ran [7] { start with ps := 4, sp0 := 0o1000, r0 := 0o177777 }).map (fun t => t.r0) =
      some 3 := by decide

/-! ## Table V-CC -/

theorem test_scc :
    (ran [0o277] start).map (fun t => t.ps) =
      some 0o17 := by decide

theorem test_ccc :
    (ran [0o257] { start with ps := 0o17 }).map (fun t => t.ps) =
      some 0 := by decide

theorem test_ccop :
    (ran [0o243] { start with ps := 0o17 }).map (fun t => t.ps) =
      some 0o14 := by decide

theorem test_ccop_again :
    (ran [0o274] start).map (fun t => t.ps) =
      some 0o14 := by decide

theorem test_nop :
    (ran [0o240] { start with ps := 5 }).map (fun t => t.ps) =
      some 5 := by decide

theorem test_mtps :
    (ran [0o106427, 0o377] start).map (fun t => (t.pc, t.ps)) =
      some (0o1004, 0o357) := by decide

theorem test_mtps_again :
    (ran [0o106427, 0o377] { start with ps := 0o140000 }).map (fun t => (t.pc, t.ps)) =
      some (0o1004, 0o140017) := by decide

theorem test_mfps :
    (ran [0o106700] { start with ps := 0o351, r0 := 0o123456 }).map (fun t => (t.r0, t.ps)) =
      some (0o177751, 0o351) := by decide

theorem test_mfps_again :
    (ran [0o106700] { start with ps := 0o141, r0 := 0o123456 }).map (fun t => (t.r0, t.ps)) =
      some (0o141, 0o141) := by decide

/-! ## Table V-PS -/

theorem test_clr_again :
    (ran [0o5037, 0o177776] { start with ps := 0o357 }).map (fun t => (t.pc, t.ps)) =
      some (0o1004, 0) := by decide

theorem test_movb_again :
    (ran [0o112737, 0o300, 0o177777] { start with ps := 5, sp3 := 0 }).map (fun t => (t.pc, t.ps)) =
      some (0o1006, 0o140011) := by decide

theorem test_bis_again :
    (ran [0o52737, 0o20, 0o177776] start).map (fun t => (t.pc, t.ps)) =
      some (0o1006, 0) := by decide

/-! ## Table V-MP -/

theorem test_mfpi :
    (ran [0o6506] { start with ps := 0o30000, sp0 := 0o1000, sp3 := 0o4444 }).map (fun t => (t.sp0, t.ps, wordOf t 0o776)) =
      some (0o776, 0o30000, 0o4444) := by decide

theorem test_mfpi_again :
    (ran [0o6537, 0o2000] (holding [(0o2000, 0o100000)] { start with sp0 := 0o1000 })).map (fun t => (t.reg .r6, t.pc, t.ps, wordOf t 0o776)) =
      some (0o776, 0o1004, 0o10, 0o100000) := by decide

theorem test_mtpi :
    (ran [0o6606] (holding [(0o776, 0o5552)] { start with ps := 0o30000, sp0 := 0o776, sp3 := 0o4444 })).map (fun t => (t.sp0, t.sp3, t.ps)) =
      some (0o1000, 0o5552, 0o30000) := by decide

theorem test_mtpi_again :
    (ran [0o6600] (holding [(0o776, 0)] { start with ps := 0o17, sp0 := 0o776, r0 := 7 })).map (fun t => (t.r0, t.reg .r6, t.ps)) =
      some (0, 0o1000, 5) := by decide

theorem test_mfpd :
    (ran [0o106506] start).map (fun t => t.r0) =
      some 0 := by decide

/-! ## Table V-FP -/

theorem test_ldf :
    (ran [0o172427, 0o40300] start).map (fun t => (t.pc, t.ac[0].hi)) =
      some (0o1004, (acc 0o40300 0 0 0).hi) := by decide

theorem test_addf :
    (ran [0o172027, 0o40300] { start with ac := (start.ac.set 0 (acc 0o40200 0 0 0)) }).map (fun t => (t.pc, t.fps, t.ac[0].hi)) =
      some (0o1004, 0, (acc 0o40440 0 0 0).hi) := by decide

theorem test_subf :
    (ran [0o173027, 0o40300] { start with ac := (start.ac.set 0 (acc 0o40200 0 0 0)) }).map (fun t => (t.pc, t.fps, t.ac[0].hi)) =
      some (0o1004, 0o10, (acc 0o140000 0 0 0).hi) := by decide

theorem test_subf_again :
    (ran [0o173001] { start with ac := ((start.ac.set 0 (acc 0o40300 0 0 0)).set 1 (acc 0o40300 0 0 0)) }).map (fun t => (t.fps, t.ac[0].hi)) =
      some (4, (acc 0 0 0 0).hi) := by decide

theorem test_mulf :
    (ran [0o171027, 0o40300] { start with ac := (start.ac.set 0 (acc 0o40300 0 0 0)) }).map (fun t => (t.pc, t.fps, t.ac[0].hi)) =
      some (0o1004, 0, (acc 0o40420 0 0 0).hi) := by decide

theorem test_divf :
    (ran [0o174427, 0o40600] { start with ac := (start.ac.set 0 (acc 0o40200 0 0 0)) }).map (fun t => (t.pc, t.fps, t.ac[0].hi)) =
      some (0o1004, 0, (acc 0o37600 0 0 0).hi) := by decide

theorem test_cmpf :
    (ran [0o173427, 0o40300] { start with ac := (start.ac.set 0 (acc 0o40440 0 0 0)) }).map (fun t => (t.pc, t.fps)) =
      some (0o1004, 0o10) := by decide

theorem test_cmpf_again :
    (ran [0o173427, 0o40300] { start with ac := (start.ac.set 0 (acc 0o40300 0 0 0)) }).map (fun t => (t.pc, t.fps)) =
      some (0o1004, 4) := by decide

theorem test_modf :
    (ran [0o171427, 0o40200] { start with ac := (start.ac.set 0 (acc 0o40440 0 0 0)) }).map (fun t => (t.pc, t.fps, t.ac[1].hi, t.ac[0].hi)) =
      some (0o1004, 0, (acc 0o40400 0 0 0).hi, (acc 0o40000 0 0 0).hi) := by decide

theorem test_negf :
    (ran [0o170700] { start with ac := (start.ac.set 0 (acc 0o40200 0 0 0)) }).map (fun t => (t.fps, t.ac[0].hi)) =
      some (0o10, (acc 0o140200 0 0 0).hi) := by decide

theorem test_negf_again :
    (ran [0o170700] { start with ac := (start.ac.set 0 (acc 0 0 0 0)) }).map (fun t => (t.fps, t.ac[0].hi)) =
      some (4, (acc 0 0 0 0).hi) := by decide

theorem test_absf :
    (ran [0o170602] { start with ac := (start.ac.set 2 (acc 0o140300 0 0 0)) }).map (fun t => (t.fps, t.ac[2].hi)) =
      some (0, (acc 0o40300 0 0 0).hi) := by decide

theorem test_tstf :
    (ran [0o170500] { start with ac := (start.ac.set 0 (acc 0o140200 0 0 0)) }).map (fun t => t.fps) =
      some 0o10 := by decide

theorem test_clrf :
    (ran [0o170401] { start with ac := (start.ac.set 1 (acc 0o40200 0 0 0)) }).map (fun t => (t.fps, t.ac[1].hi)) =
      some (4, (acc 0 0 0 0).hi) := by decide

theorem test_stf :
    (ran [0o174021] { start with r1 := 0o2000, ac := (start.ac.set 0 (acc 0o40300 0 0 0)) }).map (fun t => (t.r1, wordOf t 0o2000, wordOf t 0o2002)) =
      some (0o2004, 0o40300, 0) := by decide

theorem test_ldd :
    (ran [0o172521] (holding [(0o2000, 0o40200), (0o2002, 0), (0o2004, 0), (0o2006, 1)] { start with r1 := 0o2000, fps := 0o200 })).map (fun t => (t.r1, t.ac[1])) =
      some (0o2010, acc 0o40200 0 0 1) := by decide

theorem test_ldcif :
    (ran [0o177027, 5] start).map (fun t => (t.pc, t.fps, t.ac[0].hi)) =
      some (0o1004, 0, (acc 0o40640 0 0 0).hi) := by decide

theorem test_ldcif_again :
    (ran [0o177027, 0o177777] start).map (fun t => (t.pc, t.fps, t.ac[0].hi)) =
      some (0o1004, 0o10, (acc 0o140200 0 0 0).hi) := by decide

theorem test_ldclf :
    (ran [0o177102] { start with r2 := 1, fps := 0o100 }).map (fun t => (t.fps, t.ac[1].hi)) =
      some (0o100, (acc 0o44200 0 0 0).hi) := by decide

theorem test_stcfi :
    (ran [0o175400] { start with ac := (start.ac.set 0 (acc 0o140440 0 0 0)) }).map (fun t => (t.r0, t.fps)) =
      some (0o177776, 0o10) := by decide

theorem test_stcfi_again :
    (ran [0o175400] { start with ac := (start.ac.set 0 (acc 0o44000 0 0 0)) }).map (fun t => (t.r0, t.fps)) =
      some (0, 5) := by decide

theorem test_ldcfd :
    (ran [0o177427, 0o40300] { start with fps := 0o200 }).map (fun t => (t.pc, t.ac[0])) =
      some (0o1004, acc 0o40300 0 0 0) := by decide

theorem test_stcfd :
    (ran [0o176011] { start with r1 := 0o2000, ac := (start.ac.set 0 (acc 0o40300 0 0 0)) }).map (fun t => (wordOf t 0o2000, wordOf t 0o2002, wordOf t 0o2004, wordOf t 0o2006)) =
      some (0o40300, 0, 0, 0) := by decide

theorem test_ldexp :
    (ran [0o176427, 3] { start with ac := (start.ac.set 0 (acc 0o40200 0 0 0)) }).map (fun t => (t.pc, t.fps, t.ac[0].hi)) =
      some (0o1004, 0, (acc 0o40600 0 0 0).hi) := by decide

theorem test_stexp :
    (ran [0o175000] { start with ac := (start.ac.set 0 (acc 0o40200 0 0 0)) }).map (fun t => (t.r0, t.fps)) =
      some (1, 0) := by decide

theorem test_stexp_again :
    (ran [0o175000] { start with ac := (start.ac.set 0 (acc 0 0 0 0)) }).map (fun t => (t.r0, t.fps)) =
      some (0o177600, 0o10) := by decide

theorem test_setd :
    (ran [0o170011] start).map (fun t => t.fps) =
      some 0o200 := by decide

theorem test_setf :
    (ran [0o170001] { start with fps := 0o300 }).map (fun t => t.fps) =
      some 0o100 := by decide

theorem test_setl :
    (ran [0o170012] start).map (fun t => t.fps) =
      some 0o100 := by decide

theorem test_seti :
    (ran [0o170002] { start with fps := 0o300 }).map (fun t => t.fps) =
      some 0o200 := by decide

theorem test_ldfps :
    (ran [0o170127, 0o240] start).map (fun t => (t.pc, t.fps)) =
      some (0o1004, 0o240) := by decide

theorem test_stfps :
    (ran [0o170200] { start with fps := 0o240 }).map (fun t => t.r0) =
      some 0o240 := by decide

theorem test_stst :
    (ran [0o170303] { start with fec := 4, fea := 0o1000 }).map (fun t => t.r3) =
      some 4 := by decide

theorem test_stst_again :
    (ran [0o170337, 0o2000] { start with fec := 4, fea := 0o1000 }).map (fun t => (t.pc, wordOf t 0o2000, wordOf t 0o2002)) =
      some (0o1004, 4, 0o1000) := by decide

theorem test_cfcc :
    (ran [0o170000] { start with ps := 7, fps := 0o10 }).map (fun t => t.ps) =
      some 0o10 := by decide

/-! ## Instructions without a line in those tables -/

/-- The condition codes for which a branch with offset 2 at 001000 is taken (R7 becomes 001006; else 001002). -/
def takenFor (w : Word) : Option (List Nat) :=
  ((List.range 16).mapM fun k => ran [w] { start with ps := BitVec.ofNat 16 k }).map fun ts =>
    (ts.filter fun t => t.pc == 0o1006).map fun t => t.ps.toNat

-- table V-BR
theorem test_br : takenFor 0o402 = some [0, 1, 2, 3, 4, 5, 6, 7, 8, 9, 10, 11, 12, 13, 14, 15] := by decide

theorem test_bne : takenFor 0o1002 = some [0, 1, 2, 3, 8, 9, 10, 11] := by decide

theorem test_beq : takenFor 0o1402 = some [4, 5, 6, 7, 12, 13, 14, 15] := by decide

theorem test_bge : takenFor 0o2002 = some [0, 1, 4, 5, 10, 11, 14, 15] := by decide

theorem test_blt : takenFor 0o2402 = some [2, 3, 6, 7, 8, 9, 12, 13] := by decide

theorem test_bgt : takenFor 0o3002 = some [0, 1, 10, 11] := by decide

theorem test_ble : takenFor 0o3402 = some [2, 3, 4, 5, 6, 7, 8, 9, 12, 13, 14, 15] := by decide

theorem test_bpl : takenFor 0o100002 = some [0, 1, 2, 3, 4, 5, 6, 7] := by decide

theorem test_bmi : takenFor 0o100402 = some [8, 9, 10, 11, 12, 13, 14, 15] := by decide

theorem test_bhi : takenFor 0o101002 = some [0, 2, 8, 10] := by decide

theorem test_blos : takenFor 0o101402 = some [1, 3, 4, 5, 6, 7, 9, 11, 12, 13, 14, 15] := by decide

theorem test_bvc : takenFor 0o102002 = some [0, 1, 4, 5, 8, 9, 12, 13] := by decide

theorem test_bvs : takenFor 0o102402 = some [2, 3, 6, 7, 10, 11, 14, 15] := by decide

theorem test_bcc : takenFor 0o103002 = some [0, 2, 4, 6, 8, 10, 12, 14] := by decide

theorem test_bcs : takenFor 0o103402 = some [1, 3, 5, 7, 9, 11, 13, 15] := by decide

-- offset range, under table V-BR
theorem test_br_again : (ran [0o777] start).map (fun t => t.pc) = some 0o1000 ∧
    (ran [0o577] start).map (fun t => t.pc) = some 0o1400 ∧
    (ran [0o600] start).map (fun t => t.pc) = some 0o402 := by decide

theorem test_bhis : nextOf (exec (.bhis 2) { start with pc := 0o1002 }) (fun t => t.pc) = some 0o1006 := by decide

theorem test_blo : nextOf (exec (.blo 2) { start with pc := 0o1002 }) (fun t => t.pc) = some 0o1002 := by decide

theorem test_sob :
    (ran [0o77102] { start with pc := 0o1004, r1 := 2, ps := 0o17 }).map (fun t => (t.r1, t.pc, t.ps)) =
      some (1, 0o1002, 0o17) := by decide

theorem test_sob_again :
    (ran [0o77102] { start with pc := 0o1004, r1 := 1 }).map (fun t => (t.r1, t.pc)) = some (0, 0o1006) := by decide

-- R380, R381
theorem test_halt : (ran [0] start).map (fun t => (t.run, t.pc, t.ps)) = some (.odt, 0o1002, 0) := by decide

theorem test_halt_again :
    (ran [0] (holding [(0o10, 0o2000), (0o12, 0o340)]
      { start with ps := 0o140000, sp3 := 0o7000, sp0 := 0o1000 })).map
      (fun t => (t.pc, t.ps, t.sp0, wordOf t 0o776, wordOf t 0o774)) =
      some (0o2000, 0o30340, 0o774, 0o140000, 0o1002) := by decide

theorem test_wait : (ran [1] { start with ps := 0o340 }).map (fun t => (t.run, t.pc)) = some (.wait, 0o1002) := by decide

theorem test_wait_again :
    (ran [1] (holding [(0o60, 0o2000), (0o62, 0o200)]
      { start with sp0 := 0o1000, irqs := [⟨.l4, some 0o60⟩] })).map
      (fun t => (t.run, t.pc, t.ps, wordOf t 0o776, wordOf t 0o774)) =
      some (.run, 0o2000, 0o200, 0, 0o1002) := by decide

-- program P-3, variants A and B
theorem test_rtt :
    (ran [6] (holding [(0o14, 0o3000), (0o16, 0o340), (0o774, 0o1016), (0o776, 0o20)]
      { start with sp0 := 0o774 })).map (fun t => (t.pc, t.ps, t.sp0)) = some (0o1016, 0o20, 0o1000) := by decide

theorem test_rti_traced :
    (ran [2] (holding [(0o14, 0o3000), (0o16, 0o340), (0o774, 0o1016), (0o776, 0o20)]
      { start with sp0 := 0o774 })).map (fun t => (t.pc, t.ps, t.sp0, wordOf t 0o774)) =
      some (0o3000, 0o340, 0o774, 0o1016) := by decide

-- R189, R374: the other reserved and unassigned words
theorem test_reserved :
    ([0o10, 0o77, 0o7000, 0o7777, 0o75040, 0o76777, 0o107000, 0o107777].map fun w =>
      (ran [w] (holding [(0o10, 0o2000), (0o12, 0o340)] { start with sp0 := 0o1000 })).map
        fun t => (t.pc, t.ps, wordOf t 0o774)) =
      List.replicate 8 (some (0o2000, 0o340, 0o1002)) := by decide

-- R185, R455
theorem test_unassigned :
    ([0o170003, 0o170010, 0o170013, 0o170077].map fun w =>
      (ran [w] (holding [(0o244, 0o2000), (0o246, 0o340)] { start with sp0 := 0o1000 })).map
        fun t => (t.pc, t.fps, t.fec, t.fea)) =
      List.replicate 4 (some (0o2000, 0o100000, 2, 0o1000)) := by decide

-- R401, R402: one code each
theorem test_clear_codes :
    ([0o241, 0o242, 0o244, 0o250].map fun w => (ran [w] { start with ps := 0o17 }).map fun t => t.ps) =
      [some 0o16, some 0o15, some 0o13, some 0o7] := by decide

theorem test_set_codes :
    ([0o261, 0o262, 0o264, 0o270].map fun w => (ran [w] start).map fun t => t.ps) =
      [some 1, some 2, some 4, some 0o10] := by decide

-- table V-MP, with the operation codes of R415 and R417
theorem test_mtpd :
    (ran [0o106606] (holding [(0o776, 0o5552)] { start with ps := 0o30000, sp0 := 0o776, sp3 := 0o4444 })).map
      (fun t => (t.sp3, t.sp0, t.ps)) = some (0o5552, 0o1000, 0o30000) := by decide

/-! ## The double-precision and long-integer members of the floating codes -/

/-- FPS = 000200: double precision. -/
def startD : State := { start with fps := 0o200 }

/-- Accumulator 0 in double precision. -/
def withAc0 (x : Acc) (s : State) : State := { s with ac := s.ac.set 0 x }

-- R482, R483, R484, R485 with every bit of the fraction in use
theorem test_clrd : (ran [0o170400] (withAc0 (acc 0o40200 0 0 1) startD)).map (fun t => (t.ac[0], t.fps)) =
    some (acc 0 0 0 0, 0o204) := by decide

theorem test_tstd : (ran [0o170500] (withAc0 (acc 0o140200 0 0 1) startD)).map (fun t => t.fps) =
    some 0o210 := by decide

theorem test_absd : (ran [0o170600] (withAc0 (acc 0o140200 0 0 1) startD)).map (fun t => (t.ac[0], t.fps)) =
    some (acc 0o40200 0 0 1, 0o200) := by decide

theorem test_negd : (ran [0o170700] (withAc0 (acc 0o40200 0 0 1) startD)).map (fun t => (t.ac[0], t.fps)) =
    some (acc 0o140200 0 0 1, 0o210) := by decide

-- 1 + 2**-55 is 040200 000000 000000 000001 and 2**-55 is 022400 000000 000000 000000 (R433, R434)
theorem test_addd :
    (ran [0o172001] { startD with ac := (start.ac.set 0 (acc 0o40200 0 0 0)).set 1 (acc 0o22400 0 0 0) }).map
      (fun t => t.ac[0]) = some (acc 0o40200 0 0 1) := by decide

theorem test_subd :
    (ran [0o173001] { startD with ac := (start.ac.set 0 (acc 0o40200 0 0 1)).set 1 (acc 0o40200 0 0 0) }).map
      (fun t => t.ac[0]) = some (acc 0o22400 0 0 0) := by decide

theorem test_muld : (ran [0o171027, 0o40400] (withAc0 (acc 0o40200 0 0 1) startD)).map (fun t => t.ac[0]) =
    some (acc 0o40400 0 0 1) := by decide

theorem test_divd : (ran [0o174427, 0o40400] (withAc0 (acc 0o40200 0 0 1) startD)).map (fun t => t.ac[0]) =
    some (acc 0o40000 0 0 1) := by decide

theorem test_modd : (ran [0o171427, 0o40200] (withAc0 (acc 0o40440 0 0 0) startD)).map
    (fun t => (t.ac[0], t.ac[1])) = some (acc 0o40000 0 0 0, acc 0o40400 0 0 0) := by decide

theorem test_cmpd : (ran [0o173427, 0o40200] (withAc0 (acc 0o40200 0 0 1) startD)).map (fun t => t.fps) =
    some 0o210 := by decide

theorem test_std :
    (ran [0o174021] (withAc0 (acc 0o40200 0 0 1) { startD with r1 := 0o2000 })).map
      (fun t => (t.r1, wordOf t 0o2000, wordOf t 0o2006)) = some (0o2010, 0o40200, 1) := by decide

-- 2**16 + 1 is 044200 000200 000000 000000 (R433, R434); R494, R495
theorem test_stcfl :
    (ran [0o175411] (withAc0 (acc 0o44200 0o200 0 0) { start with fps := 0o100, r1 := 0o2000 })).map
      (fun t => (wordOf t 0o2000, wordOf t 0o2002)) = some (1, 1) := by decide

theorem test_stcdi : (ran [0o175400] (withAc0 (acc 0o40440 0 0 0) startD)).map (fun t => t.r0) = some 2 := by decide

theorem test_stcdl :
    (ran [0o175411] (withAc0 (acc 0o144200 0o200 0 0) { start with fps := 0o300, r1 := 0o2000 })).map
      (fun t => (wordOf t 0o2000, wordOf t 0o2002, t.ps)) = some (0o177776, 0o177777, 0o10) := by decide

theorem test_ldcid : (ran [0o177027, 5] startD).map (fun t => t.ac[0]) = some (acc 0o40640 0 0 0) := by decide

theorem test_ldcld : (ran [0o177002] { start with fps := 0o300, r2 := 1 }).map (fun t => t.ac[0]) =
    some (acc 0o44200 0 0 0) := by decide

-- 1 + 2**-24 is 040200 000000 100000 000000: half a unit in the last place of single precision, rounded up (R443, R492, R493)
theorem test_ldcdf :
    (ran [0o177421] (holding [(0o2000, 0o40200), (0o2004, 0o100000)] { start with r1 := 0o2000 })).map
      (fun t => (t.ac[0].hi, t.r1)) = some ((acc 0o40200 1 0 0).hi, 0o2010) := by decide

theorem test_stcdf :
    (ran [0o176011] (withAc0 (acc 0o40200 0 0o100000 0) { startD with r1 := 0o2000 })).map
      (fun t => (wordOf t 0o2000, wordOf t 0o2002, wordOf t 0o2004)) = some (0o40200, 1, 0) := by decide

-- table V-FP, the lines with two cases or a trap
theorem test_divf_by_zero :
    (ran [0o174427, 0] (holding [(0o244, 0o2000), (0o246, 0o340)]
      (withAc0 (acc 0o40200 0 0 0) { start with sp0 := 0o1000 }))).map
      (fun t => (t.fps, t.fec, t.fea, t.pc, wordOf t 0o774)) = some (0o100000, 4, 0o1000, 0o2000, 0o1004) := by decide

theorem test_floating_without_option :
    (ran [0o170127, 0] (holding [(0o10, 0o2000), (0o12, 0o340)]
      { start with sp0 := 0o1000, cfg := resetConfig })).map
      (fun t => (t.pc, t.ps, wordOf t 0o774)) = some (0o2000, 0o340, 0o1002) := by decide

/-! ## Aborts, the stack limit, translation, interrupts, power-up -/

-- R202, R474: (R1)+ on a D datum, an immediate of any size, -(PC) by the full size, a byte on R6, a pointer
theorem test_step_sizes :
    ([(8, ⟨.autoInc, .r1⟩, 0o1010), (8, ⟨.autoInc, .r7⟩, 0o1002), (8, ⟨.autoDec, .r7⟩, 0o770), (4, ⟨.autoDec, .r6⟩, 0o774),
      (1, ⟨.autoInc, .r6⟩, 0o1002), (8, ⟨.autoIncDef, .r1⟩, 0o1002)] : List (Nat × Operand × Word)).all
      (fun (n, o, x) => match locate n o { start with r1 := 0o1000, sp0 := 0o1000 } with
        | .ok _ t => t.reg o.reg == x
        | _ => false) = true := by decide

-- table V-ST
theorem test_stack_limit :
    (ran [0o10046] (holding [(4, 0o2000), (6, 0o340)] { start with sp0 := 0o400, r0 := 0o123 })).map
      (fun t => (wordOf t 0o376, wordOf t 0o374, wordOf t 0o372, t.sp0, t.pc)) =
      some (0o123, 0, 0o1002, 0o372, 0o2000) := by decide

theorem test_bus_timeout :
    (ran [0o5720] (holding [(4, 0o2000), (6, 0o340)] { start with ps := 1, sp0 := 0o1000, r0 := 0o160000 })).map
      (fun t => (wordOf t 0o776, wordOf t 0o774, t.r0, t.pc)) = some (1, 0o1002, 0o160002, 0o2000) := by decide

theorem test_odd_address :
    (ran [0o11001] (holding [(0o2000, 0o123456)] { start with r0 := 0o2001 })).map (fun t => (t.r1, t.ps)) =
      some (0o123456, 0o10) := by decide

/-- A user page. -/
def userPage (n : Nat) (par pdr : Word) (s : State) : State :=
  { s with sr0 := 1, upar := s.upar.set! n par, updr := s.updr.set! n pdr }

-- table V-MM
theorem test_translation :
    (match translate 3 0o20076 .read (userPage 1 0o1010 6 start) with | .ok a _ => some a | _ => none) =
      some 0o101076 := by decide

theorem test_translation_abort :
    (match translate 3 0o200 .write (userPage 0 0o1000 0o402 start) with | .trap .mmuAbort t => some t.sr0 | _ => none) =
      some 0o60141 := by decide

-- table V-INT
theorem test_event :
    (ran [0o5200] (holding [(0o100, 0o2000), (0o102, 0o300)]
      { start with sp0 := 0o1000, ps := 0o240, eventFF := true })).map
      (fun t => (t.r0, t.pc, t.ps, wordOf t 0o776, t.eventFF)) = some (1, 0o2000, 0o300, 0o240, false) := by decide

theorem test_masked :
    (ran [0o5200] { start with sp0 := 0o1000, ps := 0o200, irqs := [⟨.l4, some 0o60⟩] }).map
      (fun t => (t.r0, t.pc, t.irqs.length)) = some (1, 0o1002, 1) := by decide

-- table V-RS
theorem test_power_up :
    nextOf (step (holding [(0o24, 0o1000), (0o26, 0o340)] State.reset)) (fun t => (t.pc, t.ps, t.run)) =
      some (0o1000, 0o340, .run) := by decide

-- R667: mode 3 from reset, where R6 is 0 and the second push finds nothing; with the sequence for that abort answered, the fetch
-- follows although the halt line is asserted
theorem test_power_up_mode_3 :
    nextOf (step { State.reset with cfg := { resetConfig with powerUpMode := 3 }, bhalt := true }) (fun t => t.run) =
      some (.powerTrap .busTimeout) ∧
    nextOf (step (holding [(4, 0o2000), (6, 0o340)]
      { start with sp0 := 0o1000, run := .powerTrap .busTimeout, bhalt := true })) (fun t => (t.run, t.pc)) =
      some (.run, 0o2000) := by decide

-- R626: 1000G typed at the console
theorem test_odt_go :
    nextOf (step { start with run := .odt, pc := 0, ps := 0o340, odt := { Odt.reset with todo := [.go 0o1000] } })
      (fun t => (t.pc, t.ps, t.run)) = some (0o1000, 0, .run) := by decide

/-- What a word in withFetchWord's place does is what its row says: the interface's two functions agree. -/
theorem test_withFetchWord :
    nextOf (step (State.reset.withFetchWord 16 0o5203)) (fun t => (t.r3, t.pc)) = some (1, 2) ∧
    decodeTableWord 16 0o5203 = some (.inc ⟨.reg, .r3⟩) := by decide


/-! ## Other agents between the bus cycles, ROM, aborts of a last write -/

-- R607, R114: a character that arrives before the fifth bus cycle of CMP @#177560,@#177560
theorem test_typed_between_cycles :
    (ran [0o23737, 0o177560, 0o177560] { start with busInputs := [[], [], [], [], [.typed 0o101]] }).map
      (fun t => (t.ps, t.slu.rxChar)) = some (0o11, 0o101) := by decide

-- R88: between the read and the write of INC (R2) there is no bus cycle to come before
theorem test_rewrite_is_one_cycle :
    (ran [0o5212] { start with r2 := 0o2000, busInputs := [[], [], [.dmaWrite 0o2000 0o77]] }).map
      (fun t => (wordOf t 0o2000, t.busInputs.length)) = some (1, 1) := by decide

-- R115: DMA gets no reply at the address of SR0, also where the memory map has RAM there
theorem test_dma_internal :
    (let s := { start with cfg := { fullConfig with memoryMap := [⟨0, 0o777777, .ram, false⟩] } }
     [0o777572, 0o2000].map fun a => match busAction (.dmaWrite a 5) s with
       | .ok () t => (t.sr0, t.mem.readWord a)
       | _ => (1, 1)) = [(0, 0), (0, 5)] := by decide

-- R660: BINIT is held while BDCOK is negated
theorem test_nothing_acts_without_power :
    nextOf (step { start with run := .powerOff, bdcok := false, inputs := [.bus (.typed 0o101)] }) (fun t => t.slu.rxDone) =
      some false := by decide

-- R101: ROM that gives a write no reply, and ROM that does
theorem test_rom :
    ([false, true].map fun r => (ran [0o5012] (holding [(4, 0o3000), (0o2000, 5)]
      { start with sp0 := 0o1000, r2 := 0o2000
                   cfg := { fullConfig with memoryMap := ⟨0o2000, 0o2777, .rom r, false⟩ :: fullConfig.memoryMap } })).map
      fun t => (t.pc, t.ps, wordOf t 0o2000)) = [some (0o3000, 0, 5), some (0o1002, 4, 5)] := by decide

-- R224, R140 (D35): 5 * 2**16 stored at 177776 and 0, where location 0 does not answer: the PS keeps what was written
theorem test_stcfl_abort :
    (ran [0o175437, 0o177776] (withAc0 (acc 0o44640 0 0 0) (holding [(4, 0o3000)]
      { start with ps := 0o10, fps := 0o100, sp0 := 0o1000, cfg := { fullConfig with memoryMap := [⟨2, 0o7777, .ram, false⟩] } }))).map
      (fun t => (t.pc, wordOf t 0o776, wordOf t 0o774)) = some (0o3000, 5, 0o1004) := by decide

-- R552: the overflow's own sequence, its first push not answered
theorem test_overflow_sequence_marks_nothing :
    nextOf (enterTrap .stackOverflow { start with sp0 := 0o376, cfg := { fullConfig with memoryMap := [⟨0, 0o77, .ram, false⟩] } })
      (fun t => (t.run, t.stackOverflow)) = some (.trapping .busTimeout, false) := by decide
/-! ## Witnesses: states and operands that meet the hypotheses of the statements -/

open Sys2Proof.Spec

/-- A kernel page mapped to itself: 128 blocks, upward, read and write. -/
def kernelPage (n : Nat) (pdr : Word) (s : State) : State :=
  { s with sr0 := 1, kpar := s.kpar.set! n (BitVec.ofNat 16 (128 * n)), kpdr := s.kpdr.set! n pdr }

/-- R2 points at 002000, where the word 002002 stands; 002002 holds 000005; R6 is 001000 in kernel mode. -/
def small : State := holding [(0o2000, 0o2002), (0o2002, 5)] { start with r2 := 0o2000, sp0 := 0o1000, r3 := 3 }

/-- A configuration with a device window at 764000. -/
def deviceConfig : Config := { fullConfig with memoryMap := ⟨0o764000, 0o764777, .device, false⟩ :: resetConfig.memoryMap }

/-- Memory only up to 077777, then the console. -/
def lowConfig : Config :=
  { fullConfig with memoryMap := [⟨0, 0o77777, .ram, false⟩, ⟨0o777560, 0o777567, .console, false⟩] }

theorem start_hasConsole : hasConsole start := by
  intro a h
  rcases h with rfl | rfl | rfl | rfl <;> exact ⟨_, rfl, rfl⟩

/-- Nothing answers at the address that R2 holds. -/
def nowhere : State := { small with r2 := 0o160000 }

abbrev at2 : Operand := ⟨.deferred, .r2⟩
abbrev reg3 : Operand := ⟨.reg, .r3⟩
abbrev imm : Operand := ⟨.autoInc, .r7⟩

theorem witness_DecodeInvertsEncode : (Instr.reserved000010 0o77).wellFormed = true ∧ Instr.halt.wellFormed = true := by
  decide

/-- With nobody else on the bus, and with a character that arrives before the fetch. -/
theorem witness_StepRunsTheDecodedInstruction :
    (∃ (s t u : State) (pa : PAddr) (i : Instr), s.inputs = [] ∧ s.bdmr = false ∧ s.run = .run ∧
      translate s.mode s.pc .read { s with pc := s.pc + 2 } = .ok pa t ∧ startCycle pa t = .ok () u ∧ isRam u pa ∧
      decodeBytes [u.mem.read (wordAddr pa), u.mem.read (wordAddr pa + 1)] = .ok (i, []) ∧ s.busInputs = []) ∧
    (∃ (s t u : State) (pa : PAddr) (i : Instr), s.inputs = [] ∧ s.bdmr = false ∧ s.run = .run ∧
      translate s.mode s.pc .read { s with pc := s.pc + 2 } = .ok pa t ∧ startCycle pa t = .ok () u ∧ isRam u pa ∧
      decodeBytes [u.mem.read (wordAddr pa), u.mem.read (wordAddr pa + 1)] = .ok (i, []) ∧ s.busInputs ≠ []) :=
  ⟨⟨holding [(0o1000, 0o5200)] start, _, _, _, .inc ⟨.reg, .r0⟩, rfl, rfl, rfl, rfl, rfl, ⟨rfl, rfl, _, rfl, rfl⟩, rfl, rfl⟩,
   ⟨holding [(0o1000, 0o5200)] { start with busInputs := [[.typed 0o101]] }, _, _, _, .inc ⟨.reg, .r0⟩, rfl, rfl, rfl, rfl,
    rfl, ⟨rfl, rfl, _, rfl, rfl⟩, rfl, by decide⟩⟩

theorem witness_StepKeepsInvariant : ∃ s t : State, s.Inv ∧ step s = .next t :=
  ⟨State.reset, _, by decide, rfl⟩

theorem witness_StopsAreTheDeclaredOnes_fault :
    ∃ (s : State) (e : Fault), step s = .fault e :=
  ⟨holding [(0o1000, 0o5737), (0o1002, 0o164000)] { start with cfg := deviceConfig }, _, rfl⟩

theorem witness_StopsAreTheDeclaredOnes_refused :
    ∃ (s : State) (r : Refusal), step s = .refused r :=
  ⟨{ start with ps := 0o40000, sr0 := 1 }, _, rfl⟩

theorem witness_StopsAreTheDeclaredOnes_total : totalConfig { resetConfig with reservedMode := .asUser } := by
  simp [totalConfig, resetConfig]

/-- Each of the four modes; the memory that mode 0 reads; mode 3 with a sequence that is answered, and with the one from reset
itself, whose second push, to 177774, aborts; a step that takes the sequence for such an abort. -/
theorem witness_PowerUpLoadsStart :
    (∀ m : Fin 4, let s := { State.reset with cfg := { resetConfig with powerUpMode := m } }
      s.inputs = [] ∧ s.bdmr = false ∧ s.run = .powerWait ∧ s.bpok = true ∧ s.cfg.powerUpMode = m ∧ s.busInputs = []) ∧
    isRam State.reset 0o24 ∧ isRam State.reset 0o26 ∧
    (∃ t, enterTrap .reservedInstruction { State.reset with sp0 := 0o1000 } = .next t ∧ t.run = .run) ∧
    (∃ t c, enterTrap .reservedInstruction State.reset = .next t ∧ t.run = .trapping c) ∧
    (∃ t, let s := { State.reset with run := .powerTrap .busTimeout }
      s.inputs = [] ∧ s.bdmr = false ∧ enterTrap .busTimeout s = .next t) :=
  ⟨fun _ => ⟨rfl, rfl, rfl, rfl, rfl, rfl⟩, ⟨rfl, rfl, _, rfl, rfl⟩, ⟨rfl, rfl, _, rfl, rfl⟩, ⟨_, rfl, rfl⟩, ⟨_, _, rfl, rfl⟩,
   ⟨_, rfl, rfl, rfl⟩⟩

theorem witness_PageRegisterAccess :
    ∃ (s : State) (i : Fin 8) (va : Word) (a b : PAddr) (t u : State), s.cfg.hasMmu = true ∧ s.sr0.getLsbD 0 = true ∧
      va.toNat / 8192 = i.val ∧ translate 0 va .write s = .ok a t ∧ translate 3 va .write s = .ok b u :=
  ⟨kernelPage 7 0o77406 (userPage 7 0o7600 0o77406 start), 7, 0o177776, _, _, _, _, rfl, rfl, rfl, rfl, rfl⟩

/-- With the MMU, SR2 tracked and SR2 frozen; without it, nothing at the four addresses. -/
theorem witness_StatusRegisterAccess :
    start.cfg.hasMmu = true ∧ physRead 0o772516 start = .ok 0 start ∧ start.sr0.toNat / 8192 = 0 ∧
    ({ start with sr0 := 0o20000 } : State).sr0.toNat / 8192 ≠ 0 ∧
    (let s := { start with cfg := { fullConfig with hasMmu := false } }
     s.cfg.hasMmu = false ∧ s.busInputs = [] ∧
     ∀ a ∈ [0o777572, 0o777574, 0o777576, 0o772516], regionAt s.cfg a = none) := by decide

theorem witness_ConsoleRegisters :
    start.busInputs = [] ∧ hasConsole start ∧ start.bdcok = true ∧
    (∃ (s : State) (rest : List Input), s.inputs = .bus .sent :: rest ∧ s.slu.txChar = some 0o101) :=
  ⟨rfl, start_hasConsole, rfl, { start with inputs := [.bus .sent], slu := { Slu.reset with txChar := some 0o101 } }, [], rfl, rfl⟩

/-- The console in control with any list of actions to do; memory and no memory at the addresses; a dump's counts. -/
theorem witness_ConsoleActions :
    (∀ l, atConsole { start with run := .odt, odt := { Odt.reset with todo := l } }) ∧
    isRam start 0o2000 ∧ nothingAt start 0o760000 ∧
    (let s := { start with cfg := lowConfig }
     nothingAt s ((0o100000 : Word).setWidth 18) ∧ isRam s ((0o77777 : Word).setWidth 18) ∧
       (0o77777 : Word).toNat % 2 = 1 ∧ isRam s ((0o77776 : Word).setWidth 18) ∧ (0o77776 : Word).toNat % 2 = 0) :=
  ⟨fun _ => ⟨rfl, rfl, rfl, rfl, start_hasConsole⟩, ⟨rfl, rfl, _, rfl, rfl⟩, ⟨rfl, rfl⟩, ⟨rfl, rfl⟩, ⟨rfl, rfl, _, rfl, rfl⟩,
   by decide, ⟨rfl, rfl, _, rfl, rfl⟩, by decide⟩

theorem witness_MemoryReadsBack :
    start.mem.wf ∧ start.busInputs = [] ∧ isRam start 0 ∧ isRam start 0o757777 ∧ wordAddr 0o757777 ≠ wordAddr 0 :=
  ⟨by decide, rfl, ⟨rfl, rfl, _, rfl, rfl⟩, ⟨rfl, rfl, _, rfl, rfl⟩, by decide⟩

theorem witness_AddressingModes :
    (∃ p t, readWord (small.reg .r2) (small.setReg .r2 (small.reg .r2 + 2)) = .ok p t) ∧
    (∃ u p t, locate 2 ⟨.autoDec, .r2⟩ small = .ok (.mem (small.reg .r2 - 2)) u ∧
      readWord (small.reg .r2 - 2) u = .ok p t) ∧
    (∃ x t p u, readWord small.pc { small with pc := small.pc + 2 } = .ok x t ∧
      readWord (t.reg .r2 + x) t = .ok p u) :=
  ⟨⟨_, _, rfl⟩, ⟨_, _, _, rfl, rfl⟩, ⟨_, _, _, _, rfl, rfl⟩⟩

theorem witness_OperandFrame :
    (∃ l t, locate 2 ⟨.autoIncDef, .r2⟩ small = .ok l t) ∧
    (∃ p t, wordPlace .write at2 small = .ok p t) ∧
    (∃ p t, bytePlace .read ⟨.autoDec, .r6⟩ small = .ok p t) ∧
    (∃ v t, loadWord ⟨.indexDef, .r2⟩ small = .ok v t) ∧
    (∃ v t, loadByte at2 small = .ok v t) ∧
    (∃ x p t, fpRead false at2 small x p t) :=
  ⟨⟨_, _, rfl⟩, ⟨_, _, rfl⟩, ⟨_, _, rfl⟩, ⟨_, _, rfl⟩, ⟨_, _, rfl⟩,
   ⟨_, _, _, _, .inr ⟨by decide, _, rfl, rfl⟩, rfl⟩⟩

/-- What the hypotheses of `TranslationMaps` say of a mode and a page. -/
def mapsHyp (m : BitVec 2) (user : Bool) (va : Word) (k : Access) (s : State) : Bool :=
  let page := va.toNat / 8192
  let block := va.toNat / 64 % 128
  let pdr := (if user then s.updr else s.kpdr)[page]!.toNat
  s.cfg.hasMmu && s.sr0.getLsbD 0 && pagesOf s.cfg m == some user && decide (pdr / 2 % 4 = 3 ∨ pdr / 2 % 4 = 1 ∧ k = .read) &&
    decide (if pdr / 8 % 2 = 0 then block ≤ pdr / 256 % 128 else pdr / 256 % 128 ≤ block)

/-- A mode 01 or 10 under a value of the parameter. -/
def underPolicy (p : ReservedModePolicy) (s : State) : State := { s with cfg := { s.cfg with reservedMode := p } }

/-- Both spaces, both kinds of page, both directions, at the first and the last block that the page has; modes 01 and 10 under
both values of the parameter that translate; relocation off and no MMU, below the top page and at its first word. -/
theorem witness_TranslationMaps :
    mapsHyp 3 true 0o20076 .read (userPage 1 0o1010 6 start) = true ∧
    mapsHyp 3 true 0o177 .read (userPage 0 0o1000 0o402 start) = true ∧
    mapsHyp 0 false 0o157600 .read (kernelPage 6 0o77016 start) = true ∧
    mapsHyp 0 false 0o177776 .write (kernelPage 7 0o77406 start) = true ∧
    mapsHyp 1 true 0o20076 .read (underPolicy .asUser (userPage 1 0o1010 6 start)) = true ∧
    mapsHyp 2 false 0o177776 .write (underPolicy .asKernel (kernelPage 7 0o77406 start)) = true ∧
    start.sr0.getLsbD 0 = false ∧ { resetConfig with hasMmu := false }.hasMmu = false ∧
    (0o157777#16).toNat / 8192 ≠ 7 ∧ (0o160000#16).toNat / 8192 = 7 := by decide

/-- What the hypotheses of `TranslationAborts` say of a page: nonresident, too short, read-only. -/
def abortsHyp (user : Bool) (va : Word) (k : Access) (s : State) : Bool × Bool × Bool :=
  let page := va.toNat / 8192
  let block := va.toNat / 64 % 128
  let pdr := (if user then s.updr else s.kpdr)[page]!.toNat
  if s.cfg.hasMmu && s.sr0.getLsbD 0 then
    (decide (pdr / 2 % 4 = 0 ∨ pdr / 2 % 4 = 2),
     decide (if pdr / 8 % 2 = 0 then pdr / 256 % 128 < block else block < pdr / 256 % 128),
     decide (pdr / 2 % 4 = 1 ∧ k = .write))
  else (false, false, false)

theorem witness_TranslationAborts :
    abortsHyp true 0o40000 .read (userPage 2 0 0 start) = (true, false, false) ∧
    abortsHyp true 0o20100 .read (userPage 1 0o1010 6 start) = (false, true, false) ∧
    abortsHyp false 0o157577 .read (kernelPage 6 0o77416 start) = (false, true, false) ∧
    abortsHyp true 0o100 .write (userPage 0 0o1000 0o402 start) = (false, false, true) ∧
    abortsHyp true 0o200 .write (userPage 0 0o1000 0o402 start) = (false, true, true) ∧
    pagesOf start.cfg 3 = some true ∧ pagesOf start.cfg 0 = some false ∧
    pagesOf (underPolicy .asUser start).cfg 1 = some true ∧ pagesOf (underPolicy .asKernel start).cfg 2 = some false ∧
    (underPolicy .abortNonresident start).cfg.reservedMode = .abortNonresident ∧ start.cfg.reservedMode = .refuse := by decide

theorem witness_TrapInstructions :
    ∃ (i : Instr) (c : Trap) (t : State), trapsBy i = some c ∧ trapTaken c small t :=
  ⟨.emt 0o77, .emt, _, rfl, 0, 0, _, _, _, _, trapPs small.ps 0, rfl, rfl, by decide, rfl, rfl, rfl⟩

/-- What the hypotheses of `TrapSequenceEffect` say of a vector and of a kernel stack pointer. -/
def trapHyp (p : Word) (c : Trap) : Bool :=
  let s := { small with sp0 := p }
  decide s.mem.wf && s.busInputs.isEmpty && !s.relocating &&
  ((s.mem.readWord (unmapped (c.vector + 2))).extractLsb' 14 2 == (0 : BitVec 2)) &&
  [unmapped c.vector, unmapped (c.vector + 2), unmapped (p - 2), unmapped (p - 4)].all fun a =>
    (intRegAt s.cfg (wordAddr a)).isNone && !s.parity.contains (wordAddr a) &&
    ((regionAt s.cfg (wordAddr a)).map (·.kind) == some .ram)

/-- A stack far above the limit; one whose second push alone goes below it; one just above it; the two causes whose pushes do not
mark. -/
theorem witness_TrapSequenceEffect :
    trapHyp 0o1000 .iot = true ∧ trapHyp 0o402 .iot = true ∧ trapHyp 0o404 .iot = true ∧
    trapHyp 0o400 .stackOverflow = true ∧ trapHyp 4 .doubleTimeout = true := by
  refine ⟨?_, ?_, ?_, ?_, ?_⟩ <;> decide

/-- Memory from 002000 on is ROM, which is read and gives a write no reply. -/
def romAt2 : State :=
  { small with cfg := { fullConfig with memoryMap := ⟨0o2000, 0o2777, .rom false, false⟩ :: resetConfig.memoryMap } }

/-- Each of the references that can abort: a page that is not resident, or an address that nothing answers; for the double
operand instructions the source, the destination's evaluation, the destination; the writes of MOV, MOVB, CLR, CLRB and SXT; the
write of an operand that was read from ROM. -/
theorem witness_OperandAbortIsTaken :
    (∃ i o f c t, rewritesWord i = some (o, f) ∧ wordPlace .write o (kernelPage 1 0 { small with r2 := 0o20000 }) = .trap c t) ∧
    (∃ i o f c p u t, rewritesWord i = some (o, f) ∧ wordPlace .write o nowhere = .ok p u ∧ readPlace p u = .trap c t) ∧
    (∃ i o f c p u t, rewritesByte i = some (o, f) ∧ bytePlace .write o nowhere = .ok p u ∧ readPlaceByte p u = .trap c t) ∧
    (∃ c t, loadWord at2 nowhere = .trap c t) ∧ (∃ c t, loadByte at2 nowhere = .trap c t) ∧
    (∃ c t, wordPlace .write ⟨.autoIncDef, .r2⟩ nowhere = .trap c t) ∧
    (∃ c t, bytePlace .write ⟨.autoIncDef, .r2⟩ nowhere = .trap c t) ∧
    (∃ c t, operandAborts .write true at2 reg3 nowhere c t) ∧
    (∃ c t, operandAborts .write false reg3 ⟨.autoIncDef, .r2⟩ nowhere c t) ∧
    (∃ c t, operandAborts .read true imm ⟨.autoIncDef, .r2⟩ nowhere c t) ∧
    (∃ c t, operandAborts .read true reg3 at2 nowhere c t) ∧
    (∃ c t, operandAbortsByte .read true reg3 at2 nowhere c t) ∧
    (∃ c t, operandAbortsByte .write false at2 reg3 nowhere c t) ∧
    (∃ x p u c t, sourceAndPlace .write reg3 at2 nowhere x p u ∧ writePlace p x u = .trap c t) ∧
    (∃ x p u c t, sourceAndPlaceByte .write reg3 at2 nowhere x p u ∧ writePlaceByte p x u = .trap c t) ∧
    (∃ p u c t c' t', wordPlace .write at2 nowhere = .ok p u ∧ writePlace p 0 u = .trap c t ∧
      writePlace p (if nowhere.cc.n then 0o177777 else 0) u = .trap c' t') ∧
    (∃ p u c t, bytePlace .write at2 nowhere = .ok p u ∧ writePlaceByte p 0 u = .trap c t) ∧
    (∃ p u d v c t, wordPlace .write at2 romAt2 = .ok p u ∧ readPlace p u = .ok d v ∧
      rewritePlace p (comRule d romAt2.cc).1 v = .trap c t) ∧
    (∃ p u d v c t, bytePlace .write at2 romAt2 = .ok p u ∧ readPlaceByte p u = .ok d v ∧
      rewritePlaceByte p (comRule d romAt2.cc).1 v = .trap c t) ∧
    (∃ x p u d v c t, sourceAndPlace .write reg3 at2 romAt2 x p u ∧ readPlace p u = .ok d v ∧
      rewritePlace p (addRule x d romAt2.cc).1 v = .trap c t) ∧
    (∃ x p u d v c t, sourceAndPlaceByte .write reg3 at2 romAt2 x p u ∧ readPlaceByte p u = .ok d v ∧
      rewritePlaceByte p (logicRule (x ||| d) romAt2.cc).1 v = .trap c t) :=
  ⟨⟨.inc at2, at2, _, _, _, rfl, rfl⟩, ⟨.neg at2, at2, _, _, _, _, _, rfl, rfl, rfl⟩,
   ⟨.negb at2, at2, _, _, _, _, _, rfl, rfl, rfl⟩, ⟨_, _, rfl⟩, ⟨_, _, rfl⟩, ⟨_, _, rfl⟩, ⟨_, _, rfl⟩,
   ⟨_, _, .inl ⟨by decide, rfl⟩⟩, ⟨_, _, .inr (.inl ⟨rfl, rfl⟩)⟩,
   ⟨_, _, .inr (.inr (.inl ⟨by decide, _, _, rfl, rfl⟩))⟩,
   ⟨_, _, .inr (.inr (.inr ⟨rfl, _, _, _, .inl ⟨rfl, rfl, rfl⟩, rfl⟩))⟩,
   ⟨_, _, .inr (.inr (.inr ⟨rfl, _, _, _, .inl ⟨rfl, rfl, rfl⟩, rfl⟩))⟩,
   ⟨_, _, .inl ⟨by decide, rfl⟩⟩,
   ⟨_, _, _, _, _, .inl ⟨rfl, rfl, rfl⟩, rfl⟩, ⟨_, _, _, _, _, .inl ⟨rfl, rfl, rfl⟩, rfl⟩,
   ⟨_, _, _, _, _, _, rfl, rfl, rfl⟩, ⟨_, _, _, _, rfl, rfl⟩,
   ⟨_, _, _, _, _, _, rfl, rfl, rfl⟩, ⟨_, _, _, _, _, _, rfl, rfl, rfl⟩,
   ⟨_, _, _, _, _, _, _, .inl ⟨rfl, rfl, rfl⟩, rfl, rfl⟩, ⟨_, _, _, _, _, _, _, .inl ⟨rfl, rfl, rfl⟩, rfl, rfl⟩⟩

/-- The two sides of the limit: R6 = 400 steps to 376 and is marked, R6 = 402 steps to 400 and is not; the same for the steps by 2
of a byte, by 4 and by 8, for a mode that is no step of R6, and for the overflow's own sequence, answered and not. First, memory
on the two sides for a push, and a pointer below the limit for mode 5. -/
theorem witness_StackLimitMarks :
    (∀ x ∈ [0o400#16, 0o402#16], let s := { start with sp0 := x }
      s.busInputs = [] ∧ ∃ a t, translate s.mode (s.reg .r6 - 2) .write (lowered s) = .ok a t ∧ (Place.phys a).plain s.cfg) ∧
    (∃ p t, let s := { start with sp0 := 0o400 }; readWord (s.reg .r6 - 2) (lowered s) = .ok p t) ∧
    (∃ t, push 0 { start with sp0 := 0o400 } = .ok () t ∧ t.stackOverflow = true) ∧
    (∃ t, push 0 { start with sp0 := 0o402 } = .ok () t ∧ t.stackOverflow = false) ∧
    (∀ x ∈ [(1, 0o400#16, true), (2, 0o402#16, false), (4, 0o402#16, true), (4, 0o404#16, false), (8, 0o406#16, true),
        (8, 0o410#16, false)],
      ∃ l t, locate x.1 ⟨.autoDec, .r6⟩ { start with sp0 := x.2.1 } = .ok l t ∧ t.stackOverflow = x.2.2) ∧
    (∃ l t, locate 2 ⟨.autoDecDef, .r6⟩ { start with sp0 := 0o400 } = .ok l t ∧ t.stackOverflow = true) ∧
    (∃ l t, locate 2 ⟨.autoInc, .r6⟩ { start with sp0 := 0o300 } = .ok l t ∧ t.stackOverflow = false) ∧
    (∃ t, enterTrap .stackOverflow { start with sp0 := 0o376 } = .next t ∧ t.run = .run) ∧
    (∃ t, enterTrap .stackOverflow { start with cfg := { fullConfig with memoryMap := [⟨0, 0o77, .ram, false⟩] }, sp0 := 0o376 } =
      .next t ∧ t.run ≠ .run) := by
  refine ⟨?_, ⟨_, _, rfl⟩, ⟨_, rfl, rfl⟩, ⟨_, rfl, rfl⟩, ?_, ⟨_, _, rfl, rfl⟩, ⟨_, _, rfl, rfl⟩, ⟨_, rfl, rfl⟩,
    ⟨_, rfl, by decide⟩⟩
  · intro x hx
    simp only [List.mem_cons, List.not_mem_nil, or_false] at hx
    rcases hx with rfl | rfl <;> exact ⟨rfl, _, _, rfl, rfl, _, rfl, .inl rfl⟩
  intro x hx
  simp only [List.mem_cons, List.not_mem_nil, or_false] at hx
  rcases hx with rfl | rfl | rfl | rfl | rfl | rfl <;> exact ⟨_, _, rfl, rfl⟩

/-- Nothing is latched in a state. -/
def unlatched (s : State) : Bool := !(s.tBit && !s.inhibitT) && !s.stackOverflow && !s.powerFailFF

/-- The event line is serviced in a state. -/
def eventTaken (s : State) : Bool := s.eventFF && !s.cfg.w4EventDisabled && decide (s.priority < 6)

/-- Trace, overflow, power fail; the event line at priority 5 and under a level 6 request; a request of each level at the highest
priority that lets it through, with a vector and without one; the console unit's two requests; a request that is masked, with
the halt line and without it. -/
theorem witness_ServiceArbitration :
    (let s := { small with ps := 0o20 }; s.tBit = true ∧ s.inhibitT = false) ∧
    (let s := { small with stackOverflow := true }; ¬(s.tBit = true ∧ s.inhibitT = false) ∧ s.stackOverflow = true) ∧
    (let s := { small with powerFailFF := true }; s.stackOverflow = false ∧ s.powerFailFF = true) ∧
    (let s := { small with eventFF := true, ps := 0o240, irqs := [⟨.l6, none⟩] }
     unlatched s = true ∧ eventTaken s = true ∧ (∀ r ∈ s.irqs, r.level ≠ .l7)) ∧
    (∀ x ∈ [(Irq.mk .l7 (some 0o300), 0o300#16), (Irq.mk .l6 none, 0o240#16), (Irq.mk .l5 (some 0o120), 0o200#16),
        (Irq.mk .l4 (some 0o60), 0o140#16)],
      let s := { small with irqs := [x.1, ⟨.l4, none⟩], ps := x.2 }
      unlatched s = true ∧ eventTaken s = false ∧ s.irqs.find? (fun q => decide (q.level = x.1.level)) = some x.1 ∧
      s.priority < x.1.level.toNat ∧ ∀ q ∈ s.irqs, q.level.toNat ≤ x.1.level.toNat) ∧
    (let s := { small with irqs := [⟨.l7, some 0o300⟩], eventFF := true }
     unlatched s = true ∧ eventTaken s = true ∧ ∀ q ∈ s.irqs, q.level.toNat ≤ 7) ∧
    (let s := { small with slu := { Slu.reset with rxDone := true, rxIe := true, txIe := true }, ps := 0o140 }
     unlatched s = true ∧ eventTaken s = false ∧ s.irqs = [] ∧ s.priority < 4 ∧ s.slu.rxIe = true ∧ s.slu.rxDone = true) ∧
    (let s := { small with slu := { Slu.reset with rxDone := true, txIe := true } }
     s.irqs = [] ∧ s.priority < 4 ∧ (s.slu.rxIe && s.slu.rxDone) = false ∧ s.slu.txIe = true ∧ s.slu.txReady = true) ∧
    (arbitrate { small with irqs := [⟨.l4, some 0o60⟩] } = .take (.device 0o60) small) ∧
    (∀ h ∈ [true, false],
      let s := { small with irqs := [⟨.l4, some 0o60⟩], ps := 0o200, bhalt := h }
      unlatched s = true ∧ eventTaken s = false ∧ (∀ r ∈ s.irqs, r.level.toNat ≤ s.priority) ∧
      (s.priority < 4 → sluVector s.slu = none)) := by decide

/-- The first push times out; the first is answered, at the console's status register, and the second times out. -/
theorem witness_DoubleBusError :
    (∃ (s : State) (nps npc : Word) (s1 s2 u : State),
      readWordMode 0 6 s = .ok nps s1 ∧ readWordMode 0 4 s1 = .ok npc s2 ∧
      push s.ps { s2 with ps := trapPs s.ps nps } = .trap .busTimeout u) ∧
    (∃ (s : State) (nps npc : Word) (s1 s2 z u t : State),
      readWordMode 0 6 s = .ok nps s1 ∧ readWordMode 0 4 s1 = .ok npc s2 ∧
      push s.ps { s2 with ps := trapPs s.ps nps } = .ok () z ∧ push z.pc z = .trap .busTimeout u ∧
      enterTrap .busTimeout s = .next t ∧ t.inputs = [] ∧ t.bdmr = false) :=
  ⟨⟨{ small with sp0 := 0o160002 }, _, _, _, _, _, rfl, rfl, rfl⟩,
   ⟨{ small with sp0 := 0o177562 }, _, _, _, _, _, _, _, rfl, rfl, rfl, rfl, rfl, rfl, rfl⟩⟩

theorem writable_at2 : (Place.phys 0o2002).writable small.cfg := by
  intro _ r h
  cases h
  decide

theorem witness_SingleOperandResults :
    (∃ i o f p t d u, rewritesWord i = some (o, f) ∧ wordPlace .write o small = .ok p t ∧ readPlace p t = .ok d u ∧ p.writable small.cfg) ∧
    (∃ i o f p t d u, rewritesByte i = some (o, f) ∧ bytePlace .write o small = .ok p t ∧ readPlaceByte p t = .ok d u ∧ p.writable small.cfg) :=
  ⟨⟨.com at2, at2, _, _, _, _, _, rfl, rfl, rfl, writable_at2⟩, ⟨.rorb reg3, reg3, _, _, _, _, _, rfl, rfl, rfl, trivial⟩⟩

theorem witness_ClearSignExtendAndTest :
    (∃ p t v, wordPlace .write at2 small = .ok p t ∧ writePlace p 0 (t.setCC ⟨false, true, false, false⟩) = .ok () v) ∧
    (∃ p t v, bytePlace .write at2 small = .ok p t ∧ writePlaceByte p 0 (t.setCC ⟨false, true, false, false⟩) = .ok () v) ∧
    (∃ p t v, wordPlace .write reg3 small = .ok p t ∧
      writePlace p (if small.cc.n then 0o177777 else 0) (t.setCC ⟨small.cc.n, !small.cc.n, false, small.cc.c⟩) = .ok () v) ∧
    (∃ d t, loadWord at2 small = .ok d t) ∧ (∃ d t, loadByte reg3 small = .ok d t) :=
  ⟨⟨_, _, _, rfl, rfl⟩, ⟨_, _, _, rfl, rfl⟩, ⟨_, _, _, rfl, rfl⟩, ⟨_, _, rfl⟩, ⟨_, _, rfl⟩⟩

/-- The instructions that rewrite memory, and those that only write it: at an address that is written, and, for a byte, at the
transmitter's buffer, which is no plain place. -/
theorem witness_SingleOperandFrame :
    (∃ i o f p t d u v, rewritesWord i = some (o, f) ∧ wordPlace .write o small = .ok p t ∧ readPlace p t = .ok d u ∧
      exec i small = .next v ∧ p.writable small.cfg ∧ p.plain small.cfg) ∧
    (∃ i o f p t d u v, rewritesByte i = some (o, f) ∧ bytePlace .write o small = .ok p t ∧ readPlaceByte p t = .ok d u ∧
      exec i small = .next v ∧ p.writable small.cfg ∧ p.plain small.cfg) ∧
    (∃ p t u v w, wordPlace .write at2 small = .ok p t ∧ writePlace p 0 t = .ok () u ∧ exec (.clr at2) small = .next v ∧
      exec (.sxt at2) small = .next w ∧ p.plain small.cfg) ∧
    (∃ p t u v, bytePlace .write at2 small = .ok p t ∧ writePlaceByte p 0 t = .ok () u ∧ exec (.clrb at2) small = .next v ∧
      p.plain small.cfg) ∧
    (∃ p t u v, let s := { small with r2 := 0o177566 }
      bytePlace .write at2 s = .ok p t ∧ writePlaceByte p 0 t = .ok () u ∧ exec (.clrb at2) s = .next v) :=
  ⟨⟨.com at2, at2, _, _, _, _, _, _, rfl, rfl, rfl, rfl, writable_at2, rfl, _, rfl, .inl rfl⟩,
   ⟨.rorb at2, at2, _, _, _, _, _, _, rfl, rfl, rfl, rfl, writable_at2, rfl, _, rfl, .inl rfl⟩,
   ⟨_, _, _, _, _, rfl, rfl, rfl, rfl, rfl, _, rfl, .inl rfl⟩, ⟨_, _, _, _, rfl, rfl, rfl, rfl, _, rfl, .inl rfl⟩,
   ⟨_, _, _, _, rfl, rfl, rfl⟩⟩

theorem witness_DoubleOperandResults :
    (∃ i a b f x p t d u, combinesWord i = some (a, b, f) ∧ sourceAndPlace .write a b small x p t ∧ readPlace p t = .ok d u ∧ p.writable small.cfg) ∧
    (∃ i a b f x p t d u, combinesByte i = some (a, b, f) ∧ sourceAndPlaceByte .write a b small x p t ∧
      readPlaceByte p t = .ok d u ∧ p.writable small.cfg) ∧
    (∃ i a b f x p t d u, comparesWord i = some (a, b, f) ∧ sourceAndPlace .read a b small x p t ∧ readPlace p t = .ok d u) ∧
    (∃ i a b f x p t d u, comparesByte i = some (a, b, f) ∧ sourceAndPlaceByte .read a b small x p t ∧
      readPlaceByte p t = .ok d u) :=
  ⟨⟨.add reg3 at2, reg3, at2, _, _, _, _, _, _, rfl, .inl ⟨rfl, rfl, rfl⟩, rfl, writable_at2⟩,
   ⟨.bicb at2 reg3, at2, reg3, _, _, _, _, _, _, rfl, .inr ⟨by decide, _, rfl, rfl⟩, rfl, trivial⟩,
   ⟨.cmp at2 reg3, at2, reg3, _, _, _, _, _, _, rfl, .inr ⟨by decide, _, rfl, rfl⟩, rfl⟩,
   ⟨.bitb reg3 at2, reg3, at2, _, _, _, _, _, _, rfl, .inl ⟨rfl, rfl, rfl⟩, rfl⟩⟩

theorem witness_MoveResults :
    (∃ x p t v, sourceAndPlace .write reg3 at2 small x p t ∧
      writePlace p x (t.setCC (codesOf x false small.cc.c)) = .ok () v) ∧
    (∃ x r t, sourceAndPlaceByte .write at2 reg3 small x (.reg r) t) ∧
    (∃ x a t v, sourceAndPlaceByte .write reg3 at2 small x (.phys a) t ∧
      physWriteByte a x (t.setCC (codesOf x false small.cc.c)) = .ok () v) :=
  ⟨⟨_, _, _, _, .inl ⟨rfl, rfl, rfl⟩, rfl⟩, ⟨_, _, _, .inr ⟨by decide, _, rfl, rfl⟩⟩, ⟨_, _, _, _, .inl ⟨rfl, rfl, rfl⟩, rfl⟩⟩

theorem witness_DoubleOperandFrame :
    (∃ i a b f x p t d u v, combinesWord i = some (a, b, f) ∧ sourceAndPlace .write a b small x p t ∧
      readPlace p t = .ok d u ∧ exec i small = .next v ∧ p.writable small.cfg ∧ p.plain small.cfg) ∧
    (∃ i a b f x p t d u v, combinesByte i = some (a, b, f) ∧ sourceAndPlaceByte .write a b small x p t ∧
      readPlaceByte p t = .ok d u ∧ exec i small = .next v ∧ p.writable small.cfg ∧ p.plain small.cfg) ∧
    (∃ i a b f x p t d u v, comparesWord i = some (a, b, f) ∧ sourceAndPlace .read a b small x p t ∧
      readPlace p t = .ok d u ∧ exec i small = .next v) ∧
    (∃ i a b f x p t d u v, comparesByte i = some (a, b, f) ∧ sourceAndPlaceByte .read a b small x p t ∧
      readPlaceByte p t = .ok d u ∧ exec i small = .next v) ∧
    (∃ x p t u v, sourceAndPlace .write reg3 at2 small x p t ∧ writePlace p x t = .ok () u ∧
      exec (.mov reg3 at2) small = .next v ∧ p.plain small.cfg) ∧
    (∃ x p t u v, sourceAndPlaceByte .write reg3 at2 small x p t ∧ writePlaceByte p x t = .ok () u ∧
      exec (.movb reg3 at2) small = .next v ∧ p.plain small.cfg) :=
  ⟨⟨.add reg3 at2, reg3, at2, _, _, _, _, _, _, _, rfl, .inl ⟨rfl, rfl, rfl⟩, rfl, rfl, writable_at2, rfl, _, rfl, .inl rfl⟩,
   ⟨.bicb at2 reg3, at2, reg3, _, _, _, _, _, _, _, rfl, .inr ⟨by decide, _, rfl, rfl⟩, rfl, rfl, trivial, trivial⟩,
   ⟨.cmp at2 reg3, at2, reg3, _, _, _, _, _, _, _, rfl, .inr ⟨by decide, _, rfl, rfl⟩, rfl, rfl⟩,
   ⟨.bitb reg3 at2, reg3, at2, _, _, _, _, _, _, _, rfl, .inl ⟨rfl, rfl, rfl⟩, rfl, rfl⟩,
   ⟨_, _, _, _, _, .inl ⟨rfl, rfl, rfl⟩, rfl, rfl, rfl, _, rfl, .inl rfl⟩,
   ⟨_, _, _, _, _, .inl ⟨rfl, rfl, rfl⟩, rfl, rfl, rfl, _, rfl, .inl rfl⟩⟩

/-- Also for `DivideResult`, `ShiftResults` and `ExtendedIntegerFrame`, which have the same hypothesis; the values are those
of each of their cases. -/
theorem witness_MultiplyResult :
    (∃ x t, loadWord reg3 small = .ok x t) ∧ (∃ x t, loadWord at2 small = .ok x t) := ⟨⟨_, _, rfl⟩, ⟨_, _, rfl⟩⟩

/-- An odd register, a zero divisor, a quotient that is too large by one, and one that fits at the end of the range. -/
theorem witness_DivideResult :
    Reg.r1.toNat % 2 = 1 ∧ Reg.r0.toNat % 2 = 0 ∧
    (∃ t, loadWord reg3 { small with r3 := 0 } = .ok 0 t) ∧
    (∃ t, loadWord reg3 { small with r3 := 1, r1 := 0o100000 } = .ok 1 t ∧ (t.reg .r0).toInt * 65536 + (t.reg .r1).toNat = 32768) ∧
    (∃ t, loadWord reg3 { small with r3 := 1, r1 := 0o77777 } = .ok 1 t ∧ (t.reg .r0).toInt * 65536 + (t.reg .r1).toNat = 32767) :=
  ⟨rfl, rfl, ⟨_, rfl⟩, ⟨_, rfl, by decide⟩, ⟨_, rfl, by decide⟩⟩

/-- The ends of the count's range, and 0. -/
theorem witness_ShiftResults :
    (∃ t, loadWord reg3 { small with r3 := 0o37 } = .ok 0o37 t ∧ countRule 0o37 = 31) ∧
    (∃ t, loadWord reg3 { small with r3 := 0o40 } = .ok 0o40 t ∧ countRule 0o40 = -32) ∧
    (∃ t, loadWord reg3 { small with r3 := 0 } = .ok 0 t ∧ countRule 0 = 0) :=
  ⟨⟨_, rfl, by decide⟩, ⟨_, rfl, by decide⟩, ⟨_, rfl, by decide⟩⟩

theorem witness_ExtendedIntegerFrame :
    ∃ x t v, loadWord reg3 small = .ok x t ∧ exec (.mul .r0 reg3) small = .next v := ⟨_, _, _, rfl, rfl⟩

theorem witness_BranchResults :
    ∃ base k c, branchRule (.ble 0o200) = some (base, k, c) ∧ c { small with ps := 4 }.cc ∧ ¬ c small.cc :=
  ⟨_, _, _, rfl, .inl rfl, by decide⟩

theorem witness_JumpsAndSubroutines :
    at2.mode ≠ .reg ∧ (∃ va t z, locate 2 at2 small = .ok (.mem va) t ∧ push 0 t = .ok () z) ∧ reg3.mode = .reg ∧
    (∃ v u, pop { small with pc := small.reg .r5 } = .ok v u) ∧
    (∃ v u, pop { small.setReg .r6 (BitVec.ofNat 16 (small.pc.toNat + 2 * (2 : BitVec 6).toNat)) with pc := small.r5 } = .ok v u) :=
  ⟨by decide, ⟨_, _, _, rfl, rfl⟩, rfl, ⟨_, _, rfl⟩, ⟨_, _, rfl⟩⟩

theorem witness_SubroutineFrame :
    (∃ va t v, at2.mode ≠ .reg ∧ locate 2 at2 small = .ok (.mem va) t ∧ exec (.jmp at2) small = .next v) ∧
    (∃ va t z v a, at2.mode ≠ .reg ∧ locate 2 at2 small = .ok (.mem va) t ∧ push 0 t = .ok () z ∧ pushPlace t a ∧
      (Place.phys a).plain small.cfg ∧ exec (.jsr .r5 at2) small = .next v) ∧
    (∃ x u v, pop { small with pc := small.reg .r5 } = .ok x u ∧ exec (.rts .r5) small = .next v) ∧
    (∃ x u v, pop { small.setReg .r6 (BitVec.ofNat 16 (small.pc.toNat + 2 * (2 : BitVec 6).toNat)) with pc := small.r5 } = .ok x u ∧
      exec (.mark 2) small = .next v) :=
  ⟨⟨_, _, _, by decide, rfl, rfl⟩,
   ⟨_, _, _, _, _, by decide, rfl, rfl, ⟨_, rfl⟩, ⟨rfl, _, rfl, .inl rfl⟩, rfl⟩,
   ⟨_, _, _, rfl, rfl⟩, ⟨_, _, _, rfl, rfl⟩⟩

theorem witness_ReturnFromTrap :
    (∃ npc nps s1 s2, pop small = .ok npc s1 ∧ pop s1 = .ok nps s2 ∧ small.mode = 0) ∧
    (∃ npc nps s1 s2, pop { small with ps := 0o140000 } = .ok npc s1 ∧ pop s1 = .ok nps s2 ∧
      ({ small with ps := 0o140000 } : State).mode ≠ 0) :=
  ⟨⟨_, _, _, _, rfl, rfl, by decide⟩, ⟨_, _, _, _, rfl, rfl, by decide⟩⟩

/-- Each case of `HaltResult` and of `WaitAndReset`. -/
theorem witness_HaltResult_WaitAndReset :
    ({ small with ps := 0o140000 } : State).mode ≠ 0 ∧ small.mode = 0 ∧ { small with bpok := false }.bpok = false ∧
    small.bpok = true ∧ { resetConfig with w7HaltTraps := true }.w7HaltTraps = true ∧ small.cfg.w7HaltTraps = false ∧
    { small with run := .wait }.run = .wait ∧ small.inputs = [] ∧ small.bdmr = false ∧
    arbitrate { small with run := .wait } = .idle ∧ arbitrate { small with run := .wait, eventFF := true } ≠ .idle ∧
    small.cfg.hasMmu = true ∧ { resetConfig with hasMmu := false }.hasMmu = false := by
  refine ⟨by decide, by decide, rfl, rfl, rfl, rfl, rfl, rfl, rfl, by decide, by decide, rfl, rfl⟩

theorem witness_ConditionCodeOperators :
    ∃ t m, codeOperator (.ccop true false true true false) = some (t, m) := ⟨_, _, rfl⟩

theorem witness_ProcessorStatusMoves :
    (∃ r t, bytePlace .write reg3 small = .ok (.reg r) t) ∧
    (∃ a t v, bytePlace .write at2 small = .ok (.phys a) t ∧
      physWriteByte a (small.ps.setWidth 8) (t.setCC (codesOf (small.ps.setWidth 8) false small.cc.c)) = .ok () v) ∧
    (∃ x t, loadByte at2 small = .ok x t) ∧ small.mode = 0 ∧ ({ small with ps := 0o140000 } : State).mode ≠ 0 :=
  ⟨⟨_, _, rfl⟩, ⟨_, _, _, rfl, rfl⟩, ⟨_, _, rfl⟩, by decide, by decide⟩

theorem witness_PreviousSpaceMoves :
    (∃ v, push (small.spOf small.prevMode) (small.setCC (codesOf (small.spOf small.prevMode) false small.cc.c)) = .ok () v) ∧
    (∃ va t x u v, locate 2 at2 small = .ok (.mem va) t ∧ readWordMode small.prevMode va t = .ok x u ∧
      push x (u.setCC (codesOf x false small.cc.c)) = .ok () v) ∧
    (∃ x s1, pop small = .ok x s1) ∧
    (∃ x s1 va t v, pop small = .ok x s1 ∧ locate 2 at2 s1 = .ok (.mem va) t ∧
      writeWordMode small.prevMode va x (t.setCC (codesOf x false small.cc.c)) = .ok () v) :=
  ⟨⟨_, rfl⟩, ⟨_, _, _, _, _, rfl, rfl, rfl⟩, ⟨_, _, rfl⟩, ⟨_, _, _, _, _, rfl, rfl, rfl⟩⟩

theorem witness_StatusAndSpaceFrame :
    (∃ p t v, bytePlace .write at2 small = .ok p t ∧ p.plain small.cfg ∧ exec (.mfps at2) small = .next v) ∧
    (∃ v a, push (small.reg .r3) (small.setCC (codesOf (small.reg .r3) false small.cc.c)) = .ok () v ∧
      pushPlace (small.setCC (codesOf (small.reg .r3) false small.cc.c)) a ∧ (Place.phys a).plain small.cfg) ∧
    (∃ va t x u v a, locate 2 at2 small = .ok (.mem va) t ∧ readWordMode small.prevMode va t = .ok x u ∧
      push x (u.setCC (codesOf x false small.cc.c)) = .ok () v ∧
      pushPlace (u.setCC (codesOf x false small.cc.c)) a ∧ (Place.phys a).plain small.cfg) ∧
    (∃ x s1 v, pop small = .ok x s1 ∧ exec (.mtpi reg3) small = .next v) ∧
    (∃ x s1 va t a y v, pop small = .ok x s1 ∧ locate 2 at2 s1 = .ok (.mem va) t ∧
      translate small.prevMode va .write (t.setCC (codesOf x false small.cc.c)) = .ok a y ∧
      (Place.phys a).plain small.cfg ∧ exec (.mtpd at2) small = .next v) :=
  ⟨⟨_, _, _, rfl, ⟨rfl, _, rfl, .inl rfl⟩, rfl⟩,
   ⟨_, _, rfl, ⟨_, rfl⟩, rfl, _, rfl, .inl rfl⟩,
   ⟨_, _, _, _, _, _, rfl, rfl, rfl, ⟨_, rfl⟩, rfl, _, rfl, .inl rfl⟩,
   ⟨_, _, _, rfl, rfl⟩,
   ⟨_, _, _, _, _, _, _, rfl, rfl, rfl, ⟨rfl, _, rfl, .inl rfl⟩, rfl⟩⟩

/-! ### Floating point -/

/-- A state with AC0 = 1.5, the datum 1.0 at 002000, a -0 at 002010, and R2 pointing at 002000. -/
def floaty : State :=
  withAc0 (acc 0o40300 0 0 0) (holding [(0o2000, 0o40200), (0o2010, 0o100000)] { start with r2 := 0o2000, r4 := 0o2010 })

/-- The same with FD, or with FIUV. -/
def floatyD : State := { floaty with fps := 0o200 }
def floatyU : State := { floaty with fps := 0o4000 }

abbrev at4 : Operand := ⟨.deferred, .r4⟩

theorem witness_FloatingOperands :
    floaty.mem.wf ∧ floaty.busInputs = [] ∧ floaty.relocating = false ∧
    ∀ k : Fin 4, isRam floaty (unmapped (0o2000 + BitVec.ofNat 16 (2 * k.val))) := by
  refine ⟨by decide, rfl, by decide, fun k => ?_⟩
  match k with
  | 0 => exact ⟨rfl, rfl, _, rfl, rfl⟩
  | 1 => exact ⟨rfl, rfl, _, rfl, rfl⟩
  | 2 => exact ⟨rfl, rfl, _, rfl, rfl⟩
  | 3 => exact ⟨rfl, rfl, _, rfl, rfl⟩

/-- A floating operand in memory and one in an accumulator can be read, and one can be written. -/
theorem witness_fpRead :
    (∃ x p u, floaty.cfg.fpp = true ∧ fpRead false at2 floaty x p u ∧ undefinedVariable p x floaty = false) ∧
    (∃ x p u, fpRead true ⟨.reg, .r5⟩ floatyD x p u) ∧
    (∃ x p u, fpRead false at4 floatyU x p u ∧ undefinedVariable p x floatyU = true) :=
  ⟨⟨_, _, _, rfl, ⟨_, .inr ⟨by decide, _, rfl, rfl⟩, rfl⟩, by decide⟩,
   ⟨_, _, _, _, .inl ⟨rfl, rfl, _, rfl, rfl⟩, rfl⟩,
   ⟨_, _, _, ⟨_, .inr ⟨by decide, _, rfl, rfl⟩, rfl⟩, by decide⟩⟩

/-- For the moves: a place to store the accumulator, one to clear, one whose sign is changed. -/
theorem witness_FloatingMoves :
    (∃ p t v, floaty.cfg.fpp = true ∧ fpPlace floaty.fd at2 floaty p t ∧
      writeFp floaty.fd p (accDatum floaty.fd 0 t) t = .ok () v) ∧
    (∃ p t v, fpPlace floaty.fd at2 floaty p t ∧ writeFp floaty.fd p 0 t = .ok () v) ∧
    (∃ x p u v, fpRead floaty.fd at2 floaty x p u ∧
      writeFp floaty.fd p (if expOf x = 0 then 0 else x &&& 0x7fffffffffffffff) u = .ok () v) :=
  ⟨⟨_, _, _, rfl, .inr ⟨by decide, _, rfl, rfl⟩, rfl⟩, ⟨_, _, _, .inr ⟨by decide, _, rfl, rfl⟩, rfl⟩,
   ⟨_, _, _, _, ⟨_, .inr ⟨by decide, _, rfl, rfl⟩, rfl⟩, rfl⟩⟩

/-- A divisor with exponent 0 and one without; two operands with exponent 0. -/
theorem witness_FloatingArithmetic :
    (∃ a o f x p u, floatArithmetic (.divf .ac0 at2) = some (a, o, f) ∧ fpRead floaty.fd o floaty x p u ∧ expOf x ≠ 0) ∧
    (∃ x p u, fpRead floaty.fd at4 floaty x p u ∧ expOf x = 0) :=
  ⟨⟨_, _, _, _, _, _, rfl, ⟨_, .inr ⟨by decide, _, rfl, rfl⟩, rfl⟩, by decide⟩,
   ⟨_, _, _, ⟨_, .inr ⟨by decide, _, rfl, rfl⟩, rfl⟩, by decide⟩⟩

/-- A datum with nothing but an exponent is a power of two (R434). -/
theorem datumVal_pow {x : Datum} {e : Nat} (h : x.toNat = e * 2 ^ 55 ∧ 0 < e ∧ e < 256) : datumVal x = 2 ^ ((e : ℤ) - 129) := by
  obtain ⟨h, h0, h1⟩ := h
  have he : expOf x = e := by unfold expOf; omega
  have hf : x.toNat % 2 ^ 55 = 0 := by omega
  have hs : x.getLsbD 63 = false := by
    rw [BitVec.getLsbD, Nat.testBit_eq_decide_div_mod_eq]; simp; omega
  have hz : (2 : ℚ) ^ ((e : ℤ) - 129) = 2 ^ (55 : ℤ) * 2 ^ ((e : ℤ) - 184) := by
    rw [← zpow_add₀ (by norm_num)]; congr 1; ring
  rw [datumVal, he, hf, hs, if_neg (by omega), hz]; norm_num

/-- AC0 and AC1 hold two powers of two, with these biased exponents. -/
def powers (fps : Word) (i j : Nat) : State :=
  { start with fps := fps
               ac := (start.ac.set 0 ⟨BitVec.ofNat 32 (i * 2 ^ 23), 0⟩).set 1 ⟨BitVec.ofNat 32 (j * 2 ^ 23), 0⟩ }

/-- The first product of each of MOD's cases: 0; 2^127; 2^24 in single and 2^56 in double precision; 1; and 1/2, below them. -/
theorem witness_FloatingModulo :
    ∀ x ∈ [(0#16, 0, 129, (0 : ℚ)), (0, 193, 192, 2 ^ 127), (0, 153, 129, 2 ^ 24), (0o200, 157, 157, 2 ^ 56),
        (0, 129, 129, 1), (0, 129, 128, 1 / 2)],
      let s := powers x.1 x.2.1 x.2.2.1
      ∃ d p u, s.cfg.fpp = true ∧ fpRead s.fd ⟨.reg, .r1⟩ s d p u ∧ undefinedVariable p d s = false ∧
        datumVal (accDatum s.fd (acIndex .ac0) u) * datumVal d = x.2.2.2 := by
  intro x hx
  simp only [List.mem_cons, List.not_mem_nil, or_false] at hx
  have m {x y : Datum} {p q r : ℚ} (hx : datumVal x = p) (hy : datumVal y = q) (h : p * q = r) :
      datumVal x * datumVal y = r := by rw [hx, hy, h]
  rcases hx with rfl | rfl | rfl | rfl | rfl | rfl <;>
    refine ⟨_, _, _, rfl, ⟨_, .inl ⟨rfl, rfl, _, rfl, rfl⟩, rfl⟩, rfl, ?_⟩
  · exact m (if_pos (by decide)) rfl (by simp)
  · exact m (datumVal_pow (e := 193) (by decide)) (datumVal_pow (e := 192) (by decide)) (by norm_num)
  · exact m (datumVal_pow (e := 153) (by decide)) (datumVal_pow (e := 129) (by decide)) (by norm_num)
  · exact m (datumVal_pow (e := 157) (by decide)) (datumVal_pow (e := 157) (by decide)) (by norm_num)
  · exact m (datumVal_pow (e := 129) (by decide)) (datumVal_pow (e := 129) (by decide)) (by norm_num)
  · exact m (datumVal_pow (e := 129) (by decide)) (datumVal_pow (e := 128) (by decide)) (by norm_num)

/-- Loads and stores between the precisions find their operands. -/
theorem witness_FloatingConversions :
    (∃ x p u, fpRead (!floaty.fd) at2 floaty x p u ∧ expOf x ≠ 0) ∧
    (∃ x p u, fpRead (!floatyD.fd) at4 floatyD x p u ∧ expOf x = 0) ∧
    (∃ p t v, fpPlace (!floaty.fd) at2 floaty p t ∧ writeFp (!floaty.fd) p 0 t = .ok () v) ∧
    (∃ p t w, fpPlace (!floatyD.fd) at2 floatyD p t ∧ writeFp false p 0 t = .ok () w) :=
  ⟨⟨_, _, _, ⟨_, .inr ⟨by decide, _, rfl, rfl⟩, rfl⟩, by decide⟩, ⟨_, _, _, ⟨_, .inr ⟨by decide, _, rfl, rfl⟩, rfl⟩, by decide⟩,
   ⟨_, _, _, .inr ⟨by decide, _, rfl, rfl⟩, rfl⟩, ⟨_, _, _, .inr ⟨by decide, _, rfl, rfl⟩, rfl⟩⟩

theorem witness_IntegerConversions :
    (∃ n u, integerSource at2 floaty n u) ∧
    (∃ n u, integerSource at2 { floaty with fps := 0o100 } n u) ∧
    (∃ n u, integerSource imm { floaty with fps := 0o100 } n u) ∧
    (∃ n u, integerSource reg3 { floaty with fps := 0o100 } n u) ∧
    (∃ l t v, locate 2 reg3 floaty = .ok l t ∧ stores [1] l (t.setCC ⟨false, false, false, false⟩) v) ∧
    (∃ l t v, locate 4 at2 { floaty with fps := 0o100 } = .ok l t ∧
      stores [0, 1] l (t.setCC ⟨false, false, false, false⟩) v) :=
  ⟨⟨_, _, _, rfl, rfl⟩, ⟨_, _, _, _, _, _, _, rfl, rfl, rfl, rfl⟩, ⟨_, _, _, _, _, rfl, rfl, rfl⟩, ⟨_, _, rfl, rfl⟩,
   ⟨_, _, _, rfl, rfl⟩, ⟨_, _, _, rfl, rfl⟩⟩

/-- The ends of LDEXP's range: 177 and 200, -177 and -200. -/
theorem witness_ExponentAndStatusMoves :
    (∃ u, loadWord reg3 { floaty with r3 := 0o177 } = .ok 0o177 u) ∧ (∃ u, loadWord reg3 { floaty with r3 := 0o200 } = .ok 0o200 u) ∧
    (0o177#16).toInt = 127 ∧ (0o200#16).toInt = 128 ∧ (0o177601#16).toInt = -127 ∧ (0o177600#16).toInt = -128 ∧
    (∃ l t v, locate 2 reg3 floaty = .ok l t ∧ stores [1] l (t.setCC ⟨false, false, false, false⟩) v) ∧
    (∃ l t v, locate 2 at2 floaty = .ok l t ∧ stores [floaty.fps &&& 0o147757] l t v) ∧
    (∃ l t v, locate 4 at2 floaty = .ok l t ∧ stores [floaty.fec.setWidth 16, floaty.fea] l t v) :=
  ⟨⟨_, rfl⟩, ⟨_, rfl⟩, by decide, by decide, by decide, by decide, ⟨_, _, _, rfl, rfl⟩, ⟨_, _, _, rfl, rfl⟩, ⟨_, _, _, rfl, rfl⟩⟩

theorem witness_FloatingOpcodeErrors :
    (∃ o b, floatSpecifier (.ldf .ac0 ⟨.reg, .r6⟩) = some (o, b) ∧ o.mode = .reg ∧ o.reg = .r6) ∧
    (Instr.ldfps reg3).wellFormed = true ∧ isFloating (.ldfps reg3) = true ∧ { resetConfig with hasFpp := false }.fpp = false :=
  ⟨⟨_, _, rfl, rfl, rfl⟩, rfl, by decide, rfl⟩

/-- Whether `n` words can be stored in memory that replies. -/
def plainCheck (m : BitVec 2) (va : Word) (n : Nat) (s : State) : Bool :=
  (List.range n).all fun k =>
    match translate m (va + BitVec.ofNat 16 (2 * k)) .write s with
    | .ok a _ => (intRegAt s.cfg (wordAddr a)).isNone &&
        (match regionAt s.cfg (wordAddr a) with | some r => decide (r.kind = .ram ∨ r.kind = .rom true) | none => false)
    | _ => false

theorem plain_of_check {m : BitVec 2} {va : Word} {n : Nat} {s : State} (h : plainCheck m va n s = true) :
    plainWords m va n s := by
  intro k hk
  have h := List.all_eq_true.mp h k (List.mem_range.mpr hk)
  split at h
  · rename_i a t e
    rw [Bool.and_eq_true] at h
    obtain ⟨h1, h2⟩ := h
    split at h2
    · rename_i r er
      exact ⟨a, t, r, e, Option.isNone_iff_eq_none.mp h1, er, of_decide_eq_true h2⟩
    · cases h2
  · cases h

/-- Each row of the frame, stores of one word and of more. -/
theorem witness_FloatingFrame :
    floaty.busInputs = [] ∧ floaty.cfg.fpp = true ∧
    (∃ l o b x p u, floatReader (.addf .ac0 at2) = some (l, o, b) ∧ fpRead (floaty.fd ^^ b) o floaty x p u) ∧
    (∃ o b f va t, floatWriter (.stcfd .ac0 at2) = some (o, b, f) ∧ o.mode ≠ .reg ∧
      locate (if floaty.fd ^^ b then 8 else 4) o floaty = .ok (.mem va) t ∧ plainWords floaty.mode va 4 t) ∧
    (∃ o b f va t, floatWriter (.stf .ac0 imm) = some (o, b, f) ∧ o.mode = .autoInc ∧ o.reg = .r7 ∧
      locate (if floaty.fd ^^ b then 8 else 4) o floaty = .ok (.mem va) t ∧ plainWords floaty.mode va 1 t) ∧
    (∃ o b f d, floatWriter (.clrf ⟨.reg, .r5⟩) = some (o, b, f) ∧ o.mode = .reg ∧ accOf o.reg = some d) ∧
    (∃ va t x u, locate 4 at2 floaty = .ok (.mem va) t ∧ readFp false (.mem va false) t = .ok x u ∧
      plainWords floaty.mode va 2 u) ∧
    (∃ o n f t, wordStorer floaty.fl (.stexp .ac0 reg3) = some (o, 2, n, f) ∧ locate 2 o floaty = .ok (.reg .r3) t) ∧
    (∃ o k f va t, wordStorer floaty.fl (.stcfi .ac0 at2) = some (o, k, 1, f) ∧ locate k o floaty = .ok (.mem va) t ∧
      plainWords floaty.mode va 1 t) ∧
    (∃ o k f va t, wordStorer true (.stcfi .ac0 at2) = some (o, k, 2, f) ∧
      locate k o { floaty with fps := 0o100 } = .ok (.mem va) t ∧ plainWords floaty.mode va 2 t) ∧
    (∃ o k f va t, wordStorer floaty.fl (.stst imm) = some (o, k, 1, f) ∧ locate k o floaty = .ok (.mem va) t ∧
      plainWords floaty.mode va 1 t) ∧
    (∃ n u, integerSource at2 floaty n u) ∧ (∃ x u, loadWord at2 floaty = .ok x u) :=
  ⟨rfl, rfl,
   ⟨_, _, _, _, _, _, rfl, _, .inr ⟨by decide, _, rfl, rfl⟩, rfl⟩,
   ⟨_, _, _, _, _, rfl, by decide, rfl, plain_of_check rfl⟩,
   ⟨_, _, _, _, _, rfl, rfl, rfl, rfl, plain_of_check rfl⟩,
   ⟨_, _, _, _, rfl, rfl, rfl⟩,
   ⟨_, _, _, _, rfl, rfl, plain_of_check rfl⟩,
   ⟨_, _, _, _, rfl, rfl⟩,
   ⟨_, _, _, _, _, rfl, rfl, plain_of_check rfl⟩,
   ⟨_, _, _, _, _, rfl, rfl, plain_of_check rfl⟩,
   ⟨_, _, _, _, _, rfl, rfl, plain_of_check rfl⟩,
   ⟨_, _, _, rfl, rfl⟩, ⟨_, _, rfl⟩⟩

end Sys2Proof.Machine.Tests
end

section
/-! PROOFS. The scope of a run (spec/00_scope.md R10): every operation, from one reference up to the machine's step, stays
within the configuration that it starts in. It leaves the configuration as it is, and it stops only where that
configuration declares a stop. Both obligations of the scope follow from this one fact about `step`. -/

namespace Sys2Proof.Machine

/-! ## What a configuration declares -/

/-- The faults of a configuration: a reference to the window of a device without a description (log 32). -/
def declaresFault (c : Config) : Fault → Prop
  | .deviceWindow a => ∃ r, regionAt c (wordAddr a) = some r ∧ r.kind = .device

/-- The refusals of a configuration: a translated reference in mode 01 or 10 under the parameter's default (log 11). -/
def declaresRefusal (c : Config) (r : Refusal) : Prop :=
  r = .reservedModeTranslation ∧ c.reservedMode = .refuse ∧ c.hasMmu = true

/-- A piece of an instruction stays within a configuration: the state that it leaves has it, and a stop is one of its
own. -/
def Res.Within {α : Type} (c : Config) : Res α → Prop
  | .ok _ s => s.cfg = c
  | .trap _ s => s.cfg = c
  | .fault e => declaresFault c e
  | .refused r => declaresRefusal c r

/-- A step stays within a configuration. -/
def outcomeWithin (c : Config) : Host.Outcome State Fault Refusal → Prop
  | .next s => s.cfg = c
  | .fault e => declaresFault c e
  | .refused r => declaresRefusal c r

theorem Res.Within.bind {α β : Type} {c : Config} {x : Res α} {f : α → State → Res β} (hx : x.Within c)
    (hf : ∀ a s, s.cfg = c → (f a s).Within c) : (x.bind f).Within c := by
  cases x with
  | ok a s => exact hf a s hx
  | trap t s => exact hx
  | fault e => exact hx
  | refused r => exact hx

/-! ## Physical references -/

section
variable {c : Config} {s : State} (h : s.cfg = c)
include h

theorem slaveRead_within (a : PAddr) : (slaveRead a s).Within c := by
  subst h
  unfold slaveRead
  split
  · rfl
  · next r hr =>
    split
    · next hk => exact ⟨r, hr, hk⟩
    · rfl
    · split <;> rfl

theorem slaveWrite_within (a : PAddr) (v : Word) : (slaveWrite a v s).Within c := by
  subst h
  unfold slaveWrite
  split
  · rfl
  · next r hr =>
    split
    · next hk => exact ⟨r, hr, hk⟩
    · rfl
    · split <;> rfl
    · rfl

theorem slaveWriteByte_within (a : PAddr) (v : Byte) : (slaveWriteByte a v s).Within c := by
  subst h
  unfold slaveWriteByte
  split
  · rfl
  · next r hr =>
    split
    · next hk => exact ⟨r, hr, hk⟩
    · split <;> rfl
    · split <;> rfl
    · rfl

theorem writeIntReg_cfg (r : IntReg) (v : Word) : (writeIntReg r v s).cfg = c := by
  cases r <;> exact h

theorem dmaReply_within {α : Type} {x : Res α} (a : PAddr) (hx : x.Within c) : (dmaReply a x s).Within c := by
  unfold dmaReply
  split
  · exact h
  · exact hx

theorem dma_within {α : Type} {x : Res α} (hx : x.Within c) : (dma x s).Within c := by
  cases x with
  | ok a t => exact hx
  | trap t u => exact h
  | fault e => exact hx
  | refused r => exact hx

/-- What another agent does on the bus: a DMA reference may reach the window of a device, too. -/
theorem busAction_within (e : BusInput) : (busAction e s).Within c := by
  cases e with
  | typed k => exact h
  | sent =>
    show (transmitted s).cfg = c
    unfold transmitted
    split <;> exact h
  | parity a bad => exact h
  | dmaRead a => exact dma_within h (dmaReply_within h a (slaveRead_within h a))
  | dmaWrite a v => exact dma_within h (dmaReply_within h a (slaveWrite_within h a v))
  | dmaWriteByte a v => exact dma_within h (dmaReply_within h a (slaveWriteByte_within h a v))

theorem busActions_within (es : List BusInput) : (busActions es s).Within c := by
  induction es generalizing s with
  | nil => exact h
  | cons e es ih => exact (busAction_within h e).bind fun _ _ h => ih h

theorem startCycle_within (a : PAddr) : (startCycle a s).Within c := by
  unfold startCycle
  split
  · exact h
  · unfold busTurn
    split
    · exact h
    · next rest _ => exact busActions_within (s := { s with busInputs := rest }) h _

theorem cycleRead_within (a : PAddr) : (cycleRead a s).Within c := by
  unfold cycleRead
  split
  · exact h
  · exact slaveRead_within h a

theorem cycleWrite_within (a : PAddr) (v : Word) : (cycleWrite a v s).Within c := by
  unfold cycleWrite
  split
  · exact writeIntReg_cfg h _ _
  · exact slaveWrite_within h a v

theorem cycleWriteByte_within (a : PAddr) (v : Byte) : (cycleWriteByte a v s).Within c := by
  unfold cycleWriteByte
  split
  · exact writeIntReg_cfg h _ _
  · exact slaveWriteByte_within h a v

theorem physRead_within (a : PAddr) : (physRead a s).Within c :=
  (startCycle_within h a).bind fun _ _ h => cycleRead_within h a

theorem physReadByte_within (a : PAddr) : (physReadByte a s).Within c :=
  (physRead_within h a).bind fun _ _ h => h

theorem physWrite_within (a : PAddr) (v : Word) : (physWrite a v s).Within c :=
  (startCycle_within h a).bind fun _ _ h => cycleWrite_within h a v

theorem physWriteByte_within (a : PAddr) (v : Byte) : (physWriteByte a v s).Within c :=
  (startCycle_within h a).bind fun _ _ h => cycleWriteByte_within h a v

/-! ## Virtual references and the stack -/

theorem translateIn_within (u : Bool) (m : BitVec 2) (va : Word) (k : Access) : (translateIn u m va k s).Within c := by
  unfold translateIn
  dsimp only
  split
  · exact h
  · exact (State.noteWrite_cfg s u _ k).trans h

omit h in
/-- Only the parameter's default has no page registers and no abort for a mode (R123). -/
theorem refuse_of_pageSetOf {p : ReservedModePolicy} {m : BitVec 2} (e : pageSetOf p m = .refused) : p = .refuse := by
  unfold pageSetOf at e
  split at e
  · cases e
  · split at e
    · cases e
    · cases p
      case refuse => rfl
      all_goals cases e

/-- The one place where the model refuses. -/
theorem translate_within (m : BitVec 2) (va : Word) (k : Access) : (translate m va k s).Within c := by
  unfold translate
  split
  · next hr =>
    split
    · exact translateIn_within h _ _ _ _
    · exact translateIn_within h _ _ _ _
    · exact h
    · next e =>
      obtain ⟨hmmu, -⟩ := Bool.and_eq_true_iff.mp hr
      exact ⟨rfl, h ▸ refuse_of_pageSetOf e, h ▸ hmmu⟩
  · exact h

theorem readWordMode_within (m : BitVec 2) (va : Word) : (readWordMode m va s).Within c :=
  (translate_within h m va .read).bind fun a _ h => physRead_within h a

theorem writeWordMode_within (m : BitVec 2) (va v : Word) : (writeWordMode m va v s).Within c :=
  (translate_within h m va .write).bind fun a _ h => physWrite_within h a v

theorem readWord_within (va : Word) : (readWord va s).Within c := readWordMode_within h _ va

theorem writeWord_within (va v : Word) : (writeWord va v s).Within c := writeWordMode_within h _ va v

theorem fetchWord_within : (fetchWord s).Within c := readWord_within (s := { s with pc := s.pc + 2 }) h s.pc

theorem setReg_cfg_eq (r : Reg) (v : Word) : (s.setReg r v).cfg = c := (s.setReg_cfg r v).trans h

theorem push_within (v : Word) : (push v s).Within c :=
  writeWord_within ((State.noteStack_cfg _ _).trans (setReg_cfg_eq h _ _)) _ v

theorem pop_within : (pop s).Within c := readWord_within (setReg_cfg_eq h _ _) _

/-! ## Traps -/

omit h in
theorem keepMark_within {x : Res Unit} (hx : x.Within c) (b : Bool) : (keepMark b x).Within c := by
  cases x with
  | ok a t => exact hx
  | trap t u => exact hx
  | fault e => exact hx
  | refused r => exact hx

theorem pushTrap_within (t : Trap) (v : Word) : (pushTrap t v s).Within c := by
  unfold pushTrap
  split
  · exact keepMark_within (push_within h v) _
  · exact keepMark_within (push_within h v) _
  · exact push_within h v

theorem pushFrame_within (t : Trap) (old npc : Word) : (pushFrame t old npc s).Within c :=
  (pushTrap_within h t old).bind fun _ _ h => (pushTrap_within h t _).bind fun _ _ h => h

theorem readVector_within (v : Word) : (readVector v s).Within c :=
  (readWordMode_within h _ _).bind fun _ _ h => (readWordMode_within h _ _).bind fun _ _ h => h

theorem nestedPush_cfg (t u : Trap) : (nestedPush t u s).cfg = c := by
  unfold nestedPush
  split
  · exact setReg_cfg_eq h _ _
  · exact setReg_cfg_eq h _ _
  · exact h

theorem enterTrap_within (t : Trap) : outcomeWithin c (enterTrap t s) := by
  have hv := readVector_within h t.vector
  unfold enterTrap
  generalize readVector t.vector s = x at hv
  cases x with
  | trap u s1 => exact hv
  | fault e => exact hv
  | refused r => exact hv
  | ok v s1 =>
    have hp := pushFrame_within (s := { s1 with ps := trapPs s1.ps v.1 }) hv t s1.ps v.2
    dsimp only
    generalize pushFrame t s1.ps v.2 _ = y at hp
    cases y with
    | trap u s2 => exact nestedPush_cfg hp t u
    | fault e => exact hp
    | refused r => exact hp
    | ok _ s2 => exact hp

theorem returnFromTrap_within : (returnFromTrap s).Within c :=
  (pop_within h).bind fun _ _ h => (pop_within h).bind fun _ _ h => h

end

theorem Res.Within.finish {c : Config} {x : Res Unit} (hx : x.Within c) : outcomeWithin c (finish x) := by
  cases x with
  | ok a s => exact hx
  | trap t s => exact enterTrap_within hx t
  | fault e => exact hx
  | refused r => exact hx

/-! ## Operands -/

section
variable {c : Config} {s : State} (h : s.cfg = c)
include h

theorem stepDown_cfg (r : Reg) (v : Word) : ((s.setReg r v).noteStackReg r v).cfg = c :=
  (State.noteStackReg_cfg _ _ _).trans (setReg_cfg_eq h r v)

theorem locate_within (n : Nat) (o : Operand) : (locate n o s).Within c := by
  obtain ⟨m, r⟩ := o
  cases m with
  | reg => exact h
  | deferred => exact h
  | autoInc => exact setReg_cfg_eq h _ _
  | autoIncDef => exact (readWord_within (setReg_cfg_eq h _ _) _).bind fun _ _ h => h
  | autoDec => exact stepDown_cfg h _ _
  | autoDecDef => exact (readWord_within (stepDown_cfg h _ _) _).bind fun _ _ h => h
  | index => exact (fetchWord_within h).bind fun _ _ h => h
  | indexDef => exact (fetchWord_within h).bind fun _ _ h => (readWord_within h _).bind fun _ _ h => h

theorem placeOf_within (k : Access) (l : Loc) : (placeOf k l s).Within c := by
  cases l with
  | reg r => exact h
  | mem va => exact (translate_within h _ _ _).bind fun _ _ h => h

theorem readPlace_within (p : Place) : (readPlace p s).Within c := by
  cases p with
  | reg r => exact h
  | phys a => exact physRead_within h a

theorem readPlaceByte_within (p : Place) : (readPlaceByte p s).Within c := by
  cases p with
  | reg r => exact h
  | phys a => exact physReadByte_within h a

theorem rewritePlace_within (p : Place) (v : Word) : (rewritePlace p v s).Within c := by
  cases p with
  | reg r => exact setReg_cfg_eq h _ _
  | phys a => exact cycleWrite_within h a v

theorem rewritePlaceByte_within (p : Place) (v : Byte) : (rewritePlaceByte p v s).Within c := by
  cases p with
  | reg r => exact setReg_cfg_eq h _ _
  | phys a => exact cycleWriteByte_within h a v

theorem writePlace_within (p : Place) (v : Word) : (writePlace p v s).Within c := by
  cases p with
  | reg r => exact setReg_cfg_eq h _ _
  | phys a => exact physWrite_within h a v

theorem writePlaceByte_within (p : Place) (v : Byte) : (writePlaceByte p v s).Within c := by
  cases p with
  | reg r => exact setReg_cfg_eq h _ _
  | phys a => exact physWriteByte_within h a v

theorem writePlaceByteExt_within (p : Place) (v : Byte) : (writePlaceByteExt p v s).Within c := by
  cases p with
  | reg r => exact setReg_cfg_eq h _ _
  | phys a => exact physWriteByte_within h a v

theorem commit_within (cc : CC) {store : State → Res Unit} (hs : ∀ t, t.cfg = c → (store t).Within c) :
    (commit cc store s).Within c := by
  unfold commit
  split
  · exact hs s h
  · exact hs (s.setCC cc) h

theorem loadWord_within (o : Operand) : (loadWord o s).Within c :=
  (locate_within h 2 o).bind fun l _ h => (placeOf_within h .read l).bind fun p _ h => readPlace_within h p

theorem loadByte_within (o : Operand) : (loadByte o s).Within c :=
  (locate_within h 1 o).bind fun l _ h => (placeOf_within h .read l).bind fun p _ h => readPlaceByte_within h p

theorem storeAt_within (v : Word) (l : Loc) : (storeAt v l s).Within c :=
  (placeOf_within h .write l).bind fun p _ h => writePlace_within h p v

theorem storeByteAt_within (v : Byte) (l : Loc) : (storeByteAt v l s).Within c :=
  (placeOf_within h .write l).bind fun p _ h => writePlaceByte_within h p v

theorem storeByteExtAt_within (v : Byte) (l : Loc) : (storeByteExtAt v l s).Within c :=
  (placeOf_within h .write l).bind fun p _ h => writePlaceByteExt_within h p v

/-! ## Single and double operand shapes -/

theorem modifyWord_within (f : Alu1 16) (o : Operand) : (modifyWord f o s).Within c :=
  (locate_within h 2 o).bind fun l _ h => (placeOf_within h .write l).bind fun p _ h =>
    (readPlace_within h p).bind fun _ _ h => commit_within h _ fun _ h => rewritePlace_within h p _

theorem modifyByte_within (f : Alu1 8) (o : Operand) : (modifyByte f o s).Within c :=
  (locate_within h 1 o).bind fun l _ h => (placeOf_within h .write l).bind fun p _ h =>
    (readPlaceByte_within h p).bind fun _ _ h => commit_within h _ fun _ h => rewritePlaceByte_within h p _

theorem setWord_within (f : Alu1 16) (o : Operand) : (setWord f o s).Within c :=
  (locate_within h 2 o).bind fun l _ h => commit_within h _ fun _ h => storeAt_within h _ l

theorem setByte_within (f : Alu1 8) (o : Operand) : (setByte f o s).Within c :=
  (locate_within h 1 o).bind fun l _ h => commit_within h _ fun _ h => storeByteAt_within h _ l

theorem testWord_within (f : Alu1 16) (o : Operand) : (testWord f o s).Within c :=
  (loadWord_within h o).bind fun _ _ h => h

theorem testByte_within (f : Alu1 8) (o : Operand) : (testByte f o s).Within c :=
  (loadByte_within h o).bind fun _ _ h => h

theorem sourceWord_within (o : Operand) : (sourceWord o s).Within c := by
  unfold sourceWord
  split
  · exact h
  · exact (loadWord_within h o).bind fun _ _ h => h

theorem sourceByte_within (o : Operand) : (sourceByte o s).Within c := by
  unfold sourceByte
  split
  · exact h
  · exact (loadByte_within h o).bind fun _ _ h => h

theorem combineWord_within (f : Alu2 16) (src dst : Operand) : (combineWord f src dst s).Within c :=
  (sourceWord_within h src).bind fun _ _ h => (locate_within h 2 dst).bind fun l _ h =>
    (placeOf_within h .write l).bind fun p _ h => (readPlace_within h p).bind fun _ _ h =>
      commit_within h _ fun _ h => rewritePlace_within h p _

theorem combineByte_within (f : Alu2 8) (src dst : Operand) : (combineByte f src dst s).Within c :=
  (sourceByte_within h src).bind fun _ _ h => (locate_within h 1 dst).bind fun l _ h =>
    (placeOf_within h .write l).bind fun p _ h => (readPlaceByte_within h p).bind fun _ _ h =>
      commit_within h _ fun _ h => rewritePlaceByte_within h p _

theorem compareWord_within (f : Alu2 16) (src dst : Operand) : (compareWord f src dst s).Within c :=
  (sourceWord_within h src).bind fun _ _ h => (locate_within h 2 dst).bind fun l _ h =>
    (placeOf_within h .read l).bind fun p _ h => (readPlace_within h p).bind fun _ _ h => h

theorem compareByte_within (f : Alu2 8) (src dst : Operand) : (compareByte f src dst s).Within c :=
  (sourceByte_within h src).bind fun _ _ h => (locate_within h 1 dst).bind fun l _ h =>
    (placeOf_within h .read l).bind fun p _ h => (readPlaceByte_within h p).bind fun _ _ h => h

theorem moveWord_within (f : Alu2 16) (src dst : Operand) : (moveWord f src dst s).Within c :=
  (sourceWord_within h src).bind fun _ _ h => (locate_within h 2 dst).bind fun l _ h =>
    commit_within h _ fun _ h => storeAt_within h _ l

theorem moveByte_within (f : Alu2 8) (src dst : Operand) : (moveByte f src dst s).Within c :=
  (sourceByte_within h src).bind fun _ _ h => (locate_within h 1 dst).bind fun l _ h =>
    commit_within h _ fun _ h => storeByteExtAt_within h _ l

/-! ## Branches and extended integer instructions -/

theorem branchIf_within (taken : Bool) (offset : BitVec 8) : outcomeWithin c (branchIf taken offset s) := by
  unfold branchIf
  split <;> exact h

theorem execSob_within (r : Reg) (nn : BitVec 6) : outcomeWithin c (execSob r nn s) := by
  unfold execSob
  dsimp only
  split <;> exact setReg_cfg_eq h _ _

theorem setPair_cfg (r : Reg) (v : BitVec 32) : (setPair r v s).cfg = c :=
  setReg_cfg_eq (setReg_cfg_eq h _ _) _ _

theorem setFreeResult_within (r : Reg) : (setFreeResult r s).Within c :=
  setReg_cfg_eq (s := { s with free := s.free + 1 }) h r (Config.freeWord s.free)

theorem mulInto_within (r : Reg) (v : Word) : (mulInto r v s).Within c := by
  unfold mulInto
  dsimp only
  split
  · exact setReg_cfg_eq h _ _
  · exact setPair_cfg h _ _

theorem divInto_within (r : Reg) (v : Word) : (divInto r v s).Within c := by
  unfold divInto
  split
  · exact setFreeResult_within h r
  · split
    · exact h
    · exact setReg_cfg_eq (setReg_cfg_eq h _ _) _ _

theorem ashInto_within (r : Reg) (v : Word) : (ashInto r v s).Within c := setReg_cfg_eq h r _

theorem ashcInto_within (r : Reg) (v : Word) : (ashcInto r v s).Within c := by
  unfold ashcInto
  split
  · unfold ashcOdd
    split
    · exact setFreeResult_within h r
    · split
      · exact setReg_cfg_eq h r _
      · exact h
  · exact setPair_cfg h r _

/-! ## Jumps, status moves, HALT and RESET -/

theorem jumpTarget_within (o : Operand) : (jumpTarget o s).Within c := by
  unfold jumpTarget
  split
  · exact h
  · refine (locate_within h 2 o).bind fun l _ h => ?_
    cases l <;> exact h

theorem linkWord_within (r : Reg) : (linkWord r s).Within c := by
  unfold linkWord
  split <;> exact h

theorem readPrevious_within (l : Loc) : (readPrevious l s).Within c := by
  unfold readPrevious
  split
  · exact h
  · exact h
  · exact readWordMode_within h _ _

theorem writePrevious_within (l : Loc) (v : Word) : (writePrevious l v s).Within c := by
  unfold writePrevious
  split
  · exact (State.setSpOf_cfg _ _ _).trans h
  · exact setReg_cfg_eq h _ _
  · exact writeWordMode_within h _ _ _

theorem movePrevious_within (o : Operand) : (movePrevious o s).Within c :=
  (locate_within h 2 o).bind fun l _ h => (readPrevious_within h l).bind fun v _ h =>
    commit_within h _ fun _ h => push_within h v

theorem moveToPrevious_within (o : Operand) : (moveToPrevious o s).Within c :=
  (pop_within h).bind fun v _ h => (locate_within h 2 o).bind fun l _ h =>
    commit_within h _ fun _ h => writePrevious_within h l v

theorem execHalt_within : outcomeWithin c (execHalt s) := by
  unfold execHalt
  split
  · exact enterTrap_within h _
  · split
    · exact h
    · split
      · exact enterTrap_within h _
      · exact h

theorem clearMmuStatus_cfg : (clearMmuStatus s).cfg = c := by
  unfold clearMmuStatus
  split <;> exact h

theorem execReset_within : outcomeWithin c (execReset s) := by
  unfold execReset
  split
  · exact clearMmuStatus_cfg (s := busInit s) h
  · exact h

/-! ## Floating operands -/

theorem fpException_within (code : BitVec 4) (start : Word) : (fpException code start s).Within c := by
  unfold fpException
  split <;> exact h

theorem fpEnd_within (code : Option (BitVec 4)) (start : Word) : (fpEnd code start s).Within c := by
  cases code with
  | none => exact h
  | some k => exact fpException_within h k start

theorem writeAcc_within (dbl : Bool) (i : Fin 6) (x : Datum) : (writeAcc dbl i x s).Within c := by
  unfold writeAcc
  split <;> exact h

theorem readWords_within (n : Nat) (va : Word) : (readWords n va s).Within c := by
  induction n generalizing s va with
  | zero => exact h
  | succ n ih => exact (readWord_within h va).bind fun _ _ h => (ih h _).bind fun _ _ h => h

theorem writeWords_within (ws : List Word) (va : Word) : (writeWords ws va s).Within c := by
  induction ws generalizing s va with
  | nil => exact h
  | cons w ws ih => exact (writeWord_within h va w).bind fun _ _ h => ih h _

theorem readFp_within (dbl : Bool) (p : FpPlace) : (readFp dbl p s).Within c := by
  cases p with
  | acc i => exact h
  | mem va imm => exact (readWords_within h _ va).bind fun _ _ h => h

theorem writeFp_within (dbl : Bool) (p : FpPlace) (x : Datum) : (writeFp dbl p x s).Within c := by
  cases p with
  | acc i => exact writeAcc_within h dbl i x
  | mem va imm => exact writeWords_within h _ va

theorem withFpp_within {body : State → Res Unit} (hb : (body s).Within c) : (withFpp body s).Within c := by
  unfold withFpp
  split
  · exact hb
  · exact h

theorem fpLocate_within (dbl : Bool) (o : Operand) : (fpLocate dbl o s).Within c := by
  refine (locate_within h _ o).bind fun l _ h => ?_
  cases l <;> exact h

theorem fpOperand_within (dbl : Bool) (o : Operand) (start : Word) {body : FpPlace → State → Res Unit}
    (hb : ∀ p t, t.cfg = c → (body p t).Within c) : (fpOperand dbl o start body s).Within c := by
  unfold fpOperand
  split
  · split
    · exact fpException_within h 2 start
    · exact hb _ s h
  · exact (fpLocate_within h dbl o).bind fun _ t h => hb _ t h

theorem fpResult_within (i : Fin 6) (x : Exact) (start : Word) : (fpResult i x start s).Within c :=
  (writeAcc_within h _ i _).bind fun _ t h => fpEnd_within (s := t.setFCC _) h _ start

theorem readInteger_within (o : Operand) : (readInteger o s).Within c := by
  unfold readInteger
  split
  · refine (locate_within h 4 o).bind fun l _ h => ?_
    cases l with
    | reg r => exact h
    | mem va => exact (readWords_within h _ va).bind fun _ _ h => h
  · exact (loadWord_within h o).bind fun _ _ h => h

theorem storeWords_within (ws : List Word) (l : Loc) : (storeWords ws l s).Within c := by
  cases l with
  | reg r => exact setReg_cfg_eq h r _
  | mem va => exact writeWords_within h ws va

/-! ## Floating instructions -/

theorem fpLoad_within (a : Ac) (o : Operand) : (fpLoad a o s).Within c := by
  refine withFpp_within h (fpOperand_within h _ o _ fun p _ h => (readFp_within h _ p).bind fun x t h => ?_)
  dsimp only
  split
  · exact fpException_within (s := t.setFCC _) h _ _
  · exact writeAcc_within (s := t.setFCC _) h _ _ x

theorem fpStore_within (a : Ac) (o : Operand) : (fpStore a o s).Within c :=
  withFpp_within h (fpOperand_within h _ o _ fun p _ h => writeFp_within h _ p _)

theorem fpClear_within (o : Operand) : (fpClear o s).Within c :=
  withFpp_within h (fpOperand_within h _ o _ fun p _ h => (writeFp_within h _ p 0).bind fun _ _ h => h)

theorem fpTest_within (o : Operand) : (fpTest o s).Within c :=
  withFpp_within h (fpOperand_within h _ o _ fun p _ h => (readFp_within h _ p).bind fun _ t h =>
    fpEnd_within (s := t.setFCC _) h _ _)

theorem fpRewrite_within (f : Datum → Datum) (o : Operand) : (fpRewrite f o s).Within c :=
  withFpp_within h (fpOperand_within h _ o _ fun p _ h => (readFp_within h _ p).bind fun _ _ h =>
    (writeFp_within h _ p _).bind fun _ t h => fpEnd_within (s := t.setFCC _) h _ _)

theorem fpSource_within (o : Operand) {body : Datum → State → Res Unit}
    (hb : ∀ x t, t.cfg = c → (body x t).Within c) : (fpSource o body s).Within c := by
  refine withFpp_within h (fpOperand_within h _ o _ fun p _ h => (readFp_within h _ p).bind fun x t h => ?_)
  split
  · exact fpException_within h _ _
  · exact hb x t h

theorem fpArith_within (f : Exact → Exact → Exact) (a : Ac) (o : Operand) : (fpArith f a o s).Within c :=
  fpSource_within h o fun _ _ h => fpResult_within h _ _ _

theorem fpDivide_within (a : Ac) (o : Operand) : (fpDivide a o s).Within c := by
  refine fpSource_within h o fun _ _ h => ?_
  split
  · exact fpException_within h _ _
  · exact fpResult_within h _ _ _

theorem fpCompare_within (a : Ac) (o : Operand) : (fpCompare a o s).Within c := by
  refine fpSource_within h o fun _ t h => ?_
  dsimp only
  split
  · exact writeAcc_within (s := t.setFCC _) h _ _ _
  · exact h

theorem fpModulo_within (a : Ac) (o : Operand) : (fpModulo a o s).Within c := by
  refine fpSource_within h o fun _ _ h => Res.Within.bind ?_ fun _ _ h =>
    (writeAcc_within h _ _ _).bind fun _ t h => fpEnd_within (s := t.setFCC _) h _ _
  split
  · exact h
  · exact writeAcc_within h _ _ _

theorem fpLoadConvert_within (a : Ac) (o : Operand) : (fpLoadConvert a o s).Within c := by
  refine withFpp_within h (fpOperand_within h _ o _ fun p _ h => (readFp_within h _ p).bind fun x t h => ?_)
  split
  · exact fpException_within (s := t.setFCC _) h _ _
  · split
    · exact writeAcc_within (s := t.setFCC _) h _ _ 0
    · split
      · exact writeAcc_within (s := t.setFCC _) h _ _ x
      · exact (writeAcc_within h _ _ _).bind fun _ t h => fpEnd_within (s := t.setFCC _) h _ _

theorem fpStoreConvert_within (a : Ac) (o : Operand) : (fpStoreConvert a o s).Within c :=
  withFpp_within h (fpOperand_within h _ o _ fun p _ h => (writeFp_within h _ p _).bind fun _ t h =>
    fpEnd_within (s := t.setFCC _) h _ _)

theorem fpLoadInteger_within (a : Ac) (o : Operand) : (fpLoadInteger a o s).Within c :=
  withFpp_within h ((readInteger_within h o).bind fun _ _ h => (writeAcc_within h _ _ _).bind fun _ _ h => h)

theorem fpStoreInteger_within (a : Ac) (o : Operand) : (fpStoreInteger a o s).Within c := by
  unfold fpStoreInteger
  refine withFpp_within h ?_
  refine (locate_within h _ o).bind fun l _ h => ?_
  exact (commit_within h _ fun _ h => storeWords_within h _ l).bind fun _ t h => fpEnd_within (s := t.setFCC _) h _ _

theorem fpLoadExp_within (a : Ac) (o : Operand) : (fpLoadExp a o s).Within c := by
  unfold fpLoadExp
  refine withFpp_within h ?_
  refine (loadWord_within h o).bind fun w t h => ?_
  dsimp only
  split
  · exact h
  · split
    · split
      · exact fpException_within (s := expCodes _ _ { t with ac := _ }) h _ _
      · exact (writeAcc_within h _ _ _).bind fun _ _ h => h
    · split
      · exact fpException_within (s := expCodes _ _ { t with ac := _ }) h _ _
      · exact (writeAcc_within h _ _ _).bind fun _ _ h => h

theorem fpStoreExp_within (a : Ac) (o : Operand) : (fpStoreExp a o s).Within c :=
  withFpp_within h ((locate_within h 2 o).bind fun l _ h =>
    (commit_within h _ fun _ h => storeAt_within h _ l).bind fun _ _ h => h)

theorem fpMode_within (bit : Word) (on : Bool) : (fpMode bit on s).Within c := withFpp_within h h

theorem fpLoadStatus_within (o : Operand) : (fpLoadStatus o s).Within c :=
  withFpp_within h ((loadWord_within h o).bind fun _ _ h => h)

theorem fpStoreStatus_within (o : Operand) : (fpStoreStatus o s).Within c :=
  withFpp_within h ((locate_within h 2 o).bind fun l _ h => storeAt_within h _ l)

theorem fpStoreException_within (o : Operand) : (fpStoreException o s).Within c :=
  withFpp_within h ((locate_within h 4 o).bind fun l _ h => storeWords_within h _ l)

theorem fpCopyCodes_within : (fpCopyCodes s).Within c := withFpp_within h h

theorem fpUnassigned_within : (fpUnassigned s).Within c := withFpp_within h (fpException_within h _ _)

/-! ## Every instruction, by the shared operation that carries it out -/

theorem execRtt_within : outcomeWithin c (execRtt s) :=
  Res.Within.finish ((returnFromTrap_within h).bind fun _ _ h => h)

theorem execJmp_within (dst : Operand) : outcomeWithin c (execJmp dst s) :=
  Res.Within.finish ((jumpTarget_within h dst).bind fun _ _ h => h)

theorem execJsr_within (r : Reg) (dst : Operand) : outcomeWithin c (execJsr r dst s) :=
  Res.Within.finish <| (jumpTarget_within h dst).bind fun _ _ h => (linkWord_within h r).bind fun v _ h =>
    (push_within h v).bind fun _ _ h => setReg_cfg_eq h r _

theorem execRts_within (r : Reg) : outcomeWithin c (execRts r s) := by
  refine Res.Within.finish (Res.Within.bind (pop_within (s := { s with pc := s.reg r }) h) fun v _ h => ?_)
  exact setReg_cfg_eq h r v

theorem execMark_within (nn : BitVec 6) : outcomeWithin c (execMark nn s) := by
  have ht : (s.setReg .r6 (s.pc + 2 * nn.setWidth 16)).cfg = c := setReg_cfg_eq h _ _
  unfold execMark
  generalize s.setReg .r6 (s.pc + 2 * nn.setWidth 16) = t at ht
  exact Res.Within.finish ((pop_within (s := { t with pc := t.r5 }) ht).bind fun _ _ h => h)

theorem execMtps_within (src : Operand) : outcomeWithin c (execMtps src s) :=
  Res.Within.finish ((loadByte_within h src).bind fun _ _ h => h)

theorem execMfps_within (dst : Operand) : outcomeWithin c (execMfps dst s) :=
  Res.Within.finish ((locate_within h 1 dst).bind fun l _ h => commit_within h _ fun _ h => storeByteExtAt_within h _ l)

theorem exec_within (i : Instr) : outcomeWithin c (exec i s) := by
  cases i with
  | halt => exact execHalt_within h
  | wait => exact h
  | mfpt => exact h
  | reset => exact execReset_within h
  | bpt => exact enterTrap_within h _
  | iot => exact enterTrap_within h _
  | emt k | trap k => exact enterTrap_within h _
  | reserved000010 w | reserved000210 w | reserved007000 w | reserved075000 w | reserved107000 w =>
    exact enterTrap_within h _
  | rti => exact (returnFromTrap_within h).finish
  | rtt => exact execRtt_within h
  | jmp d => exact execJmp_within h d
  | jsr r d => exact execJsr_within h r d
  | rts r => exact execRts_within h r
  | mark nn => exact execMark_within h nn
  | nop | clc | clv | clz | cln | ccc | sec | sev | sez | sen | scc => exact h
  | ccop sense n z v k => exact h
  | br o => exact branchIf_within h true o
  | bne o | beq o | bge o | blt o | bgt o | ble o | bpl o | bmi o | bhi o | blos o | bvc o | bvs o | bcc o | bhis o
  | bcs o | blo o => exact branchIf_within h _ o
  | sob r nn => exact execSob_within h r nn
  | com d | inc d | dec d | neg d | adc d | sbc d | ror d | rol d | asr d | asl d | swab d =>
    exact (modifyWord_within h _ d).finish
  | comb d | incb d | decb d | negb d | adcb d | sbcb d | rorb d | rolb d | asrb d | aslb d =>
    exact (modifyByte_within h _ d).finish
  | clr d | sxt d => exact (setWord_within h _ d).finish
  | clrb d => exact (setByte_within h _ d).finish
  | tst d => exact (testWord_within h _ d).finish
  | tstb d => exact (testByte_within h _ d).finish
  | mov a d => exact (moveWord_within h _ a d).finish
  | movb a d => exact (moveByte_within h _ a d).finish
  | cmp a d | bit a d => exact (compareWord_within h _ a d).finish
  | cmpb a d | bitb a d => exact (compareByte_within h _ a d).finish
  | bic a d | bis a d | add a d | sub a d => exact (combineWord_within h _ a d).finish
  | bicb a d | bisb a d => exact (combineByte_within h _ a d).finish
  | xor r d => exact (combineWord_within h _ _ d).finish
  | mul r a => exact ((loadWord_within h a).bind fun v _ h => mulInto_within h r v).finish
  | div r a => exact ((loadWord_within h a).bind fun v _ h => divInto_within h r v).finish
  | ash r a => exact ((loadWord_within h a).bind fun v _ h => ashInto_within h r v).finish
  | ashc r a => exact ((loadWord_within h a).bind fun v _ h => ashcInto_within h r v).finish
  | mfpi a | mfpd a => exact (movePrevious_within h a).finish
  | mtpi d | mtpd d => exact (moveToPrevious_within h d).finish
  | mtps a => exact execMtps_within h a
  | mfps d => exact execMfps_within h d
  | cfcc => exact (fpCopyCodes_within h).finish
  | setf | seti | setd | setl => exact (fpMode_within h _ _).finish
  | ldfps o => exact (fpLoadStatus_within h o).finish
  | stfps o => exact (fpStoreStatus_within h o).finish
  | stst o => exact (fpStoreException_within h o).finish
  | clrf o | clrd o => exact (fpClear_within h o).finish
  | tstf o | tstd o => exact (fpTest_within h o).finish
  | absf o | absd o | negf o | negd o => exact (fpRewrite_within h _ o).finish
  | mulf a o | muld a o | addf a o | addd a o | subf a o | subd a o => exact (fpArith_within h _ a o).finish
  | modf a o | modd a o => exact (fpModulo_within h a o).finish
  | ldf a o | ldd a o => exact (fpLoad_within h a o).finish
  | cmpf a o | cmpd a o => exact (fpCompare_within h a o).finish
  | stf a o | std a o => exact (fpStore_within h a o).finish
  | divf a o | divd a o => exact (fpDivide_within h a o).finish
  | stexp a o => exact (fpStoreExp_within h a o).finish
  | stcfi a o | stcfl a o | stcdi a o | stcdl a o => exact (fpStoreInteger_within h a o).finish
  | stcfd a o | stcdf a o => exact (fpStoreConvert_within h a o).finish
  | ldexp a o => exact (fpLoadExp_within h a o).finish
  | ldcif a o | ldclf a o | ldcid a o | ldcld a o => exact (fpLoadInteger_within h a o).finish
  | ldcdf a o | ldcfd a o => exact (fpLoadConvert_within h a o).finish
  | unassigned170003 w | unassigned170013 w => exact (fpUnassigned_within h).finish

end

/-! ## The service state -/

/-- A decision of the service state stays within a configuration. -/
def Service.Within (c : Config) : Service → Prop
  | .idle => True
  | .take _ s => s.cfg = c
  | .dropped s => s.cfg = c
  | .console => True

section
variable {c : Config} {s : State} (h : s.cfg = c)
include h

theorem acknowledge_within (r : Irq) : (acknowledge r s).Within c := by
  unfold acknowledge
  dsimp only
  split <;> exact h

theorem arbitrateLow_within : (arbitrateLow s).Within c := by
  unfold arbitrateLow
  split
  · split
    · exact acknowledge_within h _
    · split
      · exact h
      · split <;> trivial
  · split <;> trivial

theorem arbitrateMid_within : (arbitrateMid s).Within c := by
  unfold arbitrateMid
  split
  · exact acknowledge_within h _
  · split
    · exact acknowledge_within h _
    · exact arbitrateLow_within h

theorem arbitrateHigh_within : (arbitrateHigh s).Within c := by
  unfold arbitrateHigh
  split
  · exact acknowledge_within h _
  · split
    · exact h
    · exact arbitrateMid_within h

theorem arbitrate_within : (arbitrate s).Within c := by
  unfold arbitrate
  split
  · exact h
  · split
    · exact h
    · split
      · exact h
      · exact arbitrateHigh_within h

theorem serviceState_within : outcomeWithin c (serviceState s) := by
  have ha := arbitrate_within h
  unfold serviceState
  cases e : arbitrate s with
  | idle => exact h
  | take t u => rw [e] at ha; exact enterTrap_within (s := { u with inhibitT := false }) ha t
  | dropped u => rw [e] at ha; exact ha
  | console => exact h

omit h in
theorem afterInstr_within {o : Host.Outcome State Fault Refusal} (ho : outcomeWithin c o) :
    outcomeWithin c (afterInstr o) := by
  cases o with
  | fault e => exact ho
  | refused r => exact ho
  | next t =>
    unfold afterInstr
    dsimp only
    split
    · exact serviceState_within ho
    · split
      · exact ho
      · exact serviceState_within ho
    · exact ho

/-! ## Power-up and the environment -/

theorem loadStart_within : (loadStart s).Within c :=
  (physRead_within h _).bind fun npc t h => (physRead_within (s := { t with pc := npc }) h _).bind fun _ _ h => h

theorem startProgram_cfg : (startProgram s).cfg = c := by
  unfold startProgram
  split <;> exact h

theorem startTrap_within (t : Trap) : outcomeWithin c (startTrap t s) := by
  have ht := enterTrap_within h t
  unfold startTrap
  generalize enterTrap t s = o at ht
  cases o with
  | fault e => exact ht
  | refused r => exact ht
  | next u =>
    dsimp only
    split <;> exact ht

theorem powerUp_within : outcomeWithin c (powerUp s) := by
  have hl := loadStart_within h
  unfold powerUp
  split
  · generalize loadStart s = x at hl
    cases x with
    | ok _ t => exact startProgram_cfg hl
    | trap t u => exact afterInstr_within (enterTrap_within hl t)
    | fault e => exact hl
    | refused r => exact hl
  · exact h
  · exact startProgram_cfg (s := { s with pc := _, ps := _ }) h
  · exact startTrap_within h _

theorem driveBdcok_cfg (level : Bool) : (driveBdcok level s).cfg = c := by
  unfold driveBdcok
  split
  · exact h
  · split <;> exact h

theorem applyBus_within (e : BusInput) : outcomeWithin c (applyBus e s) := by
  have hb := busAction_within h e
  unfold applyBus
  split
  · generalize busAction e s = x at hb
    cases x with
    | ok _ t => exact hb
    | trap t u => exact hb
    | fault e => exact hb
    | refused r => exact hb
  · exact h

theorem eventPulse_cfg : (eventPulse s).cfg = c := by
  unfold eventPulse
  split <;> exact h

theorem applyInput_within (i : Input) : outcomeWithin c (applyInput i s) := by
  cases i with
  | cpu => exact h
  | irq r | withdraw r => exact h
  | event => exact eventPulse_cfg h
  | bhalt level | bpok level | bdmr level => exact h
  | bdcok level => exact driveBdcok_cfg h level
  | bus e => exact applyBus_within h e

/-! ## The console microcode -/

theorem odtRead_within (l : OdtLoc) : (odtRead l s).Within c := by
  cases l with
  | reg r => exact h
  | ps => exact h
  | addr a => exact physRead_within h a

theorem odtWrite_within (l : OdtLoc) (v : Word) : (odtWrite l v s).Within c := by
  cases l with
  | reg r => exact setReg_cfg_eq h r v
  | ps => exact h
  | addr a => exact physWrite_within h a v

omit h in
theorem odtRef_within {α : Type} {x : Res α} (hx : x.Within c) {f : α → State → State}
    (hf : ∀ a t, t.cfg = c → (f a t).cfg = c) : outcomeWithin c (odtRef x f) := by
  cases x with
  | ok a t => exact hf a t hx
  | trap t u => exact hx
  | fault e => exact hx
  | refused r => exact hx

omit h in
theorem odtSpin_within {α : Type} {x : Res α} (hx : x.Within c) {f : α → State → Host.Outcome State Fault Refusal}
    (hf : ∀ a t, t.cfg = c → outcomeWithin c (f a t)) : outcomeWithin c (odtSpin x f) := by
  cases x with
  | ok a t => exact hf a t hx
  | trap t u => exact hx
  | fault e => exact hx
  | refused r => exact hx

theorem odtOut_within (k : Byte) (rest : List OdtAct) : outcomeWithin c (odtOut k rest s) := by
  refine odtSpin_within (physRead_within h _) fun _ _ h => ?_
  split
  · exact odtSpin_within (physWrite_within h _ _) fun _ _ h => h
  · exact h

theorem odtIn_within : outcomeWithin c (odtIn s) := by
  refine odtSpin_within (physRead_within h _) fun _ _ h => ?_
  split
  · exact odtSpin_within (physRead_within h _) fun _ _ h => h
  · exact h

theorem odtPerform_within (act : OdtAct) (rest : List OdtAct) : outcomeWithin c (odtPerform act rest s) := by
  cases act with
  | out k => exact odtOut_within h k rest
  | flush =>
    have hr := physRead_within h rbufAddr
    unfold odtPerform
    dsimp only
    generalize physRead rbufAddr s = x at hr
    cases x with
    | ok _ t => exact hr
    | trap t u => exact hr
    | fault e => exact hr
    | refused r => exact hr
  | examine l => exact odtRef_within (odtRead_within h l) fun _ _ h => h
  | deposit l v => exact odtRef_within (odtWrite_within h l v) fun _ _ h => h
  | go a => exact serviceState_within (s := busInit _) h
  | proceed => exact h
  | dump a left =>
    unfold odtPerform
    dsimp only
    split
    · exact h
    · exact odtRef_within (physRead_within h _) fun _ _ h => h

theorem odtStep_within : outcomeWithin c (odtStep s) := by
  unfold odtStep
  split
  · exact odtIn_within h
  · exact odtPerform_within h _ _

/-! ## The machine's step -/

theorem trackSR2_cfg (a : Word) : (trackSR2 a s).cfg = c := by
  unfold trackSR2
  split <;> exact h

theorem fetchInstr_within : (fetchInstr s).Within c :=
  (fetchWord_within h).bind fun _ _ h => trackSR2_cfg h _

theorem runInstr_within : outcomeWithin c (runInstr s) := by
  have hf := fetchInstr_within h
  unfold runInstr
  generalize fetchInstr s = x at hf
  cases x with
  | ok w t => exact exec_within hf _
  | trap t u => exact enterTrap_within hf t
  | fault e => exact hf
  | refused r => exact hf

theorem cpuStep_within : outcomeWithin c (cpuStep s) := by
  unfold cpuStep
  split
  · exact h
  · cases s.run with
    | powerOff => exact h
    | powerWait =>
      dsimp only
      split
      · exact powerUp_within h
      · exact h
    | haltPowerTest => exact h
    | run => exact afterInstr_within (runInstr_within h)
    | wait => exact afterInstr_within (o := .next s) h
    | odt => exact odtStep_within h
    | trapping t => exact afterInstr_within (enterTrap_within h t)
    | powerTrap t => exact startTrap_within h t

theorem step_within : outcomeWithin c (step s) := by
  unfold step machineStep
  split
  · exact cpuStep_within h
  · exact cpuStep_within (s := { s with inputs := _ }) h
  · next rest _ _ => exact applyInput_within (s := { s with inputs := rest }) h _

end

/-! ## The obligations -/

/-- A configuration with neither of the two declares no fault. -/
theorem not_declaresFault {c : Config} (h : totalConfig c) (e : Fault) : ¬ declaresFault c e := by
  obtain ⟨hmap, -⟩ := h
  cases e with
  | deviceWindow a =>
    rintro ⟨r, hr, hk⟩
    exact hmap r (List.mem_of_find?_eq_some hr) hk

/-- A configuration with neither of the two declares no refusal. -/
theorem not_declaresRefusal {c : Config} (h : totalConfig c) (r : Refusal) : ¬ declaresRefusal c r := by
  obtain ⟨-, hmode⟩ := h
  rintro ⟨-, hrefuse, -⟩
  exact hmode hrefuse

/-- Settles O9: every step stays within its configuration. -/
theorem stepKeepsConfiguration : Obligations.StepKeepsConfiguration := by
  intro s t e
  have h := step_within (s := s) rfl
  rwa [e] at h

/-- Settles O10: a step that stops does so as its configuration declares, and a total configuration declares nothing. -/
theorem stopsAreTheDeclaredOnes : Obligations.StopsAreTheDeclaredOnes := by
  refine ⟨fun s e he => ?_, fun s r hr => ?_, fun s htotal => ?_⟩
  · have h := step_within (s := s) rfl
    rw [he] at h
    cases e with
    | deviceWindow a =>
      obtain ⟨r, hat, hk⟩ := h
      exact ⟨a, r, rfl, hat, hk⟩
  · have h := step_within (s := s) rfl
    rw [hr] at h
    exact h
  · have h := step_within (s := s) rfl
    cases e : step s with
    | next t => exact ⟨t, rfl⟩
    | fault f => rw [e] at h; exact absurd h (not_declaresFault htotal f)
    | refused r => rw [e] at h; exact absurd h (not_declaresRefusal htotal r)

end Sys2Proof.Machine
end

section
/-! PROOFS. The invariant (`State.Inv`): every operation above those of the laws, up to the processor's step, keeps what the
powered processor keeps (`Kept`); an action of the environment keeps the invariant, also where it is what turns the power on
or off. The obligation on `step` follows from the two. -/

namespace Sys2Proof.Machine

/-! ## The shapes of the operand instructions -/

section
variable {c : Config} {s : State} (h : Kept c s)
include h

theorem modifyWord_kept (f : Alu1 16) (o : Operand) : (modifyWord f o s).Sat (Kept c) :=
  (locate_kept h 2 o).bind fun l _ h => (placeOf_kept h .write l).bind fun p _ h =>
    (readPlace_kept h p).bind fun _ _ h => commit_kept h _ fun _ h => rewritePlace_kept h p _

theorem modifyByte_kept (f : Alu1 8) (o : Operand) : (modifyByte f o s).Sat (Kept c) :=
  (locate_kept h 1 o).bind fun l _ h => (placeOf_kept h .write l).bind fun p _ h =>
    (readPlaceByte_kept h p).bind fun _ _ h => commit_kept h _ fun _ h => rewritePlaceByte_kept h p _

theorem setWord_kept (f : Alu1 16) (o : Operand) : (setWord f o s).Sat (Kept c) :=
  (locate_kept h 2 o).bind fun l _ h => commit_kept h _ fun _ h => storeAt_kept h _ l

theorem setByte_kept (f : Alu1 8) (o : Operand) : (setByte f o s).Sat (Kept c) :=
  (locate_kept h 1 o).bind fun l _ h => commit_kept h _ fun _ h => storeByteAt_kept h _ l

theorem testWord_kept (f : Alu1 16) (o : Operand) : (testWord f o s).Sat (Kept c) :=
  (loadWord_kept h o).bind fun _ _ h => h.setCC _

theorem testByte_kept (f : Alu1 8) (o : Operand) : (testByte f o s).Sat (Kept c) :=
  (loadByte_kept h o).bind fun _ _ h => h.setCC _

theorem sourceWord_kept (o : Operand) : (sourceWord o s).Sat (Kept c) := by
  unfold sourceWord
  split
  · exact h
  · exact (loadWord_kept h o).bind fun _ _ h => h

theorem sourceByte_kept (o : Operand) : (sourceByte o s).Sat (Kept c) := by
  unfold sourceByte
  split
  · exact h
  · exact (loadByte_kept h o).bind fun _ _ h => h

theorem combineWord_kept (f : Alu2 16) (src dst : Operand) : (combineWord f src dst s).Sat (Kept c) :=
  (sourceWord_kept h src).bind fun _ _ h => (locate_kept h 2 dst).bind fun l _ h =>
    (placeOf_kept h .write l).bind fun p _ h => (readPlace_kept h p).bind fun _ _ h =>
      commit_kept h _ fun _ h => rewritePlace_kept h p _

theorem combineByte_kept (f : Alu2 8) (src dst : Operand) : (combineByte f src dst s).Sat (Kept c) :=
  (sourceByte_kept h src).bind fun _ _ h => (locate_kept h 1 dst).bind fun l _ h =>
    (placeOf_kept h .write l).bind fun p _ h => (readPlaceByte_kept h p).bind fun _ _ h =>
      commit_kept h _ fun _ h => rewritePlaceByte_kept h p _

theorem compareWord_kept (f : Alu2 16) (src dst : Operand) : (compareWord f src dst s).Sat (Kept c) :=
  (sourceWord_kept h src).bind fun _ _ h => (locate_kept h 2 dst).bind fun l _ h =>
    (placeOf_kept h .read l).bind fun p _ h => (readPlace_kept h p).bind fun _ _ h => h.setCC _

theorem compareByte_kept (f : Alu2 8) (src dst : Operand) : (compareByte f src dst s).Sat (Kept c) :=
  (sourceByte_kept h src).bind fun _ _ h => (locate_kept h 1 dst).bind fun l _ h =>
    (placeOf_kept h .read l).bind fun p _ h => (readPlaceByte_kept h p).bind fun _ _ h => h.setCC _

theorem moveWord_kept (f : Alu2 16) (src dst : Operand) : (moveWord f src dst s).Sat (Kept c) :=
  (sourceWord_kept h src).bind fun _ _ h => (locate_kept h 2 dst).bind fun l _ h =>
    commit_kept h _ fun _ h => storeAt_kept h _ l

theorem moveByte_kept (f : Alu2 8) (src dst : Operand) : (moveByte f src dst s).Sat (Kept c) :=
  (sourceByte_kept h src).bind fun _ _ h => (locate_kept h 1 dst).bind fun l _ h =>
    commit_kept h _ fun _ h => storeByteExtAt_kept h _ l

/-! ## Branches and extended integer instructions -/

theorem branchIf_kept (taken : Bool) (offset : BitVec 8) : outcomeSat (Kept c) (branchIf taken offset s) := by
  unfold branchIf
  split
  · exact h.pc _
  · exact h

theorem execSob_kept (r : Reg) (nn : BitVec 6) : outcomeSat (Kept c) (execSob r nn s) := by
  unfold execSob
  dsimp only
  split
  · exact h.setReg r _
  · exact (h.setReg r _).pc _

theorem setPair_kept (r : Reg) (v : BitVec 32) : Kept c (setPair r v s) := (h.setReg _ _).setReg _ _

theorem setFreeCodes_kept : (setFreeCodes s).Sat (Kept c) :=
  Kept.setCC (s := { s with free := s.free + 1 }) { h with } _

theorem setFreeResult_kept (r : Reg) : (setFreeResult r s).Sat (Kept c) :=
  setFreeCodes_kept (Kept.setReg (s := { s with free := s.free + 1 }) { h with } r _)

theorem mulInto_kept (r : Reg) (v : Word) : (mulInto r v s).Sat (Kept c) := by
  refine Kept.setCC ?_ _
  split
  · exact h.setReg r _
  · exact setPair_kept h r _

theorem divInto_kept (r : Reg) (v : Word) : (divInto r v s).Sat (Kept c) := by
  unfold divInto
  split
  · exact setFreeResult_kept h r
  · split
    · exact h.setCC _
    · exact ((h.setReg r _).setReg _ _).setCC _

theorem ashInto_kept (r : Reg) (v : Word) : (ashInto r v s).Sat (Kept c) := (h.setReg r _).setCC _

theorem ashcInto_kept (r : Reg) (v : Word) : (ashcInto r v s).Sat (Kept c) := by
  unfold ashcInto
  split
  · unfold ashcOdd
    split
    · exact setFreeResult_kept h r
    · split
      · exact setFreeCodes_kept (h.setReg r _)
      · exact h.setCC _
  · exact (setPair_kept h r _).setCC _

/-! ## Jumps and moves of the status word -/

theorem jumpTarget_kept (o : Operand) : (jumpTarget o s).Sat (Kept c) := by
  unfold jumpTarget
  split
  · exact h
  · refine (locate_kept h 2 o).bind fun l _ h => ?_
    cases l <;> exact h

theorem linkWord_kept (r : Reg) : (linkWord r s).Sat (Kept c) := by
  unfold linkWord
  split
  · exact { h with }
  · exact h

theorem readPrevious_kept (l : Loc) : (readPrevious l s).Sat (Kept c) := by
  unfold readPrevious
  split
  · exact h
  · exact h
  · exact readWordMode_kept h _ _

theorem writePrevious_kept (l : Loc) (v : Word) : (writePrevious l v s).Sat (Kept c) := by
  unfold writePrevious
  split
  · exact h.setSpOf _ _
  · exact h.setReg _ _
  · exact writeWordMode_kept h _ _ _

theorem movePrevious_kept (o : Operand) : (movePrevious o s).Sat (Kept c) :=
  (locate_kept h 2 o).bind fun l _ h => (readPrevious_kept h l).bind fun v _ h =>
    commit_kept h _ fun _ h => push_kept h v

theorem moveToPrevious_kept (o : Operand) : (moveToPrevious o s).Sat (Kept c) :=
  (pop_kept h).bind fun v _ h => (locate_kept h 2 o).bind fun l _ h =>
    commit_kept h _ fun _ h => writePrevious_kept h l v

omit h in
/-- A return loads no bit of PS<11:9> in kernel mode, and keeps those bits in the other modes (R39, R376). -/
theorem returnPs_zero (kernel : Bool) (old new : Word) : returnPs kernel old new &&& 0o007000#16 = 0 := by
  unfold returnPs
  split
  · exact masked_zero (by decide)
  · exact or_zero (masked_zero (by decide)) (masked_zero (by decide))

omit h in
/-- MTPS writes bits of the low byte only (R412). -/
theorem mtpsPs_zero (kernel : Bool) {old : Word} (hold : old &&& 0o007000#16 = 0) (v : Byte) :
    mtpsPs kernel old v &&& 0o007000#16 = 0 := by
  have keep : ∀ m : Word, (old &&& m) &&& 0o007000#16 = 0 := fun m => by
    rw [BitVec.and_assoc, BitVec.and_comm m, ← BitVec.and_assoc, hold]
    simp
  unfold mtpsPs
  split
  · exact or_zero (keep _) (masked_zero (by decide))
  · exact or_zero (keep _) (masked_zero (by decide))

theorem returnFromTrap_kept : (returnFromTrap s).Sat (Kept c) :=
  (pop_kept h).bind fun npc _ h => (pop_kept h).bind fun _ _ h => (h.pc npc).setPs (returnPs_zero _ _ _)

/-! ## Instructions with a meaning of their own -/

theorem execRtt_kept : outcomeSat (Kept c) (execRtt s) :=
  finish_kept ((returnFromTrap_kept h).bind fun _ _ h => { h with })

theorem execJmp_kept (dst : Operand) : outcomeSat (Kept c) (execJmp dst s) :=
  finish_kept ((jumpTarget_kept h dst).bind fun va _ h => h.pc va)

theorem execJsr_kept (r : Reg) (dst : Operand) : outcomeSat (Kept c) (execJsr r dst s) :=
  finish_kept <| (jumpTarget_kept h dst).bind fun va _ h => (linkWord_kept h r).bind fun v _ h =>
    (push_kept h v).bind fun _ _ h => (h.setReg r _).pc va

theorem execRts_kept (r : Reg) : outcomeSat (Kept c) (execRts r s) :=
  finish_kept ((pop_kept (h.pc _)).bind fun v _ h => h.setReg r v)

theorem execMark_kept (nn : BitVec 6) : outcomeSat (Kept c) (execMark nn s) :=
  finish_kept ((pop_kept ((h.setReg .r6 _).pc _)).bind fun _ _ h => { h with })

theorem execMtps_kept (src : Operand) : outcomeSat (Kept c) (execMtps src s) :=
  finish_kept ((loadByte_kept h src).bind fun v _ h => h.setPs (mtpsPs_zero _ h.ps v))

theorem execMfps_kept (dst : Operand) : outcomeSat (Kept c) (execMfps dst s) :=
  finish_kept ((locate_kept h 1 dst).bind fun l _ h => commit_kept h _ fun _ h => storeByteExtAt_kept h _ l)

theorem odtEnter_kept : Kept c (odtEnter s) := { h with run := nofun }

theorem execHalt_kept : outcomeSat (Kept c) (execHalt s) := by
  unfold execHalt
  split
  · exact enterTrap_kept _ s h
  · split
    · exact h.setRun nofun
    · split
      · exact enterTrap_kept _ s h
      · exact odtEnter_kept h

/-- BINIT leaves the transmitter ready and without a character (R604, R606). -/
theorem busInit_kept : Kept c (busInit s) := h.setSlu (by simp [sluInit])

theorem clearMmuStatus_kept : Kept c (clearMmuStatus s) := by
  unfold clearMmuStatus
  split
  · exact { h with sr0 := by simp, sr3 := by simp }
  · exact h

theorem execReset_kept : outcomeSat (Kept c) (execReset s) := by
  unfold execReset
  split
  · exact clearMmuStatus_kept (busInit_kept h)
  · exact h

/-! ## Floating instructions -/

theorem fpLoad_kept (a : Ac) (o : Operand) : (fpLoad a o s).Sat (Kept c) := by
  refine withFpp_kept h (fpOperand_kept h _ o _ fun p _ h => (readFp_kept h _ p).bind fun x t h => ?_)
  dsimp only
  split
  · exact fpException_kept (h.setFCC _) (by decide) _
  · exact writeAcc_kept (h.setFCC _) _ _ x

theorem fpStore_kept (a : Ac) (o : Operand) : (fpStore a o s).Sat (Kept c) :=
  withFpp_kept h (fpOperand_kept h _ o _ fun p _ h => writeFp_kept h _ p _)

theorem fpClear_kept (o : Operand) : (fpClear o s).Sat (Kept c) :=
  withFpp_kept h (fpOperand_kept h _ o _ fun p _ h => (writeFp_kept h _ p 0).bind fun _ _ h => h.setFCC _)

omit h in
/-- The exception of NEG, ABS and TST is the undefined variable (R452). -/
theorem undefinedAfter_code {p : FpPlace} {x : Datum} (k : BitVec 4) (e : undefinedAfter p x s = some k) :
    k ∈ fecValues := by
  unfold undefinedAfter at e
  split at e <;> cases e
  decide

theorem fpTest_kept (o : Operand) : (fpTest o s).Sat (Kept c) :=
  withFpp_kept h (fpOperand_kept h _ o _ fun p _ h => (readFp_kept h _ p).bind fun _ _ h =>
    fpEnd_kept (h.setFCC _) undefinedAfter_code _)

theorem fpRewrite_kept (f : Datum → Datum) (o : Operand) : (fpRewrite f o s).Sat (Kept c) :=
  withFpp_kept h (fpOperand_kept h _ o _ fun p _ h => (readFp_kept h _ p).bind fun _ _ h =>
    (writeFp_kept h _ p _).bind fun _ _ h => fpEnd_kept (h.setFCC _) undefinedAfter_code _)

theorem fpArith_kept (f : Exact → Exact → Exact) (a : Ac) (o : Operand) : (fpArith f a o s).Sat (Kept c) :=
  fpSource_kept h o fun _ _ h => fpResult_kept h _ _ _

theorem fpDivide_kept (a : Ac) (o : Operand) : (fpDivide a o s).Sat (Kept c) := by
  refine fpSource_kept h o fun _ _ h => ?_
  split
  · exact fpException_kept h (by decide) _
  · exact fpResult_kept h _ _ _

theorem fpCompare_kept (a : Ac) (o : Operand) : (fpCompare a o s).Sat (Kept c) := by
  refine fpSource_kept h o fun _ _ h => ?_
  dsimp only
  split
  · exact writeAcc_kept (h.setFCC _) _ _ _
  · exact h.setFCC _

omit h in
/-- The exceptions of MOD are overflow and underflow (R491). -/
theorem modSplit_code {L : Nat} {chop fiv fiu : Bool} {x : Exact} (k : BitVec 4)
    (e : (modSplit L chop fiv fiu x).2.2.2 = some k) : k ∈ fecValues := by
  unfold modSplit at e
  dsimp only at e
  split at e
  · cases e
  · split at e
    · split at e <;> cases e
      decide
    · split at e
      · cases e
      · split at e
        · cases e
        · exact resultOf_code L chop false fiu x k e

theorem fpModulo_kept (a : Ac) (o : Operand) : (fpModulo a o s).Sat (Kept c) := by
  refine fpSource_kept h o fun _ _ h => Res.Sat.bind ?_ fun _ _ h =>
    (writeAcc_kept h _ _ _).bind fun _ _ h => fpEnd_kept (h.setFCC _) modSplit_code _
  split
  · exact h
  · exact writeAcc_kept h _ _ _

omit h in
/-- The exception of a conversion to single precision is overflow (R492, R493). -/
theorem toSingle_code {chop fiv : Bool} {x : Datum} (k : BitVec 4) (e : (toSingle chop fiv x).2.2 = some k) :
    k ∈ fecValues := by
  unfold toSingle at e
  dsimp only at e
  split at e
  · split at e <;> cases e
    decide
  · cases e

theorem fpLoadConvert_kept (a : Ac) (o : Operand) : (fpLoadConvert a o s).Sat (Kept c) := by
  refine withFpp_kept h (fpOperand_kept h _ o _ fun p _ h => (readFp_kept h _ p).bind fun x _ h => ?_)
  split
  · exact fpException_kept (h.setFCC _) (by decide) _
  · split
    · exact writeAcc_kept (h.setFCC _) _ _ 0
    · split
      · exact writeAcc_kept (h.setFCC _) _ _ x
      · exact (writeAcc_kept h _ _ _).bind fun _ _ h => fpEnd_kept (h.setFCC _) toSingle_code _

theorem fpStoreConvert_kept (a : Ac) (o : Operand) : (fpStoreConvert a o s).Sat (Kept c) := by
  refine withFpp_kept h (fpOperand_kept h _ o _ fun p _ h => (writeFp_kept h _ p _).bind fun _ _ h =>
    fpEnd_kept (h.setFCC _) (fun k e => ?_) _)
  split at e
  · cases e
  · split at e
    · exact toSingle_code k e
    · cases e

theorem readInteger_kept (o : Operand) : (readInteger o s).Sat (Kept c) := by
  unfold readInteger
  split
  · refine (locate_kept h 4 o).bind fun l _ h => ?_
    cases l with
    | reg r => exact h
    | mem va => exact (readWords_kept _ h va).bind fun _ _ h => h
  · exact (loadWord_kept h o).bind fun _ _ h => h

theorem fpLoadInteger_kept (a : Ac) (o : Operand) : (fpLoadInteger a o s).Sat (Kept c) :=
  withFpp_kept h ((readInteger_kept h o).bind fun _ _ h => (writeAcc_kept h _ _ _).bind fun _ _ h => h.setFCC _)

theorem fpStoreInteger_kept (a : Ac) (o : Operand) : (fpStoreInteger a o s).Sat (Kept c) := by
  unfold fpStoreInteger
  refine withFpp_kept h ((locate_kept h _ o).bind fun l _ h => ?_)
  refine (commit_kept h _ fun _ h => storeWords_kept h _ l).bind fun _ _ h =>
    fpEnd_kept (h.setFCC _) (fun k e => ?_) _
  obtain ⟨-, hk⟩ := Option.ite_none_right_eq_some.mp e
  cases hk
  decide

theorem fpLoadExp_kept (a : Ac) (o : Operand) : (fpLoadExp a o s).Sat (Kept c) := by
  unfold fpLoadExp
  refine withFpp_kept h ((loadWord_kept h o).bind fun w t h => ?_)
  have codes : ∀ (v : Bool) (x : Vector Acc 6), Kept c (expCodes (acIndex a) v { t with ac := x }) :=
    fun _ _ => { h with }
  dsimp only
  split
  · exact codes _ _
  · split
    · split
      · exact fpException_kept (codes _ _) (by decide) _
      · exact (writeAcc_kept h _ _ _).bind fun _ _ h => h.setFCC _
    · split
      · exact fpException_kept (codes _ _) (by decide) _
      · exact (writeAcc_kept h _ _ _).bind fun _ _ h => h.setFCC _

theorem fpStoreExp_kept (a : Ac) (o : Operand) : (fpStoreExp a o s).Sat (Kept c) :=
  withFpp_kept h ((locate_kept h 2 o).bind fun l _ h =>
    (commit_kept h _ fun _ h => storeAt_kept h _ l).bind fun _ _ h => h.setFCC _)

theorem fpMode_kept (bit : Word) (on : Bool) : (fpMode bit on s).Sat (Kept c) := withFpp_kept h { h with }

theorem fpLoadStatus_kept (o : Operand) : (fpLoadStatus o s).Sat (Kept c) :=
  withFpp_kept h ((loadWord_kept h o).bind fun _ _ h => { h with })

theorem fpStoreStatus_kept (o : Operand) : (fpStoreStatus o s).Sat (Kept c) :=
  withFpp_kept h ((locate_kept h 2 o).bind fun l _ h => storeAt_kept h _ l)

theorem fpStoreException_kept (o : Operand) : (fpStoreException o s).Sat (Kept c) :=
  withFpp_kept h ((locate_kept h 4 o).bind fun l _ h => storeWords_kept h _ l)

theorem fpCopyCodes_kept : (fpCopyCodes s).Sat (Kept c) := withFpp_kept h (h.setCC _)

theorem fpUnassigned_kept : (fpUnassigned s).Sat (Kept c) := withFpp_kept h (fpException_kept h (by decide) _)

/-! ## Every instruction, by the shared operation that carries it out -/

theorem exec_kept (i : Instr) : outcomeSat (Kept c) (exec i s) := by
  cases i with
  | halt => exact execHalt_kept h
  | wait => exact h.setRun nofun
  | mfpt => exact { h with }
  | reset => exact execReset_kept h
  | bpt => exact enterTrap_kept .bpt s h
  | iot => exact enterTrap_kept .iot s h
  | emt k | trap k => exact enterTrap_kept _ s h
  | reserved000010 w | reserved000210 w | reserved007000 w | reserved075000 w | reserved107000 w =>
    exact enterTrap_kept _ s h
  | rti => exact finish_kept (returnFromTrap_kept h)
  | rtt => exact execRtt_kept h
  | jmp d => exact execJmp_kept h d
  | jsr r d => exact execJsr_kept h r d
  | rts r => exact execRts_kept h r
  | mark nn => exact execMark_kept h nn
  | nop | clc | clv | clz | cln | ccc | sec | sev | sez | sen | scc => exact h.setCC _
  | ccop sense n z v k => exact h.setCC _
  | br o => exact branchIf_kept h true o
  | bne o | beq o | bge o | blt o | bgt o | ble o | bpl o | bmi o | bhi o | blos o | bvc o | bvs o | bcc o | bhis o
  | bcs o | blo o => exact branchIf_kept h _ o
  | sob r nn => exact execSob_kept h r nn
  | com d | inc d | dec d | neg d | adc d | sbc d | ror d | rol d | asr d | asl d | swab d =>
    exact finish_kept (modifyWord_kept h _ d)
  | comb d | incb d | decb d | negb d | adcb d | sbcb d | rorb d | rolb d | asrb d | aslb d =>
    exact finish_kept (modifyByte_kept h _ d)
  | clr d | sxt d => exact finish_kept (setWord_kept h _ d)
  | clrb d => exact finish_kept (setByte_kept h _ d)
  | tst d => exact finish_kept (testWord_kept h _ d)
  | tstb d => exact finish_kept (testByte_kept h _ d)
  | mov a d => exact finish_kept (moveWord_kept h _ a d)
  | movb a d => exact finish_kept (moveByte_kept h _ a d)
  | cmp a d | bit a d => exact finish_kept (compareWord_kept h _ a d)
  | cmpb a d | bitb a d => exact finish_kept (compareByte_kept h _ a d)
  | bic a d | bis a d | add a d | sub a d => exact finish_kept (combineWord_kept h _ a d)
  | bicb a d | bisb a d => exact finish_kept (combineByte_kept h _ a d)
  | xor r d => exact finish_kept (combineWord_kept h _ _ d)
  | mul r a => exact finish_kept ((loadWord_kept h a).bind fun v _ h => mulInto_kept h r v)
  | div r a => exact finish_kept ((loadWord_kept h a).bind fun v _ h => divInto_kept h r v)
  | ash r a => exact finish_kept ((loadWord_kept h a).bind fun v _ h => ashInto_kept h r v)
  | ashc r a => exact finish_kept ((loadWord_kept h a).bind fun v _ h => ashcInto_kept h r v)
  | mfpi a | mfpd a => exact finish_kept (movePrevious_kept h a)
  | mtpi d | mtpd d => exact finish_kept (moveToPrevious_kept h d)
  | mtps a => exact execMtps_kept h a
  | mfps d => exact execMfps_kept h d
  | cfcc => exact finish_kept (fpCopyCodes_kept h)
  | setf | seti | setd | setl => exact finish_kept (fpMode_kept h _ _)
  | ldfps o => exact finish_kept (fpLoadStatus_kept h o)
  | stfps o => exact finish_kept (fpStoreStatus_kept h o)
  | stst o => exact finish_kept (fpStoreException_kept h o)
  | clrf o | clrd o => exact finish_kept (fpClear_kept h o)
  | tstf o | tstd o => exact finish_kept (fpTest_kept h o)
  | absf o | absd o | negf o | negd o => exact finish_kept (fpRewrite_kept h _ o)
  | mulf a o | muld a o | addf a o | addd a o | subf a o | subd a o => exact finish_kept (fpArith_kept h _ a o)
  | modf a o | modd a o => exact finish_kept (fpModulo_kept h a o)
  | ldf a o | ldd a o => exact finish_kept (fpLoad_kept h a o)
  | cmpf a o | cmpd a o => exact finish_kept (fpCompare_kept h a o)
  | stf a o | std a o => exact finish_kept (fpStore_kept h a o)
  | divf a o | divd a o => exact finish_kept (fpDivide_kept h a o)
  | stexp a o => exact finish_kept (fpStoreExp_kept h a o)
  | stcfi a o | stcfl a o | stcdi a o | stcdl a o => exact finish_kept (fpStoreInteger_kept h a o)
  | stcfd a o | stcdf a o => exact finish_kept (fpStoreConvert_kept h a o)
  | ldexp a o => exact finish_kept (fpLoadExp_kept h a o)
  | ldcif a o | ldclf a o | ldcid a o | ldcld a o => exact finish_kept (fpLoadInteger_kept h a o)
  | ldcdf a o | ldcfd a o => exact finish_kept (fpLoadConvert_kept h a o)
  | unassigned170003 w | unassigned170013 w => exact finish_kept (fpUnassigned_kept h)

end

/-! ## The service state -/

/-- A decision of the service state keeps what the powered processor keeps. -/
def Service.Kept (c : Config) : Service → Prop
  | .idle => True
  | .take _ s => Machine.Kept c s
  | .dropped s => Machine.Kept c s
  | .console => True

section
variable {c : Config} {s : State} (h : Kept c s)
include h

theorem acknowledge_kept (r : Irq) : (acknowledge r s).Kept c := by
  unfold acknowledge
  dsimp only
  split <;> exact { h with }

theorem arbitrateLow_kept : (arbitrateLow s).Kept c := by
  unfold arbitrateLow
  split
  · split
    · exact acknowledge_kept h _
    · split
      · exact h
      · split <;> trivial
  · split <;> trivial

theorem arbitrateMid_kept : (arbitrateMid s).Kept c := by
  unfold arbitrateMid
  split
  · exact acknowledge_kept h _
  · split
    · exact acknowledge_kept h _
    · exact arbitrateLow_kept h

theorem arbitrateHigh_kept : (arbitrateHigh s).Kept c := by
  unfold arbitrateHigh
  split
  · exact acknowledge_kept h _
  · split
    · exact { h with }
    · exact arbitrateMid_kept h

theorem arbitrate_kept : (arbitrate s).Kept c := by
  unfold arbitrate
  split
  · exact h
  · split
    · exact { h with }
    · split
      · exact { h with }
      · exact arbitrateHigh_kept h

theorem serviceState_kept : outcomeSat (Kept c) (serviceState s) := by
  have ha := arbitrate_kept h
  unfold serviceState
  generalize arbitrate s = x at ha
  cases x with
  | idle => exact { h with }
  | take t u =>
    have hu : Kept c u := ha
    exact enterTrap_kept t _ { hu with }
  | dropped u =>
    have hu : Kept c u := ha
    exact { hu with run := nofun }
  | console => exact { h with run := nofun }

omit h in
theorem afterInstr_kept {o : Host.Outcome State Fault Refusal} (ho : outcomeSat (Kept c) o) :
    outcomeSat (Kept c) (afterInstr o) := by
  cases o with
  | fault e => trivial
  | refused r => trivial
  | next t =>
    unfold afterInstr
    dsimp only
    split
    · exact serviceState_kept ho
    · split
      · exact ho
      · exact serviceState_kept ho
    · exact ho

/-! ## Power-up -/

theorem loadStart_kept : (loadStart s).Sat (Kept c) :=
  (physRead_kept h _).bind fun npc _ h => (physRead_kept (h.pc npc) _).bind fun _ _ h =>
    h.setPs (masked_zero (by decide))

theorem startProgram_kept : Kept c (startProgram s) := by
  unfold startProgram
  split
  · exact odtEnter_kept h
  · exact h.setRun nofun

theorem powerUp_kept : outcomeSat (Kept c) (powerUp s) := by
  have hl := loadStart_kept h
  unfold powerUp
  split
  · generalize loadStart s = x at hl
    cases x with
    | ok _ t => exact startProgram_kept hl
    | trap t u => exact afterInstr_kept (enterTrap_kept t u hl)
    | fault e => trivial
    | refused r => trivial
  · exact odtEnter_kept h
  · exact startProgram_kept { h with ps := show (0o340 : Word) &&& 0o007000#16 = 0 by decide }
  · exact startTrap_kept _ s h

/-! ## The console microcode -/

theorem odtRead_kept (l : OdtLoc) : (odtRead l s).Sat (Kept c) := by
  cases l with
  | reg r => exact h
  | ps => exact h
  | addr a => exact physRead_kept h a

theorem odtWrite_kept (l : OdtLoc) (v : Word) : (odtWrite l v s).Sat (Kept c) := by
  cases l with
  | reg r => exact h.setReg r v
  | ps => exact writeIntReg_kept h .ps v
  | addr a => exact physWrite_kept h a v

omit h in
theorem odtRef_kept {α : Type} {x : Res α} (hx : x.Sat (Kept c)) {f : α → State → State}
    (hf : ∀ a t, Kept c t → Kept c (f a t)) : outcomeSat (Kept c) (odtRef x f) := by
  cases x with
  | ok a t => exact hf a t hx
  | trap t u =>
    have hu : Kept c u := hx
    exact { hu with }
  | fault e => trivial
  | refused r => trivial

omit h in
theorem odtSpin_kept {α : Type} {x : Res α} (hx : x.Sat (Kept c)) {f : α → State → Host.Outcome State Fault Refusal}
    (hf : ∀ a t, Kept c t → outcomeSat (Kept c) (f a t)) : outcomeSat (Kept c) (odtSpin x f) := by
  cases x with
  | ok a t => exact hf a t hx
  | trap t u => exact hx
  | fault e => trivial
  | refused r => trivial

theorem odtOut_kept (k : Byte) (rest : List OdtAct) : outcomeSat (Kept c) (odtOut k rest s) := by
  refine odtSpin_kept (physRead_kept h _) fun _ _ h => ?_
  split
  · exact odtSpin_kept (physWrite_kept h _ _) fun _ _ h => { h with }
  · exact h

theorem odtIn_kept : outcomeSat (Kept c) (odtIn s) := by
  refine odtSpin_kept (physRead_kept h _) fun _ _ h => ?_
  split
  · exact odtSpin_kept (physRead_kept h _) fun _ _ h => { h with }
  · exact h

theorem odtGo_kept (a : Word) : outcomeSat (Kept c) (odtGo a s) :=
  serviceState_kept (busInit_kept { h with ps := by simp, run := nofun })

theorem odtPerform_kept (act : OdtAct) (rest : List OdtAct) : outcomeSat (Kept c) (odtPerform act rest s) := by
  cases act with
  | out k => exact odtOut_kept h k rest
  | flush =>
    have hr := physRead_kept h rbufAddr
    unfold odtPerform
    dsimp only
    generalize physRead rbufAddr s = x at hr
    cases x with
    | ok _ t | trap _ t =>
      have ht : Kept c t := hr
      exact { ht with }
    | fault e => trivial
    | refused r => trivial
  | examine l => exact odtRef_kept (odtRead_kept h l) fun _ _ h => { h with }
  | deposit l v => exact odtRef_kept (odtWrite_kept h l v) fun _ _ h => { h with }
  | go a => exact odtGo_kept h a
  | proceed => exact { h with run := nofun }
  | dump a left =>
    unfold odtPerform
    dsimp only
    split
    · exact { h with }
    · exact odtRef_kept (physRead_kept h _) fun _ _ h => { h with }

theorem odtStep_kept : outcomeSat (Kept c) (odtStep s) := by
  unfold odtStep
  split
  · exact odtIn_kept h
  · exact odtPerform_kept h _ _

/-! ## The processor's step -/

theorem trackSR2_kept (a : Word) : Kept c (trackSR2 a s) := by
  unfold trackSR2
  split
  · exact { h with }
  · exact h

theorem fetchInstr_kept : (fetchInstr s).Sat (Kept c) :=
  (fetchWord_kept h).bind fun _ _ h => trackSR2_kept h _

theorem runInstr_kept : outcomeSat (Kept c) (runInstr s) := by
  have hf := fetchInstr_kept h
  unfold runInstr
  generalize fetchInstr s = x at hf
  cases x with
  | ok w t => exact exec_kept hf _
  | trap t u => exact enterTrap_kept t u hf
  | fault e => trivial
  | refused r => trivial

omit h in
/-- Power-up clears all that the invariant restricts, except memory and the page descriptors, and starts from any run
state (R660, R668). -/
theorem powerClear_kept (hmem : s.mem.wf) (hkpdr : ∀ i : Fin 8, s.kpdr[i] &&& 0o100261#16 = 0)
    (hupdr : ∀ i : Fin 8, s.updr[i] &&& 0o100261#16 = 0) (hp : s.bdcok = true) : Kept s.cfg (powerClear s) where
  cfg := rfl
  mem := hmem
  ps := BitVec.zero_and
  kpdr := hkpdr
  updr := hupdr
  sr0 := BitVec.zero_and
  sr3 := BitVec.zero_and
  fec := show (0 : BitVec 4) ∈ fecValues by decide
  run := nofun
  bdcok := hp
  slu := by simp [powerClear, busInit, sluInit]

theorem cpuStep_kept : outcomeSat (Kept c) (cpuStep s) := by
  unfold cpuStep
  split
  · exact h
  · cases s.run with
    | powerOff => exact h
    | powerWait =>
      dsimp only
      split
      · exact powerUp_kept h
      · exact h
    | haltPowerTest => exact h.cfg ▸ powerClear_kept h.mem h.kpdr h.updr h.bdcok
    | run => exact afterInstr_kept (runInstr_kept h)
    | wait => exact afterInstr_kept (o := .next s) h
    | odt => exact odtStep_kept h
    | trapping t => exact afterInstr_kept (enterTrap_kept t s h)
    | powerTrap t => exact startTrap_kept t s h

end

/-! ## The invariant with the power on and off -/

/-- The processor is off exactly while BDCOK is negated (R63). -/
theorem State.Inv.power {s : State} (h : s.Inv) : s.run = .powerOff ↔ s.bdcok = false := by
  obtain ⟨-, -, -, -, -, -, -, hpower, -⟩ := h
  exact hpower

/-- With the power on the invariant is what the processor keeps. -/
theorem Kept.of_inv {s : State} (h : s.Inv) (hp : s.bdcok = true) : Kept s.cfg s := by
  obtain ⟨hmem, hps, hkpdr, hupdr, hsr0, hsr3, hfec, hpower, hslu⟩ := h
  exact ⟨rfl, hmem, hps, hkpdr, hupdr, hsr0, hsr3, hfec, fun e => by simp [hpower.mp e] at hp, hp, hslu⟩

/-- With the power off the processor does nothing (R661). -/
theorem cpuStep_powerOff {s : State} (h : s.run = .powerOff) : cpuStep s = .next s := by
  unfold cpuStep
  rw [h]
  split <;> rfl

theorem cpuStep_inv {s : State} (h : s.Inv) : outcomeSat State.Inv (cpuStep s) := by
  cases hp : s.bdcok with
  | true =>
    have hk := cpuStep_kept (Kept.of_inv h hp)
    generalize cpuStep s = o at hk
    cases o with
    | next t => exact Kept.inv hk
    | fault e => trivial
    | refused r => trivial
  | false =>
    rw [cpuStep_powerOff (h.power.mpr hp)]
    exact h

/-- The free values of a block of page descriptors are cut to the implemented bits (R44; log 29). -/
theorem freeBlock_zero (n : Nat) {mask m : Word} (hm : mask &&& m = 0) (i : Fin 8) :
    (freeBlock n mask)[i] &&& m = 0 := by
  fin_cases i <;> exact masked_zero hm

/-- The negation of BDCOK keeps memory, the PS, SR0 and SR3, and leaves the transmitter idle (R660, R661). -/
theorem powerOffState_inv {s : State} (h : s.Inv) : (powerOffState { s with bdcok := false }).Inv := by
  obtain ⟨hmem, hps, -, -, hsr0, hsr3, hfec, -, -⟩ := h
  exact ⟨hmem, hps, freeBlock_zero _ (by decide), freeBlock_zero _ (by decide), hsr0, hsr3, hfec,
    ⟨fun _ => rfl, fun _ => rfl⟩, by simp [powerOffState, busInit, sluInit]⟩

/-- An edge of BDCOK: the assertion starts power-up, the negation ends everything (R660, R661). -/
theorem driveBdcok_inv {s : State} (h : s.Inv) (level : Bool) : (driveBdcok level s).Inv := by
  unfold driveBdcok
  split
  · exact h
  · split
    · obtain ⟨hmem, -, hkpdr, hupdr, -⟩ := h
      exact (powerClear_kept (s := { s with bdcok := true }) hmem hkpdr hupdr rfl).inv
    · exact powerOffState_inv h

/-- Another agent acts while the power is on only (R660). -/
theorem applyBus_inv {s : State} (h : s.Inv) (e : BusInput) : outcomeSat State.Inv (applyBus e s) := by
  unfold applyBus
  split
  · next hp =>
    have hk := busAction_kept (Kept.of_inv h hp) e
    generalize busAction e s = x at hk
    cases x with
    | ok _ t | trap _ t => exact Kept.inv hk
    | fault e => trivial
    | refused r => trivial
  · exact h

theorem eventPulse_inv {s : State} (h : s.Inv) : (eventPulse s).Inv := by
  unfold eventPulse
  split <;> exact h

theorem applyInput_inv {s : State} (h : s.Inv) (i : Input) : outcomeSat State.Inv (applyInput i s) := by
  cases i with
  | cpu | irq r | withdraw r | bhalt level | bpok level | bdmr held => exact h
  | event => exact eventPulse_inv h
  | bdcok level => exact driveBdcok_inv h level
  | bus e => exact applyBus_inv h e

theorem step_inv {s : State} (h : s.Inv) : outcomeSat State.Inv (step s) := by
  unfold step machineStep
  split
  · exact cpuStep_inv h
  · next rest _ => exact cpuStep_inv (s := { s with inputs := rest }) h
  · next i rest _ _ => exact applyInput_inv (s := { s with inputs := rest }) h i

/-! ## The obligations -/

/-- Settles O8: a step that answers leaves the invariant as `step_inv` says. -/
theorem stepKeepsInvariant : Obligations.StepKeepsInvariant := by
  intro s t h e
  have hstep := step_inv h
  rwa [e] at hstep

/-- Settles O7: at reset the power is on, memory is empty, and every register that the invariant restricts is 0. -/
theorem resetMeetsInvariant : Obligations.ResetMeetsInvariant :=
  ⟨Memory.wf_nil, by decide, by decide, by decide, by decide, by decide, by decide, by decide, by decide⟩

/-- Settles O6: the reset state is written out, and each value of it is read off. -/
theorem resetValues : Obligations.ResetValues :=
  ⟨rfl, rfl, rfl, rfl, rfl, rfl, rfl, rfl, rfl, rfl, rfl, rfl, rfl, rfl⟩

end Sys2Proof.Machine
end

section
/-! PROOFS. The processor's own registers at their physical addresses (spec/10_state.md R30 to R50, spec/20_memory.md R102):
which register answers where, and from that what a read, a write and a byte write there do. No other agent acts before such
a reference, so one rule for each kind of reference serves every register. -/

namespace Sys2Proof.Machine

open Sys2Proof.Spec

/-! ## Bytes of a word -/

theorem toNat_append_bytes (hi lo : Byte) : (hi ++ lo : Word).toNat = hi.toNat * 256 + lo.toNat := by
  rw [BitVec.toNat_append, ← Nat.shiftLeft_add_eq_or_of_lt lo.isLt, Nat.shiftLeft_eq]

/-- The model's replacement of a byte is the one that the statements write in numbers (R84, R87). -/
theorem mergeByte_eq_withByte (odd : Fin 2) (v : Word) (b : Byte) :
    mergeByte (decide (odd.val = 1)) v b = withByte odd b v := by
  have hv := v.isLt
  have hb := b.isLt
  apply BitVec.eq_of_toNat_eq
  match odd with
  | 0 =>
    have hhi : ((v >>> 8).setWidth 8 : Byte).toNat = v.toNat / 256 := by
      simp only [BitVec.toNat_setWidth, BitVec.toNat_ushiftRight, Nat.shiftRight_eq_div_pow]
      omega
    show ((v >>> 8).setWidth 8 ++ b : Word).toNat = (v.toNat / 256 * 256 + b.toNat) % 65536
    rw [toNat_append_bytes, hhi]
    omega
  | 1 =>
    show (b ++ v.setWidth 8 : Word).toNat = (b.toNat * 256 + v.toNat % 256) % 65536
    rw [toNat_append_bytes, BitVec.toNat_setWidth]
    omega

theorem getLsbD_append_bytes (hi lo : Byte) (k : Nat) :
    (hi ++ lo : Word).getLsbD k = if k < 8 then lo.getLsbD k else hi.getLsbD (k - 8) :=
  BitVec.getLsbD_append

/-- The bits of a word with one of its bytes replaced. -/
theorem getLsbD_withByte (odd : Fin 2) (b : Byte) (v : Word) {k : Nat} (hk : k < 16) :
    (withByte odd b v).getLsbD k = if k / 8 = odd.val then b.getLsbD (k % 8) else v.getLsbD k := by
  rw [← mergeByte_eq_withByte]
  match odd with
  | 0 =>
    show ((v >>> 8).setWidth 8 ++ b : Word).getLsbD k = if k / 8 = 0 then _ else _
    rw [getLsbD_append_bytes]
    split
    · rw [if_pos (by omega), Nat.mod_eq_of_lt ‹_›]
    · rw [if_neg (by omega), BitVec.getLsbD_setWidth, BitVec.getLsbD_ushiftRight]
      simp [show k - 8 < 8 by omega, show 8 + (k - 8) = k by omega]
  | 1 =>
    show (b ++ v.setWidth 8 : Word).getLsbD k = if k / 8 = 1 then _ else _
    rw [getLsbD_append_bytes]
    split
    · next h8 => rw [if_neg (by omega), BitVec.getLsbD_setWidth, decide_eq_true h8, Bool.true_and]
    · rw [if_pos (by omega), show k % 8 = k - 8 by omega]

theorem selectByte_eq_extractLsb' (odd : Bool) (v : Word) :
    selectByte odd v = v.extractLsb' (if odd then 8 else 0) 8 := by
  cases odd with
  | false => exact BitVec.setWidth_eq_extractLsb' (show 8 ≤ 16 by decide)
  | true =>
    apply BitVec.eq_of_toNat_eq
    simp [selectByte]

/-! ## Addresses of words and of their bytes -/

theorem wordAddr_even {a : PAddr} (ha : a.toNat % 2 = 0) : wordAddr a = a.toNat := by
  unfold wordAddr
  omega

theorem toNat_add_odd {a : PAddr} (ha : a.toNat % 2 = 0) (odd : Fin 2) :
    (a + BitVec.ofNat 18 odd.val).toNat = a.toNat + odd.val := by
  have := a.isLt
  have := odd.isLt
  rw [BitVec.toNat_add, BitVec.toNat_ofNat]
  omega

theorem wordAddr_byte {a : PAddr} (ha : a.toNat % 2 = 0) (odd : Fin 2) :
    wordAddr (a + BitVec.ofNat 18 odd.val) = a.toNat := by
  have := odd.isLt
  rw [wordAddr, toNat_add_odd ha]
  omega

/-- Bit 0 of an address tells which byte of the word it is (R84). -/
theorem getLsbD_zero_byte {a : PAddr} (ha : a.toNat % 2 = 0) (odd : Fin 2) :
    (a + BitVec.ofNat 18 odd.val).getLsbD 0 = decide (odd.val = 1) := by
  have := odd.isLt
  rw [BitVec.getLsbD, toNat_add_odd ha, Nat.testBit_zero, decide_eq_decide]
  omega

/-! ## References to a register of the processor -/

theorem startCycle_intReg {s : State} {a : PAddr} {r : IntReg} (h : intRegAt s.cfg (wordAddr a) = some r) :
    startCycle a s = .ok () s := by
  simp only [startCycle, h]

section
variable {s : State} {a : PAddr} {r : IntReg} (ha : a.toNat % 2 = 0) (h : intRegAt s.cfg a.toNat = some r)
include ha h

theorem physRead_intReg (odd : Fin 2) : physRead (a + BitVec.ofNat 18 odd.val) s = .ok (readIntReg r s) s := by
  rw [← wordAddr_byte ha odd] at h
  simp only [physRead, startCycle_intReg h, Res.bind_ok, cycleRead, h]

theorem physReadByte_intReg (odd : Fin 2) :
    physReadByte (a + BitVec.ofNat 18 odd.val) s = .ok ((readIntReg r s).extractLsb' (8 * odd.val) 8) s := by
  rw [physReadByte, physRead_intReg ha h, Res.bind_ok, getLsbD_zero_byte ha, selectByte_eq_extractLsb']
  match odd with
  | 0 | 1 => rfl

theorem physWrite_intReg (v : Word) : physWrite a v s = .ok () (writeIntReg r v s) := by
  rw [← wordAddr_even ha] at h
  simp only [physWrite, startCycle_intReg h, Res.bind_ok, cycleWrite, h]

/-- A byte write is the write of the word in which that byte is replaced (R87). -/
theorem physWriteByte_intReg (odd : Fin 2) (b : Byte) :
    physWriteByte (a + BitVec.ofNat 18 odd.val) b s = .ok () (writeIntReg r (withByte odd b (readIntReg r s)) s) := by
  rw [← wordAddr_byte ha odd] at h
  simp only [physWriteByte, startCycle_intReg h, Res.bind_ok, cycleWriteByte, h, getLsbD_zero_byte ha,
    mergeByte_eq_withByte]

end

/-! ## The status word at its address -/

/-- A write to the PS loads every field but T; the unimplemented bits stay 0 (R37, R39). -/
theorem getLsbD_setPsExplicit (s : State) (v : Word) {k : Nat} (hk : k < 16) :
    (s.setPsExplicit v).ps.getLsbD k =
      if k = 4 then s.ps.getLsbD k else if 9 ≤ k ∧ k ≤ 11 then false else v.getLsbD k := by
  have mask : ∀ j : Fin 16, (0o170757#16).getLsbD j.val = (!decide (j.val = 4) && !decide (9 ≤ j.val ∧ j.val ≤ 11)) ∧
      (0o20#16).getLsbD j.val = decide (j.val = 4) := by decide
  obtain ⟨hload, hkeep⟩ := mask ⟨k, hk⟩
  simp only [State.setPsExplicit, BitVec.getLsbD_or, BitVec.getLsbD_and, hload, hkeep]
  by_cases h4 : k = 4
  · simp [h4]
  · by_cases h9 : 9 ≤ k ∧ k ≤ 11
    · simp [h4, h9]
    · rw [if_neg h4, if_neg h9, decide_eq_false h4, decide_eq_false h9]
      simp

/-- Settles O12: the PS is a register of the processor at 777776, of which `setPsExplicit` loads all but T. -/
theorem explicitPsAccess : Obligations.ExplicitPsAccess := by
  intro s
  have ha : (0o777776 : PAddr).toNat % 2 = 0 := by decide
  have h : intRegAt s.cfg (0o777776 : PAddr).toNat = some .ps := rfl
  refine ⟨physRead_intReg ha h 0, physReadByte_intReg ha h 0, physReadByte_intReg ha h 1, fun v => ?_, fun odd b => ?_⟩
  · exact ⟨_, physWrite_intReg ha h v, rfl, fun k hk => getLsbD_setPsExplicit s v hk⟩
  · refine ⟨_, physWriteByte_intReg ha h odd b, rfl, fun k hk => ?_⟩
    rw [show writeIntReg .ps _ s = s.setPsExplicit _ from rfl, getLsbD_setPsExplicit s _ hk, getLsbD_withByte odd b _ hk]
    rfl

/-! ## The memory management status registers -/

/-- The addresses of the status registers (R46 to R50, R102). -/
theorem intRegAt_status {c : Config} (hmmu : c.hasMmu = true) :
    intRegAt c (0o777572 : PAddr).toNat = some .sr0 ∧ intRegAt c (0o777574 : PAddr).toNat = some .sr1 ∧
    intRegAt c (0o777576 : PAddr).toNat = some .sr2 ∧ intRegAt c (0o772516 : PAddr).toNat = some .sr3 := by
  simp [intRegAt, hmmu]

/-- Without the MMU the processor answers at the address of the PS only (R42). -/
theorem intRegAt_without_mmu {c : Config} (hmmu : c.hasMmu = false) {a : Nat} (ha : a ≠ 0o777776) :
    intRegAt c a = none := by
  simp [intRegAt, hmmu, ha]

/-- A write to SR0 loads its flags and the enable bit, and keeps the mode and the page (R46, R47). -/
theorem getLsbD_writeSR0 (s : State) (v : Word) {k : Nat} (hk : k < 16) :
    (writeIntReg .sr0 v s).sr0.getLsbD k =
      if k = 0 ∨ 13 ≤ k then v.getLsbD k else if k = 4 ∨ 7 ≤ k then false else s.sr0.getLsbD k := by
  have mask : ∀ j : Fin 16, (0o160001#16).getLsbD j.val = decide (j.val = 0 ∨ 13 ≤ j.val) ∧
      (0o156#16).getLsbD j.val = (!decide (j.val = 0 ∨ 13 ≤ j.val) && !decide (j.val = 4 ∨ 7 ≤ j.val)) := by decide
  obtain ⟨hload, hkeep⟩ := mask ⟨k, hk⟩
  simp only [writeIntReg, BitVec.getLsbD_or, BitVec.getLsbD_and, hload, hkeep]
  by_cases hv : k = 0 ∨ 13 ≤ k
  · rw [if_pos hv, decide_eq_true hv]
    simp
  · by_cases hz : k = 4 ∨ 7 ≤ k
    · rw [if_neg hv, if_pos hz, decide_eq_false hv, decide_eq_true hz]
      simp
    · rw [if_neg hv, if_neg hz, decide_eq_false hv, decide_eq_false hz]
      simp

/-- A write to SR3 loads bits 5 and 4 (R50). -/
theorem getLsbD_writeSR3 (s : State) (v : Word) {k : Nat} (hk : k < 16) :
    (writeIntReg .sr3 v s).sr3.getLsbD k = if k = 4 ∨ k = 5 then v.getLsbD k else false := by
  have mask : ∀ j : Fin 16, (0o60#16).getLsbD j.val = decide (j.val = 4 ∨ j.val = 5) := by decide
  simp only [writeIntReg, BitVec.getLsbD_and, mask ⟨k, hk⟩]
  split <;> simp_all

/-- SR2 follows the instructions while no abort flag of SR0 is set (R49, R142). -/
theorem trackSR2_eq (a : Word) {s : State} (hmmu : s.cfg.hasMmu = true) :
    trackSR2 a s = if s.sr0.toNat / 8192 = 0 then { s with sr2 := a } else s := by
  have flags : (s.sr0.extractLsb' 13 3 = 0) ↔ s.sr0.toNat / 8192 = 0 := by
    have := s.sr0.isLt
    rw [← BitVec.toNat_inj, BitVec.extractLsb'_toNat, Nat.shiftRight_eq_div_pow]
    show s.sr0.toNat / 8192 % 8 = 0 ↔ _
    omega
  simp only [trackSR2, hmmu, Bool.true_and, beq_iff_eq, flags]

/-- A reference that no register of the processor and no slave answers times out, nobody else acting (R42, R94). -/
theorem phys_timeout {s : State} {a : PAddr} (hbus : s.busInputs = []) (hreg : intRegAt s.cfg (wordAddr a) = none)
    (hmap : regionAt s.cfg (wordAddr a) = none) :
    physRead a s = .trap .busTimeout s ∧ ∀ v, physWrite a v s = .trap .busTimeout s := by
  simp only [physRead_quiet hbus, physWrite_quiet hbus, cycleRead, cycleWrite, slaveRead, slaveWrite, hreg, hmap,
    implies_true, and_self]

/-- Settles O14: each status register by the rules for the processor's registers, and no answer without the MMU. -/
theorem statusRegisterAccess : Obligations.StatusRegisterAccess := by
  intro s
  refine ⟨fun hmmu => ?_, fun a hmmu hbus hmap ha => ?_⟩
  · obtain ⟨h0, h1, h2, h3⟩ := intRegAt_status hmmu
    refine ⟨physRead_intReg (by decide) h0 0, physRead_intReg (by decide) h1 0, physRead_intReg (by decide) h2 0,
      physRead_intReg (by decide) h3 0, fun v => ?_, fun v => ⟨physWrite_intReg (by decide) h1 v,
      physWrite_intReg (by decide) h2 v⟩, fun v => ?_, fun a r odd b ha hr => ?_, fun a => trackSR2_eq a hmmu⟩
    · exact ⟨_, physWrite_intReg (by decide) h0 v, fun k hk => getLsbD_writeSR0 s v hk⟩
    · exact ⟨_, physWrite_intReg (by decide) h3 v, fun k hk => getLsbD_writeSR3 s v hk⟩
    · have heven : a.toNat % 2 = 0 := by rcases ha with rfl | rfl | rfl | rfl <;> decide
      have hreg : ∃ q, intRegAt s.cfg a.toNat = some q := by
        rcases ha with rfl | rfl | rfl | rfl
        exacts [⟨_, h0⟩, ⟨_, h1⟩, ⟨_, h2⟩, ⟨_, h3⟩]
      obtain ⟨q, hq⟩ := hreg
      have hread : physRead a s = .ok (readIntReg q s) s := by simpa using physRead_intReg heven hq 0
      cases hr.symm.trans hread
      rw [physWriteByte_intReg heven hq, physWrite_intReg heven hq]
  · have heven : a.toNat % 2 = 0 := by rcases ha with rfl | rfl | rfl | rfl <;> decide
    have hps : a.toNat ≠ 0o777776 := by rcases ha with rfl | rfl | rfl | rfl <;> decide
    rw [← wordAddr_even heven] at hps hmap
    exact phys_timeout hbus (intRegAt_without_mmu hmmu hps) hmap

end Sys2Proof.Machine
end

section
/-! PROOFS. The page registers (spec/10_state.md R43 to R45): their blocks of eight addresses, what a write of one of them
leaves of the W bit, and when the translation sets that bit (spec/21_memory_management.md R141). -/

namespace Sys2Proof.Machine

open Sys2Proof.Spec

/-! ## The addresses of the page registers (R102) -/

/-- The address of the `i`th word of a block of eight that begins at an even address inside the space. -/
theorem toNat_pageAddr {base : PAddr} (hb : base.toNat + 16 ≤ 2 ^ 18) (i : Fin 8) :
    (base + BitVec.ofNat 18 (2 * i.val)).toNat = base.toNat + 2 * i.val := by
  have := i.isLt
  rw [BitVec.toNat_add, BitVec.toNat_ofNat]
  omega

theorem wordIndex_two_mul (i : Fin 8) : wordIndex (2 * i.val) = i := by
  have := i.isLt
  apply Fin.ext
  simp only [wordIndex, Fin.ofNat]
  omega

/-- A block of page registers, at its base address and the seven words above it. -/
structure PageBlock (c : Config) (base : PAddr) (reg : Fin 8 → IntReg) : Prop where
  even  : base.toNat % 2 = 0
  space : base.toNat + 16 ≤ 2 ^ 18
  reg   : ∀ i : Fin 8, intRegAt c (base.toNat + 2 * i.val) = some (reg i)

/-- Where the page registers answer, when the MMU is there (R102). -/
theorem intRegAt_page {c : Config} (hmmu : c.hasMmu = true) :
    (∀ i : Fin 8, intRegAt c (0o772340 + 2 * i.val) = some (.kpar i)) ∧
    (∀ i : Fin 8, intRegAt c (0o777640 + 2 * i.val) = some (.upar i)) ∧
    (∀ i : Fin 8, intRegAt c (0o772300 + 2 * i.val) = some (.kpdr i)) ∧
    (∀ i : Fin 8, intRegAt c (0o777600 + 2 * i.val) = some (.updr i)) := by
  have on : (!c.hasMmu) ≠ true := by simp [hmmu]
  have index : ∀ (b : Nat) (i : Fin 8), wordIndex (b + 2 * i.val - b) = i := fun b i => by
    rw [Nat.add_sub_cancel_left, wordIndex_two_mul]
  refine ⟨fun i => ?_, fun i => ?_, fun i => ?_, fun i => ?_⟩
  all_goals
    have := i.isLt
    simp (disch := omega) only [intRegAt, if_neg on, if_neg, if_pos, index]

theorem pageBlocks {c : Config} (hmmu : c.hasMmu = true) :
    PageBlock c 0o772340 .kpar ∧ PageBlock c 0o777640 .upar ∧ PageBlock c 0o772300 .kpdr ∧ PageBlock c 0o777600 .updr := by
  obtain ⟨hkpar, hupar, hkpdr, hupdr⟩ := intRegAt_page hmmu
  exact ⟨⟨by decide, by decide, hkpar⟩, ⟨by decide, by decide, hupar⟩, ⟨by decide, by decide, hkpdr⟩,
    ⟨by decide, by decide, hupdr⟩⟩

section
variable {s : State} {base : PAddr} {reg : Fin 8 → IntReg} (h : PageBlock s.cfg base reg) (i : Fin 8)
include h

theorem PageBlock.word :
    (base + BitVec.ofNat 18 (2 * i.val)).toNat % 2 = 0 ∧
    intRegAt s.cfg (base + BitVec.ofNat 18 (2 * i.val)).toNat = some (reg i) := by
  have heven := h.even
  rw [toNat_pageAddr h.space]
  exact ⟨by omega, h.reg i⟩

theorem PageBlock.read : physRead (base + BitVec.ofNat 18 (2 * i.val)) s = .ok (readIntReg (reg i) s) s := by
  obtain ⟨heven, hreg⟩ := h.word i
  simpa using physRead_intReg heven hreg 0

theorem PageBlock.write (v : Word) :
    physWrite (base + BitVec.ofNat 18 (2 * i.val)) v s = .ok () (writeIntReg (reg i) v s) := by
  obtain ⟨heven, hreg⟩ := h.word i
  exact physWrite_intReg heven hreg v

theorem PageBlock.writeByte (odd : Fin 2) (b : Byte) :
    physWriteByte (base + BitVec.ofNat 18 (2 * i.val + odd.val)) b s =
      .ok () (writeIntReg (reg i) (withByte odd b (readIntReg (reg i) s)) s) := by
  obtain ⟨heven, hreg⟩ := h.word i
  rw [BitVec.ofNat_add, ← BitVec.add_assoc]
  exact physWriteByte_intReg heven hreg odd b

end

/-! ## The W bit -/

/-- A write reference that the translation lets pass sets the W bit of its page and changes nothing else (R141). -/
theorem translateIn_write {u : Bool} {m : BitVec 2} {va : Word} {s t : State} {a : PAddr}
    (h : translateIn u m va .write s = .ok a t) : t = noteWrite u (pageOf va) .write s := by
  unfold translateIn at h
  dsimp only at h
  split at h
  · cases h
  · cases h
    rfl

/-- Kernel and user mode have page registers of their own, whatever the parameter says of the others (R122). -/
theorem translate_own {s : State} (hr : s.relocating = true) (va : Word) (k : Access) :
    translate 0 va k s = translateIn false 0 va k s ∧ translate 3 va k s = translateIn true 3 va k s := by
  simp only [translate, hr, if_true]
  exact ⟨rfl, rfl⟩

theorem pageOf_eq {va : Word} {i : Fin 8} (h : va.toNat / 8192 = i.val) : pageOf va = i := by
  have := i.isLt
  apply Fin.ext
  show (va.extractLsb' 13 3).toNat = i.val
  rw [BitVec.extractLsb'_toNat, Nat.shiftRight_eq_div_pow]
  omega

/-- Settles O13: the four blocks by the rules for the processor's registers, the W bit by the translation. -/
theorem pageRegisterAccess : Obligations.PageRegisterAccess := by
  intro s i v odd b hmmu
  obtain ⟨hkpar, hupar, hkpdr, hupdr⟩ := pageBlocks hmmu
  refine ⟨hkpar.read i, hupar.read i, hkpdr.read i, hupdr.read i, hkpar.write i v, hupar.write i v, hkpdr.write i v,
    hupdr.write i v, hkpar.writeByte i odd b, hupar.writeByte i odd b, hkpdr.writeByte i odd b, hupdr.writeByte i odd b,
    fun va a t hon hpage => ?_⟩
  have hr : s.relocating = true := by simp only [State.relocating, hmmu, hon, Bool.and_self]
  obtain ⟨hkernel, huser⟩ := translate_own hr va .write
  rw [hkernel, huser, ← pageOf_eq hpage]
  exact ⟨translateIn_write, translateIn_write⟩

end Sys2Proof.Machine
end

section
/-! PROOFS. Read and write memory (spec/20_memory.md R84 to R87): with no other agent acting, each reference of the processor
to RAM is one operation on the list of bytes, so that what reads back is what the laws of `Memory` say. -/

namespace Sys2Proof.Machine

open Sys2Proof.Spec

/-! ## Bytes and words of memory -/

theorem selectByte_append (odd : Bool) (hi lo : Byte) : selectByte odd (hi ++ lo) = if odd then hi else lo := by
  have hhi := hi.isLt
  have hlo := lo.isLt
  apply BitVec.eq_of_toNat_eq
  cases odd with
  | false =>
    show ((hi ++ lo : Word).setWidth 8).toNat = lo.toNat
    rw [BitVec.toNat_setWidth, toNat_append_bytes]
    omega
  | true =>
    show (((hi ++ lo : Word) >>> 8).setWidth 8).toNat = hi.toNat
    rw [BitVec.toNat_setWidth, BitVec.toNat_ushiftRight, toNat_append_bytes, Nat.shiftRight_eq_div_pow]
    omega

/-- A byte address is that of its word, plus its bit 0 (R84). -/
theorem toNat_eq_wordAddr (a : PAddr) : a.toNat = if a.getLsbD 0 then wordAddr a + 1 else wordAddr a := by
  rw [BitVec.getLsbD, Nat.testBit_zero, wordAddr]
  split
  · next h => have := of_decide_eq_true h; omega
  · next h => have : a.toNat % 2 ≠ 1 := fun e => h (decide_eq_true e); omega

/-- Bit 0 of the address selects from the word the byte that lies at the address (R84, R86). -/
theorem Memory.selectByte_readWord (m : Memory) (a : PAddr) :
    selectByte (a.getLsbD 0) (m.readWord a) = m.read a.toNat := by
  rw [Memory.readWord, selectByte_append, toNat_eq_wordAddr]
  split <;> rfl

/-- Words are apart or the same, so a word write leaves every other word. -/
theorem Memory.readWord_writeWord_ne (m : Memory) {a b : PAddr} (v : Word) (h : wordAddr b ≠ wordAddr a) :
    (m.writeWord a v).readWord b = m.readWord b := by
  have apart : wordAddr b ≠ wordAddr a + 1 ∧ wordAddr b + 1 ≠ wordAddr a := by
    unfold wordAddr
    omega
  obtain ⟨hlow, hhigh⟩ := apart
  rw [Memory.readWord, Memory.read_writeWord_ne m a v h hlow, Memory.read_writeWord_ne m a v hhigh (by omega),
    Memory.readWord]

/-! ## References to RAM -/

section
variable {s : State} {a : PAddr} (hbus : s.busInputs = []) (ha : isRam s a)
include hbus ha

/-- A read that meets no parity error answers the word and changes nothing (R86, R98). -/
theorem physRead_ram : physRead a s = .ok (s.mem.readWord a) s := by
  obtain ⟨hreg, hparity, r, hmap, hram⟩ := ha
  simp only [physRead_quiet hbus, cycleRead, hreg, slaveRead, hmap, hram, hparity, Bool.and_false, Bool.false_eq_true,
    if_false]

theorem physReadByte_ram : physReadByte a s = .ok (s.mem.read a.toNat) s := by
  rw [physReadByte, physRead_ram hbus ha, Res.bind_ok, Memory.selectByte_readWord]

theorem physWrite_ram (v : Word) : physWrite a v s = .ok () { s with mem := s.mem.writeWord a v } := by
  obtain ⟨hreg, -, r, hmap, hram⟩ := ha
  simp only [physWrite_quiet hbus, cycleWrite, hreg, slaveWrite, hmap, hram]

theorem physWriteByte_ram (v : Byte) : physWriteByte a v s = .ok () { s with mem := s.mem.write a.toNat v } := by
  obtain ⟨hreg, -, r, hmap, hram⟩ := ha
  simp only [physWriteByte_quiet hbus, cycleWriteByte, hreg, slaveWriteByte, hmap, hram]

/-- What is RAM does not depend on what the memory holds: after a write the same reference reads the new contents. -/
theorem physRead_setMem (m : Memory) : physRead a { s with mem := m } = .ok (m.readWord a) { s with mem := m } :=
  physRead_ram (s := { s with mem := m }) hbus ha

theorem physReadByte_setMem (m : Memory) : physReadByte a { s with mem := m } = .ok (m.read a.toNat) { s with mem := m } :=
  physReadByte_ram (s := { s with mem := m }) hbus ha

end

/-- Settles O18: references to RAM are the operations on the memory, whose laws say what reads back. -/
theorem memoryReadsBack : Obligations.MemoryReadsBack := by
  intro s a hwf hbus ha
  refine ⟨fun v => ⟨_, physWrite_ram hbus ha v, ?_, fun b hb hne => ?_⟩,
    fun v => ⟨_, physWriteByte_ram hbus ha v, ?_, fun b hb hne => ?_⟩⟩
  · rw [physRead_setMem hbus ha, Memory.readWord_writeWord hwf]
  · rw [physRead_setMem hbus hb, Memory.readWord_writeWord_ne s.mem v hne]
  · rw [physReadByte_setMem hbus ha, Memory.read_write hwf, if_pos rfl]
  · have apart : b.toNat ≠ a.toNat := fun e => hne (BitVec.eq_of_toNat_eq e)
    rw [physReadByte_setMem hbus hb, Memory.read_write_ne s.mem v apart]

end Sys2Proof.Machine
end

section
/-! PROOFS. Translation of a virtual address (spec/21_memory_management.md R130 to R143): the fields of the address and of the
page's descriptor as numbers, what a mapping and an abort leave in the state, and from these what `translate` answers. -/

namespace Sys2Proof.Machine

open Sys2Proof.Spec

/-! ## Fields of the virtual address and of the descriptor, in numbers (R44, R130) -/

theorem toNat_field (v : Word) (lo len : Nat) : (v.extractLsb' lo len).toNat = v.toNat / 2 ^ lo % 2 ^ len := by
  rw [BitVec.extractLsb'_toNat, Nat.shiftRight_eq_div_pow]

/-- The three bits at the top of a word, as the page number and the abort flags are. -/
theorem toNat_topField (v : Word) : (v.extractLsb' 13 3).toNat = v.toNat / 8192 := by
  have := v.isLt
  rw [toNat_field]
  omega

/-- The mode and the page in SR0<6:5> and SR0<3:1> (R46). -/
theorem toNat_modeField (sr0 : Word) : (sr0.extractLsb' 5 2).toNat = sr0.toNat / 32 % 4 := toNat_field sr0 5 2

theorem toNat_pageField (sr0 : Word) : (sr0.extractLsb' 1 3).toNat = sr0.toNat / 2 % 8 := toNat_field sr0 1 3

theorem pageOf_val (va : Word) : (pageOf va).val = va.toNat / 8192 := toNat_topField va

theorem toNat_blockOf (va : Word) : (blockOf va).toNat = va.toNat / 64 % 128 := toNat_field va 6 7

theorem toNat_acfOf (pdr : Word) : (acfOf pdr).toNat = pdr.toNat / 2 % 4 := toNat_field pdr 1 2

/-! ## The three checks (R136 to R138) -/

theorem nonresident_iff (pdr : Word) : nonresident pdr = true ↔ pdr.toNat / 2 % 4 = 0 ∨ pdr.toNat / 2 % 4 = 2 := by
  simp only [nonresident, Bool.or_eq_true, beq_iff_eq, ← BitVec.toNat_inj, toNat_acfOf]
  rfl

theorem pastLength_iff (pdr va : Word) :
    pastLength pdr va = true ↔
      if pdr.toNat / 8 % 2 = 0 then pdr.toNat / 256 % 128 < va.toNat / 64 % 128
      else va.toNat / 64 % 128 < pdr.toNat / 256 % 128 := by
  have down : pdr.getLsbD 3 = decide (pdr.toNat / 8 % 2 = 1) := by
    rw [BitVec.getLsbD, Nat.testBit_eq_decide_div_mod_eq]
  have plf : (pdr.extractLsb' 8 7).toNat = pdr.toNat / 256 % 128 := toNat_field pdr 8 7
  simp only [pastLength, down, decide_eq_true_eq]
  by_cases h : pdr.toNat / 8 % 2 = 0
  · rw [if_neg (by omega), if_pos h, decide_eq_true_eq, BitVec.lt_def, toNat_blockOf, plf]
  · rw [if_pos (by omega), if_neg h, decide_eq_true_eq, BitVec.lt_def, toNat_blockOf, plf]

theorem readOnly_iff (pdr : Word) (k : Access) : readOnly pdr k = true ↔ pdr.toNat / 2 % 4 = 1 ∧ k = .write := by
  simp only [readOnly, Bool.and_eq_true, beq_iff_eq, ← BitVec.toNat_inj, toNat_acfOf]
  rfl

theorem violates_iff (pdr va : Word) (k : Access) :
    violates pdr va k = true ↔ nonresident pdr = true ∨ pastLength pdr va = true ∨ readOnly pdr k = true := by
  simp only [violates, Bool.or_eq_true, or_assoc]

/-- A page whose key allows the reference and whose length takes in the block passes the three checks. -/
theorem not_violates {pdr va : Word} {k : Access}
    (hkey : pdr.toNat / 2 % 4 = 3 ∨ pdr.toNat / 2 % 4 = 1 ∧ k = .read)
    (hlen : if pdr.toNat / 8 % 2 = 0 then va.toNat / 64 % 128 ≤ pdr.toNat / 256 % 128
      else pdr.toNat / 256 % 128 ≤ va.toNat / 64 % 128) : ¬ violates pdr va k = true := by
  rw [violates_iff, nonresident_iff, pastLength_iff, readOnly_iff]
  rintro (hnr | hpl | ⟨hacf, rfl⟩)
  · omega
  · split at hlen
    · next hup => rw [if_pos hup] at hpl; omega
    · next hdown => rw [if_neg hdown] at hpl; omega
  · rcases hkey with hkey | ⟨-, hread⟩
    · omega
    · cases hread

/-! ## The page registers of a page (R131) -/

theorem parOf_eq (user : Bool) (va : Word) (s : State) :
    (if user then s.upar else s.kpar)[va.toNat / 8192]! = parOf user (pageOf va) s := by
  have hpage : va.toNat / 8192 < 8 := by have := va.isLt; omega
  cases user <;> simp [parOf, getElem!_pos, hpage, pageOf_val]

theorem pdrOf_eq (user : Bool) (va : Word) (s : State) :
    (if user then s.updr else s.kpdr)[va.toNat / 8192]! = pdrOf user (pageOf va) s := by
  have hpage : va.toNat / 8192 < 8 := by have := va.isLt; omega
  cases user <;> simp [pdrOf, getElem!_pos, hpage, pageOf_val]

/-- Setting the W bit of the page's descriptor (R141). -/
theorem set_setW (p : Vector Word 8) (va : Word) :
    p.set (pageOf va) (setW p[pageOf va]) = p.set! (va.toNat / 8192) (p[va.toNat / 8192]! ||| 0o100) := by
  have hpage : va.toNat / 8192 < 8 := by have := va.isLt; omega
  simp only [setW, getElem!_pos, hpage, Fin.getElem_fin, pageOf_val, Vector.set!_eq_setIfInBounds]
  refine Vector.ext fun j hj => ?_
  rw [Vector.getElem_set, Vector.getElem_setIfInBounds]
  rfl

/-- What a reference that passes leaves in the page descriptor registers. -/
theorem noteWrite_pdrs (user : Bool) (va : Word) (k : Access) (s : State) :
    (noteWrite user (pageOf va) k s).kpdr = (if user = false ∧ k = .write then
      s.kpdr.set! (va.toNat / 8192) (s.kpdr[va.toNat / 8192]! ||| 0o100) else s.kpdr) ∧
    (noteWrite user (pageOf va) k s).updr = (if user = true ∧ k = .write then
      s.updr.set! (va.toNat / 8192) (s.updr[va.toNat / 8192]! ||| 0o100) else s.updr) := by
  rw [← set_setW, ← set_setW]
  cases k <;> cases user <;> exact ⟨rfl, rfl⟩

theorem noteWrite_only_pdrs (user : Bool) (i : Fin 8) (k : Access) (s : State) :
    { noteWrite user i k s with kpdr := s.kpdr, updr := s.updr } = s := by
  cases k <;> cases user <;> rfl

/-! ## The physical address (R82, R132) -/

theorem toNat_relocate (par va : Word) :
    (relocate par va).toNat = (par.toNat % 4096 + va.toNat / 64 % 128) % 4096 * 64 + va.toNat % 64 := by
  have hblock : ((blockOf va).setWidth 12).toNat = va.toNat / 64 % 128 := by
    rw [BitVec.toNat_setWidth, toNat_blockOf]
    omega
  have hdisp : (va.setWidth 6).toNat = va.toNat % 64 := BitVec.toNat_setWidth 6 va
  rw [relocate, BitVec.toNat_append, ← Nat.shiftLeft_add_eq_or_of_lt (va.setWidth 6).isLt, Nat.shiftLeft_eq,
    BitVec.toNat_add, hblock, hdisp, BitVec.toNat_setWidth]

theorem toNat_unmapped (va : Word) :
    (unmapped va).toNat = if va.toNat / 8192 = 7 then va.toNat + 0o600000 else va.toNat := by
  have := va.isLt
  have hwide : (va.setWidth 18).toNat = va.toNat := by
    rw [BitVec.toNat_setWidth]
    omega
  have htop : va.extractLsb' 13 3 = 7 ↔ va.toNat / 8192 = 7 := by
    rw [← BitVec.toNat_inj, toNat_topField]
    rfl
  simp only [unmapped, htop]
  split
  · rw [BitVec.toNat_add, hwide, BitVec.toNat_ofNat]
    omega
  · exact hwide

/-! ## What `translate` answers (R120 to R123, R135) -/

theorem relocating_eq_true {s : State} (hmmu : s.cfg.hasMmu = true) (hon : s.sr0.getLsbD 0 = true) :
    s.relocating = true := by
  rw [State.relocating, hmmu, hon, Bool.and_self]

theorem translate_unmapped {s : State} (hoff : s.relocating = false) (m : BitVec 2) (va : Word) (k : Access) :
    translate m va k s = .ok (unmapped va) s := by
  rw [translate, hoff, if_neg Bool.false_ne_true]

section
variable {s : State} (hr : s.relocating = true) {m : BitVec 2} (va : Word) (k : Access)
include hr

/-- A mode that has or borrows page registers is translated with them. -/
theorem translate_of_pagesOf {user : Bool} (hpages : pagesOf s.cfg m = some user) :
    translate m va k s = translateIn user m va k s := by
  have hset : pageSetOf s.cfg.reservedMode m = if user then .user else .kernel := by
    unfold pagesOf at hpages
    unfold pageSetOf
    split at hpages
    · next h0 => cases hpages; rw [if_pos h0]; rfl
    · next h0 =>
      rw [if_neg h0]
      split at hpages
      · next h3 => cases hpages; rw [if_pos h3]; rfl
      · next h3 =>
        rw [if_neg h3]
        cases hp : s.cfg.reservedMode <;> rw [hp] at hpages <;> cases hpages <;> rfl
  simp only [translate, hr, if_true, hset]
  cases user <;> rfl

/-- A reserved mode without page registers aborts as for a nonresident page, or the model refuses. -/
theorem translate_reserved (hm : m = 1 ∨ m = 2) :
    (s.cfg.reservedMode = .abortNonresident →
      translate m va k s = .trap .mmuAbort (recordAbort m va true false false s)) ∧
    (s.cfg.reservedMode = .refuse → translate m va k s = .refused .reservedModeTranslation) := by
  have hnotOwn : m ≠ 0 ∧ m ≠ 3 := by rcases hm with rfl | rfl <;> decide
  obtain ⟨h0, h3⟩ := hnotOwn
  constructor <;> intro hp <;> simp only [translate, hr, if_true, pageSetOf, if_neg h0, if_neg h3, hp]

end

theorem translateIn_allowed {user : Bool} {va : Word} {k : Access} {s : State}
    (h : ¬ violates (pdrOf user (pageOf va) s) va k = true) (m : BitVec 2) :
    translateIn user m va k s =
      .ok (relocate (parOf user (pageOf va) s) va) (noteWrite user (pageOf va) k s) := if_neg h

theorem translateIn_violated {user : Bool} {va : Word} {k : Access} {s : State}
    (h : violates (pdrOf user (pageOf va) s) va k = true) (m : BitVec 2) :
    translateIn user m va k s =
      .trap .mmuAbort (recordAbort m va (nonresident (pdrOf user (pageOf va) s))
        (pastLength (pdrOf user (pageOf va) s) va) (readOnly (pdrOf user (pageOf va) s) k) s) := if_pos h

/-- Settles O21: the checks pass, so `translateIn` maps; without relocation `translate` answers `unmapped`. -/
theorem translationMaps : Obligations.TranslationMaps := by
  refine ⟨?_, fun m va k s hoff => ?_⟩
  · intro m user va k s hmmu hon hpages page block par pdr hkey hlen
    simp only [pdr, page, block, pdrOf_eq] at hkey hlen
    obtain ⟨hkpdr, hupdr⟩ := noteWrite_pdrs user va k s
    refine ⟨_, _, (translate_of_pagesOf (relocating_eq_true hmmu hon) va k hpages).trans
      (translateIn_allowed (not_violates hkey hlen) m), ?_, noteWrite_only_pdrs _ _ _ _, hkpdr, hupdr⟩
    simp only [par, page, block, parOf_eq, toNat_relocate]
  · have hr : s.relocating = false := by
      rcases hoff with hmmu | hsr0
      · rw [State.relocating, hmmu, Bool.false_and]
      · rw [State.relocating, hsr0, Bool.and_false]
    exact ⟨_, translate_unmapped hr m va k, toNat_unmapped va⟩

/-! ## What an abort records in SR0 (R135, R139, R143) -/

/-- The abort flags in their places in SR0<15:13>. -/
def abortFlags (nr pl ro : Bool) : Word := BitVec.ofBool nr ++ BitVec.ofBool pl ++ BitVec.ofBool ro ++ (0 : BitVec 13)

/-- The mode and the page in their places in SR0<6:5> and SR0<3:1>. -/
def abortPlace (m : BitVec 2) (page : BitVec 3) : Word := (0 : BitVec 9) ++ m ++ (0 : BitVec 1) ++ page ++ (0 : BitVec 1)

theorem recordAbort_sr0 (m : BitVec 2) (va : Word) (nr pl ro : Bool) (s : State) :
    (recordAbort m va nr pl ro s).sr0 =
      (if s.sr0.toNat / 8192 = 0 then (s.sr0 &&& 0o177621) ||| abortPlace m (va.extractLsb' 13 3) else s.sr0) |||
        abortFlags nr pl ro := by
  have hflags : s.sr0.extractLsb' 13 3 = 0 ↔ s.sr0.toNat / 8192 = 0 := by
    rw [← BitVec.toNat_inj, toNat_topField]
    rfl
  simp only [recordAbort, hflags]
  rfl

theorem abortFlags_fields (nr pl ro : Bool) :
    ((abortFlags nr pl ro).getLsbD 15 = nr ∧ (abortFlags nr pl ro).getLsbD 14 = pl ∧
      (abortFlags nr pl ro).getLsbD 13 = ro) ∧
    (abortFlags nr pl ro).extractLsb' 5 2 = 0#2 ∧ (abortFlags nr pl ro).extractLsb' 1 3 = 0#3 ∧
    abortFlags nr pl ro &&& 0o017621 = 0 := by
  revert nr pl ro
  decide

theorem abortPlace_fields (m : BitVec 2) (page : BitVec 3) :
    ((abortPlace m page).getLsbD 15 = false ∧ (abortPlace m page).getLsbD 14 = false ∧
      (abortPlace m page).getLsbD 13 = false) ∧
    (abortPlace m page).extractLsb' 5 2 = m ∧ (abortPlace m page).extractLsb' 1 3 = page ∧
    abortPlace m page &&& 0o017621 = 0 := by
  revert m page
  decide

/-- An abort ORs its flags into SR0<15:13>. -/
theorem recordAbort_flags (m : BitVec 2) (va : Word) (nr pl ro : Bool) (s : State) :
    (recordAbort m va nr pl ro s).sr0.getLsbD 15 = (s.sr0.getLsbD 15 || nr) ∧
    (recordAbort m va nr pl ro s).sr0.getLsbD 14 = (s.sr0.getLsbD 14 || pl) ∧
    (recordAbort m va nr pl ro s).sr0.getLsbD 13 = (s.sr0.getLsbD 13 || ro) := by
  obtain ⟨⟨f15, f14, f13⟩, -⟩ := abortFlags_fields nr pl ro
  obtain ⟨⟨p15, p14, p13⟩, -⟩ := abortPlace_fields m (va.extractLsb' 13 3)
  have kept : (0o177621 : Word).getLsbD 15 = true ∧ (0o177621 : Word).getLsbD 14 = true ∧
      (0o177621 : Word).getLsbD 13 = true := by decide
  obtain ⟨k15, k14, k13⟩ := kept
  simp only [recordAbort_sr0, BitVec.getLsbD_or, f15, f14, f13]
  split
  · simp only [BitVec.getLsbD_or, BitVec.getLsbD_and, p15, p14, p13, k15, k14, k13, Bool.and_true, Bool.or_false, and_self]
  · exact ⟨rfl, rfl, rfl⟩

/-- The first abort records its mode and its page; until the flags are cleared a later one keeps them. -/
theorem recordAbort_place (m : BitVec 2) (va : Word) (nr pl ro : Bool) (s : State) :
    if s.sr0.toNat / 8192 = 0 then
      (recordAbort m va nr pl ro s).sr0.extractLsb' 5 2 = m ∧
      (recordAbort m va nr pl ro s).sr0.extractLsb' 1 3 = va.extractLsb' 13 3
    else
      (recordAbort m va nr pl ro s).sr0.extractLsb' 5 2 = s.sr0.extractLsb' 5 2 ∧
      (recordAbort m va nr pl ro s).sr0.extractLsb' 1 3 = s.sr0.extractLsb' 1 3 := by
  obtain ⟨-, fmode, fpage, -⟩ := abortFlags_fields nr pl ro
  obtain ⟨-, pmode, ppage, -⟩ := abortPlace_fields m (va.extractLsb' 13 3)
  have cleared : (0o177621 : Word).extractLsb' 5 2 = 0#2 ∧ (0o177621 : Word).extractLsb' 1 3 = 0#3 := by decide
  obtain ⟨cmode, cpage⟩ := cleared
  rw [recordAbort_sr0]
  split
  · simp only [BitVec.extractLsb'_or, BitVec.extractLsb'_and, fmode, fpage, pmode, ppage, cmode, cpage,
      BitVec.and_zero, BitVec.zero_or, BitVec.or_zero, and_self]
  · simp only [BitVec.extractLsb'_or, fmode, fpage, BitVec.or_zero, and_self]

/-- An abort leaves the bits of SR0 besides the flags, the mode and the page. -/
theorem recordAbort_rest (m : BitVec 2) (va : Word) (nr pl ro : Bool) (s : State) :
    (recordAbort m va nr pl ro s).sr0 &&& 0o017621 = s.sr0 &&& 0o017621 := by
  obtain ⟨-, -, -, frest⟩ := abortFlags_fields nr pl ro
  obtain ⟨-, -, -, prest⟩ := abortPlace_fields m (va.extractLsb' 13 3)
  rw [recordAbort_sr0, or_and_of_disjoint frest]
  split
  · rw [or_and_of_disjoint prest, BitVec.and_assoc]
    rfl
  · rfl

/-- Settles O22: each abort is a `recordAbort`, of the flags that the page's checks raise or of a nonresident page. -/
theorem translationAborts : Obligations.TranslationAborts := by
  intro m va k s hmmu hon page block aborts
  have hr : s.relocating = true := relocating_eq_true hmmu hon
  have recorded : ∀ {nr pl ro : Bool}, translate m va k s = .trap .mmuAbort (recordAbort m va nr pl ro s) →
      aborts (nr = true) (pl = true) (ro = true) := by
    intro nr pl ro htrap
    obtain ⟨h15, h14, h13⟩ := recordAbort_flags m va nr pl ro s
    have hplace := recordAbort_place m va nr pl ro s
    simp only [← BitVec.toNat_inj, toNat_topField, toNat_modeField, toNat_pageField] at hplace
    refine ⟨_, htrap, rfl, ?_, ?_, ?_, hplace, recordAbort_rest m va nr pl ro s⟩
    · rw [h15, Bool.or_eq_true]
    · rw [h14, Bool.or_eq_true]
    · rw [h13, Bool.or_eq_true]
  refine ⟨fun user hpages => ?_, fun hm hp => ?_, fun hm => (translate_reserved hr va k hm).2⟩
  · intro pdr nr pl ro hfails
    simp only [nr, pl, ro, pdr, page, block, pdrOf_eq, ← nonresident_iff, ← pastLength_iff, ← readOnly_iff] at hfails ⊢
    exact recorded ((translate_of_pagesOf hr va k hpages).trans
      (translateIn_violated ((violates_iff _ _ _).2 hfails) m))
  · simpa using recorded ((translate_reserved hr va k hm).1 hp)

end Sys2Proof.Machine
end

section
/-! PROOFS. The encoding (spec/30_encoding.md): the fields of a word as numbers, the opcode and the fields below it in each
format, and from these the two ways round. Every word decodes to a row of the table that stands for it, and the word of every
row decodes to its base spelling. -/

namespace Sys2Proof

open Sys2Proof.Machine

/-! ## Fields and their numbers (R172) -/

theorem Reg.toNat_lt (r : Reg) : r.toNat < 8 := by cases r <;> decide

theorem AMode.toNat_lt (m : AMode) : m.toNat < 8 := by cases m <;> decide

theorem Ac.toNat_lt (a : Ac) : a.toNat < 4 := by cases a <;> decide

theorem Operand.toNat_lt (o : Operand) : o.toNat < 64 := by
  have hm := o.mode.toNat_lt
  have hr := o.reg.toNat_lt
  unfold Operand.toNat
  omega

@[simp] theorem regOf_toNat (r : Reg) : regOf r.toNat = r := by cases r <;> rfl

@[simp] theorem modeOf_toNat (m : AMode) : modeOf m.toNat = m := by cases m <;> rfl

@[simp] theorem acOf_toNat (a : Ac) : acOf a.toNat = a := by cases a <;> rfl

@[simp] theorem operandOf_toNat (o : Operand) : operandOf o.toNat = o := by
  have hr := o.reg.toNat_lt
  have hmode : o.toNat / 8 = o.mode.toNat := by unfold Operand.toNat; omega
  have hreg : o.toNat % 8 = o.reg.toNat := by unfold Operand.toNat; omega
  rw [operandOf, hmode, hreg, modeOf_toNat, regOf_toNat]

theorem toNat_regOf {n : Nat} (h : n < 8) : (regOf n).toNat = n := by interval_cases n <;> rfl

theorem toNat_modeOf {n : Nat} (h : n < 8) : (modeOf n).toNat = n := by interval_cases n <;> rfl

theorem toNat_acOf {n : Nat} (h : n < 4) : (acOf n).toNat = n := by interval_cases n <;> rfl

theorem toNat_operandOf {n : Nat} (h : n < 64) : (operandOf n).toNat = n := by
  rw [operandOf, Operand.toNat, toNat_modeOf (by omega), toNat_regOf (by omega)]
  omega

@[simp] theorem toNat_dstField (n : Nat) : (dstField n).toNat = n % 64 := toNat_operandOf (by omega)

@[simp] theorem toNat_srcField (n : Nat) : (srcField n).toNat = n / 64 % 64 := toNat_operandOf (by omega)

@[simp] theorem toNat_regField (n : Nat) : (regField n).toNat = n / 64 % 8 := toNat_regOf (by omega)

@[simp] theorem toNat_acField (n : Nat) : (acField n).toNat = n / 64 % 4 := toNat_acOf (by omega)

@[simp] theorem toNat_lowByte (n : Nat) : (lowByte n).toNat = n % 256 := by simp [lowByte]

@[simp] theorem toNat_lowSix (n : Nat) : (lowSix n).toNat = n % 64 := by simp [lowSix]

/-! ## An opcode and the field below it -/

/-- A field below bit `m` does not reach the bits above. -/
theorem add_div_of_field {b k m d : Nat} (hk : k < m) (hb : b % m = 0) (hd : d % m = 0) : (b + k) / d = b / d := by
  obtain ⟨b, rfl⟩ := Nat.dvd_of_mod_eq_zero hb
  obtain ⟨d, rfl⟩ := Nat.dvd_of_mod_eq_zero hd
  have hm : 0 < m := by omega
  rw [← Nat.div_div_eq_div_mul, ← Nat.div_div_eq_div_mul, Nat.mul_add_div hm, Nat.div_eq_of_lt hk, Nat.add_zero,
    Nat.mul_div_cancel_left b hm]

/-- The bits below `m` are the field. -/
theorem add_mod_of_field {b k m : Nat} (hk : k < m) (hb : b % m = 0) : (b + k) % m = k := by
  rw [Nat.add_mod, hb, Nat.zero_add, Nat.mod_mod, Nat.mod_eq_of_lt hk]

@[simp] theorem operand_div (o : Operand) : o.toNat / 64 = 0 := Nat.div_eq_of_lt o.toNat_lt

@[simp] theorem byte_div (k : BitVec 8) : k.toNat / 256 = 0 := Nat.div_eq_of_lt k.isLt

@[simp] theorem add_operand_div {b d : Nat} (o : Operand) (hb : b % 64 = 0) (hd : d % 64 = 0) :
    (b + o.toNat) / d = b / d := add_div_of_field o.toNat_lt hb hd

@[simp] theorem dstField_add_operand {b : Nat} (o : Operand) (hb : b % 64 = 0) : dstField (b + o.toNat) = o := by
  rw [dstField, add_mod_of_field o.toNat_lt hb, operandOf_toNat]

@[simp] theorem add_byte_div {b d : Nat} (k : BitVec 8) (hb : b % 256 = 0) (hd : d % 256 = 0) :
    (b + k.toNat) / d = b / d := add_div_of_field k.isLt hb hd

@[simp] theorem lowByte_add_byte {b : Nat} (k : BitVec 8) (hb : b % 256 = 0) : lowByte (b + k.toNat) = k := by
  rw [lowByte, add_mod_of_field k.isLt hb, BitVec.ofNat_toNat, BitVec.setWidth_eq]

@[simp] theorem add_six_div {b d : Nat} (k : BitVec 6) (hb : b % 64 = 0) (hd : d % 64 = 0) :
    (b + k.toNat) / d = b / d := add_div_of_field k.isLt hb hd

@[simp] theorem lowSix_add_six {b : Nat} (k : BitVec 6) (hb : b % 64 = 0) : lowSix (b + k.toNat) = k := by
  rw [lowSix, add_mod_of_field k.isLt hb, BitVec.ofNat_toNat, BitVec.setWidth_eq]

theorem encDouble_eq (b : Nat) (s d : Operand) : encDouble b s d = b + (s.toNat * 64 + d.toNat) := Nat.add_assoc ..

theorem double_fields_lt (s d : Operand) : s.toNat * 64 + d.toNat < 4096 := by
  have hs := s.toNat_lt
  have hd := d.toNat_lt
  omega

@[simp] theorem encDouble_div {b d : Nat} (s t : Operand) (hb : b % 4096 = 0) (hd : d % 4096 = 0) :
    encDouble b s t / d = b / d := by
  rw [encDouble_eq, add_div_of_field (double_fields_lt s t) hb hd]

@[simp] theorem srcField_encDouble {b : Nat} (s d : Operand) (hb : b % 4096 = 0) : srcField (encDouble b s d) = s := by
  have hs := s.toNat_lt
  have hd := d.toNat_lt
  have hfield : encDouble b s d / 64 % 64 = s.toNat := by unfold encDouble; omega
  rw [srcField, hfield, operandOf_toNat]

@[simp] theorem dstField_encDouble {b : Nat} (s d : Operand) (hb : b % 64 = 0) : dstField (encDouble b s d) = d :=
  dstField_add_operand d (by omega)

@[simp] theorem encRegister_div {b d : Nat} (r : Reg) (o : Operand) (hb : b % 512 = 0) (hd : d % 512 = 0) :
    encRegister b r o / d = b / d := by
  have hr := r.toNat_lt
  have ho := o.toNat_lt
  rw [encRegister, Nat.add_assoc]
  exact add_div_of_field (by omega) hb hd

@[simp] theorem regField_encRegister {b : Nat} (r : Reg) (o : Operand) (hb : b % 512 = 0) :
    regField (encRegister b r o) = r := by
  have hr := r.toNat_lt
  have ho := o.toNat_lt
  have hfield : encRegister b r o / 64 % 8 = r.toNat := by unfold encRegister; omega
  rw [regField, hfield, regOf_toNat]

@[simp] theorem dstField_encRegister {b : Nat} (r : Reg) (o : Operand) (hb : b % 64 = 0) :
    dstField (encRegister b r o) = o := dstField_add_operand o (by omega)

@[simp] theorem encFloat_div {b d : Nat} (a : Ac) (o : Operand) (hb : b % 256 = 0) (hd : d % 256 = 0) :
    encFloat b a o / d = b / d := by
  have ha := a.toNat_lt
  have ho := o.toNat_lt
  rw [encFloat, Nat.add_assoc]
  exact add_div_of_field (by omega) hb hd

@[simp] theorem acField_encFloat {b : Nat} (a : Ac) (o : Operand) (hb : b % 256 = 0) :
    acField (encFloat b a o) = a := by
  have ha := a.toNat_lt
  have ho := o.toNat_lt
  have hfield : encFloat b a o / 64 % 4 = a.toNat := by unfold encFloat; omega
  rw [acField, hfield, acOf_toNat]

@[simp] theorem dstField_encFloat {b : Nat} (a : Ac) (o : Operand) (hb : b % 64 = 0) :
    dstField (encFloat b a o) = o := dstField_add_operand o (by omega)

/-! ### A number is the opcode above its fields, with the fields -/

theorem add_dstField {b n : Nat} (h : n / 64 * 64 = b) : b + (dstField n).toNat = n := by
  rw [toNat_dstField]
  omega

theorem add_lowByte {b n : Nat} (h : n / 256 * 256 = b) : b + (lowByte n).toNat = n := by
  rw [toNat_lowByte]
  omega

theorem add_lowSix {b n : Nat} (h : n / 64 * 64 = b) : b + (lowSix n).toNat = n := by
  rw [toNat_lowSix]
  omega

theorem encDouble_fields {b n : Nat} (h : n / 4096 * 4096 = b) : encDouble b (srcField n) (dstField n) = n := by
  rw [encDouble, toNat_srcField, toNat_dstField]
  omega

theorem encRegister_fields {b n : Nat} (h : n / 512 * 512 = b) : encRegister b (regField n) (dstField n) = n := by
  rw [encRegister, toNat_regField, toNat_dstField]
  omega

theorem encFloat_fields {b n : Nat} (h : n / 256 * 256 = b) : encFloat b (acField n) (dstField n) = n := by
  rw [encFloat, toNat_acField, toNat_dstField]
  omega

theorem sob_fields {b n : Nat} (h : n / 512 * 512 = b) : b + (regField n).toNat * 64 + (lowSix n).toNat = n := by
  rw [toNat_regField, toNat_lowSix]
  omega

/-! ## The instruction word as a number -/

@[simp] theorem add_operand_lt {b m : Nat} (o : Operand) (h : b + 64 ≤ m) : b + o.toNat < m := by
  have ho := o.toNat_lt
  omega

@[simp] theorem add_byte_lt {b m : Nat} (k : BitVec 8) (h : b + 256 ≤ m) : b + k.toNat < m := by
  have hk := k.isLt
  omega

@[simp] theorem encDouble_lt {b m : Nat} (s d : Operand) (h : b + 4096 ≤ m) : encDouble b s d < m := by
  have hfields := double_fields_lt s d
  rw [encDouble_eq]
  omega

@[simp] theorem encRegister_lt {b m : Nat} (r : Reg) (o : Operand) (h : b + 512 ≤ m) : encRegister b r o < m := by
  have hr := r.toNat_lt
  exact add_operand_lt o (by omega)

@[simp] theorem encFloat_lt {b m : Nat} (a : Ac) (o : Operand) (h : b + 256 ≤ m) : encFloat b a o < m := by
  have ha := a.toNat_lt
  exact add_operand_lt o (by omega)

/-- No row's word exceeds 16 bits, so the word's number is `encodeNat` itself. -/
theorem encodeNat_lt (i : Instr) : i.encodeNat < 65536 := by
  cases i with
  | ccop t n z v c => cases t <;> cases n <;> cases z <;> cases v <;> cases c <;> decide
  | rts r => cases r <;> decide
  | sob r k =>
    have hr := r.toNat_lt
    have hk := k.isLt
    change 0o077000 + r.toNat * 64 + k.toNat < 65536
    omega
  | mark k =>
    have hk := k.isLt
    change 0o006400 + k.toNat < 65536
    omega
  | reserved000010 w | reserved000210 w | reserved007000 w | reserved075000 w | reserved107000 w
  | unassigned170003 w | unassigned170013 w => exact w.isLt
  | _ => simp [Instr.encodeNat]

@[simp] theorem toNat_encode (i : Instr) : (encode i).toNat = i.encodeNat := by
  rw [encode, BitVec.toNat_ofNat, Nat.mod_eq_of_lt (encodeNat_lt i)]

@[simp] theorem wordIn_iff {lo hi : Nat} {w : Word} : wordIn lo hi w = true ↔ lo ≤ w.toNat ∧ w.toNat ≤ hi := by
  simp [wordIn]

theorem toNat_word {n : Nat} (h : n < 65536) : (BitVec.ofNat 16 n).toNat = n := by
  rw [BitVec.toNat_ofNat, Nat.mod_eq_of_lt h]

theorem wordIn_word {lo hi n : Nat} (h : n < 65536) (hlo : lo ≤ n) (hhi : n ≤ hi) :
    wordIn lo hi (BitVec.ofNat 16 n) = true := by
  rw [wordIn_iff, toNat_word h]
  exact ⟨hlo, hhi⟩

/-- The instruction is a well-formed one whose word is the number `n`. -/
def Instr.StandsFor (i : Instr) (n : Nat) : Prop := i.encodeNat = n ∧ i.wellFormed = true

theorem encode_eq_of_encodeNat {i : Instr} {w : Word} (h : i.encodeNat = w.toNat) : encode i = w := by
  rw [encode, h, BitVec.ofNat_toNat, BitVec.setWidth_eq]

theorem decodeWord_encode_of_eq {i j : Instr} {w : Word} (h : decodeWord w = j) (hword : i.encodeNat = w.toNat) :
    decodeWord (encode i) = j := by
  rw [encode_eq_of_encodeNat hword, h]

/-! ## Every word has a row (R182, R183)

The pages without an operand field are tables of 64 words; in the others the selected row fixes the bits above its fields. The
last row of a selector is the one left over: its bits follow from those that the other rows rule out. -/

theorem decodeControl_standsFor {n : Nat} (h : n < 0o100) : (decodeControl n).StandsFor n := by
  interval_cases n <;> exact ⟨rfl, rfl⟩

theorem decodeReturn_standsFor {n : Nat} (hlo : 0o200 ≤ n) (hhi : n < 0o300) : (decodeReturn n).StandsFor n := by
  interval_cases n <;> exact ⟨rfl, rfl⟩

theorem decodeFloatZero_standsFor {n : Nat} (hlo : 0o170000 ≤ n) (hhi : n < 0o170100) :
    (decodeFloatZero n).StandsFor n := by
  interval_cases n <;> exact ⟨rfl, rfl⟩

theorem decodeZero_standsFor {n : Nat} (h : n < 0o400) : (decodeZero n).StandsFor n := by
  unfold decodeZero
  split
  case h_1 => exact decodeControl_standsFor (by omega)
  case h_2 => exact ⟨add_dstField (by omega), rfl⟩
  case h_3 => exact decodeReturn_standsFor (by omega) (by omega)
  case h_4 => exact ⟨add_dstField (by grind), rfl⟩

theorem decodeLow_standsFor {n : Nat} (h : n < 0o10000) : (decodeLow n).StandsFor n := by
  unfold decodeLow
  split
  case h_1 => exact decodeZero_standsFor (by omega)
  case h_9 | h_10 => exact ⟨encRegister_fields (by omega), rfl⟩
  case h_11 | h_12 | h_13 => split <;> exact ⟨add_dstField (by grind), rfl⟩
  case h_14 =>
    split
    case h_1 => exact ⟨add_lowSix (by omega), rfl⟩
    case h_4 => exact ⟨add_dstField (by grind), rfl⟩
    all_goals exact ⟨add_dstField (by omega), rfl⟩
  case h_15 => exact ⟨toNat_word (by grind), wordIn_word (by grind) (by grind) (by grind)⟩
  all_goals exact ⟨add_lowByte (by omega), rfl⟩

theorem decodeRegister_standsFor {n : Nat} (h : n / 4096 = 7) : (decodeRegister n).StandsFor n := by
  unfold decodeRegister
  split
  case h_6 | h_7 => exact ⟨toNat_word (by omega), wordIn_word (by omega) (by omega) (by omega)⟩
  case h_8 => exact ⟨sob_fields (by grind), rfl⟩
  all_goals exact ⟨encRegister_fields (by omega), rfl⟩

theorem decodeHigh_standsFor {n : Nat} (h : n / 4096 = 8) : (decodeHigh n).StandsFor n := by
  unfold decodeHigh
  split
  case h_11 | h_12 | h_13 | h_14 => split <;> exact ⟨add_dstField (by grind), rfl⟩
  case h_15 => exact ⟨toNat_word (by grind), wordIn_word (by grind) (by grind) (by grind)⟩
  all_goals exact ⟨add_lowByte (by omega), rfl⟩

theorem decodeFloat_standsFor {n : Nat} (h : n / 4096 = 15) : (decodeFloat n).StandsFor n := by
  unfold decodeFloat
  split
  case h_1 =>
    split
    case h_1 => exact decodeFloatZero_standsFor (by omega) (by omega)
    case h_4 => exact ⟨add_dstField (by grind), rfl⟩
    all_goals exact ⟨add_dstField (by omega), rfl⟩
  case h_2 => split <;> exact ⟨add_dstField (by grind), rfl⟩
  case h_16 => exact ⟨encFloat_fields (by grind), rfl⟩
  all_goals exact ⟨encFloat_fields (by omega), rfl⟩

theorem decodeWord_standsFor (w : Word) : (decodeWord w).StandsFor w.toNat := by
  have hw := w.isLt
  simp only [decodeWord]
  split
  case h_1 => exact decodeLow_standsFor (by omega)
  case h_8 hpage => exact decodeRegister_standsFor hpage
  case h_9 hpage => exact decodeHigh_standsFor hpage
  case h_16 => exact decodeFloat_standsFor (by grind)
  all_goals exact ⟨encDouble_fields (by omega), rfl⟩

/-! ## The word of every row (R183, R184) -/

theorem decodeWord_low {w : Word} (h : w.toNat / 4096 = 0) : decodeWord w = decodeLow w.toNat := by
  simp [decodeWord, h]

theorem decodeWord_register {w : Word} (h : w.toNat / 4096 = 7) : decodeWord w = decodeRegister w.toNat := by
  simp [decodeWord, h]

theorem decodeWord_high {w : Word} (h : w.toNat / 4096 = 8) : decodeWord w = decodeHigh w.toNat := by
  simp [decodeWord, h]

/-- The register's top bit is the lowest bit of the selector of its page, so JSR has two lines there. -/
theorem decodeWord_jsr (r : Reg) (o : Operand) : decodeWord (encode (.jsr r o)) = .jsr r o := by
  have hr := r.toNat_lt
  have ho := o.toNat_lt
  have hsel : encRegister 0o004000 r o / 256 % 16 = 8 ∨ encRegister 0o004000 r o / 256 % 16 = 9 := by
    unfold encRegister
    omega
  rcases hsel with hsel | hsel <;> simp [decodeWord, decodeLow, Instr.encodeNat, hsel]

theorem decodeWord_sob (r : Reg) (k : BitVec 6) : decodeWord (encode (.sob r k)) = .sob r k := by
  have hr := r.toNat_lt
  have hk := k.isLt
  have hword : (encode (.sob r k)).toNat = 0o077000 + r.toNat * 64 + k.toNat := toNat_encode _
  have hsel : (0o077000 + r.toNat * 64 + k.toNat) / 512 % 8 = 7 := by omega
  have hreg : (0o077000 + r.toNat * 64 + k.toNat) / 64 % 8 = r.toNat := by omega
  rw [decodeWord_register (by omega), hword]
  simp only [decodeRegister, regField, hsel, hreg, regOf_toNat]
  rw [lowSix_add_six k (by omega)]

theorem decodeWord_ccop (t n z v c : Bool) :
    decodeWord (encode (.ccop t n z v c)) = (Instr.ccop t n z v c).canonical := by
  cases t <;> cases n <;> cases z <;> cases v <;> cases c <;> rfl

/-! ### The reserved and unassigned ranges (R185, R189) -/

/-- What holds of the word of every number of a range holds of every word of the range. -/
theorem of_wordIn {P : Word → Prop} {lo hi : Nat} (h : ∀ n, lo ≤ n → n ≤ hi → P (BitVec.ofNat 16 n)) {w : Word}
    (hw : wordIn lo hi w = true) : P w := by
  obtain ⟨hlo, hhi⟩ := wordIn_iff.1 hw
  simpa using h w.toNat hlo hhi

theorem decodeWord_reserved000010 {w : Word} (h : wordIn 0o10 0o77 w = true) :
    decodeWord w = .reserved000010 w := by
  refine of_wordIn (P := fun w => decodeWord w = .reserved000010 w) (fun n _ _ => ?_) h
  interval_cases n <;> rfl

theorem decodeWord_reserved000210 {w : Word} (h : wordIn 0o210 0o237 w = true) :
    decodeWord w = .reserved000210 w := by
  refine of_wordIn (P := fun w => decodeWord w = .reserved000210 w) (fun n _ _ => ?_) h
  interval_cases n <;> rfl

theorem decodeWord_reserved007000 {w : Word} (h : wordIn 0o7000 0o7777 w = true) :
    decodeWord w = .reserved007000 w := by
  obtain ⟨hlo, hhi⟩ := wordIn_iff.1 h
  have hsel : w.toNat / 256 % 16 = 14 ∨ w.toNat / 256 % 16 = 15 := by omega
  rw [decodeWord_low (by omega)]
  rcases hsel with hsel | hsel <;> simp [decodeLow, hsel]

theorem decodeWord_reserved075000 {w : Word} (h : wordIn 0o75000 0o76777 w = true) :
    decodeWord w = .reserved075000 w := by
  obtain ⟨hlo, hhi⟩ := wordIn_iff.1 h
  have hsel : w.toNat / 512 % 8 = 5 ∨ w.toNat / 512 % 8 = 6 := by omega
  rw [decodeWord_register (by omega)]
  rcases hsel with hsel | hsel <;> simp [decodeRegister, hsel]

theorem decodeWord_reserved107000 {w : Word} (h : wordIn 0o107000 0o107777 w = true) :
    decodeWord w = .reserved107000 w := by
  obtain ⟨hlo, hhi⟩ := wordIn_iff.1 h
  have hsel : w.toNat / 256 % 16 = 14 ∨ w.toNat / 256 % 16 = 15 := by omega
  rw [decodeWord_high (by omega)]
  rcases hsel with hsel | hsel <;> simp [decodeHigh, hsel]

theorem decodeWord_unassigned170003 {w : Word} (h : wordIn 0o170003 0o170010 w = true) :
    decodeWord w = .unassigned170003 w := by
  refine of_wordIn (P := fun w => decodeWord w = .unassigned170003 w) (fun n _ _ => ?_) h
  interval_cases n <;> rfl

theorem decodeWord_unassigned170013 {w : Word} (h : wordIn 0o170013 0o170077 w = true) :
    decodeWord w = .unassigned170013 w := by
  refine of_wordIn (P := fun w => decodeWord w = .unassigned170013 w) (fun n _ _ => ?_) h
  interval_cases n <;> rfl

/-! ## The obligations -/

/-- Settles O1: by format. A word without fields is evaluated; where the bits above the fields select the row, the
lemmas on an opcode and its fields answer; the rows whose field crosses a selector, the condition code operators and
the ranges have lemmas of their own. -/
theorem decodeInvertsEncode : Obligations.DecodeInvertsEncode := by
  intro i hwf
  cases i with
  | ccop t n z v c => exact decodeWord_ccop t n z v c
  | rts r => cases r <;> rfl
  | jsr r o => exact decodeWord_jsr r o
  | sob r k => exact decodeWord_sob r k
  | reserved000010 w => exact decodeWord_encode_of_eq (decodeWord_reserved000010 hwf) rfl
  | reserved000210 w => exact decodeWord_encode_of_eq (decodeWord_reserved000210 hwf) rfl
  | reserved007000 w => exact decodeWord_encode_of_eq (decodeWord_reserved007000 hwf) rfl
  | reserved075000 w => exact decodeWord_encode_of_eq (decodeWord_reserved075000 hwf) rfl
  | reserved107000 w => exact decodeWord_encode_of_eq (decodeWord_reserved107000 hwf) rfl
  | unassigned170003 w => exact decodeWord_encode_of_eq (decodeWord_unassigned170003 hwf) rfl
  | unassigned170013 w => exact decodeWord_encode_of_eq (decodeWord_unassigned170013 hwf) rfl
  | mov s d | cmp s d | bit s d | bic s d | bis s d | add s d
  | movb s d | cmpb s d | bitb s d | bicb s d | bisb s d | sub s d =>
    simp [decodeWord, Instr.encodeNat, Instr.canonical]
  | mul r o | div r o | ash r o | ashc r o | xor r o =>
    simp [decodeWord, decodeRegister, Instr.encodeNat, Instr.canonical]
  | jmp o | swab o =>
    simp [decodeWord, decodeLow, decodeZero, Instr.encodeNat, Instr.canonical]
  | clr o | com o | inc o | dec o | neg o | adc o | sbc o | tst o | ror o | rol o | asr o | asl o | mfpi o | mtpi o | sxt o
  | mark k | br k | bne k | beq k | bge k | blt k | bgt k | ble k =>
    simp [decodeWord, decodeLow, Instr.encodeNat, Instr.canonical]
  | clrb o | comb o | incb o | decb o | negb o | adcb o | sbcb o | tstb o | rorb o | rolb o | asrb o | aslb o
  | mtps o | mfpd o | mtpd o | mfps o | bpl k | bmi k | bhi k | blos k | bvc k | bvs k | bcc k | bhis k | bcs k | blo k
  | emt k | trap k =>
    simp [decodeWord, decodeHigh, Instr.encodeNat, Instr.canonical]
  | ldfps o | stfps o | stst o | clrf o | clrd o | tstf o | tstd o | absf o | absd o | negf o | negd o
  | mulf a o | muld a o | modf a o | modd a o | addf a o | addd a o | ldf a o | ldd a o | subf a o | subd a o
  | cmpf a o | cmpd a o | stf a o | std a o | divf a o | divd a o | stexp a o | stcfi a o | stcfl a o | stcdi a o
  | stcdl a o | stcfd a o | stcdf a o | ldexp a o | ldcif a o | ldclf a o | ldcid a o | ldcld a o | ldcdf a o | ldcfd a o =>
    simp [decodeWord, decodeFloat, Instr.encodeNat, Instr.canonical]
  | _ => rfl

/-- Settles O2: the row that a word decodes to stands for it. -/
theorem encodeInvertsDecode : Obligations.EncodeInvertsDecode := by
  intro w
  obtain ⟨hword, hwf⟩ := decodeWord_standsFor w
  exact ⟨encode_eq_of_encodeNat hword, hwf⟩

/-- Settles O3: each word is decoded. -/
theorem sampleWordsDecode : Obligations.SampleWordsDecode :=
  ⟨rfl, rfl, rfl, rfl, rfl, rfl, rfl, rfl, rfl, rfl, rfl, rfl, rfl, rfl⟩

/-- A named condition code operator is the one of its sense and mask (R401, R402). -/
theorem exec_canonical_ccop (t n z v c : Bool) (s : State) :
    exec (Instr.ccop t n z v c).canonical s = exec (.ccop t n z v c) s := by
  cases t <;> cases n <;> cases z <;> cases v <;> cases c <;> rfl

/-- Settles O4: the base spelling of a branch and of a floating code has the same arm of `exec`, and every other
instruction but a condition code operator is its own base spelling. -/
theorem spellingsHaveOneMeaning : Obligations.SpellingsHaveOneMeaning := by
  intro i s
  cases i with
  | ccop t n z v c => exact exec_canonical_ccop t n z v c s
  | _ => rfl

end Sys2Proof
end

section
/-! PROOFS. Evaluating and reading operands (spec/40_addressing_modes.md R200 to R218, spec/48_fp_instructions.md R472, R473):
the frame of each way to reach an operand, composed from the frames of the references that it makes. -/

namespace Sys2Proof.Machine

open Sys2Proof.Spec

/-! ## What the specifiers allow -/

theorem touching_permits (s : State) (o : Operand) : (touching s o).permits s.mode o.reg :=
  Allow.permits_reg _ _ _

theorem touching2_permits_src (s : State) (src dst : Operand) : (touching2 s src dst).permits s.mode src.reg :=
  (Allow.le_reg _ _ _).permits (touching_permits s src)

theorem touching2_permits_dst (s : State) (src dst : Operand) : (touching2 s src dst).permits s.mode dst.reg :=
  Allow.permits_reg _ _ _

/-! ## Places -/

/-- The place of an operand of any size: the specifier is evaluated, then its location is translated once. -/
theorem operandPlace_frame {w : Allow} {n : Nat} {k : Access} {o : Operand} {s t : State} {p : Place}
    (h : (locate n o s).bind (placeOf k) = .ok p t) (hw : w.permits s.mode o.reg) : Frame w s t := by
  obtain ⟨l, u, hl, hp⟩ := Res.bind_eq_ok.mp h
  exact (locate_frame hl hw).trans (placeOf_frame hp)

theorem wordPlace_frame {w : Allow} {k : Access} {o : Operand} {s t : State} {p : Place}
    (h : wordPlace k o s = .ok p t) (hw : w.permits s.mode o.reg) : Frame w s t :=
  operandPlace_frame h hw

theorem bytePlace_frame {w : Allow} {k : Access} {o : Operand} {s t : State} {p : Place}
    (h : bytePlace k o s = .ok p t) (hw : w.permits s.mode o.reg) : Frame w s t :=
  operandPlace_frame h hw

/-! ## Floating operands -/

theorem readWords_frame {w : Allow} {n : Nat} {va : Word} {s t : State} {ws : List Word}
    (h : readWords n va s = .ok ws t) : Frame w s t := by
  induction n generalizing va s ws with
  | zero => cases h; exact Frame.refl w _
  | succ n ih =>
    obtain ⟨x, u, hx, h⟩ := Res.bind_eq_ok.mp h
    obtain ⟨xs, v, hxs, h⟩ := Res.bind_eq_ok.mp h
    cases h
    exact (readWord_frame hx).trans (ih hxs)

theorem readFp_frame {w : Allow} {dbl : Bool} {p : FpPlace} {s t : State} {x : Datum}
    (h : readFp dbl p s = .ok x t) : Frame w s t := by
  cases p with
  | acc i => cases h; exact Frame.refl w s
  | mem va imm =>
    obtain ⟨ws, u, hws, h⟩ := Res.bind_eq_ok.mp h
    cases h
    exact readWords_frame hws

theorem fpPlace_frame {w : Allow} {dbl : Bool} {o : Operand} {s t : State} {p : FpPlace}
    (h : fpPlace dbl o s p t) (hw : w.permits s.mode o.reg) : Frame w s t := by
  obtain ⟨-, rfl, -⟩ | ⟨-, va, hl, -⟩ := h
  · exact Frame.refl w t
  · exact locate_frame hl hw

theorem fpRead_frame {w : Allow} {dbl : Bool} {o : Operand} {s t : State} {x : Datum} {p : FpPlace}
    (h : fpRead dbl o s x p t) (hw : w.permits s.mode o.reg) : Frame w s t := by
  obtain ⟨u, hp, hx⟩ := h
  exact (fpPlace_frame hp hw).trans (readFp_frame hx)

/-! ## The obligation -/

/-- Settles O20: each way to reach an operand has its frame under every allowance that covers the specifier's register. -/
theorem operandFrame : Obligations.OperandFrame := by
  intro o s t
  have hw := touching_permits s o
  exact ⟨fun _ _ h => locate_frame h hw, fun _ _ h => wordPlace_frame h hw, fun _ _ h => bytePlace_frame h hw,
    fun _ h => loadWord_frame h hw, fun _ h => loadByte_frame h hw, fun _ _ _ h => fpRead_frame h hw⟩

end Sys2Proof.Machine
end

section
/-! PROOFS. The results and condition codes of the double operand instructions (spec/42_double_operand.md R284 to R296): the
model computes them from bits and signs, the rules state them in numbers, and the two agree at every width. -/

namespace Sys2Proof.Machine

open Sys2Proof.Spec

/-! ## Flags as numbers (R231, R281, R284 to R287) -/

theorem ccNZ_eq_codesOf {w : Nat} (r : BitVec w) (v c : Bool) : ccNZ r v c = codesOf r v c := by
  have hz : decide (r = 0) = decide (r.toNat = 0) := by simp [BitVec.toNat_eq]
  simp only [ccNZ, codesOf, BitVec.msb_eq_decide, hz]

/-- The signed sum does not fit exactly when the result is not that sum. -/
theorem saddOverflow_eq_toInt_ne {w : Nat} (x y : BitVec w) :
    x.saddOverflow y = decide ((x + y).toInt ≠ x.toInt + y.toInt) := by
  rw [Bool.eq_iff_iff, decide_eq_true_iff]
  refine ⟨fun h heq => ?_, fun h => ?_⟩
  · have hlt := BitVec.toInt_lt (x := x + y)
    have hle := BitVec.le_toInt (x + y)
    simp only [BitVec.saddOverflow, Bool.or_eq_true, decide_eq_true_eq] at h
    omega
  · by_contra hfits
    exact h (BitVec.toInt_add_of_not_saddOverflow hfits)

/-- The signed difference does not fit exactly when the result is not that difference. -/
theorem ssubOverflow_eq_toInt_ne {w : Nat} (x y : BitVec w) :
    x.ssubOverflow y = decide ((x - y).toInt ≠ x.toInt - y.toInt) := by
  rw [Bool.eq_iff_iff, decide_eq_true_iff]
  refine ⟨fun h heq => ?_, fun h => ?_⟩
  · have hlt := BitVec.toInt_lt (x := x - y)
    have hle := BitVec.le_toInt (x - y)
    simp only [BitVec.ssubOverflow, Bool.or_eq_true, decide_eq_true_eq] at h
    omega
  · by_contra hfits
    exact h (BitVec.toInt_sub_of_not_ssubOverflow hfits)

/-- V of a sum: the operands have one sign and the result the other (R286). -/
theorem addSigns_eq {w : Nat} (x y : BitVec w) :
    ((x.msb == y.msb) && ((x + y).msb != x.msb)) = decide ((x + y).toInt ≠ x.toInt + y.toInt) := by
  rw [← saddOverflow_eq_toInt_ne, BitVec.saddOverflow_eq]
  rfl

/-- V of a difference: the operands differ in sign and the result has the sign of the second (R284, R287). -/
theorem subSigns_eq {w : Nat} (x y : BitVec w) :
    ((x.msb != y.msb) && ((x - y).msb == y.msb)) = decide ((x - y).toInt ≠ x.toInt - y.toInt) := by
  rw [← ssubOverflow_eq_toInt_ne, BitVec.ssubOverflow_eq]
  cases x.msb <;> cases y.msb <;> cases (x - y).msb <;> rfl

theorem ofNat_add_toNat {w : Nat} (x y : BitVec w) : BitVec.ofNat w (x.toNat + y.toNat) = x + y := by
  rw [BitVec.ofNat_add, BitVec.ofNat_toNat, BitVec.ofNat_toNat, BitVec.setWidth_eq, BitVec.setWidth_eq]

theorem ofInt_sub_toNat {w : Nat} (x y : BitVec w) : BitVec.ofInt w (x.toNat - y.toNat) = x - y := by
  refine BitVec.eq_of_toInt_eq ?_
  rw [BitVec.toInt_ofInt, BitVec.toInt_sub, BitVec.toInt_eq_toNat_bmod, BitVec.toInt_eq_toNat_bmod]
  simp

theorem aluAdd_eq_addRule : aluAdd = addRule := by
  funext x y cc
  simp only [aluAdd, addRule, ccNZ_eq_codesOf, ofNat_add_toNat, addSigns_eq]

theorem aluSub_eq_subRule : aluSub = subRule := by
  funext x y cc
  have hsigns : ((x.msb != y.msb) && ((y - x).msb == x.msb)) = ((y.msb != x.msb) && ((y - x).msb == x.msb)) := by
    rw [bne_comm]
  simp only [aluSub, subRule, ccNZ_eq_codesOf, ofInt_sub_toNat, hsigns, subSigns_eq, BitVec.lt_def]

theorem aluCmp_eq_cmpRule {w : Nat} (x y : BitVec w) (cc : CC) : (aluCmp x y cc).2 = cmpRule x y cc := by
  simp only [aluCmp, cmpRule, ccNZ_eq_codesOf, ofInt_sub_toNat, subSigns_eq, BitVec.lt_def]

theorem aluBit_eq_logicRule {w : Nat} : @aluBit w = fun x y cc => logicRule (x &&& y) cc := by
  funext x y cc
  simp only [aluBit, logicRule, ccNZ_eq_codesOf]

theorem aluBic_eq_logicRule {w : Nat} : @aluBic w = fun x y cc => logicRule (~~~x &&& y) cc := by
  funext x y cc
  simp only [aluBic, logicRule, ccNZ_eq_codesOf]

theorem aluBis_eq_logicRule {w : Nat} : @aluBis w = fun x y cc => logicRule (x ||| y) cc := by
  funext x y cc
  simp only [aluBis, logicRule, ccNZ_eq_codesOf]

theorem aluXor_eq_logicRule {w : Nat} : @aluXor w = fun x y cc => logicRule (x ^^^ y) cc := by
  funext x y cc
  simp only [aluXor, logicRule, ccNZ_eq_codesOf]

end Sys2Proof.Machine
end

section
/-! PROOFS. The double operand instructions (spec/40_addressing_modes.md R201, R220, R221, spec/42_double_operand.md R280):
each is one of four shapes with its rule. When both specifiers have been evaluated and the destination is read, a shape has
the source of `sourceAndPlace` and the old condition codes; from there it completes. -/

namespace Sys2Proof.Machine

open Sys2Proof.Spec

/-! ## The instructions by shape and rule (R280) -/

theorem exec_combinesWord {i : Instr} {src dst : Operand} {f : Alu2 16} (h : combinesWord i = some (src, dst, f))
    (s : State) : exec i s = finish (combineWord f src dst s) := by
  unfold combinesWord at h
  split at h <;> cases h
  · rw [← aluBic_eq_logicRule]; rfl
  · rw [← aluBis_eq_logicRule]; rfl
  · rw [← aluXor_eq_logicRule]; rfl
  · rw [← aluAdd_eq_addRule]; rfl
  · rw [← aluSub_eq_subRule]; rfl

theorem exec_combinesByte {i : Instr} {src dst : Operand} {f : Alu2 8} (h : combinesByte i = some (src, dst, f))
    (s : State) : exec i s = finish (combineByte f src dst s) := by
  unfold combinesByte at h
  split at h <;> cases h
  · rw [← aluBic_eq_logicRule]; rfl
  · rw [← aluBis_eq_logicRule]; rfl

/-- A comparison has a shape whose codes are those of its rule; the result that goes with them is not used. -/
theorem exec_comparesWord {i : Instr} {src dst : Operand} {f : Word → Word → CC → CC}
    (h : comparesWord i = some (src, dst, f)) :
    ∃ g : Alu2 16, (∀ x y cc, (g x y cc).2 = f x y cc) ∧ ∀ s, exec i s = finish (compareWord g src dst s) := by
  unfold comparesWord at h
  split at h <;> cases h
  · exact ⟨aluCmp, aluCmp_eq_cmpRule, fun _ => rfl⟩
  · exact ⟨aluBit, fun x y cc => by rw [aluBit_eq_logicRule], fun _ => rfl⟩

/-- The byte form. -/
theorem exec_comparesByte {i : Instr} {src dst : Operand} {f : Byte → Byte → CC → CC}
    (h : comparesByte i = some (src, dst, f)) :
    ∃ g : Alu2 8, (∀ x y cc, (g x y cc).2 = f x y cc) ∧ ∀ s, exec i s = finish (compareByte g src dst s) := by
  unfold comparesByte at h
  split at h <;> cases h
  · exact ⟨aluCmp, aluCmp_eq_cmpRule, fun _ => rfl⟩
  · exact ⟨aluBit, fun x y cc => by rw [aluBit_eq_logicRule], fun _ => rfl⟩

/-! ## The source operand (R201 steps 2 and 4, R220, R221) -/

theorem sourceWord_register {o : Operand} (h : o.mode = .reg) (s : State) : sourceWord o s = .ok none s := by
  simp only [sourceWord, h]

theorem sourceByte_register {o : Operand} (h : o.mode = .reg) (s : State) : sourceByte o s = .ok none s := by
  simp only [sourceByte, h]

theorem sourceWord_memory {o : Operand} {s t : State} {x : Word} (h : o.mode ≠ .reg) (hx : loadWord o s = .ok x t) :
    sourceWord o s = .ok (some x) t := by
  unfold sourceWord
  split
  · contradiction
  · rw [hx]; rfl

theorem sourceByte_memory {o : Operand} {s t : State} {x : Byte} (h : o.mode ≠ .reg) (hx : loadByte o s = .ok x t) :
    sourceByte o s = .ok (some x) t := by
  unfold sourceByte
  split
  · contradiction
  · rw [hx]; rfl

theorem lateWord_congr {s t : State} (v : Option Word) {o : Operand} (h : t.reg o.reg = s.reg o.reg) :
    lateWord v o t = lateWord v o s := by
  simp only [lateWord, h]

theorem lateByte_congr {s t : State} (v : Option Byte) {o : Operand} (h : t.reg o.reg = s.reg o.reg) :
    lateByte v o t = lateByte v o s := by
  simp only [lateByte, h]

section
variable {k : Access} {src dst : Operand} {s t : State} {p : Place}

/-- The two ways to the source word are the model's two parts of reading it, around the destination's specifier. -/
theorem sourceAndPlace_parts {x : Word} (h : sourceAndPlace k src dst s x p t) :
    ∃ v u, sourceWord src s = .ok v u ∧ wordPlace k dst u = .ok p t ∧ lateWord v src t = x := by
  obtain ⟨hm, hp, rfl⟩ | ⟨hm, u, hx, hp⟩ := h
  · exact ⟨none, s, sourceWord_register hm s, hp, rfl⟩
  · exact ⟨some x, u, sourceWord_memory hm hx, hp, rfl⟩

/-- The byte form. -/
theorem sourceAndPlaceByte_parts {x : Byte} (h : sourceAndPlaceByte k src dst s x p t) :
    ∃ v u, sourceByte src s = .ok v u ∧ bytePlace k dst u = .ok p t ∧ lateByte v src t = x := by
  obtain ⟨hm, hp, rfl⟩ | ⟨hm, u, hx, hp⟩ := h
  · exact ⟨none, s, sourceByte_register hm s, hp, rfl⟩
  · exact ⟨some x, u, sourceByte_memory hm hx, hp, rfl⟩

/-- Reading a source and evaluating a destination changes the two specifiers' registers and R7 only. -/
theorem sourceAndPlace_frame {x : Word} (h : sourceAndPlace k src dst s x p t) : Frame (touching2 s src dst) s t := by
  have hdst := touching2_permits_dst s src dst
  obtain ⟨-, hp, -⟩ | ⟨-, u, hx, hp⟩ := h
  · exact wordPlace_frame hp hdst
  · have hu : Frame (touching2 s src dst) s u := loadWord_frame hx (touching2_permits_src s src dst)
    rw [← hu.mode_eq rfl] at hdst
    exact hu.trans (wordPlace_frame hp hdst)

/-- The byte form. -/
theorem sourceAndPlaceByte_frame {x : Byte} (h : sourceAndPlaceByte k src dst s x p t) :
    Frame (touching2 s src dst) s t := by
  have hdst := touching2_permits_dst s src dst
  obtain ⟨-, hp, -⟩ | ⟨-, u, hx, hp⟩ := h
  · exact bytePlace_frame hp hdst
  · have hu : Frame (touching2 s src dst) s u := loadByte_frame hx (touching2_permits_src s src dst)
    rw [← hu.mode_eq rfl] at hdst
    exact hu.trans (bytePlace_frame hp hdst)

end

/-! ## The shapes (R280) -/

theorem Frame.cfg_eq {w : Allow} {s t : State} (h : Frame w s t) : t.cfg = s.cfg :=
  (congrArg State.cfg h.base :)

section
variable {src dst : Operand} {s t u : State} {p : Place}

/-- When both operands have been reached and the destination is read, a word instruction that rewrites its destination
has only its result to commit. -/
theorem combineWord_eq_commit {x d : Word} (f : Alu2 16) (h : sourceAndPlace .write src dst s x p t)
    (hd : readPlace p t = .ok d u) :
    combineWord f src dst s = commit (f x d s.cc).2 (rewritePlace p (f x d s.cc).1) u := by
  have hcc : u.cc = s.cc := State.cc_of_ps ((readPlace_ps hd).trans ((sourceAndPlace_frame h).ps_eq rfl))
  obtain ⟨v, z, hv, hp, rfl⟩ := sourceAndPlace_parts h
  obtain ⟨l, z', hl, hp⟩ := Res.bind_eq_ok.mp hp
  simp only [combineWord, hv, hl, hp, hd, Res.bind_ok, lateWord_congr v (readPlace_reg hd src.reg), hcc]

/-- The byte form. -/
theorem combineByte_eq_commit {x d : Byte} (f : Alu2 8) (h : sourceAndPlaceByte .write src dst s x p t)
    (hd : readPlaceByte p t = .ok d u) :
    combineByte f src dst s = commit (f x d s.cc).2 (rewritePlaceByte p (f x d s.cc).1) u := by
  have hcc : u.cc = s.cc := State.cc_of_ps ((readPlaceByte_ps hd).trans ((sourceAndPlaceByte_frame h).ps_eq rfl))
  obtain ⟨v, z, hv, hp, rfl⟩ := sourceAndPlaceByte_parts h
  obtain ⟨l, z', hl, hp⟩ := Res.bind_eq_ok.mp hp
  simp only [combineByte, hv, hl, hp, hd, Res.bind_ok, lateByte_congr v (readPlaceByte_reg hd src.reg), hcc]

/-- A word comparison ends with its codes once both operands are read. -/
theorem compareWord_ok {x d : Word} (f : Alu2 16) (h : sourceAndPlace .read src dst s x p t)
    (hd : readPlace p t = .ok d u) : compareWord f src dst s = .ok () (u.setCC (f x d s.cc).2) := by
  have hcc : u.cc = s.cc := State.cc_of_ps ((readPlace_ps hd).trans ((sourceAndPlace_frame h).ps_eq rfl))
  obtain ⟨v, z, hv, hp, rfl⟩ := sourceAndPlace_parts h
  obtain ⟨l, z', hl, hp⟩ := Res.bind_eq_ok.mp hp
  simp only [compareWord, hv, hl, hp, hd, Res.bind_ok, lateWord_congr v (readPlace_reg hd src.reg), hcc]

/-- The byte form. -/
theorem compareByte_ok {x d : Byte} (f : Alu2 8) (h : sourceAndPlaceByte .read src dst s x p t)
    (hd : readPlaceByte p t = .ok d u) : compareByte f src dst s = .ok () (u.setCC (f x d s.cc).2) := by
  have hcc : u.cc = s.cc := State.cc_of_ps ((readPlaceByte_ps hd).trans ((sourceAndPlaceByte_frame h).ps_eq rfl))
  obtain ⟨v, z, hv, hp, rfl⟩ := sourceAndPlaceByte_parts h
  obtain ⟨l, z', hl, hp⟩ := Res.bind_eq_ok.mp hp
  simp only [compareByte, hv, hl, hp, hd, Res.bind_ok, lateByte_congr v (readPlaceByte_reg hd src.reg), hcc]

/-- Where the destination replies to a write, a word instruction that rewrites it completes with the result of its rule,
written after the codes. -/
theorem combineWord_completes {x d : Word} (f : Alu2 16) (h : sourceAndPlace .write src dst s x p t)
    (hd : readPlace p t = .ok d u) (hp : p.writable s.cfg) :
    ∃ v, combineWord f src dst s = .ok () v ∧
      rewritePlace p (f x d s.cc).1 (u.setCC (f x d s.cc).2) = .ok () v := by
  have hcfg : t.cfg = s.cfg := (sourceAndPlace_frame h).cfg_eq
  have hu : u.cfg = t.cfg := (readPlace_frame (w := Allow.nothing) hd).cfg_eq
  obtain ⟨v, hv⟩ := rewritePlace_total hd (hcfg ▸ hp) (f x d s.cc).1 (u := u.setCC (f x d s.cc).2) hu
  exact ⟨v, (combineWord_eq_commit f h hd).trans (commit_ok hv), hv⟩

/-- The byte form. -/
theorem combineByte_completes {x d : Byte} (f : Alu2 8) (h : sourceAndPlaceByte .write src dst s x p t)
    (hd : readPlaceByte p t = .ok d u) (hp : p.writable s.cfg) :
    ∃ v, combineByte f src dst s = .ok () v ∧
      rewritePlaceByte p (f x d s.cc).1 (u.setCC (f x d s.cc).2) = .ok () v := by
  have hcfg : t.cfg = s.cfg := (sourceAndPlaceByte_frame h).cfg_eq
  have hu : u.cfg = t.cfg := (readPlaceByte_frame (w := Allow.nothing) hd).cfg_eq
  obtain ⟨v, hv⟩ := rewritePlaceByte_total hd (hcfg ▸ hp) (f x d s.cc).1 (u := u.setCC (f x d s.cc).2) hu
  exact ⟨v, (combineByte_eq_commit f h hd).trans (commit_ok hv), hv⟩

end

/-! ## The obligation -/

/-- Settles O32: each instruction is a shape with its rule, and the shape completes. -/
theorem doubleOperandResults : Obligations.DoubleOperandResults := by
  refine ⟨?combinesWord, ?combinesByte, ?comparesWord, ?comparesByte⟩
  case combinesWord =>
    intro i src dst f s x p t d u hi h hd hp
    obtain ⟨v, hv, hstore⟩ := combineWord_completes f h hd hp
    exact ⟨v, by rw [exec_combinesWord hi, hv, finish_ok], hstore⟩
  case combinesByte =>
    intro i src dst f s x p t d u hi h hd hp
    obtain ⟨v, hv, hstore⟩ := combineByte_completes f h hd hp
    exact ⟨v, by rw [exec_combinesByte hi, hv, finish_ok], hstore⟩
  case comparesWord =>
    intro i src dst f s x p t d u hi h hd
    obtain ⟨g, hg, hexec⟩ := exec_comparesWord hi
    rw [hexec, compareWord_ok g h hd, finish_ok, hg]
  case comparesByte =>
    intro i src dst f s x p t d u hi h hd
    obtain ⟨g, hg, hexec⟩ := exec_comparesByte hi
    rw [hexec, compareByte_ok g h hd, finish_ok, hg]

end Sys2Proof.Machine
end

section
/-! PROOFS. The results and condition codes of the single operand instructions (spec/41_single_operand.md R231 to R262): the
model computes them with bits and shifts, the rules state them in numbers, and the two agree at every width. -/

namespace Sys2Proof.Machine

open Sys2Proof.Spec

/-! ## Operands and carries as numbers -/

theorem ofNat_toNat_add {w : Nat} (d : BitVec w) (k : Nat) : BitVec.ofNat w (d.toNat + k) = d + BitVec.ofNat w k := by
  rw [BitVec.ofNat_add, BitVec.ofNat_toNat, BitVec.setWidth_eq]

theorem ofInt_toNat_sub {w : Nat} (d : BitVec w) (k : Nat) : BitVec.ofInt w (d.toNat - k) = d - BitVec.ofNat w k := by
  rw [Int.sub_eq_add_neg, BitVec.ofInt_add, BitVec.ofInt_neg, BitVec.ofInt_natCast, BitVec.ofInt_natCast,
    BitVec.ofNat_toNat, BitVec.setWidth_eq, BitVec.sub_eq_add_neg]

/-- The model's carry bit at the operand's width is the number that the rules add. -/
theorem setWidth_ofBool {w : Nat} (c : Bool) : (BitVec.ofBool c).setWidth w = BitVec.ofNat w (bitNat c) := by
  apply BitVec.eq_of_toNat_eq
  rw [BitVec.toNat_setWidth, BitVec.toNat_ofBool, BitVec.toNat_ofNat]
  cases c <;> rfl

theorem bitNat_lt_two (c : Bool) : bitNat c < 2 := by cases c <;> decide

theorem decide_eq_toNat {w : Nat} (x y : BitVec w) : decide (x = y) = decide (x.toNat = y.toNat) :=
  decide_eq_decide.mpr BitVec.toNat_eq

theorem toNat_intMin_of_pos {w : Nat} (hw : 0 < w) : (BitVec.intMin w).toNat = 2 ^ (w - 1) := by
  rw [BitVec.toNat_intMin, Nat.mod_eq_of_lt (Nat.pow_lt_pow_right (by decide) (by omega))]

/-- Bit 0 says whether the number is odd. -/
theorem getLsbD_zero_eq_odd {w : Nat} (d : BitVec w) : d.getLsbD 0 = decide (d.toNat % 2 = 1) := by
  rw [BitVec.getLsbD, Nat.testBit_zero]

theorem ccShift_eq_shiftCodes {w : Nat} (r : BitVec w) (c : Bool) : ccShift r c = shiftCodes r c := by
  rw [ccShift, shiftCodes, ccNZ_eq_codesOf, BitVec.msb_eq_decide, Bool.bne_eq_xor]

/-! ## Complement, step and negation (R234 to R247) -/

theorem aluCom_eq_comRule {w : Nat} : @aluCom w = comRule := by
  funext d cc
  have hr : BitVec.ofNat w (2 ^ w - 1 - d.toNat) = ~~~d := by
    rw [← BitVec.toNat_not, BitVec.ofNat_toNat, BitVec.setWidth_eq]
  simp only [aluCom, comRule, hr, ccNZ_eq_codesOf]

theorem aluInc_eq_incRule {w : Nat} : @aluInc w = incRule := by
  funext d cc
  have hr : BitVec.ofNat w (d.toNat + 1) = d + 1 := ofNat_toNat_add d 1
  simp only [aluInc, incRule, hr, ccNZ_eq_codesOf, decide_eq_toNat d, BitVec.toNat_intMax]

theorem aluDec_eq_decRule {w : Nat} (hw : 0 < w) : @aluDec w = decRule := by
  funext d cc
  have hr : BitVec.ofInt w (d.toNat - 1) = d - 1 := ofInt_toNat_sub d 1
  simp only [aluDec, decRule, hr, ccNZ_eq_codesOf, decide_eq_toNat d, toNat_intMin_of_pos hw]

theorem aluNeg_eq_negRule {w : Nat} (hw : 0 < w) : @aluNeg w = negRule := by
  funext d cc
  have hr : BitVec.ofInt w (-d.toNat) = -d := by
    rw [BitVec.ofInt_neg, BitVec.ofInt_natCast, BitVec.ofNat_toNat, BitVec.setWidth_eq]
  have hc : decide (-d ≠ 0) = decide ((-d).toNat ≠ 0) := decide_eq_decide.mpr (not_congr BitVec.toNat_eq)
  simp only [aluNeg, negRule, hr, ccNZ_eq_codesOf, decide_eq_toNat (-d), toNat_intMin_of_pos hw, hc]

theorem aluAdc_eq_adcRule {w : Nat} : @aluAdc w = adcRule := by
  funext d cc
  simp only [aluAdc, adcRule, setWidth_ofBool, ofNat_toNat_add, ccNZ_eq_codesOf, decide_eq_toNat d, BitVec.toNat_intMax,
    BitVec.toNat_allOnes]

theorem aluSbc_eq_sbcRule {w : Nat} (hw : 0 < w) : @aluSbc w = sbcRule := by
  funext d cc
  have hz : decide (d = 0) = decide (d.toNat = 0) := decide_eq_toNat d 0
  simp only [aluSbc, sbcRule, setWidth_ofBool, ofInt_toNat_sub, ccNZ_eq_codesOf, hz, decide_eq_toNat d (BitVec.intMin w),
    toNat_intMin_of_pos hw]

/-! ## Shifts, rotates and the exchange of bytes (R250 to R257, R262) -/

theorem shiftLeft_one_eq {w : Nat} (d : BitVec w) : d <<< 1 = BitVec.ofNat w (2 * d.toNat) := by
  apply BitVec.eq_of_toNat_eq
  rw [BitVec.toNat_shiftLeft, BitVec.toNat_ofNat, Nat.shiftLeft_eq, Nat.mul_comm]

theorem ushiftRight_one_eq {w : Nat} (d : BitVec w) : d >>> 1 = BitVec.ofNat w (d.toNat / 2) := by
  apply BitVec.eq_of_toNat_eq
  rw [BitVec.toNat_ushiftRight, Nat.shiftRight_eq_div_pow, BitVec.toNat_ofNat,
    Nat.mod_eq_of_lt (Nat.lt_of_le_of_lt (Nat.div_le_self _ _) d.isLt)]

theorem ofNat_shiftLeft {w : Nat} (k n : Nat) : BitVec.ofNat w k <<< n = BitVec.ofNat w (k <<< n) := by
  apply BitVec.eq_of_toNat_eq
  rw [BitVec.toNat_shiftLeft, BitVec.toNat_ofNat, BitVec.toNat_ofNat, Nat.shiftLeft_eq, Nat.shiftLeft_eq, Nat.mod_mul_mod]

/-- The carry enters at the high end, above the bits that the shift has kept. -/
theorem rotateRight_eq {w : Nat} (hw : 0 < w) (d : BitVec w) (c : Bool) :
    d >>> 1 ||| (BitVec.ofBool c).setWidth w <<< (w - 1) = BitVec.ofNat w (bitNat c * 2 ^ (w - 1) + d.toNat / 2) := by
  have hkept : d.toNat / 2 < 2 ^ (w - 1) := by
    have hpow : 2 ^ w = 2 ^ (w - 1) * 2 := by rw [← Nat.pow_succ, Nat.succ_eq_add_one, Nat.sub_add_cancel hw]
    have := d.isLt
    omega
  rw [ushiftRight_one_eq, setWidth_ofBool, ofNat_shiftLeft, ← BitVec.ofNat_or, Nat.or_comm,
    ← Nat.shiftLeft_add_eq_or_of_lt hkept, Nat.shiftLeft_eq]

/-- The carry enters at the low end, which the shift has left empty. -/
theorem rotateLeft_eq {w : Nat} (d : BitVec w) (c : Bool) :
    d <<< 1 ||| (BitVec.ofBool c).setWidth w = BitVec.ofNat w (2 * d.toNat + bitNat c) := by
  rw [shiftLeft_one_eq, setWidth_ofBool, ← BitVec.ofNat_or]
  exact congrArg _ (Nat.two_pow_add_eq_or_of_lt (i := 1) (bitNat_lt_two c) d.toNat).symm

theorem sshiftRight_one_eq {w : Nat} (d : BitVec w) : d.sshiftRight 1 = BitVec.ofInt w (d.toInt / 2) := by
  rw [← BitVec.ofInt_toInt (x := d.sshiftRight 1), BitVec.toInt_sshiftRight, Int.shiftRight_eq_div_pow]
  rfl

theorem aluRor_eq_rorRule {w : Nat} (hw : 0 < w) : @aluRor w = rorRule := by
  funext d cc
  simp only [aluRor, rorRule, rotateRight_eq hw, ccShift_eq_shiftCodes, getLsbD_zero_eq_odd]

theorem aluRol_eq_rolRule {w : Nat} : @aluRol w = rolRule := by
  funext d cc
  simp only [aluRol, rolRule, rotateLeft_eq, ccShift_eq_shiftCodes, BitVec.msb_eq_decide]

theorem aluAsr_eq_asrRule {w : Nat} : @aluAsr w = asrRule := by
  funext d cc
  simp only [aluAsr, asrRule, sshiftRight_one_eq, ccShift_eq_shiftCodes, getLsbD_zero_eq_odd]

theorem aluAsl_eq_aslRule {w : Nat} : @aluAsl w = aslRule := by
  funext d cc
  simp only [aluAsl, aslRule, shiftLeft_one_eq, ccShift_eq_shiftCodes, BitVec.msb_eq_decide]

theorem aluSwab_eq_swabRule : aluSwab = swabRule := by
  funext d cc
  have hlo : ((d >>> 8).setWidth 8 : Byte).toNat = d.toNat / 256 := by
    have := d.isLt
    simp only [BitVec.toNat_setWidth, BitVec.toNat_ushiftRight, Nat.shiftRight_eq_div_pow]
    omega
  have hr : (d.setWidth 8 ++ (d >>> 8).setWidth 8 : Word) = BitVec.ofNat 16 (d.toNat % 256 * 256 + d.toNat / 256) := by
    have := d.isLt
    apply BitVec.eq_of_toNat_eq
    rw [toNat_append_bytes, hlo, BitVec.toNat_setWidth, BitVec.toNat_ofNat]
    omega
  simp only [aluSwab, swabRule, hr, ccNZ_eq_codesOf, codesOf, hlo]
  rfl

end Sys2Proof.Machine
end

section
/-! PROOFS. The single operand instructions (spec/41_single_operand.md R230 to R264): those that rewrite their operand are one
shape with their rule, CLR and SXT another. When the operand's place is reached, a shape sets the codes and then stores; from
that last act come both what the instruction leaves and what it changes. -/

namespace Sys2Proof.Machine

open Sys2Proof.Spec

/-! ## The instructions by shape and rule (R234 to R262) -/

theorem exec_rewritesWord {i : Instr} {o : Operand} {f : Alu1 16} (h : rewritesWord i = some (o, f)) (s : State) :
    exec i s = finish (modifyWord f o s) := by
  have hw : 0 < 16 := by decide
  unfold rewritesWord at h
  split at h <;> cases h
  · rw [← aluCom_eq_comRule]; rfl
  · rw [← aluInc_eq_incRule]; rfl
  · rw [← aluDec_eq_decRule hw]; rfl
  · rw [← aluNeg_eq_negRule hw]; rfl
  · rw [← aluAdc_eq_adcRule]; rfl
  · rw [← aluSbc_eq_sbcRule hw]; rfl
  · rw [← aluRor_eq_rorRule hw]; rfl
  · rw [← aluRol_eq_rolRule]; rfl
  · rw [← aluAsr_eq_asrRule]; rfl
  · rw [← aluAsl_eq_aslRule]; rfl
  · rw [← aluSwab_eq_swabRule]; rfl

theorem exec_rewritesByte {i : Instr} {o : Operand} {f : Alu1 8} (h : rewritesByte i = some (o, f)) (s : State) :
    exec i s = finish (modifyByte f o s) := by
  have hw : 0 < 8 := by decide
  unfold rewritesByte at h
  split at h <;> cases h
  · rw [← aluCom_eq_comRule]; rfl
  · rw [← aluInc_eq_incRule]; rfl
  · rw [← aluDec_eq_decRule hw]; rfl
  · rw [← aluNeg_eq_negRule hw]; rfl
  · rw [← aluAdc_eq_adcRule]; rfl
  · rw [← aluSbc_eq_sbcRule hw]; rfl
  · rw [← aluRor_eq_rorRule hw]; rfl
  · rw [← aluRol_eq_rolRule]; rfl
  · rw [← aluAsr_eq_asrRule]; rfl
  · rw [← aluAsl_eq_aslRule]; rfl

theorem exec_clr (o : Operand) (s : State) : exec (.clr o) s = finish (setWord aluClr o s) := rfl

theorem exec_clrb (o : Operand) (s : State) : exec (.clrb o) s = finish (setByte aluClr o s) := rfl

theorem exec_sxt (o : Operand) (s : State) : exec (.sxt o) s = finish (setWord aluSxt o s) := rfl

theorem exec_tst (o : Operand) (s : State) : exec (.tst o) s = finish (testWord aluTst o s) := rfl

theorem exec_tstb (o : Operand) (s : State) : exec (.tstb o) s = finish (testByte aluTst o s) := rfl

/-! ## The shapes complete (R230) -/

section
variable {o : Operand} {s t : State} {p : Place}

/-- An operand that is read and that replies to a write takes the result of the rule, after the codes. -/
theorem modifyWord_completes {d : Word} {u : State} (f : Alu1 16) (h : wordPlace .write o s = .ok p t)
    (hd : readPlace p t = .ok d u) (hp : p.writable s.cfg) :
    ∃ v, modifyWord f o s = .ok () v ∧ rewritePlace p (f d s.cc).1 (u.setCC (f d s.cc).2) = .ok () v := by
  have ht : t.cfg = s.cfg := (wordPlace_frame h (touching_permits s o)).cfg_eq
  have hu : u.cfg = t.cfg := (readPlace_frame (w := Allow.nothing) hd).cfg_eq
  obtain ⟨v, hv⟩ := rewritePlace_total hd (ht ▸ hp) (f d s.cc).1 (u := u.setCC (f d s.cc).2) hu
  obtain ⟨l, z, hl, hz⟩ := Res.bind_eq_ok.mp h
  exact ⟨v, modifyWord_ok hl hz hd hv, hv⟩

/-- The byte form. -/
theorem modifyByte_completes {d : Byte} {u : State} (f : Alu1 8) (h : bytePlace .write o s = .ok p t)
    (hd : readPlaceByte p t = .ok d u) (hp : p.writable s.cfg) :
    ∃ v, modifyByte f o s = .ok () v ∧ rewritePlaceByte p (f d s.cc).1 (u.setCC (f d s.cc).2) = .ok () v := by
  have ht : t.cfg = s.cfg := (bytePlace_frame h (touching_permits s o)).cfg_eq
  have hu : u.cfg = t.cfg := (readPlaceByte_frame (w := Allow.nothing) hd).cfg_eq
  obtain ⟨v, hv⟩ := rewritePlaceByte_total hd (ht ▸ hp) (f d s.cc).1 (u := u.setCC (f d s.cc).2) hu
  obtain ⟨l, z, hl, hz⟩ := Res.bind_eq_ok.mp h
  exact ⟨v, modifyByte_ok hl hz hd hv, hv⟩

/-- An operand that is not read, at its place. -/
theorem setWord_of_place {v : State} (f : Alu1 16) (h : wordPlace .write o s = .ok p t)
    (hv : writePlace p (f 0 s.cc).1 (t.setCC (f 0 s.cc).2) = .ok () v) : setWord f o s = .ok () v := by
  obtain ⟨l, z, hl, hz⟩ := Res.bind_eq_ok.mp h
  exact setWord_ok hl hz hv

/-- The byte form. -/
theorem setByte_of_place {v : State} (f : Alu1 8) (h : bytePlace .write o s = .ok p t)
    (hv : writePlaceByte p (f 0 s.cc).1 (t.setCC (f 0 s.cc).2) = .ok () v) : setByte f o s = .ok () v := by
  obtain ⟨l, z, hl, hz⟩ := Res.bind_eq_ok.mp h
  exact setByte_ok hl hz hv

/-- A place that answers a write of any word takes the one that the instruction stores, after the codes. -/
theorem setWord_completes {x : Word} {u : State} (f : Alu1 16) (h : wordPlace .write o s = .ok p t)
    (hx : writePlace p x t = .ok () u) :
    ∃ v, setWord f o s = .ok () v ∧ writePlace p (f 0 s.cc).1 (t.setCC (f 0 s.cc).2) = .ok () v := by
  obtain ⟨v, hv⟩ := writePlace_answers hx (f 0 s.cc).1 (f 0 s.cc).2
  exact ⟨v, setWord_of_place f h hv, hv⟩

/-- The byte form. -/
theorem setByte_completes {x : Byte} {u : State} (f : Alu1 8) (h : bytePlace .write o s = .ok p t)
    (hx : writePlaceByte p x t = .ok () u) :
    ∃ v, setByte f o s = .ok () v ∧ writePlaceByte p (f 0 s.cc).1 (t.setCC (f 0 s.cc).2) = .ok () v := by
  obtain ⟨v, hv⟩ := writePlaceByte_answers hx (f 0 s.cc).1 (f 0 s.cc).2
  exact ⟨v, setByte_of_place f h hv, hv⟩

end

/-! ## What a store changes -/

/-- A write without other agents is the output half itself. -/
theorem writePlace_quiet {p : Place} {x : Word} {s : State} (h : s.busInputs = []) :
    writePlace p x s = rewritePlace p x s := by
  cases p with
  | reg r => rfl
  | phys a => exact physWrite_quiet h

/-- The byte form. -/
theorem writePlaceByte_quiet {p : Place} {x : Byte} {s : State} (h : s.busInputs = []) :
    writePlaceByte p x s = rewritePlaceByte p x s := by
  cases p with
  | reg r => rfl
  | phys a => exact physWriteByte_quiet h

/-- The bytes that a word stored at a place can change, wherever the place is. -/
theorem rewritePlace_byte {p : Place} {x : Word} {s t : State} (h : rewritePlace p x s = .ok () t) {b : Nat}
    (hb : ∀ a, p = .phys a → wordBytes a b = false) : t.mem.read b = s.mem.read b := by
  cases p with
  | reg r => cases h; rw [State.setReg_mem]
  | phys a => exact cycleWrite_byte h (hb a rfl)

/-- The byte form. -/
theorem rewritePlaceByte_byte {p : Place} {x : Byte} {s t : State} (h : rewritePlaceByte p x s = .ok () t) {b : Nat}
    (hb : ∀ a, p = .phys a → b ≠ a.toNat) : t.mem.read b = s.mem.read b := by
  cases p with
  | reg r => cases h; rw [State.setReg_mem]
  | phys a => exact cycleWriteByte_byte h (hb a rfl)

/-! ### Codes, then a store

The last act of every single operand instruction that writes: the codes are set in a state `u` in which the operand has been
reached, and a word or a byte is stored, after a read as the output half of a DATIO and else as a write of its own. -/

/-- From `u`, the codes and then a word at a place lead to `v`. -/
def StoresWord (p : Place) (u v : State) : Prop :=
  ∃ x cc, rewritePlace p x (u.setCC cc) = .ok () v ∨ writePlace p x (u.setCC cc) = .ok () v

/-- The byte form. -/
def StoresByte (p : Place) (u v : State) : Prop :=
  ∃ x cc, rewritePlaceByte p x (u.setCC cc) = .ok () v ∨ writePlaceByte p x (u.setCC cc) = .ok () v

theorem Allow.codes_ps (w : Allow) : (0o17 : Word) &&& ~~~w.codes.ps = 0 := by
  show (0o17 : Word) &&& ~~~(w.ps ||| 0o17) = 0
  have hmask : ~~~(0o17 : Word) &&& 0o17 = 0 := by decide
  rw [BitVec.not_or, BitVec.and_comm, BitVec.and_assoc, hmask]
  exact BitVec.and_zero

theorem Allow.codes_word (w : Allow) (m : BitVec 2) (p : Place) : w.codes.word m p = (w.word m p).codes := by
  cases p <;> rfl

theorem Allow.codes_octet (w : Allow) (m : BitVec 2) (p : Place) : w.codes.octet m p = (w.octet m p).codes := by
  cases p <;> rfl

section
variable {w : Allow} {p : Place} {s u v : State} (hu : Frame w s u)
include hu

/-- Setting the codes adds them to what has changed. -/
theorem Frame.thenCodes (cc : CC) : Frame w.codes s (u.setCC cc) :=
  (hu.mono w.le_codes).trans (Frame.setCC u cc w.codes_ps)

/-- In memory, a word's two bytes and what the operand's evaluation has changed. -/
theorem StoresWord.byte (h : StoresWord p u v) (hquiet : s.busInputs = []) {b : Nat} (hw : w.byte b = false)
    (hb : ∀ a, p = .phys a → wordBytes a b = false) : v.mem.read b = s.mem.read b := by
  obtain ⟨x, cc, h⟩ := h
  have hcc := hu.thenCodes cc
  rw [writePlace_quiet (hcc.bus hquiet).1, or_self] at h
  exact (rewritePlace_byte h hb).trans (hcc.byte hquiet b hw)

/-- The byte form. -/
theorem StoresByte.byte (h : StoresByte p u v) (hquiet : s.busInputs = []) {b : Nat} (hw : w.byte b = false)
    (hb : ∀ a, p = .phys a → b ≠ a.toNat) : v.mem.read b = s.mem.read b := by
  obtain ⟨x, cc, h⟩ := h
  have hcc := hu.thenCodes cc
  rw [writePlaceByte_quiet (hcc.bus hquiet).1, or_self] at h
  exact (rewritePlaceByte_byte h hb).trans (hcc.byte hquiet b hw)

/-- At a plain place: the word, the codes, and what the operand's evaluation has changed. -/
theorem StoresWord.frame (h : StoresWord p u v) (hps : w.ps = 0) (hp : p.plain s.cfg) :
    Frame (w.word s.mode p).codes s v := by
  obtain ⟨x, cc, h⟩ := h
  have hcc := hu.thenCodes cc
  have hplain : p.plain (u.setCC cc).cfg := hcc.cfg_eq ▸ hp
  have hmode : (u.setCC cc).mode = s.mode := by rw [State.setCC_mode, hu.mode_eq hps]
  have hstore : Frame (w.codes.word (u.setCC cc).mode p) (u.setCC cc) v :=
    h.elim (rewritePlace_frame · hplain) (writePlace_frame · hplain)
  rw [hmode] at hstore
  rw [← Allow.codes_word]
  exact (hcc.mono (Allow.le_word _ _ _)).trans hstore

/-- The byte form. -/
theorem StoresByte.frame (h : StoresByte p u v) (hps : w.ps = 0) (hp : p.plain s.cfg) :
    Frame (w.octet s.mode p).codes s v := by
  obtain ⟨x, cc, h⟩ := h
  have hcc := hu.thenCodes cc
  have hplain : p.plain (u.setCC cc).cfg := hcc.cfg_eq ▸ hp
  have hmode : (u.setCC cc).mode = s.mode := by rw [State.setCC_mode, hu.mode_eq hps]
  have hstore : Frame (w.codes.octet (u.setCC cc).mode p) (u.setCC cc) v :=
    h.elim (rewritePlaceByte_frame · hplain) (writePlaceByte_frame · hplain)
  rw [hmode] at hstore
  rw [← Allow.codes_octet]
  exact (hcc.mono (Allow.le_octet _ _ _)).trans hstore

end

/-! ### Each instruction ends with a store -/

section
variable {i : Instr} {o : Operand} {s t v : State} {p : Place}

theorem rewritesWord_stores {f : Alu1 16} {d : Word} {u : State} (hi : rewritesWord i = some (o, f))
    (h : wordPlace .write o s = .ok p t) (hd : readPlace p t = .ok d u) (hp : p.writable s.cfg)
    (hv : exec i s = .next v) : Frame (touching s o) s u ∧ StoresWord p u v := by
  obtain ⟨z, hz, hstore⟩ := modifyWord_completes f h hd hp
  rw [exec_rewritesWord hi, hz] at hv
  cases hv
  exact ⟨(wordPlace_frame h (touching_permits s o)).trans (readPlace_frame hd), _, _, .inl hstore⟩

theorem rewritesByte_stores {f : Alu1 8} {d : Byte} {u : State} (hi : rewritesByte i = some (o, f))
    (h : bytePlace .write o s = .ok p t) (hd : readPlaceByte p t = .ok d u) (hp : p.writable s.cfg)
    (hv : exec i s = .next v) : Frame (touching s o) s u ∧ StoresByte p u v := by
  obtain ⟨z, hz, hstore⟩ := modifyByte_completes f h hd hp
  rw [exec_rewritesByte hi, hz] at hv
  cases hv
  exact ⟨(bytePlace_frame h (touching_permits s o)).trans (readPlaceByte_frame hd), _, _, .inl hstore⟩

theorem setWord_stores {f : Alu1 16} {x : Word} {u : State} (h : wordPlace .write o s = .ok p t)
    (hx : writePlace p x t = .ok () u) (hv : finish (setWord f o s) = .next v) :
    Frame (touching s o) s t ∧ StoresWord p t v := by
  obtain ⟨z, hz, hstore⟩ := setWord_completes f h hx
  rw [hz] at hv
  cases hv
  exact ⟨wordPlace_frame h (touching_permits s o), _, _, .inr hstore⟩

theorem setByte_stores {f : Alu1 8} {x : Byte} {u : State} (h : bytePlace .write o s = .ok p t)
    (hx : writePlaceByte p x t = .ok () u) (hv : finish (setByte f o s) = .next v) :
    Frame (touching s o) s t ∧ StoresByte p t v := by
  obtain ⟨z, hz, hstore⟩ := setByte_completes f h hx
  rw [hz] at hv
  cases hv
  exact ⟨bytePlace_frame h (touching_permits s o), _, _, .inr hstore⟩

end

/-! ## The obligations -/

/-- Settles O29: each instruction is the rewriting shape with its rule, and the shape completes. -/
theorem singleOperandResults : Obligations.SingleOperandResults := by
  refine ⟨?word, ?byte⟩
  case word =>
    intro i o f s p t d u hi h hd hp
    obtain ⟨v, hv, hstore⟩ := modifyWord_completes f h hd hp
    exact ⟨v, by rw [exec_rewritesWord hi, hv, finish_ok], hstore⟩
  case byte =>
    intro i o f s p t d u hi h hd hp
    obtain ⟨v, hv, hstore⟩ := modifyByte_completes f h hd hp
    exact ⟨v, by rw [exec_rewritesByte hi, hv, finish_ok], hstore⟩

/-- Settles O30: CLR, CLRB and SXT are the shape that does not read, TST and TSTB the one that does not write. -/
theorem clearSignExtendAndTest : Obligations.ClearSignExtendAndTest := by
  intro o s t
  refine ⟨?clr, ?clrb, ?sxt, ?tst, ?tstb⟩
  case clr => intro p v h hv; rw [exec_clr, setWord_of_place aluClr h hv, finish_ok]
  case clrb => intro p v h hv; rw [exec_clrb, setByte_of_place aluClr h hv, finish_ok]
  case sxt => intro p v h hv; rw [exec_sxt, setWord_of_place aluSxt h hv, finish_ok]
  case tst => intro d h; rw [exec_tst, testWord_ok h, finish_ok, aluTst, ccNZ_eq_codesOf]
  case tstb => intro d h; rw [exec_tstb, testByte_ok h, finish_ok, aluTst, ccNZ_eq_codesOf]

/-- Settles O31: every instruction ends with the codes and a store, whose changes are added to those of evaluating the
operand. -/
theorem singleOperandFrame : Obligations.SingleOperandFrame := by
  refine ⟨?word, ?byte⟩
  case word =>
    intro i o s p t v hi h hv
    have hends : ∃ u, Frame (touching s o) s u ∧ StoresWord p u v := by
      obtain ⟨⟨f, hf⟩, ⟨d, u, hd⟩, hp⟩ | ⟨rfl | rfl, x, u, hx⟩ := hi
      · exact ⟨u, rewritesWord_stores hf h hd hp hv⟩
      · exact ⟨t, setWord_stores h hx ((exec_clr o s).symm.trans hv)⟩
      · exact ⟨t, setWord_stores h hx ((exec_sxt o s).symm.trans hv)⟩
    obtain ⟨u, hu, hstore⟩ := hends
    exact ⟨fun hquiet b hb => hstore.byte hu hquiet rfl hb, hstore.frame hu rfl⟩
  case byte =>
    intro i o s p t v hi h hv
    have hends : ∃ u, Frame (touching s o) s u ∧ StoresByte p u v := by
      obtain ⟨⟨f, hf⟩, ⟨d, u, hd⟩, hp⟩ | ⟨rfl, x, u, hx⟩ := hi
      · exact ⟨u, rewritesByte_stores hf h hd hp hv⟩
      · exact ⟨t, setByte_stores h hx ((exec_clrb o s).symm.trans hv)⟩
    obtain ⟨u, hu, hstore⟩ := hends
    exact ⟨fun hquiet b hb => hstore.byte hu hquiet rfl hb, hstore.frame hu rfl⟩

end Sys2Proof.Machine
end

section
/-! PROOFS. MOV and MOVB, and what the double operand instructions change (spec/42_double_operand.md R280 to R283): a move is a
shape of its own, which stores without reading; every instruction that stores ends with the codes and then the store. -/

namespace Sys2Proof.Machine

open Sys2Proof.Spec

/-! ## Translating a destination leaves the registers (R135, R201 step 4) -/

theorem noteWrite_reg (user : Bool) (i : Fin 8) (k : Access) (s : State) (r : Reg) :
    (noteWrite user i k s).reg r = s.reg r := by
  cases k <;> cases user <;> cases r <;> rfl

theorem translateIn_reg {user : Bool} {m : BitVec 2} {va : Word} {k : Access} {s t : State} {a : PAddr}
    (h : translateIn user m va k s = .ok a t) (r : Reg) : t.reg r = s.reg r := by
  simp only [translateIn] at h
  split at h <;> cases h
  exact noteWrite_reg _ _ _ _ _

theorem translate_reg {m : BitVec 2} {va : Word} {k : Access} {s t : State} {a : PAddr}
    (h : translate m va k s = .ok a t) (r : Reg) : t.reg r = s.reg r := by
  unfold translate at h
  split at h
  · split at h
    · exact translateIn_reg h r
    · exact translateIn_reg h r
    · cases h
    · cases h
  · cases h; rfl

theorem placeOf_reg {k : Access} {l : Loc} {s t : State} {p : Place} (h : placeOf k l s = .ok p t) (r : Reg) :
    t.reg r = s.reg r := by
  cases l with
  | reg q => cases h; rfl
  | mem va =>
    obtain ⟨a, u, ha, h⟩ := Res.bind_eq_ok.mp h
    cases h
    exact translate_reg ha r

/-! ## MOV and MOVB (R282, R283) -/

theorem exec_mov (src dst : Operand) (s : State) : exec (.mov src dst) s = finish (moveWord aluMov src dst s) := rfl

theorem exec_movb (src dst : Operand) (s : State) : exec (.movb src dst) s = finish (moveByte aluMov src dst s) := rfl

theorem aluMov_eq {w : Nat} (x d : BitVec w) (cc : CC) : aluMov x d cc = (x, codesOf x false cc.c) := by
  rw [aluMov, ccNZ_eq_codesOf]

section
variable {src dst : Operand} {s t : State} {p : Place}

/-- When the source is read and the destination's place is reached, a word move has only its result to store. -/
theorem moveWord_of_place {x : Word} {v : State} (f : Alu2 16) (h : sourceAndPlace .write src dst s x p t)
    (hv : writePlace p (f x 0 s.cc).1 (t.setCC (f x 0 s.cc).2) = .ok () v) : moveWord f src dst s = .ok () v := by
  have ht : t.ps = s.ps := (sourceAndPlace_frame h).ps_eq rfl
  obtain ⟨y, u, hy, hp, rfl⟩ := sourceAndPlace_parts h
  obtain ⟨l, z, hl, hp⟩ := Res.bind_eq_ok.mp hp
  have hcc : z.cc = s.cc := State.cc_of_ps ((placeOf_ps hp).symm.trans ht)
  have hx : lateWord y src z = lateWord y src t := (lateWord_congr y (placeOf_reg hp src.reg)).symm
  simp only [moveWord, hy, hl, Res.bind_ok, hcc, hx]
  exact commit_ok (by simp only [storeAt, placeOf_setCC, hp, Res.mapState, Res.bind_ok]; exact hv)

/-- The byte form; a register takes the extended sign. -/
theorem moveByte_of_place {x : Byte} {v : State} (f : Alu2 8) (h : sourceAndPlaceByte .write src dst s x p t)
    (hv : writePlaceByteExt p (f x 0 s.cc).1 (t.setCC (f x 0 s.cc).2) = .ok () v) : moveByte f src dst s = .ok () v := by
  have ht : t.ps = s.ps := (sourceAndPlaceByte_frame h).ps_eq rfl
  obtain ⟨y, u, hy, hp, rfl⟩ := sourceAndPlaceByte_parts h
  obtain ⟨l, z, hl, hp⟩ := Res.bind_eq_ok.mp hp
  have hcc : z.cc = s.cc := State.cc_of_ps ((placeOf_ps hp).symm.trans ht)
  have hx : lateByte y src z = lateByte y src t := (lateByte_congr y (placeOf_reg hp src.reg)).symm
  simp only [moveByte, hy, hl, Res.bind_ok, hcc, hx]
  exact commit_ok (by simp only [storeByteExtAt, placeOf_setCC, hp, Res.mapState, Res.bind_ok]; exact hv)

theorem exec_mov_of_place {x : Word} {v : State} (h : sourceAndPlace .write src dst s x p t)
    (hv : writePlace p x (t.setCC (codesOf x false s.cc.c)) = .ok () v) : exec (.mov src dst) s = .next v := by
  have hmove : moveWord aluMov src dst s = .ok () v := moveWord_of_place aluMov h (by rw [aluMov_eq]; exact hv)
  rw [exec_mov, hmove, finish_ok]

/-- The byte form. -/
theorem exec_movb_of_place {x : Byte} {v : State} (h : sourceAndPlaceByte .write src dst s x p t)
    (hv : writePlaceByteExt p x (t.setCC (codesOf x false s.cc.c)) = .ok () v) : exec (.movb src dst) s = .next v := by
  have hmove : moveByte aluMov src dst s = .ok () v := moveByte_of_place aluMov h (by rw [aluMov_eq]; exact hv)
  rw [exec_movb, hmove, finish_ok]

end

/-- Settles O33: MOV stores at the place, MOVB at a physical address too; into a register MOVB extends the sign. -/
theorem moveResults : Obligations.MoveResults :=
  ⟨fun _ _ _ _ _ _ _ h hv => exec_mov_of_place h hv, fun _ _ _ _ _ _ h => exec_movb_of_place h rfl,
    fun _ _ _ _ _ _ _ h hv => exec_movb_of_place h hv⟩

/-! ## Each instruction ends with a store (R280) -/

section
variable {i : Instr} {src dst : Operand} {s t v : State} {p : Place}

theorem combinesWord_stores {f : Alu2 16} {x d : Word} {u : State} (hi : combinesWord i = some (src, dst, f))
    (h : sourceAndPlace .write src dst s x p t) (hd : readPlace p t = .ok d u) (hp : p.writable s.cfg)
    (hv : exec i s = .next v) : Frame (touching2 s src dst) s u ∧ StoresWord p u v := by
  obtain ⟨z, hz, hstore⟩ := combineWord_completes f h hd hp
  rw [exec_combinesWord hi, hz] at hv
  cases hv
  exact ⟨(sourceAndPlace_frame h).trans (readPlace_frame hd), _, _, .inl hstore⟩

theorem combinesByte_stores {f : Alu2 8} {x d : Byte} {u : State} (hi : combinesByte i = some (src, dst, f))
    (h : sourceAndPlaceByte .write src dst s x p t) (hd : readPlaceByte p t = .ok d u) (hp : p.writable s.cfg)
    (hv : exec i s = .next v) : Frame (touching2 s src dst) s u ∧ StoresByte p u v := by
  obtain ⟨z, hz, hstore⟩ := combineByte_completes f h hd hp
  rw [exec_combinesByte hi, hz] at hv
  cases hv
  exact ⟨(sourceAndPlaceByte_frame h).trans (readPlaceByte_frame hd), _, _, .inl hstore⟩

theorem mov_stores {x y : Word} {u : State} (h : sourceAndPlace .write src dst s x p t)
    (hy : writePlace p y t = .ok () u) (hv : exec (.mov src dst) s = .next v) : StoresWord p t v := by
  obtain ⟨z, hz⟩ := writePlace_answers hy x (codesOf x false s.cc.c)
  rw [exec_mov_of_place h hz] at hv
  cases hv
  exact ⟨_, _, .inr hz⟩

/-- Into a register MOVB stores a word, the sign extended; into memory it stores a byte. -/
theorem movb_stores {x y : Byte} {u : State} (h : sourceAndPlaceByte .write src dst s x p t)
    (hy : writePlaceByte p y t = .ok () u) (hv : exec (.movb src dst) s = .next v) :
    (∃ r, p = .reg r) ∧ StoresWord p t v ∨ StoresByte p t v := by
  cases p with
  | reg r =>
    rw [exec_movb_of_place h rfl] at hv
    cases hv
    exact .inl ⟨⟨r, rfl⟩, _, _, .inr rfl⟩
  | phys a =>
    obtain ⟨z, hz⟩ := writePlaceByte_answers hy x (codesOf x false s.cc.c)
    rw [exec_movb_of_place h hz] at hv
    cases hv
    exact .inr ⟨_, _, .inr hz⟩

/-- A comparison ends with its codes. -/
theorem comparesWord_frame {f : Word → Word → CC → CC} {x d : Word} {u : State}
    (hi : comparesWord i = some (src, dst, f)) (h : sourceAndPlace .read src dst s x p t)
    (hd : readPlace p t = .ok d u) (hv : exec i s = .next v) : Frame (touching2 s src dst).codes s v := by
  obtain ⟨g, -, hexec⟩ := exec_comparesWord hi
  rw [hexec, compareWord_ok g h hd] at hv
  cases hv
  exact ((sourceAndPlace_frame h).trans (readPlace_frame hd)).thenCodes _

/-- The byte form. -/
theorem comparesByte_frame {f : Byte → Byte → CC → CC} {x d : Byte} {u : State}
    (hi : comparesByte i = some (src, dst, f)) (h : sourceAndPlaceByte .read src dst s x p t)
    (hd : readPlaceByte p t = .ok d u) (hv : exec i s = .next v) : Frame (touching2 s src dst).codes s v := by
  obtain ⟨g, -, hexec⟩ := exec_comparesByte hi
  rw [hexec, compareByte_ok g h hd] at hv
  cases hv
  exact ((sourceAndPlaceByte_frame h).trans (readPlaceByte_frame hd)).thenCodes _

end

/-- Settles O34: the changes of the last store are added to those of evaluating the operands; a comparison has no store. -/
theorem doubleOperandFrame : Obligations.DoubleOperandFrame := by
  refine ⟨?word, ?byte, ?comparesWord, ?comparesByte⟩
  case word =>
    intro i src dst s x p t v hi h hv
    have hends : ∃ u, Frame (touching2 s src dst) s u ∧ StoresWord p u v := by
      obtain ⟨⟨f, hf⟩, ⟨d, u, hd⟩, hp⟩ | ⟨rfl, y, u, hy⟩ := hi
      · exact ⟨u, combinesWord_stores hf h hd hp hv⟩
      · exact ⟨t, sourceAndPlace_frame h, mov_stores h hy hv⟩
    obtain ⟨u, hu, hstore⟩ := hends
    exact ⟨fun hquiet b hb => hstore.byte hu hquiet rfl hb, hstore.frame hu rfl⟩
  case byte =>
    intro i src dst s x p t v hi h hv
    have hends : ∃ u, Frame (touching2 s src dst) s u ∧ ((∃ r, p = .reg r) ∧ StoresWord p u v ∨ StoresByte p u v) := by
      obtain ⟨⟨f, hf⟩, ⟨d, u, hd⟩, hp⟩ | ⟨rfl, y, u, hy⟩ := hi
      · obtain ⟨hu, hstore⟩ := combinesByte_stores hf h hd hp hv
        exact ⟨u, hu, .inr hstore⟩
      · exact ⟨t, sourceAndPlaceByte_frame h, movb_stores h hy hv⟩
    obtain ⟨u, hu, ⟨⟨r, rfl⟩, hstore⟩ | hstore⟩ := hends
    · exact ⟨fun hquiet b _ => hstore.byte hu hquiet rfl nofun, hstore.frame hu rfl⟩
    · exact ⟨fun hquiet b hb => hstore.byte hu hquiet rfl hb, hstore.frame hu rfl⟩
  case comparesWord => exact fun i src dst f s x p t v hi h ⟨d, u, hd⟩ hv => comparesWord_frame hi h hd hv
  case comparesByte => exact fun i src dst f s x p t v hi h ⟨d, u, hd⟩ hv => comparesByte_frame hi h hd hv

end Sys2Proof.Machine
end

section
/-! PROOFS. The results of the extended integer instructions in numbers (spec/42_double_operand.md R299 to R303): the halves of a
32-bit value, division toward zero, the signed six-bit count, and the arithmetic shift of a value of any width. -/

namespace Sys2Proof.Machine

open Sys2Proof.Spec

/-! ## Register pairs (R299) -/

theorem isOddReg_eq (r : Reg) : isOddReg r = decide (r.toNat % 2 = 1) := by cases r <;> rfl

theorem isOddReg_of_even {r : Reg} (h : r.toNat % 2 = 0) : isOddReg r = false := by
  rw [isOddReg_eq, h]
  rfl

theorem isOddReg_of_odd {r : Reg} (h : r.toNat % 2 = 1) : isOddReg r = true := by
  rw [isOddReg_eq, h]
  rfl

theorem orOne_of_even {r : Reg} (h : r.toNat % 2 = 0) : orOne r = regOf (r.toNat + 1) := by
  revert h
  cases r <;> decide

theorem extractLow_ofInt (p : Int) : (BitVec.ofInt 32 p).extractLsb' 0 16 = BitVec.ofInt 16 p := by
  apply BitVec.eq_of_toNat_eq
  rw [BitVec.extractLsb'_toNat, BitVec.toNat_ofInt, BitVec.toNat_ofInt, Nat.shiftRight_zero]
  omega

theorem extractHigh_ofInt (p : Int) : (BitVec.ofInt 32 p).extractLsb' 16 16 = BitVec.ofInt 16 (p / 65536) := by
  apply BitVec.eq_of_toNat_eq
  rw [BitVec.extractLsb'_toNat, BitVec.toNat_ofInt, BitVec.toNat_ofInt, Nat.shiftRight_eq_div_pow]
  omega

/-- The number in a register pair: the high half is signed, the low half is not. -/
theorem toInt_pairOf (r : Reg) (s : State) :
    (pairOf r s).toInt = (s.reg r).toInt * 65536 + (s.reg (orOne r)).toNat := by
  have happend : (pairOf r s).toInt = 2 ^ 16 * (s.reg r).toInt + (s.reg (orOne r)).toNat := BitVec.toInt_append
  omega

/-! ## Division toward zero (R301) -/

/-- The quotient toward zero is that of the absolute values, negated when the signs differ. -/
theorem tdiv_eq_natAbs_div (a b : Int) :
    a.tdiv b = if (a < 0) = (b < 0) then (a.natAbs : Int) / b.natAbs else -((a.natAbs / b.natAbs : Nat) : Int) := by
  cases a with
  | ofNat m =>
    cases b with
    | ofNat n => exact (if_pos (propext (iff_of_false (Int.natCast_nonneg m).not_gt (Int.natCast_nonneg n).not_gt))).symm
    | negSucc n => exact (if_neg (by simp [Int.negSucc_lt_zero])).symm
  | negSucc m =>
    cases b with
    | ofNat n => exact (if_neg (by simp [Int.negSucc_lt_zero])).symm
    | negSucc n => exact (if_pos (by simp [Int.negSucc_lt_zero])).symm

/-! ## Shifts by a count (R302, R303) -/

theorem shiftCount_eq_countRule (x : Word) : shiftCount x = countRule x := by
  have hx : (x.setWidth 6).toNat = x.toNat % 64 := BitVec.toNat_setWidth 6 x
  rw [shiftCount, countRule, BitVec.toInt_eq_toNat_cond, hx]
  omega

theorem shiftLeft_eq_ofNat {w : Nat} (x : BitVec w) (k : Nat) : x <<< k = BitVec.ofNat w (x.toNat * 2 ^ k) := by
  apply BitVec.eq_of_toNat_eq
  rw [BitVec.toNat_shiftLeft, BitVec.toNat_ofNat, Nat.shiftLeft_eq]

theorem sshiftRight_eq_ofInt {w : Nat} (x : BitVec w) (k : Nat) :
    x.sshiftRight k = BitVec.ofInt w (x.toInt / 2 ^ k) := by
  rw [← BitVec.ofInt_toInt (x := x.sshiftRight k), BitVec.toInt_sshiftRight, Int.shiftRight_eq_div_pow, Int.natCast_pow]
  rfl

theorem pow_dvd_toInt_shiftLeft {w : Nat} (x : BitVec w) (k : Nat) : (2 : Int) ^ k ∣ (x <<< k).toInt := by
  rcases Nat.lt_or_ge k w with hk | hk
  · have hpow : (2 : Int) ^ k ∣ (2 ^ w : Nat) := by
      rw [Int.natCast_pow]
      exact pow_dvd_pow 2 hk.le
    have hwhole : (2 : Int) ^ k ∣ (x.toNat <<< k : Nat) := by
      rw [Nat.shiftLeft_eq, Int.natCast_mul, Int.natCast_pow]
      exact dvd_mul_left _ _
    rw [BitVec.toInt_shiftLeft]
    exact (dvd_iff_dvd_of_dvd_sub (hpow.trans Int.dvd_bmod_sub_self)).mpr hwhole
  · rw [BitVec.shiftLeft_eq_zero hk, BitVec.toInt_zero]
    exact dvd_zero _

/-- The sign changes during a left shift exactly when the result is not the number times the power of two. -/
theorem signChanges_iff {w : Nat} (x : BitVec w) (k : Nat) :
    signChanges x k = true ↔ x.toInt * 2 ^ k ≠ (x <<< k).toInt := by
  have hpos : (2 : Int) ^ k ≠ 0 := by positivity
  have hback : ((x <<< k).sshiftRight k).toInt = (x <<< k).toInt / 2 ^ k := by
    rw [BitVec.toInt_sshiftRight, Int.shiftRight_eq_div_pow, Int.natCast_pow]
    rfl
  rw [signChanges, decide_eq_true_iff, ne_eq, ← BitVec.toInt_inj, hback,
    Int.ediv_eq_iff_eq_mul_left hpos (pow_dvd_toInt_shiftLeft x k), eq_comm]

/-- The model's shift is the rule's at every width and by every count. -/
theorem shiftRule_eisShift {w : Nat} (x : BitVec w) (c : Int) : shiftRule w x c (eisShift x c).1 (eisShift x c).2 := by
  unfold eisShift
  split
  case isTrue hleft =>
    refine ⟨BitVec.msb_eq_decide _, decide_eq_toNat _ _, ?_⟩
    rw [if_pos hleft]
    exact ⟨shiftLeft_eq_ofNat x c.toNat, rfl, signChanges_iff x c.toNat⟩
  case isFalse hleft =>
    split
    case isTrue hright =>
      refine ⟨BitVec.msb_eq_decide _, decide_eq_toNat _ _, ?_⟩
      rw [if_neg hleft, if_pos hright]
      exact ⟨sshiftRight_eq_ofInt x (-c).toNat, by rw [← BitVec.msb_eq_getLsbD_last]; rfl, rfl⟩
    case isFalse hright =>
      refine ⟨BitVec.msb_eq_decide _, decide_eq_toNat _ _, ?_⟩
      rw [if_neg hleft, if_neg hright]
      exact ⟨rfl, rfl, rfl⟩

end Sys2Proof.Machine
end

section
/-! PROOFS. The extended integer instructions (spec/42_double_operand.md R299 to R303): each reads its source and then works on
registers and codes alone. From that second part come both what the instruction leaves and what it changes. -/

namespace Sys2Proof.Machine

open Sys2Proof.Spec

/-! ## The source is read first (R299; D36) -/

section
variable {r : Reg} {o : Operand} {s t : State} {x : Word} (h : loadWord o s = .ok x t)
include h

theorem exec_mul_of_load : exec (.mul r o) s = finish (mulInto r x t) :=
  congrArg (fun y : Res Word => finish (y.bind fun v s => mulInto r v s)) h

theorem exec_div_of_load : exec (.div r o) s = finish (divInto r x t) :=
  congrArg (fun y : Res Word => finish (y.bind fun v s => divInto r v s)) h

theorem exec_ash_of_load : exec (.ash r o) s = finish (ashInto r x t) :=
  congrArg (fun y : Res Word => finish (y.bind fun v s => ashInto r v s)) h

theorem exec_ashc_of_load : exec (.ashc r o) s = finish (ashcInto r x t) :=
  congrArg (fun y : Res Word => finish (y.bind fun v s => ashcInto r v s)) h

end

/-! ## Free results (D22, D23) -/

theorem State.setReg_withFree (s : State) (n : Nat) (r : Reg) (v : Word) :
    ({ s with free := n } : State).setReg r v = { s.setReg r v with free := n } := by
  cases r with
  | r6 =>
    show ({ s with free := n } : State).setSpOf s.mode v = { s.setSpOf s.mode v with free := n }
    unfold State.setSpOf
    (repeat' split) <;> rfl
  | _ => rfl

theorem setFreeCodes_eq (s : State) : ∃ cc, setFreeCodes s = .ok () { s.setCC cc with free := s.free + 1 } :=
  ⟨_, rfl⟩

theorem setFreeResult_eq (r : Reg) (s : State) :
    ∃ w cc, setFreeResult r s = .ok () { (s.setReg r w).setCC cc with free := s.free + 2 } := by
  refine ⟨Config.freeWord s.free, ccOf (Config.freeCodes (s.free + 1)), ?_⟩
  simp only [setFreeResult, takeWord, Res.bind_ok, State.setReg_withFree]
  rfl

/-! ## MUL (R300) -/

theorem setPair_of_even {r : Reg} (h : r.toNat % 2 = 0) (p : Int) (s : State) :
    setPair r (BitVec.ofInt 32 p) s =
      (s.setReg r (BitVec.ofInt 16 (p / 65536))).setReg (regOf (r.toNat + 1)) (BitVec.ofInt 16 p) := by
  rw [setPair, extractHigh_ofInt, extractLow_ofInt, orOne_of_even h]

/-- The carry says that the product does not fit in sixteen bits (D21). -/
theorem eisMul_codes (x y : Word) : (eisMul x y).2 =
    ⟨decide (x.toInt * y.toInt < 0), decide (x.toInt * y.toInt = 0), false,
      decide (x.toInt * y.toInt < -32768 ∨ 32767 < x.toInt * y.toInt)⟩ := by
  have hc : ∀ p : Int, (decide (p < -2 ^ 15) || decide (2 ^ 15 ≤ p)) = decide (p < -32768 ∨ 32767 < p) := by
    intro p
    rw [← Bool.decide_or, decide_eq_decide]
    omega
  simp only [eisMul, hc]

/-- Settles O35: the product's codes in numbers, and its halves in the registers. -/
theorem multiplyResult : Obligations.MultiplyResult := by
  intro r o s t x h p cc
  have hcodes : (eisMul (t.reg r) x).2 = cc := eisMul_codes (t.reg r) x
  have hproduct : (eisMul (t.reg r) x).1 = BitVec.ofInt 32 p := rfl
  rw [exec_mul_of_load h, mulInto, finish_ok, hcodes, hproduct]
  rcases Nat.mod_two_eq_zero_or_one r.toNat with heven | hodd
  · rw [isOddReg_of_even heven, if_neg Bool.false_ne_true, setPair_of_even heven, if_pos heven]
  · rw [isOddReg_of_odd hodd, if_pos rfl, extractLow_ofInt, if_neg (Nat.mod_two_ne_zero.mpr hodd)]

/-! ## DIV (R301) -/

theorem eisDiv_zero (d : BitVec 32) : eisDiv d 0 = (none, ⟨false, false, true, true⟩) := rfl

theorem eisDiv_overflow {d : BitVec 32} {x : Word} (hx : x ≠ 0)
    (hq : d.toInt.tdiv x.toInt < -32768 ∨ 32767 < d.toInt.tdiv x.toInt) :
    eisDiv d x = (none, ⟨false, false, true, false⟩) := by
  rw [eisDiv, if_neg hx]
  exact if_pos hq

theorem eisDiv_fits {d : BitVec 32} {x : Word} (hx : x ≠ 0)
    (hq : ¬ (d.toInt.tdiv x.toInt < -32768 ∨ 32767 < d.toInt.tdiv x.toInt)) :
    eisDiv d x = (some (BitVec.ofInt 16 (d.toInt.tdiv x.toInt), BitVec.ofInt 16 (d.toInt.tmod x.toInt)),
      ⟨decide (d.toInt.tdiv x.toInt < 0), decide (d.toInt.tdiv x.toInt = 0), false, false⟩) := by
  rw [eisDiv, if_neg hx]
  exact if_neg hq

theorem divInto_odd {r : Reg} (h : r.toNat % 2 = 1) (x : Word) (s : State) : divInto r x s = setFreeResult r s := by
  rw [divInto, isOddReg_of_odd h, if_pos rfl]

theorem divInto_none {r : Reg} {x : Word} {s : State} {cc : CC} (h : r.toNat % 2 = 0)
    (hd : eisDiv (pairOf r s) x = (none, cc)) : divInto r x s = .ok () (s.setCC cc) := by
  rw [divInto, isOddReg_of_even h, if_neg Bool.false_ne_true, hd]

theorem divInto_some {r : Reg} {x q m : Word} {s : State} {cc : CC} (h : r.toNat % 2 = 0)
    (hd : eisDiv (pairOf r s) x = (some (q, m), cc)) :
    divInto r x s = .ok () (((s.setReg r q).setReg (orOne r) m).setCC cc) := by
  rw [divInto, isOddReg_of_even h, if_neg Bool.false_ne_true, hd]

/-- Settles O36: of an even pair, the quotient of the rule is the model's, and decides between its three answers. -/
theorem divideResult : Obligations.DivideResult := by
  intro r o s t x h lo d q
  rw [exec_div_of_load h]
  split
  case isTrue hodd =>
    obtain ⟨w, cc, hfree⟩ := setFreeResult_eq r t
    exact ⟨w, cc, by rw [divInto_odd hodd, hfree, finish_ok]⟩
  case isFalse hodd =>
    have heven : r.toNat % 2 = 0 := Nat.mod_two_ne_one.mp hodd
    have hlo : orOne r = lo := orOne_of_even heven
    have hd : (pairOf r t).toInt = d := by rw [toInt_pairOf, hlo]
    have hq : d.tdiv x.toInt = q := tdiv_eq_natAbs_div d x.toInt
    have hm : d.tmod x.toInt = d - q * x.toInt := by rw [Int.tmod_def, hq, Int.mul_comm]
    split
    case isTrue hx => rw [hx, divInto_none heven (eisDiv_zero _), finish_ok]
    case isFalse hx =>
      split
      case isTrue hover => rw [divInto_none heven (eisDiv_overflow hx (by rwa [hd, hq])), finish_ok]
      case isFalse hfits => rw [divInto_some heven (eisDiv_fits hx (by rwa [hd, hq])), finish_ok, hd, hm, hq, hlo]

/-! ## ASH and ASHC (R302, R303) -/

theorem ashcInto_even {r : Reg} (h : r.toNat % 2 = 0) (x : Word) (s : State) :
    ashcInto r x s = .ok () ((setPair r (eisShift (pairOf r s) (shiftCount x)).1 s).setCC
      (eisShift (pairOf r s) (shiftCount x)).2) := by
  rw [ashcInto, isOddReg_of_even h, if_neg Bool.false_ne_true]

theorem ashcInto_odd {r : Reg} (h : r.toNat % 2 = 1) (x : Word) (s : State) :
    ashcInto r x s = ashcOdd r (shiftCount x) s := by
  rw [ashcInto, isOddReg_of_odd h, if_pos rfl]

theorem ashcOdd_right {c : Int} (h : c < 0) (r : Reg) (s : State) :
    ashcOdd r c s = setFreeCodes (s.setReg r ((s.reg r).rotateRight ((-c).toNat % 16))) := by
  rw [ashcOdd, if_neg (by omega), if_pos h]

theorem ashcOdd_left {c : Int} (h : 0 < c) (r : Reg) (s : State) : ashcOdd r c s = setFreeResult r s := by
  rw [ashcOdd, if_pos h]

theorem ashcOdd_zero (r : Reg) (s : State) : ashcOdd r 0 s = .ok () (s.setCC (codesOf (s.reg r) false false)) := by
  rw [← ccNZ_eq_codesOf]
  rfl

theorem ash_result {r : Reg} {o : Operand} {s t : State} {x : Word} (h : loadWord o s = .ok x t) :
    ∃ y cc, shiftRule 16 (t.reg r) (countRule x) y cc ∧ exec (.ash r o) s = .next ((t.setReg r y).setCC cc) := by
  refine ⟨_, _, shiftRule_eisShift (t.reg r) (countRule x), ?_⟩
  rw [exec_ash_of_load h, ashInto, finish_ok, shiftCount_eq_countRule]

/-- Settles O37: the model's count is the rule's, its shift of a register or of a pair follows the rule, and with an odd
register the sign of the count decides. -/
theorem shiftResults : Obligations.ShiftResults := by
  intro r o s t x h
  refine ⟨ash_result h, ?_⟩
  rw [exec_ashc_of_load h]
  split
  case isTrue heven =>
    have hnext := orOne_of_even heven
    refine ⟨_, _, shiftRule_eisShift (t.reg r ++ t.reg (regOf (r.toNat + 1))) (countRule x), ?_⟩
    rw [ashcInto_even heven, finish_ok, shiftCount_eq_countRule, setPair, pairOf, hnext]
  case isFalse hodd =>
    rw [ashcInto_odd (Nat.mod_two_ne_zero.mp hodd), shiftCount_eq_countRule]
    split
    case isTrue hright =>
      obtain ⟨cc, hfree⟩ := setFreeCodes_eq (t.setReg r ((t.reg r).rotateRight ((-countRule x).toNat % 16)))
      exact ⟨cc, by rw [ashcOdd_right hright, hfree, finish_ok, State.setReg_free]⟩
    case isFalse hright =>
      split
      case isTrue hzero => rw [hzero, ashcOdd_zero, finish_ok]
      case isFalse hzero =>
        obtain ⟨w, cc, hfree⟩ := setFreeResult_eq r t
        exact ⟨w, cc, by rw [ashcOdd_left (by omega), hfree, finish_ok]⟩

/-! ## What each of them changes (R299) -/

theorem Frame.withFree (w : Allow) (s : State) (n : Nat) : Frame w s { s with free := n } :=
  ⟨fun q _ _ _ => by cases q <;> rfl, fun _ _ => rfl, rfl, fun _ _ _ => rfl, fun _ _ => rfl, rfl,
    fun _ => ⟨rfl, rfl⟩, rfl, fun q => ⟨q, rfl, rfl⟩⟩

/-- A piece of an instruction answers, and changes only what is allowed. -/
def Confined (w : Allow) (s : State) (y : Res Unit) : Prop := ∃ z, y = .ok () z ∧ Frame w s z

section
variable {w : Allow} {s t : State}

theorem Frame.confined (h : Frame w s t) : Confined w s (.ok () t) := ⟨t, rfl, h⟩

theorem Confined.finish {y : Res Unit} {v : State} (h : Confined w s y) (hv : finish y = .next v) :
    Frame w s v := by
  obtain ⟨z, rfl, hz⟩ := h
  cases hv
  exact hz

variable {r : Reg} (x : Word)

/-- The register and the next one of its pair. -/
theorem Frame.setBoth (hr : w.permits s.mode r) (hnext : w.permits s.mode (orOne r)) (a b : Word) :
    Frame w s ((s.setReg r a).setReg (orOne r) b) := by
  rw [← State.setReg_mode s r a] at hnext
  exact (Frame.setReg a hr).trans (Frame.setReg b hnext)

variable (hps : (0o17 : Word) &&& ~~~w.ps = 0)
include hps

theorem Frame.confinedCodes (h : Frame w s t) (cc : CC) : Confined w s (.ok () (t.setCC cc)) :=
  (h.trans (Frame.setCC t cc hps)).confined

theorem setFreeCodes_confined (h : Frame w s t) : Confined w s (setFreeCodes t) := by
  obtain ⟨cc, hfree⟩ := setFreeCodes_eq t
  rw [hfree]
  exact ((h.trans (Frame.setCC t cc hps)).trans (Frame.withFree w _ _)).confined

variable (hr : w.permits s.mode r)
include hr

theorem setFreeResult_confined : Confined w s (setFreeResult r s) := by
  obtain ⟨y, cc, hfree⟩ := setFreeResult_eq r s
  rw [hfree]
  exact (((Frame.setReg y hr).trans (Frame.setCC _ cc hps)).trans (Frame.withFree w _ _)).confined

theorem ashInto_confined : Confined w s (ashInto r x s) := (Frame.setReg _ hr).confinedCodes hps _

theorem ashcOdd_confined (c : Int) : Confined w s (ashcOdd r c s) := by
  unfold ashcOdd
  split
  · exact setFreeResult_confined hps hr
  · split
    · exact setFreeCodes_confined hps (Frame.setReg _ hr)
    · exact (Frame.refl w s).confinedCodes hps _

variable (hnext : w.permits s.mode (orOne r))
include hnext

theorem mulInto_confined : Confined w s (mulInto r x s) := by
  unfold mulInto
  split
  · exact (Frame.setReg _ hr).confinedCodes hps _
  · exact (Frame.setBoth hr hnext _ _).confinedCodes hps _

theorem divInto_confined : Confined w s (divInto r x s) := by
  unfold divInto
  split
  · exact setFreeResult_confined hps hr
  · split
    · exact (Frame.refl w s).confinedCodes hps _
    · exact (Frame.setBoth hr hnext _ _).confinedCodes hps _

theorem ashcInto_confined : Confined w s (ashcInto r x s) := by
  unfold ashcInto
  split
  · exact ashcOdd_confined hps hr _
  · exact (Frame.setBoth hr hnext _ _).confinedCodes hps _

end

/-- What the four instructions may change takes in the source specifier's register, the register, and the next of its pair. -/
theorem extendedAllow_permits (s : State) (o : Operand) (r : Reg) :
    let w := (((touching s o).reg s.mode r).reg s.mode (orOne r)).codes
    w.permits s.mode o.reg ∧ w.permits s.mode r ∧ w.permits s.mode (orOne r) := by
  have hr : (touching s o).Le ((touching s o).reg s.mode r) := Allow.le_reg _ _ _
  have hnext := Allow.le_reg ((touching s o).reg s.mode r) s.mode (orOne r)
  have hcodes := Allow.le_codes (((touching s o).reg s.mode r).reg s.mode (orOne r))
  exact ⟨((hr.trans hnext).trans hcodes).permits (touching_permits s o),
    (hnext.trans hcodes).permits (Allow.permits_reg _ _ _), hcodes.permits (Allow.permits_reg _ _ _)⟩

/-- Settles O38: the changes of the second part are added to those of reading the source. -/
theorem extendedIntegerFrame : Obligations.ExtendedIntegerFrame := by
  intro i r o s t v x hi h hv
  have hmode : t.mode = s.mode := (loadWord_frame h (touching_permits s o)).mode_eq rfl
  have hps := Allow.codes_ps (((touching s o).reg s.mode r).reg s.mode (orOne r))
  obtain ⟨hsrc, hr, hnext⟩ := extendedAllow_permits s o r
  generalize (((touching s o).reg s.mode r).reg s.mode (orOne r)).codes = w at hps hsrc hr hnext ⊢
  have ht : Frame w s t := loadWord_frame h hsrc
  rw [← hmode] at hr hnext
  obtain rfl | rfl | rfl | rfl := hi
  · rw [exec_mul_of_load h] at hv
    exact ht.trans ((mulInto_confined x hps hr hnext).finish hv)
  · rw [exec_div_of_load h] at hv
    exact ht.trans ((divInto_confined x hps hr hnext).finish hv)
  · rw [exec_ash_of_load h] at hv
    exact ht.trans ((ashInto_confined x hps hr).finish hv)
  · rw [exec_ashc_of_load h] at hv
    exact ht.trans ((ashcInto_confined x hps hr hnext).finish hv)

end Sys2Proof.Machine
end

section
/-! PROOFS. The branches (spec/43_branches.md R320 to R337): each is `branchIf` on a Boolean of the codes, and that Boolean is the
condition of its rule; after a comparison the Booleans are the orders of the two operands. -/

namespace Sys2Proof.Machine

open Sys2Proof.Spec

/-! ## The target (R320) -/

theorem branchTarget_eq (pc : Word) (k : BitVec 8) :
    pc + 2 * k.signExtend 16 = BitVec.ofInt 16 (pc.toNat + 2 * k.toInt) := by
  refine BitVec.eq_of_toInt_eq ?_
  have hk : (k.signExtend 16).toInt = k.toInt := BitVec.toInt_signExtend_of_le (by decide)
  rw [BitVec.toInt_ofInt, BitVec.toInt_add, BitVec.toInt_mul, hk, BitVec.toInt_eq_toNat_bmod pc]
  simp

theorem branchIf_eq (taken : Bool) (k : BitVec 8) (s : State) :
    branchIf taken k s = .next (if taken then { s with pc := BitVec.ofInt 16 (s.pc.toNat + 2 * k.toInt) } else s) := by
  rw [← branchTarget_eq]
  cases taken <;> rfl

/-! ## The instruction of each rule (R321 to R337) -/

theorem CC.less_eq_false_iff (x : CC) : x.less = false ↔ x.n = x.v := by
  unfold CC.less
  cases x.n <;> cases x.v <;> decide

theorem CC.less_eq_true_iff (x : CC) : x.less = true ↔ x.n ≠ x.v := by
  rw [← Bool.not_eq_false, CC.less_eq_false_iff]

/-- A branch is `branchIf` on a Boolean that says whether its rule's condition holds. -/
theorem exec_branchRule {i : Instr} {base : Nat} {k : BitVec 8} {c : CC → Prop}
    (h : branchRule i = some (base, k, c)) (s : State) :
    ∃ taken : Bool, exec i s = branchIf taken k s ∧ (taken = true ↔ c s.cc) := by
  unfold branchRule at h
  split at h <;> cases h
  · exact ⟨true, rfl, by simp⟩
  · exact ⟨!s.cc.z, rfl, by simp⟩
  · exact ⟨s.cc.z, rfl, Iff.rfl⟩
  · exact ⟨!s.cc.n, rfl, by simp⟩
  · exact ⟨s.cc.n, rfl, Iff.rfl⟩
  · exact ⟨!s.cc.v, rfl, by simp⟩
  · exact ⟨s.cc.v, rfl, Iff.rfl⟩
  · exact ⟨!s.cc.c, rfl, by simp⟩
  · exact ⟨s.cc.c, rfl, Iff.rfl⟩
  · exact ⟨!s.cc.less, rfl, by simp [CC.less_eq_false_iff]⟩
  · exact ⟨s.cc.less, rfl, CC.less_eq_true_iff _⟩
  · exact ⟨!(s.cc.z || s.cc.less), rfl, by simp [CC.less_eq_false_iff]⟩
  · exact ⟨s.cc.z || s.cc.less, rfl, by simp [CC.less_eq_true_iff]⟩
  · exact ⟨!(s.cc.c || s.cc.z), rfl, by simp⟩
  · exact ⟨s.cc.c || s.cc.z, rfl, by simp⟩
  · exact ⟨!s.cc.c, rfl, by simp⟩
  · exact ⟨s.cc.c, rfl, Iff.rfl⟩

/-- A branch with its condition decided: the one rule that the statements about branches use. -/
theorem exec_branch {i : Instr} {base : Nat} {k : BitVec 8} {c : CC → Prop} (h : branchRule i = some (base, k, c))
    (s : State) {taken : Bool} (ht : taken = true ↔ c s.cc) :
    exec i s = .next (if taken then { s with pc := BitVec.ofInt 16 (s.pc.toNat + 2 * k.toInt) } else s) := by
  obtain ⟨b, hexec, hb⟩ := exec_branchRule h s
  have : b = taken := Bool.eq_iff_iff.mpr (hb.trans ht.symm)
  rw [hexec, this, branchIf_eq]

/-- The branch format (R176): a branch is well-formed, and its word is the base code with the offset in its low byte. -/
theorem branchRule_word {i : Instr} {base : Nat} {k : BitVec 8} {c : CC → Prop} (h : branchRule i = some (base, k, c)) :
    i.wellFormed = true ∧ i.encodeNat = base + k.toNat := by
  unfold branchRule at h
  split at h <;> cases h <;> exact ⟨rfl, rfl⟩

/-- Settles O39: the word is read off the encoder and decodes by O1; the condition decides `branchIf`. -/
theorem branchResults : Obligations.BranchResults := by
  intro i base k c s h
  obtain ⟨hwf, hword⟩ := branchRule_word h
  refine ⟨by rw [toNat_encode, hword], decodeInvertsEncode i hwf, fun hc => ?_, fun hc => ?_⟩
  · exact exec_branch h s (taken := true) (by simpa using hc)
  · exact exec_branch h s (taken := false) (by simpa using hc)

/-! ## The codes of a comparison (R284) -/

theorem ccOf_bits (x : CC) : ccOf x.bits = x := by
  obtain ⟨n, z, v, c⟩ := x
  cases n <;> cases z <;> cases v <;> cases c <;> rfl

@[simp] theorem State.setCC_cc (s : State) (x : CC) : (s.setCC x).cc = x :=
  (congrArg ccOf BitVec.extractLsb'_append_eq_right).trans (ccOf_bits x)

section
variable (a b : Word) (cc : CC)

theorem aluCmp_z_iff : (aluCmp a b cc).2.z = true ↔ a = b := by
  simp [aluCmp, ccNZ, BitVec.sub_eq_iff_eq_add]

theorem aluCmp_c_iff : (aluCmp a b cc).2.c = true ↔ a.toNat < b.toNat := by
  simp [aluCmp, ccNZ, BitVec.lt_def]

/-- N exclusive or V is the sign of the true difference: where the subtraction overflows, both are inverted. -/
theorem aluCmp_less_iff : (aluCmp a b cc).2.less = true ↔ a.toInt < b.toInt := by
  rw [CC.less_eq_true_iff, aluCmp_eq_cmpRule]
  have ha := a.isLt
  have hb := b.isLt
  have hr : (a - b).toNat = (65536 - b.toNat + a.toNat) % 65536 := BitVec.toNat_sub a b
  simp only [cmpRule, codesOf, ofInt_sub_toNat, ne_eq, decide_eq_decide, BitVec.toInt_eq_toNat_cond]
  omega

end

/-- Settles O40: Z is equality, C the unsigned order, N exclusive or V the signed one, and each branch tests one of these or a
combination of two. -/
theorem branchesAfterCompare : Obligations.BranchesAfterCompare := by
  intro a b s k x taken go
  have hz : x.z = true ↔ a = b := aluCmp_z_iff a b s.cc
  have hc : x.c = true ↔ a.toNat < b.toNat := aluCmp_c_iff a b s.cc
  have hless : x.n ≠ x.v ↔ a.toInt < b.toInt := (CC.less_eq_true_iff x).symm.trans (aluCmp_less_iff a b s.cc)
  have hgo {i : BitVec 8 → Instr} {base : Nat} {c : CC → Prop} (h : branchRule (i k) = some (base, k, c)) {p : Prop}
      [Decidable p] (hp : p ↔ c x) : go i (decide p) :=
    exec_branch h (s.setCC x) (by rw [State.setCC_cc, decide_eq_true_iff, hp])
  have hle : a.toInt ≤ b.toInt ↔ x.z = true ∨ x.n ≠ x.v := by
    rw [hz, hless, le_iff_eq_or_lt, BitVec.toInt_inj]
  have hlos : a.toNat ≤ b.toNat ↔ x.c = true ∨ x.z = true := by
    rw [hz, hc, le_iff_lt_or_eq, BitVec.toNat_inj]
  have hne : a ≠ b ↔ x.z = false := by rw [ne_eq, ← hz, Bool.not_eq_true]
  have hge : b.toInt ≤ a.toInt ↔ x.n = x.v := by rw [← not_lt, ← hless, not_not]
  have hgt : b.toInt < a.toInt ↔ x.z = false ∧ x.n = x.v := by
    rw [← not_le, hle, not_or, Bool.not_eq_true, not_not]
  have hhis : b.toNat ≤ a.toNat ↔ x.c = false := by rw [← not_lt, ← hc, Bool.not_eq_true]
  have hhi : b.toNat < a.toNat ↔ x.c = false ∧ x.z = false := by
    rw [← not_le, hlos, not_or, Bool.not_eq_true, Bool.not_eq_true]
  exact ⟨hgo rfl hz.symm, hgo rfl hne, hgo rfl hless.symm, hgo rfl hge, hgo rfl hle, hgo rfl hgt,
    hgo rfl hc.symm, hgo rfl hhis, hgo rfl hlos, hgo rfl hhi⟩

end Sys2Proof.Machine
end

section
/-! PROOFS. SOB (spec/43_branches.md R340) and the jumps and subroutine calls (spec/44_jump_subroutine.md R350 to R353). Whether a
push is answered does not depend on the word pushed nor on the counter of the free values, so JSR's push is answered where that of
any word is. -/

namespace Sys2Proof.Machine

open Sys2Proof.Spec

/-! ## Targets as numbers -/

/-- Twice an offset of SOB or MARK. -/
theorem two_mul_setWidth (k : BitVec 6) : (2 : Word) * k.setWidth 16 = BitVec.ofNat 16 (2 * k.toNat) := by
  rw [BitVec.ofNat_mul, BitVec.ofNat_toNat]
  rfl

/-- Forward by `nn` words (R353). -/
theorem forwardTarget_eq (pc : Word) (nn : BitVec 6) :
    pc + 2 * nn.setWidth 16 = BitVec.ofNat 16 (pc.toNat + 2 * nn.toNat) := by
  rw [two_mul_setWidth, ofNat_toNat_add]

/-- Back by `nn` words (R340). -/
theorem backwardTarget_eq (pc : Word) (nn : BitVec 6) :
    pc - 2 * nn.setWidth 16 = BitVec.ofInt 16 (pc.toNat - 2 * nn.toNat) := by
  rw [two_mul_setWidth, ← ofInt_toNat_sub, Int.natCast_mul]
  rfl

/-! ## What an answer depends on

Another agent's reference stops the model, or not, by the configuration alone (R101, R115); a write is answered, or not, by the
configuration and the schedule. -/

section
variable {s u : State} (hcfg : u.cfg = s.cfg)
include hcfg

theorem slaveRead_stopOf (a : PAddr) : (slaveRead a u).stopOf = (slaveRead a s).stopOf := by
  unfold slaveRead
  rw [hcfg]
  split
  · rfl
  · split
    · rfl
    · rfl
    · (repeat' split) <;> rfl

theorem slaveWrite_stopOf (a : PAddr) (v : Word) : (slaveWrite a v u).stopOf = (slaveWrite a v s).stopOf := by
  unfold slaveWrite
  rw [hcfg]
  (repeat' split) <;> rfl

theorem slaveWriteByte_stopOf (a : PAddr) (v : Byte) :
    (slaveWriteByte a v u).stopOf = (slaveWriteByte a v s).stopOf := by
  unfold slaveWriteByte
  rw [hcfg]
  (repeat' split) <;> rfl

theorem dmaReply_stopOf {α : Type} (a : PAddr) {x y : Res α} (h : y.stopOf = x.stopOf) :
    (dmaReply a y u).stopOf = (dmaReply a x s).stopOf := by
  unfold dmaReply
  rw [hcfg]
  split
  · rfl
  · exact h

end

/-- A DMA reference is over unless it stops the model. -/
theorem dma_answers_iff {α : Type} (x : Res α) (s : State) : (∃ t, dma x s = .ok () t) ↔ x.stopOf = none := by
  cases x with
  | ok a t => exact ⟨fun _ => rfl, fun _ => ⟨t, rfl⟩⟩
  | trap c t => exact ⟨fun _ => rfl, fun _ => ⟨s, rfl⟩⟩
  | fault e => simp [dma, Res.stopOf]
  | refused r => simp [dma, Res.stopOf]

theorem busAction_answers {e : BusInput} {s t u : State} (h : busAction e s = .ok () t) (hcfg : u.cfg = s.cfg) :
    ∃ z, busAction e u = .ok () z := by
  cases e with
  | typed c => exact ⟨_, rfl⟩
  | sent => exact ⟨_, rfl⟩
  | parity a bad => exact ⟨_, rfl⟩
  | dmaRead a =>
    have hs := (dma_answers_iff _ s).mp ⟨t, h⟩
    exact (dma_answers_iff _ u).mpr ((dmaReply_stopOf hcfg a (slaveRead_stopOf hcfg a)).trans hs)
  | dmaWrite a v =>
    have hs := (dma_answers_iff _ s).mp ⟨t, h⟩
    exact (dma_answers_iff _ u).mpr ((dmaReply_stopOf hcfg a (slaveWrite_stopOf hcfg a v)).trans hs)
  | dmaWriteByte a v =>
    have hs := (dma_answers_iff _ s).mp ⟨t, h⟩
    exact (dma_answers_iff _ u).mpr ((dmaReply_stopOf hcfg a (slaveWriteByte_stopOf hcfg a v)).trans hs)

theorem busAction_cfg {e : BusInput} {s t : State} (h : busAction e s = .ok () t) : t.cfg = s.cfg := by
  obtain ⟨m, d, p, rfl⟩ := busAction_eq h
  rfl

theorem busActions_answers {es : List BusInput} {s t u : State} (h : busActions es s = .ok () t) (hcfg : u.cfg = s.cfg) :
    ∃ z, busActions es u = .ok () z := by
  induction es generalizing s u with
  | nil => exact ⟨u, rfl⟩
  | cons e es ih =>
    obtain ⟨_, s', hs, hrest⟩ := Res.bind_eq_ok.mp h
    obtain ⟨u', hu⟩ := busAction_answers hs hcfg
    obtain ⟨z, hz⟩ := ih hrest ((busAction_cfg hu).trans (hcfg.trans (busAction_cfg hs).symm))
    exact ⟨z, Res.bind_eq_ok.mpr ⟨(), u', hu, hz⟩⟩

theorem startCycle_answers {a : PAddr} {s t u : State} (h : startCycle a s = .ok () t) (hcfg : u.cfg = s.cfg)
    (hbus : u.busInputs = s.busInputs) : ∃ z, startCycle a u = .ok () z := by
  unfold startCycle busTurn at *
  rw [hcfg, hbus]
  split at h
  · exact ⟨u, rfl⟩
  · split at h
    · exact ⟨u, rfl⟩
    · exact busActions_answers h rfl

theorem cycleWrite_answers {a : PAddr} {v : Word} {s t u : State} (h : cycleWrite a v s = .ok () t) (w : Word)
    (hcfg : u.cfg = s.cfg) : ∃ z, cycleWrite a w u = .ok () z := by
  unfold cycleWrite slaveWrite at *
  rw [hcfg]
  split at h
  · exact ⟨_, rfl⟩
  · split at h
    · cases h
    · split at h
      · cases h
      · exact ⟨_, rfl⟩
      · split at h
        · next hreplies => exact ⟨u, if_pos hreplies⟩
        · cases h
      · exact ⟨_, rfl⟩

theorem physWrite_answers {a : PAddr} {v : Word} {s t u : State} (h : physWrite a v s = .ok () t) (w : Word)
    (hcfg : u.cfg = s.cfg) (hbus : u.busInputs = s.busInputs) : ∃ z, physWrite a w u = .ok () z := by
  obtain ⟨_, s', hs, hwrite⟩ := Res.bind_eq_ok.mp h
  obtain ⟨u', hu⟩ := startCycle_answers hs hcfg hbus
  obtain ⟨z, hz⟩ := cycleWrite_answers hwrite w ((startCycle_cfg hu).trans (hcfg.trans (startCycle_cfg hs).symm))
  exact ⟨z, Res.bind_eq_ok.mpr ⟨(), u', hu, hz⟩⟩

/-! ## The counter of the free values (log 17) -/

/-- The state with another value of the counter (log 17). -/
def State.withFree (s : State) (n : Nat) : State := { s with free := n }

theorem translateIn_withFree (user : Bool) (m : BitVec 2) (va : Word) (k : Access) (s : State) (n : Nat) :
    translateIn user m va k (s.withFree n) = (translateIn user m va k s).mapState (·.withFree n) := by
  have hpdr : pdrOf user (pageOf va) (s.withFree n) = pdrOf user (pageOf va) s := rfl
  unfold translateIn
  rw [hpdr]
  dsimp only
  split
  · rfl
  · cases k <;> cases user <;> rfl

theorem translate_withFree (m : BitVec 2) (va : Word) (k : Access) (s : State) (n : Nat) :
    translate m va k (s.withFree n) = (translate m va k s).mapState (·.withFree n) := by
  have hcfg : (s.withFree n).cfg = s.cfg := rfl
  have hon : (s.withFree n).relocating = s.relocating := rfl
  unfold translate
  rw [hon, hcfg]
  split
  · cases pageSetOf s.cfg.reservedMode m
    case kernel => exact translateIn_withFree false m va k s n
    case user => exact translateIn_withFree true m va k s n
    case missing => rfl
    case refused => rfl
  · rfl

theorem noteStack_withFree (s : State) (n : Nat) (v : Word) : (s.withFree n).noteStack v = (s.noteStack v).withFree n := by
  have hkernel : (s.withFree n).isKernel = s.isKernel := rfl
  unfold State.noteStack
  rw [hkernel]
  split <;> rfl

theorem pushed_withFree (s : State) (n : Nat) : pushed (s.withFree n) = (pushed s).withFree n := by
  have hsp : (s.withFree n).reg .r6 = s.reg .r6 := rfl
  have hset : (s.withFree n).setReg .r6 (s.reg .r6 - 2) = (s.setReg .r6 (s.reg .r6 - 2)).withFree n :=
    State.setReg_withFree s n .r6 _
  unfold pushed
  rw [hsp, hset, noteStack_withFree]

/-- A push of one word that is answered is answered for every word and every counter of the free values. -/
theorem push_answers {v : Word} {s t : State} (h : push v s = .ok () t) (w : Word) (n : Nat) :
    ∃ z, push w (s.withFree n) = .ok () z := by
  obtain ⟨a, u, ha, hwrite⟩ := push_eq_ok.mp h
  obtain ⟨z, hz⟩ := physWrite_answers (u := u.withFree n) hwrite w rfl rfl
  refine ⟨z, push_eq_ok.mpr ⟨a, _, ?_, hz⟩⟩
  rw [pushed_withFree, translate_withFree]
  exact congrArg (Res.mapState (·.withFree n)) ha

/-! ## SOB (R340) -/

theorem exec_sob (r : Reg) (nn : BitVec 6) (s : State) :
    let t := s.setReg r (s.reg r - 1)
    exec (.sob r nn) s = .next (if t.reg r = 0 then t else { t with pc := t.pc - 2 * nn.setWidth 16 }) := by
  dsimp only
  rw [State.setReg_reg, apply_ite Host.Outcome.next]
  rfl

/-! ## Jumps (R222, R350, R351) -/

theorem jumpTarget_reg {o : Operand} (h : o.mode = .reg) (s : State) : jumpTarget o s = .trap .illegalInstruction s := by
  simp only [jumpTarget, h]

theorem jumpTarget_mem {o : Operand} (h : o.mode ≠ .reg) {s t : State} {va : Word} (hl : locate 2 o s = .ok (.mem va) t) :
    jumpTarget o s = .ok va t := by
  unfold jumpTarget
  split
  · next hreg => exact absurd hreg h
  · rw [hl]; rfl

theorem linkWord_r6 (s : State) : linkWord .r6 s = .ok (Config.freeWord s.free) { s with free := s.free + 1 } := rfl

theorem linkWord_of_ne {r : Reg} (h : r ≠ .r6) (s : State) : linkWord r s = .ok (s.reg r) s := if_neg h

/-- The link word is the link register, or free for R6 (D37), and its push is answered where that of any word is. -/
theorem linkWord_pushes (r : Reg) {v : Word} {s t : State} (h : push v s = .ok () t) :
    ∃ w s' u, linkWord r s = .ok w s' ∧ (r ≠ .r6 → w = s.reg r) ∧
      s' = (if r = .r6 then { s with free := s.free + 1 } else s) ∧ push w s' = .ok () u := by
  by_cases hr : r = .r6
  · subst hr
    obtain ⟨u, hu⟩ := push_answers h (Config.freeWord s.free) (s.free + 1)
    exact ⟨_, _, u, linkWord_r6 s, fun hne => absurd rfl hne, (if_pos rfl).symm, hu⟩
  · obtain ⟨u, hu⟩ := push_answers h (s.reg r) s.free
    exact ⟨_, _, u, linkWord_of_ne hr s, fun _ => rfl, (if_neg hr).symm, hu⟩

section
variable {o : Operand} {s t : State} {va : Word}

theorem exec_jmp_mem (h : o.mode ≠ .reg) (hl : locate 2 o s = .ok (.mem va) t) :
    exec (.jmp o) s = .next { t with pc := va } :=
  congrArg (fun y : Res Word => finish (y.bind fun va s => .ok () { s with pc := va })) (jumpTarget_mem h hl)

theorem exec_jsr_mem {r : Reg} {w : Word} {s' u : State} (h : o.mode ≠ .reg) (hl : locate 2 o s = .ok (.mem va) t)
    (hw : linkWord r t = .ok w s') (hu : push w s' = .ok () u) :
    exec (.jsr r o) s = .next { u.setReg r u.pc with pc := va } := by
  show execJsr r o s = _
  simp only [execJsr, jumpTarget_mem h hl, hw, hu, Res.bind_ok, finish_ok]

theorem exec_jmp_reg (h : o.mode = .reg) : exec (.jmp o) s = enterTrap .illegalInstruction s := by
  show execJmp o s = _
  simp only [execJmp, jumpTarget_reg h, Res.bind_trap, finish_trap]

theorem exec_jsr_reg (r : Reg) (h : o.mode = .reg) : exec (.jsr r o) s = enterTrap .illegalInstruction s := by
  show execJsr r o s = _
  simp only [execJsr, jumpTarget_reg h, Res.bind_trap, finish_trap]

end

/-! ## RTS and MARK (R352, R353) -/

theorem exec_rts_of_pop {r : Reg} {s u : State} {v : Word} (h : pop { s with pc := s.reg r } = .ok v u) :
    exec (.rts r) s = .next (u.setReg r v) :=
  congrArg (fun y : Res Word => finish (y.bind fun v s => .ok () (s.setReg r v))) h

theorem exec_mark_of_pop {nn : BitVec 6} {s u : State} {v : Word}
    (h : pop { s.setReg .r6 (s.pc + 2 * nn.setWidth 16) with pc := s.r5 } = .ok v u) :
    exec (.mark nn) s = .next { u with r5 := v } := by
  have hr5 : (s.setReg .r6 (s.pc + 2 * nn.setWidth 16)).r5 = s.r5 := State.setReg_reg_ne (q := .r5) s _ (by decide)
  rw [← hr5] at h
  exact congrArg (fun y : Res Word => finish (y.bind fun v s => .ok () { s with r5 := v })) h

/-! ## The obligation -/

/-- Settles O41: each instruction by its rule; JSR's push is answered because that of 0 is. -/
theorem jumpsAndSubroutines : Obligations.JumpsAndSubroutines := by
  refine ⟨fun r nn s => ?sob, fun r o s => ⟨fun va t => exec_jmp_mem, fun va t z hm hl hz => ?jsr, fun hm => ?illegal⟩,
    fun r s v u => exec_rts_of_pop, fun nn s v u h => ?mark⟩
  case sob =>
    have hdec : BitVec.ofInt 16 ((s.reg r).toNat - 1) = s.reg r - 1 := ofInt_toNat_sub (s.reg r) 1
    simp only [hdec, ← backwardTarget_eq]
    exact exec_sob r nn s
  case jsr =>
    obtain ⟨w, s', u, hw, hlink, rfl, hu⟩ := linkWord_pushes r hz
    exact ⟨w, u, hlink, hu, exec_jsr_mem hm hl hw hu⟩
  case illegal => exact ⟨exec_jmp_reg hm, exec_jsr_reg r hm, rfl⟩
  case mark =>
    rw [← forwardTarget_eq] at h
    exact exec_mark_of_pop h

end Sys2Proof.Machine
end

section
/-! PROOFS. What JMP, JSR, RTS and MARK change (spec/44_jump_subroutine.md R350 to R353): each frame is composed from those of the
specifier, the push or the pop, and the register written last; the counter of the free values, which JSR through R6 steps, does not
move the place of the push. -/

namespace Sys2Proof.Machine

open Sys2Proof.Spec

/-! ## What is allowed -/

theorem Allow.word_wordBytes (w : Allow) (m : BitVec 2) (a : PAddr) {b : Nat} (hb : wordBytes a b = true) :
    (w.word m (.phys a)).byte b = true := by
  simp [Allow.word, hb]

/-- What is allowed in the mode of the start is allowed in the mode reached, if the allowance leaves the PS. -/
theorem Frame.permits {w : Allow} {s t : State} {r : Reg} (h : Frame w s t) (hps : w.ps = 0) (hr : w.permits s.mode r) :
    w.permits t.mode r := by
  rwa [h.mode_eq hps]

/-! ## Pushes -/

/-- Counting up the free values does not move the place of a push. -/
theorem pushPlace_withFree {s : State} {a : PAddr} (h : pushPlace s a) (n : Nat) : pushPlace (s.withFree n) a := by
  obtain ⟨y, hy⟩ := h
  refine ⟨y.withFree n, ?_⟩
  show translate s.mode (s.reg .r6 - 2) .write (pushed (s.withFree n)) = _
  rw [pushed_withFree, translate_withFree]
  exact congrArg (Res.mapState (·.withFree n)) hy

/-- A push to memory changes the current stack pointer and the word at its place. -/
theorem push_frame {w : Allow} {s t : State} {v : Word} {a : PAddr} (h : push v s = .ok () t) (hplace : pushPlace s a)
    (hplain : (Place.phys a).plain s.cfg) (hsp : w.permits s.mode .r6) (hw : ∀ b, wordBytes a b = true → w.byte b = true) :
    Frame w s t := by
  obtain ⟨a', u, ha, hwrite⟩ := push_eq_ok.mp h
  obtain ⟨y, hy⟩ := hplace
  obtain ⟨rfl, rfl⟩ : a' = a ∧ u = y := Res.ok.inj (ha.symm.trans hy)
  have hu : Frame w s u := (pushed_frame hsp).trans (translate_frame ha)
  exact hu.trans (physWrite_frame hwrite (hu.cfg_eq ▸ hplain) hw)

/-! ## Subroutine calls (R351) -/

/-- What JSR may change takes in the specifier's register, the stack pointer, the link register and the word pushed. -/
theorem jsrAllow_permits (s : State) (o : Operand) (r : Reg) (a : PAddr) :
    let w := (((touching s o).reg s.mode .r6).reg s.mode r).word s.mode (.phys a)
    w.permits s.mode o.reg ∧ w.permits s.mode .r6 ∧ w.permits s.mode r ∧ ∀ b, wordBytes a b = true → w.byte b = true := by
  have hsp := Allow.le_reg (touching s o) s.mode .r6
  have hlink := Allow.le_reg ((touching s o).reg s.mode .r6) s.mode r
  have hword := Allow.le_word (((touching s o).reg s.mode .r6).reg s.mode r) s.mode (.phys a)
  exact ⟨((hsp.trans hlink).trans hword).permits (touching_permits s o),
    (hlink.trans hword).permits (Allow.permits_reg _ _ _), hword.permits (Allow.permits_reg _ _ _),
    fun _ => Allow.word_wordBytes _ _ _⟩

/-- JSR's push: the link word, after a step of the counter of the free values when R6 is the link (D37). -/
theorem linkPush_frame {w : Allow} {r : Reg} {t s' u : State} {x : Word} {a : PAddr}
    (hs' : s' = if r = .r6 then { t with free := t.free + 1 } else t) (hu : push x s' = .ok () u) (hplace : pushPlace t a)
    (hplain : (Place.phys a).plain t.cfg) (hsp : w.permits t.mode .r6) (hw : ∀ b, wordBytes a b = true → w.byte b = true) :
    Frame w t u := by
  have hfree : ∃ n, s' = t.withFree n := by
    rw [hs']
    split
    · exact ⟨t.free + 1, rfl⟩
    · exact ⟨t.free, rfl⟩
  obtain ⟨n, rfl⟩ := hfree
  exact (Frame.withFree w t n).trans (push_frame hu (pushPlace_withFree hplace n) hplain hsp hw)

/-! ## Returns (R352, R353) -/

theorem returnAllow_permits_sp (m : BitVec 2) (r : Reg) : ((Allow.nothing.reg m .r6).reg m r).permits m .r6 :=
  (Allow.le_reg _ _ _).permits (Allow.permits_reg _ _ _)

/-- RTS and MARK end with a pop into a register. -/
theorem popInto_frame {r : Reg} {s t u : State} {x : Word} (ht : Frame ((Allow.nothing.reg s.mode .r6).reg s.mode r) s t)
    (h : pop t = .ok x u) : Frame ((Allow.nothing.reg s.mode .r6).reg s.mode r) s (u.setReg r x) := by
  have hu := ht.trans (pop_frame h (ht.permits rfl (returnAllow_permits_sp s.mode r)))
  exact hu.trans (Frame.setReg x (hu.permits rfl (Allow.permits_reg _ _ _)))

/-! ## The obligation -/

/-- Settles O42: the changes of the push, or of the pop, and of the register written last are added to those made before. -/
theorem subroutineFrame : Obligations.SubroutineFrame := by
  refine ⟨fun o s va t v hm hl hv => ?jmp, fun r o s va t z v a hm hl hz hplace hplain hv => ?jsr,
    fun r s x u v h hv => ?rts, fun nn s x u v h hv => ?mark⟩
  case jmp =>
    cases (exec_jmp_mem hm hl).symm.trans hv
    exact (locate_frame hl (touching_permits s o)).trans (Frame.pc _ t va)
  case jsr =>
    obtain ⟨x, s', u, hx, -, hs', hu⟩ := linkWord_pushes r hz
    cases (exec_jsr_mem hm hl hx hu).symm.trans hv
    obtain ⟨ho, hsp, hr, hw⟩ := jsrAllow_permits s o r a
    have ht := locate_frame hl ho
    have hpushed := ht.trans (linkPush_frame hs' hu hplace (ht.cfg_eq ▸ hplain) (ht.permits rfl hsp) hw)
    have hlinked := hpushed.trans (Frame.setReg u.pc (hpushed.permits rfl hr))
    exact hlinked.trans (Frame.pc _ _ va)
  case rts =>
    cases (exec_rts_of_pop h).symm.trans hv
    exact popInto_frame (Frame.pc _ s (s.reg r)) h
  case mark =>
    rw [← forwardTarget_eq] at h
    cases (exec_mark_of_pop h).symm.trans hv
    have hset := Frame.setReg (s.pc + 2 * nn.setWidth 16) (returnAllow_permits_sp s.mode .r5)
    exact popInto_frame (r := .r5) (hset.trans (Frame.pc _ _ s.r5)) h

end Sys2Proof.Machine
end

section
/-! PROOFS. The trap instructions and the returns from a trap (spec/45_traps_misc.md R370 to R377, spec/60_exceptions.md R560):
the status words that a sequence and a return load, bit by bit and under masks; then the instructions, each by the one operation
that it calls. -/

namespace Sys2Proof.Machine

open Sys2Proof.Spec

/-! ## The status word of a trap sequence (R560) -/

/-- Where the fields of a trap sequence's status word come from: the previous mode from the old word, bits 11:9 from neither. -/
theorem getLsbD_trapPs (old vec : Word) {k : Nat} (hk : k < 16) :
    (trapPs old vec).getLsbD k =
      if 12 ≤ k ∧ k < 14 then old.getLsbD (2 + k) else if 9 ≤ k ∧ k < 12 then false else vec.getLsbD k := by
  have mask : ∀ j : Fin 16,
      (0o140777#16).getLsbD j.val = (!decide (12 ≤ j.val ∧ j.val < 14) && !decide (9 ≤ j.val ∧ j.val < 12)) ∧
      (0o140000#16).getLsbD (2 + j.val) = decide (12 ≤ j.val ∧ j.val < 14) := by decide
  obtain ⟨hvec, hold⟩ := mask ⟨k, hk⟩
  simp only [trapPs, BitVec.getLsbD_or, BitVec.getLsbD_ushiftRight, BitVec.getLsbD_and, hvec, hold]
  by_cases hprev : 12 ≤ k ∧ k < 14
  · simp [hprev]
  · by_cases hzero : 9 ≤ k ∧ k < 12
    · simp [hprev, hzero]
    · rw [if_neg hprev, if_neg hzero, decide_eq_false hprev, decide_eq_false hzero]
      simp

/-- Equal fields have equal bits. -/
theorem getLsbD_of_extractLsb'_eq {a b : Word} {p q n : Nat} (h : a.extractLsb' p n = b.extractLsb' q n) {i : Nat} (hi : i < n) :
    a.getLsbD (p + i) = b.getLsbD (q + i) := by
  have hbit := congrArg (BitVec.getLsbD · i) h
  simpa only [BitVec.getLsbD_extractLsb', hi, decide_true, Bool.true_and] using hbit

/-- The four fields of R560 determine the status word. -/
theorem eq_trapPs_of_fields {ps old vec : Word} (hmode : ps.extractLsb' 14 2 = vec.extractLsb' 14 2)
    (hprev : ps.extractLsb' 12 2 = old.extractLsb' 14 2) (hzero : ps.extractLsb' 9 3 = (0 : BitVec 3))
    (hlow : ps.extractLsb' 0 9 = vec.extractLsb' 0 9) : ps = trapPs old vec := by
  have hzero' : ps.extractLsb' 9 3 = (0 : Word).extractLsb' 9 3 := hzero
  apply BitVec.eq_of_getLsbD_eq
  intro k hk
  rw [getLsbD_trapPs old vec hk]
  split
  · next h =>
    have hbit := getLsbD_of_extractLsb'_eq hprev (i := k - 12) (by omega)
    rwa [show 12 + (k - 12) = k by omega, show 14 + (k - 12) = 2 + k by omega] at hbit
  · split
    · have hbit := getLsbD_of_extractLsb'_eq hzero' (i := k - 9) (by omega)
      rwa [show 9 + (k - 9) = k by omega, show (0 : Word).getLsbD k = false from BitVec.getLsbD_zero] at hbit
    · rcases Nat.lt_or_ge k 14 with h14 | h14
      · have hbit := getLsbD_of_extractLsb'_eq hlow (i := k) (by omega)
        rwa [Nat.zero_add] at hbit
      · have hbit := getLsbD_of_extractLsb'_eq hmode (i := k - 14) (by omega)
        rwa [show 14 + (k - 14) = k by omega] at hbit

/-- The model's sequence is that of R560, but for the two causes whose pushes put the mark of a stack overflow back (R552,
R562). -/
theorem enterTrap_of_trapTaken {c : Trap} {s t : State} (hoverflow : c ≠ .stackOverflow) (hdouble : c ≠ .doubleTimeout)
    (h : trapTaken c s t) : enterTrap c s = .next t := by
  obtain ⟨nps, npc, s1, s2, s3, s4, ps, hnps, hnpc, ⟨hmode, hprev, hzero, hlow⟩, hpushPs, hpushPc, rfl⟩ := h
  cases eq_trapPs_of_fields hmode hprev hzero hlow
  exact enterTrap_ok hoverflow hdouble hnps hnpc hpushPs hpushPc

/-! ## The trap instructions (R370 to R374, R189) -/

theorem exec_of_trapsBy {i : Instr} {c : Trap} (h : trapsBy i = some c) (s : State) : exec i s = enterTrap c s := by
  unfold trapsBy at h
  split at h <;> cases h <;> rfl

/-- The causes that an instruction's own effect can have. -/
theorem mem_causes_of_trapsBy {i : Instr} {c : Trap} (h : trapsBy i = some c) :
    c ∈ [Trap.emt, .trap, .bpt, .iot, .reservedInstruction] := by
  unfold trapsBy at h
  split at h <;> cases h <;> decide

/-- Settles O23: the instruction's effect is the sequence, and none of the five causes is one that spares the stack's mark. -/
theorem trapInstructions : Obligations.TrapInstructions := by
  intro i c s t hi ht
  have hc := mem_causes_of_trapsBy hi
  refine ⟨?_, ?vector⟩
  · rw [exec_of_trapsBy hi]
    refine enterTrap_of_trapTaken ?_ ?_ ht
    · rintro rfl; exact absurd hc (by decide)
    · rintro rfl; exact absurd hc (by decide)
  case vector =>
    simp only [List.mem_cons, List.not_mem_nil, or_false] at hc
    rcases hc with rfl | rfl | rfl | rfl | rfl <;> rfl

/-! ## The status word of a return (R39, R376) -/

/-- Of two masked words, a mask that the first lies outside of sees the second alone. -/
theorem masked_or_masked_and {a b k m : Word} (h : k &&& m = 0) : (a &&& k ||| b &&& m) &&& m = b &&& m := by
  rw [BitVec.or_comm, or_and_of_disjoint (masked_zero h), BitVec.and_assoc, BitVec.and_self]

theorem returnPs_kernel (old new : Word) : returnPs true old new = new &&& 0o170777 := rfl

/-- Outside kernel mode a return loads the codes, T and SI, and keeps the modes and the priority. -/
theorem returnPs_protected (old new : Word) :
    returnPs false old new &&& 0o437 = new &&& 0o437 ∧ returnPs false old new &&& 0o170340 = old &&& 0o170340 := by
  refine ⟨masked_or_masked_and (by decide), ?_⟩
  show ((old &&& 0o170340#16) ||| (new &&& 0o437#16)) &&& 0o170340#16 = _
  rw [BitVec.or_comm]
  exact masked_or_masked_and (by decide)

theorem isKernel_eq_true {s : State} (h : s.mode = 0) : s.isKernel = true := beq_iff_eq.mpr h

theorem isKernel_eq_false {s : State} (h : s.mode ≠ 0) : s.isKernel = false := beq_eq_false_iff_ne.mpr h

/-! ## RTI and RTT (R376, R377) -/

/-- An instruction to which the whole PS is open may load it. -/
theorem Frame.loadPs {w : Allow} (hw : ~~~w.ps = 0) (s : State) (v : Word) : Frame w s { s with ps := v } :=
  { Frame.refl w s with
    gen := fun r h6 _ _ => by cases r <;> first | rfl | exact absurd rfl h6
    ps := by rw [hw]; exact BitVec.and_zero.trans BitVec.and_zero.symm }

/-- What a return changes besides R7: the stack pointer in force before it, and the PS. -/
def returnAllow (m : BitVec 2) : Allow := { Allow.nothing.reg m .r6 with ps := 0o177777 }

theorem returnAllow_sp (m : BitVec 2) : (returnAllow m).sp m = true := Allow.permits_reg Allow.nothing m .r6

theorem pop_mode {s t : State} {v : Word} (h : pop s = .ok v t) : t.mode = s.mode :=
  (pop_frame (w := Allow.nothing.reg s.mode .r6) h (Allow.permits_reg _ _ .r6)).mode_eq rfl

section
variable {s s1 s2 : State} {npc nps : Word} (hpc : pop s = .ok npc s1) (hps : pop s1 = .ok nps s2)
include hpc hps

/-- The two pops use the same stack pointer. -/
theorem pops_frame {w : Allow} (hsp : w.sp s.mode = true) : Frame w s s2 :=
  (pop_frame hpc hsp).trans (pop_frame hps (pop_mode hpc ▸ hsp))

/-- The pops leave the PS, so that the protection is that of the mode in force before. -/
theorem pops_ps : s2.ps = s.ps :=
  (pops_frame (w := Allow.nothing.reg s.mode .r6) hpc hps (Allow.permits_reg _ _ .r6)).ps_eq rfl

theorem returnFromTrap_of_pops :
    returnFromTrap s = .ok () { s2 with pc := npc, ps := returnPs s.isKernel s.ps nps } := by
  have hold := pops_ps hpc hps
  have hkernel : s2.isKernel = s.isKernel := by simp only [State.isKernel, State.mode, hold]
  simp only [returnFromTrap, hpc, hps, Res.bind_ok, hold, hkernel]

theorem exec_rti_of_pops : exec .rti s = .next { s2 with pc := npc, ps := returnPs s.isKernel s.ps nps } :=
  congrArg finish (returnFromTrap_of_pops hpc hps)

theorem exec_rtt_of_pops :
    exec .rtt s = .next { s2 with pc := npc, ps := returnPs s.isKernel s.ps nps, inhibitT := true } :=
  congrArg (fun x : Res Unit => finish (x.bind fun _ s => .ok () { s with inhibitT := true })) (returnFromTrap_of_pops hpc hps)

theorem return_frame (ps : Word) : Frame (returnAllow s.mode) s { s2 with pc := npc, ps := ps } :=
  (pops_frame hpc hps (returnAllow_sp s.mode)).trans
    ((Frame.pc _ s2 npc).trans (Frame.loadPs (by simp only [returnAllow]; decide) _ ps))

end

end Sys2Proof.Machine

namespace Sys2Proof

open Sys2Proof.Machine

/-- Settles O43: the returned PS by the mode in force before the pops. (In `Machine` this name is the model's operation.) -/
theorem returnFromTrap : Obligations.ReturnFromTrap := by
  intro s s1 s2 npc nps hpc hps
  refine ⟨returnPs s.isKernel s.ps nps, ?_, exec_rti_of_pops hpc hps, exec_rtt_of_pops hpc hps, return_frame hpc hps _⟩
  split
  · next hmode => rw [isKernel_eq_true hmode]; exact returnPs_kernel s.ps nps
  · next hmode =>
    rw [isKernel_eq_false hmode]
    obtain ⟨hloaded, hkept⟩ := returnPs_protected s.ps nps
    exact ⟨hloaded, hkept, returnPs_zero false s.ps nps⟩

end Sys2Proof
end

section
/-! PROOFS. HALT, WAIT and RESET (spec/45_traps_misc.md R380 to R382, spec/70_reset_and_hazards.md R668, R670): one equation for each
case of each instruction, and the step that follows a HALT without power and a WAIT. -/

namespace Sys2Proof.Machine

/-! ## The step, nobody disturbing it (R542) -/

section
variable {s : State} (hinputs : s.inputs = []) (hbus : s.bdmr = false)
include hinputs hbus

/-- After a HALT that found BPOK negated: the clears of power-up, and the wait for power (R668). -/
theorem step_haltPowerTest (hrun : s.run = .haltPowerTest) : step s = .next (powerClear s) := by
  simp only [step, machineStep, hinputs, cpuStep, hbus, hrun, Bool.false_eq_true, if_false]

/-- While a WAIT idles, the processor looks for a service condition only (R381; D30). -/
theorem step_wait (hrun : s.run = .wait) : step s = if arbitrate s = .idle then .next s else serviceState s := by
  simp only [step, machineStep, hinputs, cpuStep, hbus, hrun, Bool.false_eq_true, if_false, afterInstr]

end

/-! ## HALT (R380) -/

section
variable {s : State}

theorem exec_halt_protected (hmode : s.mode ≠ 0) : exec .halt s = enterTrap .reservedInstruction s := by
  show execHalt s = _
  simp [execHalt, isKernel_eq_false hmode]

/-- The rest of HALT, in kernel mode. -/
theorem exec_halt_kernel (hmode : s.mode = 0) :
    exec .halt s = if s.bpok = false then .next { s with run := .haltPowerTest }
      else if s.cfg.w7HaltTraps = true then enterTrap .reservedInstruction s else .next (odtEnter s) := by
  show execHalt s = _
  simp [execHalt, isKernel_eq_true hmode]

end

/-- Settles O44: the cases of HALT, and the step that follows the one without power. -/
theorem haltResult : Obligations.HaltResult := by
  intro s
  split
  · next hmode => exact exec_halt_protected hmode
  · next hmode =>
    rw [exec_halt_kernel (not_not.mp hmode)]
    split
    · refine ⟨rfl, ?_⟩
      rintro t rfl
      exact ⟨_, step_haltPowerTest rfl rfl rfl, rfl, rfl, rfl, rfl, rfl, rfl, rfl, rfl, rfl, rfl, rfl⟩
    · split <;> rfl

/-! ## WAIT and RESET (R381, R382, R670) -/

theorem exec_reset_protected {s : State} (hmode : s.mode ≠ 0) : exec .reset s = .next s := by
  show execReset s = _
  simp [execReset, isKernel_eq_false hmode]

theorem exec_reset_kernel {s : State} (hmode : s.mode = 0) : exec .reset s = .next (clearMmuStatus (busInit s)) := by
  show execReset s = _
  simp [execReset, isKernel_eq_true hmode]

/-- Only SR0 and SR3 change, and only where there is an MMU (R51). -/
theorem clearMmuStatus_eq (s : State) :
    clearMmuStatus s = { s with sr0 := if s.cfg.hasMmu then 0 else s.sr0, sr3 := if s.cfg.hasMmu then 0 else s.sr3 } := by
  unfold clearMmuStatus
  split <;> rfl

/-- Settles O45: an idling WAIT's step by what the arbitration finds, RESET by the mode. -/
theorem waitAndReset : Obligations.WaitAndReset := by
  intro s
  refine ⟨rfl, fun hrun hinputs hbus => ?wait, exec_reset_protected, fun hmode => ?reset⟩
  case wait =>
    rw [step_wait hinputs hbus hrun]
    exact ⟨fun hidle => if_pos hidle, fun hservice => if_neg hservice⟩
  case reset =>
    have hreset := exec_reset_kernel hmode
    rw [clearMmuStatus_eq] at hreset
    exact ⟨_, hreset, rfl, rfl, rfl, rfl, rfl, rfl, fun hmmu => ⟨if_pos hmmu, if_pos hmmu⟩,
      fun hmmu => ⟨if_neg (by simp [busInit, hmmu]), if_neg (by simp [busInit, hmmu])⟩⟩

end Sys2Proof.Machine
end

section
/-! PROOFS. The condition code operators and the moves of the processor status (spec/46_cc_ps_mm.md R400 to R412): an operator works
on four bits at once, of which each is the rule's; MTPS is a choice among three words, bit by bit. -/

namespace Sys2Proof.Machine

open Sys2Proof.Spec

/-! ## The condition code operators (R400 to R403) -/

theorem exec_codeOperator {i : Instr} {t : Bool} {m : CC} (h : codeOperator i = some (t, m)) (s : State) :
    exec i s = condOp t m.bits s := by
  unfold codeOperator at h
  split at h <;> cases h <;> rfl

theorem CC.getLsbD_bits (x : CC) :
    x.bits.getLsbD 3 = x.n ∧ x.bits.getLsbD 2 = x.z ∧ x.bits.getLsbD 1 = x.v ∧ x.bits.getLsbD 0 = x.c := by
  obtain ⟨n, z, v, c⟩ := x
  revert n z v c
  decide

/-- Each code is set or cleared where its bit of the mask is 1. -/
theorem ccOf_condOp (t : Bool) (m x : CC) :
    ccOf (if t then x.bits ||| m.bits else x.bits &&& ~~~m.bits) =
      ⟨if m.n then t else x.n, if m.z then t else x.z, if m.v then t else x.v, if m.c then t else x.c⟩ := by
  obtain ⟨mn, mz, mv, mc⟩ := m.getLsbD_bits
  obtain ⟨xn, xz, xv, xc⟩ := x.getLsbD_bits
  have hset : ∀ a b : Bool, (a || b) = if b then true else a := by decide
  have hclear : ∀ a b : Bool, (a && !b) = if b then false else a := by decide
  cases t with
  | false =>
    simp only [ccOf, Bool.false_eq_true, if_false, BitVec.getLsbD_and, BitVec.getLsbD_not, mn, mz, mv, mc, xn, xz, xv, xc,
      Nat.reduceLT, decide_true, Bool.true_and]
    simp only [hclear]
  | true => simp only [ccOf, if_true, BitVec.getLsbD_or, mn, mz, mv, mc, xn, xz, xv, xc, hset]

/-- The word of an operator, and that it decodes to its base spelling, by the rows of the table. -/
theorem codeOperator_word {i : Instr} {t : Bool} {m : CC} (h : codeOperator i = some (t, m)) :
    (encode i).toNat = 0o240 + 16 * bitNat t + 8 * bitNat m.n + 4 * bitNat m.z + 2 * bitNat m.v + bitNat m.c ∧
      i.wellFormed = true := by
  rw [toNat_encode]
  unfold codeOperator at h
  split at h <;> cases h
  case h_12 => exact ⟨by simp only [Instr.encodeNat]; omega, rfl⟩
  all_goals exact ⟨rfl, rfl⟩

/-- Settles O46: the operator's bits, one by one. -/
theorem conditionCodeOperators : Obligations.ConditionCodeOperators := by
  intro i t m s h
  obtain ⟨hword, hwf⟩ := codeOperator_word h
  refine ⟨hword, decodeInvertsEncode i hwf, ?_⟩
  rw [exec_codeOperator h, condOp, ccOf_condOp]

/-! ## MFPS and MTPS (R411, R412) -/

/-- When the destination's place is reached, MFPS has only its byte to store, after the codes. -/
theorem exec_mfps_of_place {o : Operand} {s t v : State} {p : Place} (h : bytePlace .write o s = .ok p t)
    (hv : writePlaceByteExt p (s.ps.setWidth 8) (t.setCC (codesOf (s.ps.setWidth 8) false s.cc.c)) = .ok () v) :
    exec (.mfps o) s = .next v := by
  obtain ⟨l, z, hl, hp⟩ := Res.bind_eq_ok.mp h
  have hcc : z.cc = s.cc := State.cc_of_ps (locate_ps hl)
  show finish ((locate 1 o s).bind _) = _
  rw [hl, Res.bind_ok, hcc, ccNZ_eq_codesOf, commit_ok, finish_ok]
  simp only [storeByteExtAt, placeOf_setCC, hp, Res.mapState, Res.bind_ok]
  exact hv

/-- The bits that MTPS takes from the operand: the codes, and in kernel mode the priority. -/
theorem getLsbD_mtpsPs (kernel : Bool) (old : Word) (v : Byte) {k : Nat} (hk : k < 16) :
    (mtpsPs kernel old v).getLsbD k =
      if k < 4 ∨ (kernel = true ∧ 5 ≤ k ∧ k < 8) then v.getLsbD k else old.getLsbD k := by
  have masks : ∀ j : Fin 16,
      (0o177420#16).getLsbD j.val = !decide (j.val < 4 ∨ 5 ≤ j.val ∧ j.val < 8) ∧
      (0o357#16).getLsbD j.val = decide (j.val < 4 ∨ 5 ≤ j.val ∧ j.val < 8) ∧
      (0o177760#16).getLsbD j.val = !decide (j.val < 4) ∧ (0o17#16).getLsbD j.val = decide (j.val < 4) := by decide
  obtain ⟨hkeep, htake, hkeep', htake'⟩ := masks ⟨k, hk⟩
  cases kernel with
  | true =>
    simp only [mtpsPs, if_true, BitVec.getLsbD_or, BitVec.getLsbD_and, BitVec.getLsbD_setWidth, hkeep, htake, hk, true_and]
    by_cases h : k < 4 ∨ 5 ≤ k ∧ k < 8 <;> simp [h]
  | false =>
    simp only [mtpsPs, Bool.false_eq_true, if_false, BitVec.getLsbD_or, BitVec.getLsbD_and, BitVec.getLsbD_setWidth, hkeep',
      htake', hk, false_and, or_false]
    by_cases h : k < 4 <;> simp [h]

theorem exec_mtps_of_load {o : Operand} {s t : State} {x : Byte} (h : loadByte o s = .ok x t) :
    exec (.mtps o) s = .next { t with ps := mtpsPs s.isKernel s.ps x } := by
  have hps := loadByte_ps h
  have hkernel : t.isKernel = s.isKernel := by simp only [State.isKernel, State.mode, hps]
  show finish ((loadByte o s).bind _) = _
  rw [h, Res.bind_ok, finish_ok, hps, hkernel]

/-- Settles O47: MFPS stores at its place after the codes; the PS after MTPS, bit by bit. -/
theorem processorStatusMoves : Obligations.ProcessorStatusMoves := by
  refine ⟨fun _ => rfl, fun o s r t h => exec_mfps_of_place h rfl, fun o s a t v h hv => exec_mfps_of_place h hv,
    fun o s t x h => ⟨_, exec_mtps_of_load h, ?codes, ?priority, ?kept⟩⟩
  case codes =>
    intro k hk
    rw [getLsbD_mtpsPs _ _ _ (by omega), if_pos (.inl hk)]
  case priority =>
    intro k hlo hhi
    rw [getLsbD_mtpsPs _ _ _ (by omega)]
    by_cases hmode : s.mode = 0
    · rw [isKernel_eq_true hmode, if_pos (.inr ⟨rfl, hlo, hhi⟩), if_pos hmode]
    · rw [isKernel_eq_false hmode, if_neg (by simp; omega), if_neg hmode]
  case kept =>
    intro k hk
    rcases Nat.lt_or_ge k 16 with h16 | h16
    · rw [getLsbD_mtpsPs _ _ _ h16, if_neg (by omega)]
    · rw [BitVec.getLsbD_of_ge _ _ h16, BitVec.getLsbD_of_ge _ _ h16]

end Sys2Proof.Machine
end

section
/-! PROOFS. The moves to and from the previous space (spec/46_cc_ps_mm.md R414 to R417): the operand of MFPI and the destination of
MTPI, by the kind of their location; then what each of the moves and MFPS change, composed from the frames of the specifier, the
push or the pop, and the write. -/

namespace Sys2Proof.Machine

open Sys2Proof.Spec

/-! ## The previous mode (R35) -/

theorem State.prevMode_of_ps {s t : State} (h : t.ps = s.ps) : t.prevMode = s.prevMode := by
  simp only [State.prevMode, h]

theorem pop_ps {s t : State} {x : Word} (h : pop s = .ok x t) : t.ps = s.ps :=
  (pop_frame (w := Allow.nothing.reg s.mode .r6) h (Allow.permits_reg _ _ .r6)).ps_eq rfl

theorem locate_reg {o : Operand} (h : o.mode = .reg) (n : Nat) (s : State) : locate n o s = .ok (.reg o.reg) s := by
  simp only [locate, h]

/-- Register 6 is that of the previous mode, and no other register is banked (R414). -/
theorem readPrevious_reg (r : Reg) (s : State) :
    readPrevious (.reg r) s = .ok (if r = .r6 then s.spOf s.prevMode else s.reg r) s := by
  cases r <;> rfl

theorem writePrevious_reg (r : Reg) (x : Word) (s : State) :
    writePrevious (.reg r) x s = .ok () (if r = .r6 then s.setSpOf s.prevMode x else s.setReg r x) := by
  cases r <;> rfl

/-! ## The moves when their parts answer -/

section
variable {i : Instr} {o : Operand} {s : State}

theorem exec_movePrevious (hi : i = .mfpi o ∨ i = .mfpd o) : exec i s = finish (movePrevious o s) := by
  obtain rfl | rfl := hi <;> rfl

theorem exec_moveToPrevious (hi : i = .mtpi o ∨ i = .mtpd o) : exec i s = finish (moveToPrevious o s) := by
  obtain rfl | rfl := hi <;> rfl

/-- When the operand is read, MFPI has only its push to make, after the codes. -/
theorem movePrevious_ok {l : Loc} {t u v : State} {x : Word} (hl : locate 2 o s = .ok l t) (hx : readPrevious l t = .ok x u)
    (hps : u.ps = t.ps) (hv : push x (u.setCC (codesOf x false s.cc.c)) = .ok () v) : movePrevious o s = .ok () v := by
  have hcc : u.cc = s.cc := State.cc_of_ps (hps.trans (locate_ps hl))
  simp only [movePrevious, hl, hx, Res.bind_ok, hcc, ccNZ_eq_codesOf]
  exact commit_ok hv

theorem exec_mfpi_reg (hi : i = .mfpi o ∨ i = .mfpd o) (hm : o.mode = .reg) {v : State} {x : Word}
    (hx : x = if o.reg = .r6 then s.spOf s.prevMode else s.reg o.reg)
    (hv : push x (s.setCC (codesOf x false s.cc.c)) = .ok () v) : exec i s = .next v := by
  rw [exec_movePrevious hi, movePrevious_ok (locate_reg hm 2 s) (readPrevious_reg o.reg s) rfl (by rw [← hx]; exact hv),
    finish_ok]

theorem exec_mfpi_mem (hi : i = .mfpi o ∨ i = .mfpd o) {va x : Word} {t u v : State} (hl : locate 2 o s = .ok (.mem va) t)
    (hx : readWordMode s.prevMode va t = .ok x u) (hv : push x (u.setCC (codesOf x false s.cc.c)) = .ok () v) :
    exec i s = .next v := by
  have hread : readPrevious (.mem va) t = .ok x u := by
    rw [readPrevious, State.prevMode_of_ps (locate_ps hl)]
    exact hx
  have hps : u.ps = t.ps := (readWordMode_frame (w := Allow.nothing) hx).ps_eq rfl
  rw [exec_movePrevious hi, movePrevious_ok hl hread hps hv, finish_ok]

/-- When the word is popped and the destination evaluated, MTPI has only its store to make, after the codes. -/
theorem moveToPrevious_eq_commit {l : Loc} {s1 t : State} {x : Word} (hpop : pop s = .ok x s1) (hl : locate 2 o s1 = .ok l t) :
    moveToPrevious o s = commit (codesOf x false s.cc.c) (writePrevious l x) t := by
  have hcc : t.cc = s.cc := State.cc_of_ps ((locate_ps hl).trans (pop_ps hpop))
  simp only [moveToPrevious, hpop, hl, Res.bind_ok, hcc, ccNZ_eq_codesOf]

theorem exec_mtpi_reg (hi : i = .mtpi o ∨ i = .mtpd o) {s1 : State} {x : Word} (hpop : pop s = .ok x s1)
    (hm : o.mode = .reg) :
    exec i s = .next (if o.reg = .r6 then (s1.setCC (codesOf x false s.cc.c)).setSpOf s.prevMode x
      else (s1.setCC (codesOf x false s.cc.c)).setReg o.reg x) := by
  rw [exec_moveToPrevious hi, moveToPrevious_eq_commit hpop (locate_reg hm 2 s1), commit_ok (writePrevious_reg _ _ _),
    State.setCC_prevMode, State.prevMode_of_ps (pop_ps hpop), finish_ok]

/-- A destination in memory is written in the previous mode's space. -/
theorem writePrevious_mem {s1 t : State} {x : Word} (hpop : pop s = .ok x s1) {va : Word} {l : Loc}
    (hl : locate 2 o s1 = .ok l t) (cc : CC) :
    writePrevious (.mem va) x (t.setCC cc) = writeWordMode s.prevMode va x (t.setCC cc) := by
  rw [writePrevious, State.setCC_prevMode, State.prevMode_of_ps ((locate_ps hl).trans (pop_ps hpop))]

theorem exec_mtpi_mem (hi : i = .mtpi o ∨ i = .mtpd o) {s1 t v : State} {x va : Word} (hpop : pop s = .ok x s1)
    (hl : locate 2 o s1 = .ok (.mem va) t)
    (hv : writeWordMode s.prevMode va x (t.setCC (codesOf x false s.cc.c)) = .ok () v) : exec i s = .next v := by
  rw [exec_moveToPrevious hi, moveToPrevious_eq_commit hpop hl, commit_ok, finish_ok]
  rw [writePrevious_mem hpop hl]
  exact hv

end

/-- Settles O48: MFPI by the kind of its operand, MTPI by that of its destination. -/
theorem previousSpaceMoves : Obligations.PreviousSpaceMoves := by
  refine ⟨fun i o s hi => ⟨fun v hm hv => exec_mfpi_reg hi hm rfl hv, fun va t x u v hl hx hv => exec_mfpi_mem hi hl hx hv⟩,
    fun i o s s1 x hi hpop => ⟨fun hm hr => ?_, fun hm hr => ?_, fun va t v hl hv => exec_mtpi_mem hi hpop hl hv⟩⟩
  · rw [exec_mtpi_reg hi hpop hm, if_pos hr]
  · rw [exec_mtpi_reg hi hpop hm, if_neg hr]

/-! ## Writes to memory that replies -/

/-- Memory that replies to a write never makes it trap (R101). -/
theorem slaveWrite_plain {a : PAddr} {s : State} (hp : (Place.phys a).plain s.cfg) (v : Word) :
    ∃ t, cycleWrite a v s = .ok () t := by
  obtain ⟨hreg, r, hmap, hram | hrom⟩ := hp
  · exact ⟨_, by simp only [cycleWrite, hreg, slaveWrite, hmap, hram]; rfl⟩
  · exact ⟨_, by simp only [cycleWrite, hreg, slaveWrite, hmap, hrom, if_true]; rfl⟩

theorem slaveWriteByte_plain {a : PAddr} {s : State} (hp : (Place.phys a).plain s.cfg) (v : Byte) :
    ∃ t, cycleWriteByte a v s = .ok () t := by
  obtain ⟨hreg, r, hmap, hram | hrom⟩ := hp
  · exact ⟨_, by simp only [cycleWriteByte, hreg, slaveWriteByte, hmap, hram]; rfl⟩
  · exact ⟨_, by simp only [cycleWriteByte, hreg, slaveWriteByte, hmap, hrom, if_true]; rfl⟩

theorem physWrite_plain_no_trap {a : PAddr} {s t : State} {v : Word} {c : Trap} (hp : (Place.phys a).plain s.cfg) :
    physWrite a v s ≠ .trap c t := by
  intro h
  obtain h | ⟨_, u, hu, h⟩ := Res.bind_eq_trap.mp h
  · exact startCycle_no_trap h
  · obtain ⟨z, hz⟩ := slaveWrite_plain (a := a) (s := u) (by rw [startCycle_cfg hu]; exact hp) v
    exact nomatch hz.symm.trans h

theorem writePlaceByteExt_plain_no_trap {p : Place} {s t : State} {v : Byte} {c : Trap} (hp : p.plain s.cfg) :
    writePlaceByteExt p v s ≠ .trap c t := by
  intro h
  cases p with
  | reg r => cases h
  | phys a =>
    obtain h | ⟨_, u, hu, h⟩ := Res.bind_eq_trap.mp h
    · exact startCycle_no_trap h
    · obtain ⟨z, hz⟩ := slaveWriteByte_plain (a := a) (s := u) (by rw [startCycle_cfg hu]; exact hp) v
      exact nomatch hz.symm.trans h

/-- An instruction that ends with a store that cannot trap goes on only where the store answers. -/
theorem ok_of_finish_commit {cc : CC} {f : State → Res Unit} {s v : State} (hf : ∀ c t, f (s.setCC cc) ≠ .trap c t)
    (h : finish (commit cc f s) = .next v) : f (s.setCC cc) = .ok () v := by
  cases e : f (s.setCC cc) with
  | ok a t => rw [commit_ok e] at h; cases h; rfl
  | trap c t => exact absurd e (hf c t)
  | fault f => simp only [commit, e, finish] at h; cases h
  | refused r => simp only [commit, e, finish] at h; cases h

/-! ## Frames -/

theorem mfps_frame {o : Operand} {s t v : State} {p : Place} (h : bytePlace .write o s = .ok p t) (hp : p.plain s.cfg)
    (hv : exec (.mfps o) s = .next v) : Frame ((touching s o).octet s.mode p).codes s v := by
  have ht := bytePlace_frame h (touching_permits s o)
  have hcc := ht.thenCodes (codesOf (s.ps.setWidth 8) false s.cc.c)
  have hplain : p.plain t.cfg := ht.cfg_eq ▸ hp
  obtain ⟨l, z, hl, hz⟩ := Res.bind_eq_ok.mp h
  have hstore : ∀ cc, storeByteExtAt (s.ps.setWidth 8) l (z.setCC cc) = writePlaceByteExt p (s.ps.setWidth 8) (t.setCC cc) :=
    fun cc => by simp only [storeByteExtAt, placeOf_setCC, hz, Res.mapState, Res.bind_ok]
  change finish ((locate 1 o s).bind _) = _ at hv
  rw [hl, Res.bind_ok] at hv
  have hv := ok_of_finish_commit (fun c u => by rw [hstore]; exact writePlaceByteExt_plain_no_trap hplain) hv
  rw [hstore] at hv
  have hmode : (t.setCC (ccNZ (s.ps.setWidth 8 : Byte) false z.cc.c)).mode = s.mode := by
    rw [State.setCC_mode, ht.mode_eq rfl]
  have hwrite := writePlaceByteExt_frame (w := (touching s o).codes) hv hplain
  rw [hmode, Allow.codes_octet] at hwrite
  have hle : (touching s o).codes.Le ((touching s o).octet s.mode p).codes := by
    rw [← Allow.codes_octet]
    exact Allow.le_octet _ _ _
  exact ((ht.thenCodes _).mono hle).trans hwrite

/-- The codes and then a push add R6 and the word pushed to what has changed. -/
theorem Frame.thenPush {w : Allow} {s u v : State} {x : Word} {cc : CC} {a : PAddr} (hu : Frame w s u) (hps : w.ps = 0)
    (hv : push x (u.setCC cc) = .ok () v) (hplace : pushPlace (u.setCC cc) a) (hplain : (Place.phys a).plain s.cfg) :
    Frame ((w.reg s.mode .r6).word s.mode (.phys a)).codes s v := by
  have hsp := w.le_reg s.mode .r6
  have hword := (w.reg s.mode .r6).le_word s.mode (.phys a)
  have hall := hword.trans (Allow.le_codes _)
  have hcc := (hu.mono (hsp.trans hword)).thenCodes cc
  refine hcc.trans (push_frame hv hplace (hcc.cfg_eq ▸ hplain) ?_ fun b hb => Allow.word_wordBytes (w.reg s.mode .r6) s.mode a hb)
  rw [State.setCC_mode, hu.mode_eq hps]
  exact hall.permits (Allow.permits_reg _ _ _)

/-- What MTPI may change in memory or in a register includes the current stack pointer. -/
theorem mtpi_reg_frame {i : Instr} {o : Operand} {s s1 v : State} {x : Word} (hi : i = .mtpi o ∨ i = .mtpd o)
    (hpop : pop s = .ok x s1) (hm : o.mode = .reg) (hv : exec i s = .next v) :
    Frame ((if o.reg = .r6 then Allow.nothing.reg s.prevMode .r6 else touching s o).reg s.mode .r6).codes s v := by
  cases (exec_mtpi_reg hi hpop hm).symm.trans hv
  generalize hw : (if o.reg = .r6 then Allow.nothing.reg s.prevMode .r6 else touching s o) = w
  have hcc := (pop_frame (w := w.reg s.mode .r6) hpop (Allow.permits_reg w s.mode .r6)).thenCodes (codesOf x false s.cc.c)
  have hle : w.Le (w.reg s.mode .r6).codes := (w.le_reg s.mode .r6).trans (Allow.le_codes _)
  refine hcc.trans ?_
  by_cases hr : o.reg = .r6
  · rw [if_pos hr] at hw ⊢
    subst hw
    exact Frame.setSpOf x (hle.permits (r := .r6) (Allow.permits_reg Allow.nothing s.prevMode .r6))
  · rw [if_neg hr] at hw ⊢
    subst hw
    refine Frame.setReg x ?_
    rw [State.setCC_mode, pop_mode hpop]
    exact hle.permits (touching_permits s o)

theorem mtpi_mem_frame {i : Instr} {o : Operand} {s s1 t v y : State} {x va : Word} {a : PAddr} (hi : i = .mtpi o ∨ i = .mtpd o)
    (hpop : pop s = .ok x s1) (hl : locate 2 o s1 = .ok (.mem va) t)
    (ha : translate s.prevMode va .write (t.setCC (codesOf x false s.cc.c)) = .ok a y) (hplain : (Place.phys a).plain s.cfg)
    (hv : exec i s = .next v) : Frame ((((touching s o).reg s.mode .r6).word s.mode (.phys a)).codes) s v := by
  have hword := ((touching s o).reg s.mode .r6).le_word s.mode (.phys a)
  have hmode := pop_mode hpop
  have h1 := pop_frame (w := ((touching s o).reg s.mode .r6).word s.mode (.phys a)) hpop
    (hword.permits (r := .r6) (Allow.permits_reg _ _ _))
  have ht := h1.trans (locate_frame hl (hmode ▸ ((Allow.le_reg _ _ _).trans hword).permits (touching_permits s o)))
  have hy := (ht.thenCodes (codesOf x false s.cc.c)).trans (translate_frame ha)
  have hplain' : (Place.phys a).plain y.cfg := hy.cfg_eq ▸ hplain
  have hstore : writePrevious (.mem va) x (t.setCC (codesOf x false s.cc.c)) = physWrite a x y := by
    rw [writePrevious_mem hpop hl, writeWordMode, ha, Res.bind_ok]
  rw [exec_moveToPrevious hi, moveToPrevious_eq_commit hpop hl] at hv
  have hwrite := ok_of_finish_commit (fun c u => by rw [hstore]; exact physWrite_plain_no_trap hplain') hv
  rw [hstore] at hwrite
  exact hy.trans (physWrite_frame hwrite hplain' fun b hb => Allow.word_wordBytes ((touching s o).reg s.mode .r6) s.mode a hb)

/-- Settles O49: the frames of the five instructions, by the kind of the operand. -/
theorem statusAndSpaceFrame : Obligations.StatusAndSpaceFrame := by
  refine ⟨fun o s p t v h hp hv => mfps_frame h hp hv, fun i o s v x a hi hm hx hv hplace hplain => ?_,
    fun o s va t x u v a hl hx hv hplace hplain => ⟨⟨exec_mfpi_mem (.inl rfl) hl hx hv, exec_mfpi_mem (.inr rfl) hl hx hv⟩, ?_⟩,
    fun i o s s1 v x hi hpop hm hv => mtpi_reg_frame hi hpop hm hv,
    fun i o s s1 t v x va a y hi hpop hl ha hplain hv => mtpi_mem_frame hi hpop hl ha hplain hv⟩
  · exact (Frame.refl Allow.nothing s).thenPush rfl hv hplace hplain
  · exact ((locate_frame hl (touching_permits s o)).trans (readWordMode_frame hx)).thenPush rfl hv hplace hplain

end Sys2Proof.Machine
end

section
/-! PROOFS. The PS and the mark of a stack overflow through the references of the processor (spec/20_memory.md R86 to R101,
spec/21_memory_management.md R135): whether a reference is answered or aborts, a read leaves both; a write that aborts leaves both,
and one that is answered leaves the mark. Then the registers that a read and the mark leave. -/

namespace Sys2Proof.Machine

open Sys2Proof.Spec

/-! ## The PS and the mark -/

/-- The same PS, and the mark of a stack overflow as it was. -/
def SameControl (s t : State) : Prop := t.ps = s.ps ∧ t.stackOverflow = s.stackOverflow

theorem SameControl.refl (s : State) : SameControl s s := ⟨rfl, rfl⟩

theorem SameControl.trans {s t u : State} (h : SameControl s t) (k : SameControl t u) : SameControl s u :=
  ⟨k.1.trans h.1, k.2.trans h.2⟩

/-- What holds of the state left from `s` by a piece and by all that may follow it. -/
theorem Res.Sat.thenControl {α β : Type} {s : State} {x : Res α} {f : α → State → Res β} (hx : x.Sat (SameControl s))
    (hf : ∀ a t, (f a t).Sat (SameControl t)) : (x.bind f).Sat (SameControl s) := by
  refine hx.bind fun a t ht => ?_
  have h := hf a t
  revert h
  cases f a t with
  | ok b u => exact ht.trans
  | trap c u => exact ht.trans
  | fault e => exact id
  | refused r => exact id

theorem Res.Sat.of_ok {α : Type} {P : State → Prop} {x : Res α} (h : x.Sat P) {a : α} {t : State} (hx : x = .ok a t) : P t := by
  subst hx
  exact h

theorem Res.Sat.of_trap {α : Type} {P : State → Prop} {x : Res α} (h : x.Sat P) {c : Trap} {t : State} (hx : x = .trap c t) :
    P t := by
  subst hx
  exact h

/-! ## Reads -/

theorem translate_control (m : BitVec 2) (va : Word) (k : Access) (s : State) :
    (translate m va k s).Sat (SameControl s) := by
  cases h : translate m va k s with
  | ok a t =>
    have key : ∀ user, translateIn user m va k s = .ok a t → SameControl s t := by
      intro user h
      simp only [translateIn] at h
      split at h <;> cases h
      exact ⟨by simp, by simp⟩
    unfold translate at h
    split at h
    · split at h
      · exact key _ h
      · exact key _ h
      · cases h
      · cases h
    · cases h; exact .refl s
  | trap c t =>
    obtain ⟨-, nr, pl, ro, rfl⟩ := translate_trap h
    exact ⟨rfl, rfl⟩
  | fault e => trivial
  | refused r => trivial

theorem startCycle_control (a : PAddr) (s : State) : (startCycle a s).Sat (SameControl s) := by
  cases h : startCycle a s with
  | ok x t => obtain ⟨m, d, p, b, rfl⟩ := startCycle_eq h; exact ⟨rfl, rfl⟩
  | trap c t => exact absurd h startCycle_no_trap
  | fault e => trivial
  | refused r => trivial

/-- A slave that does not answer leaves the state as it was. -/
theorem slaveRead_trap {a : PAddr} {s t : State} {c : Trap} (h : slaveRead a s = .trap c t) : t = s := by
  unfold slaveRead at h
  split at h
  · cases h; rfl
  · split at h
    · cases h
    · cases h
    · split at h <;> cases h; rfl

theorem slaveWrite_trap {a : PAddr} {v : Word} {s t : State} {c : Trap} (h : slaveWrite a v s = .trap c t) : t = s := by
  unfold slaveWrite at h
  split at h
  · cases h; rfl
  · split at h
    · cases h
    · cases h
    · split at h <;> cases h; rfl
    · cases h

theorem slaveWriteByte_trap {a : PAddr} {v : Byte} {s t : State} {c : Trap} (h : slaveWriteByte a v s = .trap c t) : t = s := by
  unfold slaveWriteByte at h
  split at h
  · cases h; rfl
  · split at h
    · cases h
    · split at h <;> cases h
    · split at h <;> cases h; rfl
    · cases h

theorem cycleRead_control (a : PAddr) (s : State) : (cycleRead a s).Sat (SameControl s) := by
  unfold cycleRead
  split
  · exact .refl s
  · cases h : slaveRead a s with
    | ok v t => obtain ⟨d, rfl⟩ := slaveRead_eq h; exact ⟨rfl, rfl⟩
    | trap c t => cases slaveRead_trap h; exact .refl _
    | fault e => trivial
    | refused r => trivial

theorem physRead_control (a : PAddr) (s : State) : (physRead a s).Sat (SameControl s) :=
  (startCycle_control a s).thenControl fun _ t => cycleRead_control a t

theorem physReadByte_control (a : PAddr) (s : State) : (physReadByte a s).Sat (SameControl s) :=
  (physRead_control a s).thenControl fun _ t => .refl t

theorem readWordMode_control (m : BitVec 2) (va : Word) (s : State) : (readWordMode m va s).Sat (SameControl s) :=
  (translate_control m va .read s).thenControl physRead_control

theorem readWord_control (va : Word) (s : State) : (readWord va s).Sat (SameControl s) := readWordMode_control _ va s

theorem readVector_control (v : Word) (s : State) : (readVector v s).Sat (SameControl s) :=
  (readWordMode_control _ _ s).thenControl fun _ t => (readWordMode_control _ _ t).thenControl fun _ u => .refl u

/-! ## Writes -/

theorem writeIntReg_stackOverflow (r : IntReg) (v : Word) (s : State) :
    (writeIntReg r v s).stackOverflow = s.stackOverflow := by
  cases r <;> rfl

theorem cycleWrite_trap {a : PAddr} {v : Word} {s t : State} {c : Trap} (h : cycleWrite a v s = .trap c t) : t = s := by
  unfold cycleWrite at h
  split at h
  · cases h
  · exact slaveWrite_trap h

theorem cycleWriteByte_trap {a : PAddr} {v : Byte} {s t : State} {c : Trap} (h : cycleWriteByte a v s = .trap c t) : t = s := by
  unfold cycleWriteByte at h
  split at h
  · cases h
  · exact slaveWriteByte_trap h

theorem physWrite_trap_control {a : PAddr} {v : Word} {s t : State} {c : Trap} (h : physWrite a v s = .trap c t) :
    SameControl s t := by
  obtain h | ⟨_, u, hu, h⟩ := Res.bind_eq_trap.mp h
  · exact (startCycle_control a s).of_trap h
  · cases cycleWrite_trap h
    exact (startCycle_control a s).of_ok hu

theorem physWriteByte_trap_control {a : PAddr} {v : Byte} {s t : State} {c : Trap} (h : physWriteByte a v s = .trap c t) :
    SameControl s t := by
  obtain h | ⟨_, u, hu, h⟩ := Res.bind_eq_trap.mp h
  · exact (startCycle_control a s).of_trap h
  · cases cycleWriteByte_trap h
    exact (startCycle_control a s).of_ok hu

theorem cycleWrite_stackOverflow {a : PAddr} {v : Word} {s t : State} (h : cycleWrite a v s = .ok () t) :
    t.stackOverflow = s.stackOverflow := by
  unfold cycleWrite at h
  split at h
  · cases h; exact writeIntReg_stackOverflow _ _ _
  · obtain ⟨m, d, rfl⟩ := slaveWrite_eq h; rfl

theorem physWrite_stackOverflow {a : PAddr} {v : Word} {s t : State} (h : physWrite a v s = .ok () t) :
    t.stackOverflow = s.stackOverflow := by
  obtain ⟨_, u, hu, h⟩ := Res.bind_eq_ok.mp h
  exact (cycleWrite_stackOverflow h).trans ((startCycle_control a s).of_ok hu).2

/-! ## Registers -/

theorem readWord_reg {va : Word} {s t : State} {x : Word} (h : readWord va s = .ok x t) (r : Reg) : t.reg r = s.reg r := by
  obtain ⟨a, u, ha, hx⟩ := Res.bind_eq_ok.mp (show (translate s.mode va .read s).bind physRead = _ from h)
  exact (readPlace_reg (p := .phys a) hx r).trans (translate_reg ha r)

theorem State.noteStackReg_reg (s : State) (r : Reg) (v : Word) (q : Reg) : (s.noteStackReg r v).reg q = s.reg q := by
  unfold State.noteStackReg State.noteStack
  split
  · split <;> cases q <;> rfl
  · rfl

/-- The mark that a stepped R6 leaves (R552; D12). -/
theorem State.noteStack_mark (s : State) (v : Word) :
    (s.noteStack v).stackOverflow = (s.stackOverflow || (decide (s.mode = 0) && decide (v.toNat < 0o400))) := by
  have hk : s.isKernel = decide (s.mode = 0) := rfl
  have hv : decide (v < 0o400#16) = decide (v.toNat < 0o400) := rfl
  rw [State.noteStack, hk, hv]
  split
  · next h => rw [h, Bool.or_true]
  · next h => rw [Bool.not_eq_true _ |>.mp h, Bool.or_false]

end Sys2Proof.Machine
end

section
/-! PROOFS. The addressing modes (spec/40_addressing_modes.md R211 to R218) and the kernel stack limit (spec/60_exceptions.md R552):
the steps of the modes as numbers, one equation for each mode, and where the mark of a stack overflow is made. -/

namespace Sys2Proof.Machine

open Sys2Proof.Spec

/-! ## Steps (R202, R474) -/

theorem stepOf_autoInc {n : Nat} (hn : n ∈ [1, 2, 4, 8]) (r : Reg) :
    stepOf n .autoInc r = BitVec.ofNat 16 (stepRule n .autoInc r) := by
  simp only [List.mem_cons, List.not_mem_nil, or_false] at hn
  obtain rfl | rfl | rfl | rfl := hn <;> cases r <;> rfl

theorem stepOf_autoDec {n : Nat} (hn : n ∈ [1, 2, 4, 8]) (r : Reg) :
    stepOf n .autoDec r = BitVec.ofNat 16 (stepRule n .autoDec r) := by
  simp only [List.mem_cons, List.not_mem_nil, or_false] at hn
  obtain rfl | rfl | rfl | rfl := hn <;> cases r <;> rfl

theorem stepOf_autoDec_r6 (n : Nat) : stepOf n .autoDec .r6 = BitVec.ofNat 16 (if n = 1 then 2 else n) := by
  by_cases h : n = 1 <;> simp [stepOf, h]

/-! ## One equation for each mode that reads a pointer or an index word -/

section
variable {n : Nat} {r : Reg} {s t u : State} {p x : Word}

theorem locate_autoIncDef (h : readWord (s.reg r) (s.setReg r (s.reg r + 2)) = .ok p t) :
    locate n ⟨.autoIncDef, r⟩ s = .ok (.mem p) t := by
  simp only [locate, h, Res.bind_ok]

/-- The state in which mode 4 or 5 has stepped its register down, with the mark if it is R6. -/
def steppedDown (r : Reg) (k : Word) (s : State) : State := (s.setReg r (s.reg r - k)).noteStackReg r (s.reg r - k)

theorem steppedDown_reg (r : Reg) (k : Word) (s : State) : (steppedDown r k s).reg r = s.reg r - k := by
  rw [steppedDown, State.noteStackReg_reg, State.setReg_reg]

theorem locate_autoDec (n : Nat) (r : Reg) (s : State) :
    locate n ⟨.autoDec, r⟩ s = .ok (.mem (s.reg r - stepOf n .autoDec r)) (steppedDown r (stepOf n .autoDec r) s) := rfl

theorem locate_autoDecDef (h : readWord (s.reg r - 2) (steppedDown r 2 s) = .ok p t) :
    locate n ⟨.autoDecDef, r⟩ s = .ok (.mem p) t := by
  change (readWord _ (steppedDown r 2 s)).bind _ = _
  rw [h, Res.bind_ok]

theorem locate_index (h : readWord s.pc { s with pc := s.pc + 2 } = .ok x t) :
    locate n ⟨.index, r⟩ s = .ok (.mem (t.reg r + x)) t := by
  simp only [locate, fetchWord, h, Res.bind_ok]

theorem locate_indexDef (h : readWord s.pc { s with pc := s.pc + 2 } = .ok x t) (hp : readWord (t.reg r + x) t = .ok p u) :
    locate n ⟨.indexDef, r⟩ s = .ok (.mem p) u := by
  simp only [locate, fetchWord, h, hp, Res.bind_ok]

end

/-- Settles O19: each mode's equation, its step as a number, and that its references leave the registers. -/
theorem addressingModes : Obligations.AddressingModes := by
  intro n hn r s
  dsimp only
  have up (k : Nat) : BitVec.ofNat 16 ((s.reg r).toNat + k) = s.reg r + BitVec.ofNat 16 k := ofNat_toNat_add _ _
  have down (k : Nat) : BitVec.ofInt 16 ((s.reg r).toNat - k) = s.reg r - BitVec.ofNat 16 k := ofInt_toNat_sub _ _
  have hup : stepRule n .autoIncDef r = 2 := rfl
  have hdown : stepRule n .autoDecDef r = 2 := rfl
  rw [up, up, down, down, hup, hdown, ← stepOf_autoInc hn, ← stepOf_autoDec hn]
  refine ⟨rfl, rfl, rfl, ⟨_, locate_autoDec n r s, steppedDown_reg _ _ _⟩, fun p t hp => ⟨locate_autoIncDef hp, ?incDef⟩,
    fun u p t hu hp => ?decDef, fun x t hx => ⟨locate_index hx, readWord_reg hx r⟩,
    fun x t p u hx hp => ⟨locate_indexDef hx hp, (readWord_reg hp r).trans (readWord_reg hx r)⟩⟩
  case incDef => rw [readWord_reg hp r, State.setReg_reg]
  case decDef =>
    have hstep : stepOf 2 .autoDec r = 2 := stepOf_autoDec (by decide) r |>.trans (by cases r <;> rfl)
    rw [locate_autoDec, hstep] at hu
    cases hu
    exact ⟨locate_autoDecDef hp, (readWord_reg hp r).trans (steppedDown_reg _ _ _)⟩

/-! ## The mark of a specifier (R552; D12) -/

theorem steppedDown_mark (r : Reg) (k : Word) (s : State) :
    (steppedDown r k s).stackOverflow =
      (s.stackOverflow || (decide (s.mode = 0) && decide (r = .r6) && decide ((s.reg r - k).toNat < 0o400))) := by
  unfold steppedDown State.noteStackReg
  split
  · next hr => subst hr; simp [State.noteStack_mark]
  · next hr => simp [hr]

theorem fetchWord_stackOverflow {s t : State} {x : Word} (h : fetchWord s = .ok x t) : t.stackOverflow = s.stackOverflow :=
  ((readWord_control s.pc { s with pc := s.pc + 2 }).of_ok h).2

/-- Only modes 4 and 5 can mark. -/
theorem locate_mark {n : Nat} {o : Operand} {s t : State} {l : Loc} (h : locate n o s = .ok l t) :
    t.stackOverflow =
      (s.stackOverflow ||
        (decide (s.mode = 0) && decide (o.reg = .r6 ∧ (o.mode = .autoDec ∨ o.mode = .autoDecDef)) &&
          decide ((s.reg .r6 -
            if o.mode = .autoDec then BitVec.ofNat 16 (if n = 1 then 2 else n) else 2).toNat < 0o400))) := by
  obtain ⟨m, r⟩ := o
  have key (k : Word) : (steppedDown r k s).stackOverflow =
      (s.stackOverflow || (decide (s.mode = 0) && decide (r = .r6) && decide ((s.reg .r6 - k).toNat < 0o400))) := by
    rw [steppedDown_mark]
    by_cases hr : r = .r6
    · rw [hr]
    · simp [hr]
  cases m with
  | reg => cases h; simp
  | deferred => cases h; simp
  | autoInc => cases h; simp
  | autoIncDef =>
    obtain ⟨p, u, hp, h⟩ := Res.bind_eq_ok.mp h
    cases h
    simp [((readWord_control _ _).of_ok hp).2]
  | autoDec =>
    rw [locate_autoDec] at h
    cases h
    rw [key]
    by_cases hr : r = .r6
    · subst hr; simp [stepOf_autoDec_r6]
    · simp [hr]
  | autoDecDef =>
    obtain ⟨p, u, hp, h⟩ := Res.bind_eq_ok.mp h
    cases h
    rw [((readWord_control _ _).of_ok hp).2]
    exact (key 2).trans (by simp)
  | index =>
    obtain ⟨x, u, hx, h⟩ := Res.bind_eq_ok.mp h
    cases h
    simp [fetchWord_stackOverflow hx]
  | indexDef =>
    obtain ⟨x, u, hx, h⟩ := Res.bind_eq_ok.mp h
    obtain ⟨p, z, hp, h⟩ := Res.bind_eq_ok.mp h
    cases h
    simp [((readWord_control _ _).of_ok hp).2, fetchWord_stackOverflow hx]

/-! ## The mark of a push -/

theorem push_mark {v : Word} {s t : State} (h : push v s = .ok () t) :
    t.stackOverflow = (s.stackOverflow || (decide (s.mode = 0) && decide ((s.reg .r6 - 2).toNat < 0o400))) := by
  obtain ⟨a, u, ha, hw⟩ := push_eq_ok.mp h
  rw [physWrite_stackOverflow hw, ((translate_control _ _ _ _).of_ok ha).2, pushed, State.noteStack_mark,
    State.setReg_stackOverflow, State.setReg_mode]

/-- The reference goes on: below the limit too a push to memory that replies is answered. -/
theorem push_plain {v : Word} {s t : State} {a : PAddr} (hbus : s.busInputs = [])
    (ha : translate s.mode (s.reg .r6 - 2) .write (lowered s) = .ok a t) (hplain : (Place.phys a).plain s.cfg) :
    ∃ u, push v s = .ok () u := by
  have hframe : Frame (Allow.nothing.reg s.mode .r6) s t :=
    (pushed_frame (Allow.permits_reg Allow.nothing s.mode .r6)).trans (translate_frame ha)
  obtain ⟨u, hu⟩ := slaveWrite_plain (s := t) (hframe.cfg_eq ▸ hplain) v
  exact ⟨u, push_eq_ok.mpr ⟨a, t, ha, by rw [physWrite_quiet (hframe.bus hbus).1, hu]⟩⟩

/-- The stack overflow's own sequence puts the mark back, wherever it ends. -/
theorem enterTrap_stackOverflow_mark {s t : State} (h : enterTrap .stackOverflow s = .next t) :
    t.stackOverflow = s.stackOverflow := by
  have keep (v : Word) (z : State) : (pushTrap .stackOverflow v z).Sat (fun y => y.stackOverflow = z.stackOverflow) := by
    change (keepMark z.stackOverflow (push v z)).Sat _
    cases e : keepMark z.stackOverflow (push v z) with
    | ok a y => exact keepMark_mark.1 e
    | trap c y => exact keepMark_mark.2 c e
    | fault f => trivial
    | refused r => trivial
  have frame (old npc : Word) (z : State) :
      (pushFrame .stackOverflow old npc z).Sat (fun y => y.stackOverflow = z.stackOverflow) := by
    refine (keep old z).bind fun _ z1 h1 => ?_
    have h2 := keep (z1.reg .r7) z1
    rw [h1] at h2
    exact h2.bind fun _ z2 h2 => h2
  have hvector := readVector_control Trap.stackOverflow.vector s
  unfold enterTrap at h
  split at h
  · next u z hz =>
    cases h
    exact (hvector.of_trap hz).2
  · cases h
  · cases h
  · next nps npc z hz =>
    have hz := (hvector.of_ok hz).2
    split at h
    · next u y hy => cases h; exact ((frame _ _ _).of_trap hy).trans hz
    · cases h
    · cases h
    · next y hy => cases h; exact ((frame _ _ _).of_ok hy).trans hz

/-- Settles O26: where the mark is made, and that the reference goes on. -/
theorem stackLimitMarks : Obligations.StackLimitMarks := by
  refine ⟨fun v s a t hbus ha hplain => push_plain hbus ha hplain, fun n s => ?dec, fun n s p t hp => locate_autoDecDef hp,
    fun v s t h => push_mark h, fun n o s l t h => locate_mark h, fun s t h => enterTrap_stackOverflow_mark h⟩
  case dec =>
    rw [locate_autoDec, stepOf_autoDec_r6]
    exact ⟨_, rfl, steppedDown_reg _ _ _⟩

end Sys2Proof.Machine
end

section
/-! PROOFS. The trap sequence as a whole (spec/60_exceptions.md R560 to R562): with relocation off and no other agent acting, a push
to RAM is one write of the memory's list of bytes, so that the state which the sequence leaves can be written down; then the double
bus error. -/

namespace Sys2Proof.Machine

open Sys2Proof.Spec

/-! ## References with relocation off -/

section
variable {s : State} {a : PAddr}

theorem isRam_congr {t : State} (hcfg : t.cfg = s.cfg) (hparity : t.parity = s.parity) (h : isRam s a) : isRam t a := by
  rw [isRam, hcfg, hparity]
  exact h

theorem readWordMode_ram (m : BitVec 2) {va : Word} (hbus : s.busInputs = []) (hoff : s.relocating = false)
    (ha : isRam s (unmapped va)) : readWordMode m va s = .ok (s.mem.readWord (unmapped va)) s := by
  rw [readWordMode, translate_unmapped hoff, Res.bind_ok, physRead_ram hbus ha]

theorem push_ram (v : Word) (hbus : s.busInputs = []) (hoff : s.relocating = false) (ha : isRam s (unmapped (s.reg .r6 - 2))) :
    push v s = .ok () { pushed s with mem := s.mem.writeWord (unmapped (s.reg .r6 - 2)) v } := by
  have hmem : (pushed s).mem = s.mem := by simp [pushed]
  refine push_eq_ok.mpr ⟨_, _, translate_unmapped (by simpa [pushed, State.relocating] using hoff) _ _ _, ?_⟩
  rw [physWrite_ram (by simpa [pushed] using hbus) (isRam_congr (by simp [pushed]) (by simp [pushed]) ha), hmem]

end

theorem pushed_sp (s : State) : (pushed s).reg .r6 = s.reg .r6 - 2 :=
  (State.noteStackReg_reg (s.setReg .r6 (s.reg .r6 - 2)) .r6 _ .r6).trans (State.setReg_reg _ _ _)

theorem pushed_mark (s : State) :
    (pushed s).stackOverflow = (s.stackOverflow || (decide (s.mode = 0) && decide (s.reg .r6 - 2 < 0o400#16))) := by
  rw [pushed, State.noteStack_mark, State.setReg_stackOverflow, State.setReg_mode]
  rfl

/-! ## Frames of the mark and the run state -/

theorem Frame.setMark (w : Allow) (s : State) (b : Bool) : Frame w s { s with stackOverflow := b } :=
  { Frame.refl w s with gen := fun r _ _ _ => by cases r <;> rfl }

theorem Frame.withRun {w : Allow} {s t : State} (h : Frame w s t) (r : RunState) :
    Frame w { s with run := r } { t with run := r } := by
  have hreg : ∀ (x : State) (q : Reg), ({ x with run := r } : State).reg q = x.reg q := fun x q => by cases q <;> rfl
  exact { gen := fun q h6 h7 hq => by rw [hreg, hreg]; exact h.gen q h6 h7 hq
          sp := h.sp, ps := h.ps, byte := h.byte, acc := h.acc, fps := h.fps, exc := h.exc
          base := congrArg (fun x : State => { x with run := r }) h.base
          bus := h.bus }

/-! ## The pushes of a trap sequence -/

/-- The causes whose pushes put the mark back (R552, R562). -/
def sparesMark (c : Trap) : Bool := decide (c = .stackOverflow ∨ c = .doubleTimeout)

/-- What a push of a trap sequence to RAM makes of a state, relocation off. -/
structure TrapPush (c : Trap) (v : Word) (s t : State) : Prop where
  cfg : t.cfg = s.cfg
  parity : t.parity = s.parity
  bus : t.busInputs = s.busInputs
  off : t.relocating = s.relocating
  ps : t.ps = s.ps
  pc : t.pc = s.pc
  sp : t.reg .r6 = s.reg .r6 - 2
  mem : t.mem = s.mem.writeWord (unmapped (s.reg .r6 - 2)) v
  mark : t.stackOverflow =
    (s.stackOverflow || (!sparesMark c && (decide (s.mode = 0) && decide (s.reg .r6 - 2 < 0o400#16))))
  frame : ∀ w : Allow, w.sp s.mode = true → (∀ b, wordBytes (unmapped (s.reg .r6 - 2)) b = true → w.byte b = true) → Frame w s t

theorem TrapPush.mode {c : Trap} {v : Word} {s t : State} (h : TrapPush c v s t) : t.mode = s.mode := by
  simp only [State.mode, h.ps]

theorem pushed_withMem_frame {w : Allow} {v : Word} {s : State} (hsp : w.sp s.mode = true)
    (hw : ∀ b, wordBytes (unmapped (s.reg .r6 - 2)) b = true → w.byte b = true) :
    Frame w s { pushed s with mem := s.mem.writeWord (unmapped (s.reg .r6 - 2)) v } := by
  refine (pushed_frame hsp).trans (Frame.mem fun b hb => ?_)
  have hout := bool_false_of (hw b) hb
  simp only [wordBytes, Bool.or_eq_false_iff, beq_eq_false_iff_ne] at hout
  rw [show (pushed s).mem = s.mem by simp [pushed]]
  exact Memory.read_writeWord_ne _ _ _ hout.1 hout.2

/-- The state of a push with the mark that the cause leaves. -/
theorem trapPush_of_mark {c : Trap} {v : Word} {s : State} {b : Bool}
    (hb : b = if sparesMark c then s.stackOverflow else (pushed s).stackOverflow) :
    TrapPush c v s { pushed s with mem := s.mem.writeWord (unmapped (s.reg .r6 - 2)) v, stackOverflow := b } := by
  have hreg : ∀ (x : State) (m : Memory) (y : Bool),
      ({ x with mem := m, stackOverflow := y } : State).reg .r6 = x.reg .r6 := fun _ _ _ => rfl
  refine ⟨by simp [pushed], by simp [pushed], by simp [pushed], by simp [pushed, State.relocating], by simp [pushed],
    by simp [pushed, State.setReg], (hreg _ _ _).trans (pushed_sp s), rfl, ?_, fun w hsp hw => ?_⟩
  · change b = _
    rw [hb, pushed_mark]
    cases sparesMark c <;> simp
  · exact (pushed_withMem_frame hsp hw).trans (Frame.setMark w _ b)

theorem pushTrap_ram {c : Trap} (v : Word) {s : State} (hbus : s.busInputs = []) (hoff : s.relocating = false)
    (ha : isRam s (unmapped (s.reg .r6 - 2))) : ∃ t, pushTrap c v s = .ok () t ∧ TrapPush c v s t := by
  have h := push_ram v hbus hoff ha
  refine ⟨_, ?_, trapPush_of_mark rfl⟩
  cases c <;> simp only [pushTrap, h, keepMark] <;> rfl

/-- The two words of a stack frame lie apart. -/
theorem wordAddr_unmapped_apart (sp : Word) : wordAddr (unmapped (sp - 2)) ≠ wordAddr (unmapped (sp - 4)) := by
  have h2 : (sp - 2).toNat = (sp.toNat + 65534) % 65536 := by rw [BitVec.toNat_sub]; simp; omega
  have h4 : (sp - 4).toNat = (sp.toNat + 65532) % 65536 := by rw [BitVec.toNat_sub]; simp; omega
  have hsp := sp.isLt
  rw [wordAddr, wordAddr, toNat_unmapped, toNat_unmapped, h2, h4]
  split <;> split <;> omega

/-! ## The sequence -/

/-- The fields of a trap sequence's status word, as R560 names them. -/
theorem trapPs_fields (old vec : Word) :
    (trapPs old vec).extractLsb' 14 2 = vec.extractLsb' 14 2 ∧ (trapPs old vec).extractLsb' 12 2 = old.extractLsb' 14 2 ∧
      trapPs old vec &&& 0o777 = vec &&& 0o777 ∧ trapPs old vec &&& 0o7000 = 0 := by
  have masks : ∀ j : Fin 16, (0o777 : Word).getLsbD j.val = decide (j.val < 9) ∧
      (0o7000 : Word).getLsbD j.val = decide (9 ≤ j.val ∧ j.val < 12) := by decide
  refine ⟨?_, ?_, ?_, ?_⟩ <;> refine BitVec.eq_of_getLsbD_eq fun k hk => ?_
  · simp only [BitVec.getLsbD_extractLsb', hk, decide_true, Bool.true_and]
    rw [getLsbD_trapPs _ _ (by omega), if_neg (by omega), if_neg (by omega)]
  · simp only [BitVec.getLsbD_extractLsb', hk, decide_true, Bool.true_and]
    rw [getLsbD_trapPs _ _ (by omega), if_pos (by omega)]
    congr 1
    omega
  · obtain ⟨hmask, -⟩ := masks ⟨k, hk⟩
    rw [BitVec.getLsbD_and, BitVec.getLsbD_and, getLsbD_trapPs _ _ hk, hmask]
    by_cases h9 : k < 9
    · rw [if_neg (by omega), if_neg (by omega)]
    · simp [h9]
  · obtain ⟨-, hmask⟩ := masks ⟨k, hk⟩
    rw [BitVec.getLsbD_and, getLsbD_trapPs _ _ hk, hmask]
    by_cases h9 : 9 ≤ k ∧ k < 12
    · rw [if_neg (by omega), if_pos h9]; simp
    · simp [h9]

/-- The sequence with relocation off, vector and stack in RAM, no other agent acting: two pushes with the new status word. -/
theorem enterTrap_ram {c : Trap} {s : State} (hbus : s.busInputs = []) (hoff : s.relocating = false) {nps : Word}
    (hnps : nps = s.mem.readWord (unmapped (c.vector + 2))) (hv : isRam s (unmapped c.vector))
    (hv2 : isRam s (unmapped (c.vector + 2))) (h2 : isRam s (unmapped (s.spOf (nps.extractLsb' 14 2) - 2)))
    (h4 : isRam s (unmapped (s.spOf (nps.extractLsb' 14 2) - 4))) :
    ∃ s3 s4, TrapPush c s.ps { s with ps := trapPs s.ps nps } s3 ∧ TrapPush c s.pc s3 s4 ∧
      enterTrap c s = .next { s4 with pc := s.mem.readWord (unmapped c.vector), run := .run } := by
  obtain ⟨hmode, -⟩ := trapPs_fields s.ps nps
  have hsp : ({ s with ps := trapPs s.ps nps } : State).reg .r6 = s.spOf (nps.extractLsb' 14 2) := congrArg s.spOf hmode
  obtain ⟨s3, hpush3, h3⟩ := pushTrap_ram (c := c) s.ps (s := { s with ps := trapPs s.ps nps }) hbus hoff (hsp ▸ h2)
  have hlow : s3.reg .r6 - 2 = s.spOf (nps.extractLsb' 14 2) - 4 := by
    rw [h3.sp, hsp, BitVec.sub_sub]
    rfl
  obtain ⟨s4, hpush4, h4⟩ := pushTrap_ram (c := c) s.pc (h3.bus.trans hbus) (h3.off.trans hoff)
    (by rw [hlow]; exact isRam_congr h3.cfg h3.parity h4)
  have hpc : s3.reg .r7 = s.pc := h3.pc
  refine ⟨s3, s4, h3, h4, ?_⟩
  simp only [enterTrap, readVector, readWordMode_ram 0 hbus hoff hv2, readWordMode_ram 0 hbus hoff hv, Res.bind_ok, ← hnps,
    pushFrame, hpush3, hpc, hpush4]

/-- Two pushes mark where one of them does. -/
theorem mark_twice : ∀ x q k a b : Bool,
    ((x || (!q && (k && a))) || (!q && (k && b))) = (x || (!q && (k && (a || b)))) := by
  decide

/-- What a trap sequence may change besides R7: the new mode's stack pointer, the PS, and the two words of the stack frame. -/
def trapAllow (m : BitVec 2) (sp : Word) : Allow :=
  { Allow.nothing with
    sp := fun k => k == m
    ps := 0o177777
    byte := fun b => wordBytes (unmapped (sp - 2)) b || wordBytes (unmapped (sp - 4)) b }

/-- Settles O24: the first clause is the sequence of R560; the second reads off the two pushes what they leave. -/
theorem trapSequenceEffect : Obligations.TrapSequenceEffect := by
  refine ⟨fun c s t hoverflow hdouble h => enterTrap_of_trapTaken hoverflow hdouble h, ?_⟩
  intro c s hwf hbus hoff
  dsimp only
  generalize hnps : s.mem.readWord (unmapped (c.vector + 2)) = nps
  intro hv hv2 hold hpc
  obtain ⟨s3, s4, h3, h4, htrap⟩ := enterTrap_ram hbus hoff hnps.symm hv hv2 hold hpc
  obtain ⟨hmode, hprev, hlow, hzero⟩ := trapPs_fields s.ps nps
  generalize hm : nps.extractLsb' 14 2 = m at *
  generalize hsp : s.spOf m = sp at *
  have hsp2 : ({ s with ps := trapPs s.ps nps } : State).reg .r6 = sp := (congrArg s.spOf hmode).trans hsp
  have hmode2 : ({ s with ps := trapPs s.ps nps } : State).mode = m := hmode
  have hsp3 : s3.reg .r6 - 2 = sp - 4 := by
    rw [h3.sp, hsp2, BitVec.sub_sub]
    rfl
  have hps : s4.ps = trapPs s.ps nps := h4.ps.trans h3.ps
  have hmode3 : s3.mode = m := h3.mode.trans hmode2
  have hmode4 : s4.mode = m := h4.mode.trans hmode3
  have hmem : s4.mem = (s.mem.writeWord (unmapped (sp - 2)) s.ps).writeWord (unmapped (sp - 4)) s.pc := by
    rw [h4.mem, hsp3, h3.mem, hsp2]
  refine ⟨_, htrap, rfl, rfl, hmode4, ?prev, ?low, ?zero, ?sp, ?old, ?pc, ?mark, ?frame⟩
  case prev => exact (State.prevMode_of_ps (s := { s with ps := trapPs s.ps nps }) hps).trans hprev
  case low => rw [show _ = s4.ps from rfl, hps, hlow]
  case zero => rw [show _ = s4.ps from rfl, hps, hzero]
  case sp => rw [← hmode4, ← hsp3, ← h4.sp]; rfl
  case old =>
    rw [show _ = s4.mem from rfl, hmem, Memory.readWord_writeWord_ne _ _ (wordAddr_unmapped_apart sp), Memory.readWord_writeWord hwf]
  case pc => rw [show _ = s4.mem from rfl, hmem, Memory.readWord_writeWord (Memory.wf_writeWord hwf _ _)]
  case mark =>
    rw [show _ = s4.stackOverflow from rfl, h4.mark, h3.mark, hsp3, hsp2, hmode3, hmode2, mark_twice]
    simp only [sparesMark, ne_eq, Bool.decide_and, Bool.decide_or, decide_not, Bool.not_or, Bool.and_assoc]
  case frame =>
    change Frame (trapAllow m sp) _ _
    have hload := Frame.loadPs (w := trapAllow m sp) (by simp only [trapAllow]; decide) s (trapPs s.ps nps)
    have hpush3 := h3.frame (trapAllow m sp) (by simp [trapAllow, hmode2]) fun b hb => by
      rw [hsp2] at hb
      exact Bool.or_eq_true _ _ |>.mpr (.inl hb)
    have hpush4 := h4.frame (trapAllow m sp) (by simp [trapAllow, hmode3]) fun b hb => by
      rw [hsp3] at hb
      exact Bool.or_eq_true _ _ |>.mpr (.inr hb)
    exact (((hload.trans hpush3).trans hpush4).trans (Frame.pc _ s4 (s.mem.readWord (unmapped c.vector)))).withRun .run

end Sys2Proof.Machine
end

section
/-! PROOFS. The step around an instruction (spec/60_exceptions.md R542 to R562, spec/70_reset_and_hazards.md R662 to R667): the double
bus error, the fetch, the arbitration of the service state in the order of its list, and the four power-up modes. -/

namespace Sys2Proof.Machine

open Sys2Proof.Spec

/-! ## The step, nobody disturbing it (R542) -/

section
variable {s : State} (hinputs : s.inputs = []) (hbus : s.bdmr = false)
include hinputs hbus

theorem step_run (hrun : s.run = .run) : step s = afterInstr (runInstr s) := by
  simp only [step, machineStep, hinputs, cpuStep, hbus, hrun, Bool.false_eq_true, if_false]

theorem step_trapping {c : Trap} (hrun : s.run = .trapping c) : step s = afterInstr (enterTrap c s) := by
  simp only [step, machineStep, hinputs, cpuStep, hbus, hrun, Bool.false_eq_true, if_false]

theorem step_powerTrap {c : Trap} (hrun : s.run = .powerTrap c) : step s = startTrap c s := by
  simp only [step, machineStep, hinputs, cpuStep, hbus, hrun, Bool.false_eq_true, if_false]

theorem step_powerWait (hrun : s.run = .powerWait) (hpok : s.bpok = true) : step s = powerUp s := by
  simp only [step, machineStep, hinputs, cpuStep, hbus, hrun, hpok, Bool.false_eq_true, if_false, if_true]

end

/-! ## The double bus error (R562) -/

/-- Settles O28: whichever of the two pushes times out, the sequence ends in `nestedPush`. -/
theorem doubleBusError : Obligations.DoubleBusError := by
  intro s nps npc s1 s2 u hnps hnpc hpush
  have hps : s2.ps = s.ps := ((readWordMode_control _ _ _).of_ok hnpc).1.trans ((readWordMode_control _ _ _).of_ok hnps).1
  have hvector : readVector Trap.busTimeout.vector s = .ok (nps, npc) s2 := by
    change (readWordMode 0 6 s).bind _ = _
    rw [hnps, Res.bind_ok]
    change (readWordMode 0 4 s1).bind _ = _
    rw [hnpc, Res.bind_ok]
  have hframe : pushFrame .busTimeout s2.ps npc { s2 with ps := trapPs s2.ps nps } = .trap .busTimeout u := by
    rw [hps]
    obtain hfirst | ⟨z, hz, hsecond⟩ := hpush
    · simp only [pushFrame, pushTrap, hfirst, Res.bind_trap]
    · have hpc : z.reg .r7 = z.pc := rfl
      simp only [pushFrame, pushTrap, hz, Res.bind_ok, hpc, hsecond, Res.bind_trap]
  refine ⟨_, enterTrap_push hvector hframe, rfl, State.setReg_reg u .r6 4, fun hinputs hbus => ?_, rfl⟩
  exact step_trapping hinputs hbus rfl

/-! ## The fetch (R142, R542) -/

/-- A translation for a read leaves the state: only a write sets a W bit (R141). -/
theorem translate_read_eq {m : BitVec 2} {va : Word} {s t : State} {a : PAddr} (h : translate m va .read s = .ok a t) :
    t = s := by
  have key : ∀ user, translateIn user m va .read s = .ok a t → t = s := by
    intro user h
    simp only [translateIn] at h
    split at h <;> cases h
    rfl
  unfold translate at h
  split at h
  · split at h
    · exact key _ h
    · exact key _ h
    · cases h
    · cases h
  · cases h; rfl

/-- A bus cycle on RAM reads the word and leaves the state. -/
theorem cycleRead_ram {s : State} {a : PAddr} (ha : isRam s a) : cycleRead a s = .ok (s.mem.readWord a) s := by
  obtain ⟨hreg, hparity, r, hmap, hram⟩ := ha
  simp only [cycleRead, hreg, slaveRead, hmap, hram, hparity, Bool.and_false, Bool.false_eq_true, if_false]

theorem fetchInstr_ram {s t u : State} {pa : PAddr} (ha : translate s.mode s.pc .read { s with pc := s.pc + 2 } = .ok pa t)
    (hu : startCycle pa t = .ok () u) (hram : isRam u pa) : fetchInstr s = .ok (u.mem.readWord pa) (trackSR2 s.pc u) := by
  have hread : readWord s.pc { s with pc := s.pc + 2 } = .ok (u.mem.readWord pa) u := by
    change (translate s.mode s.pc .read _).bind physRead = _
    rw [ha, Res.bind_ok, physRead, hu, Res.bind_ok, cycleRead_ram hram]
  rw [fetchInstr, fetchWord, hread, Res.bind_ok]

theorem trackSR2_fps (a : Word) (s : State) : (trackSR2 a s).fps = s.fps := by
  unfold trackSR2
  split <;> rfl

/-- Settles O5: the fetch reads the two bytes; the turn of the other agents changes no floating mode bit. -/
theorem stepRunsTheDecodedInstruction : Obligations.StepRunsTheDecodedInstruction := by
  intro s t u pa i hinputs hbus hrun ha hu hram hdecode
  have ht := translate_read_eq ha
  subst ht
  obtain ⟨m, d, p, b, hstate⟩ := startCycle_eq hu
  have hfps : (trackSR2 s.pc u).fps = s.fps := by rw [trackSR2_fps, hstate]
  have hword : decodeWord (u.mem.readWord pa) = i := by
    simp only [decodeBytes, Except.ok.injEq, Prod.mk.injEq, and_true] at hdecode
    exact hdecode
  refine ⟨?_, fun hquiet => ?_⟩
  · rw [step_run hinputs hbus hrun, runInstr, fetchInstr_ram ha hu hram]
    simp only [State.fd, State.fl, hfps, hword]
  · rw [startCycle_quiet (s := { s with pc := s.pc + 2 }) hquiet] at hu
    cases hu
    rfl

/-! ## The service state (R543)

The arbitration, one equation for each place in its order. -/

section
variable {s : State}

theorem traceTest_eq_false (h : ¬(s.tBit = true ∧ s.inhibitT = false)) : (s.tBit && !s.inhibitT) = false := by
  rw [← Bool.not_eq_true, Bool.and_eq_true, Bool.not_eq_true']
  exact h

theorem arbitrate_unlatched (htrace : ¬(s.tBit = true ∧ s.inhibitT = false)) (hoverflow : s.stackOverflow = false)
    (hpower : s.powerFailFF = false) : arbitrate s = arbitrateHigh s := by
  simp only [arbitrate, traceTest_eq_false htrace, hoverflow, hpower, Bool.false_eq_true, if_false]

/-- The event line, as the arbitration tests it (R555). -/
theorem eventTest_iff : (s.eventFF && !s.cfg.w4EventDisabled && decide (s.priority < 6)) = true ↔
    s.eventFF = true ∧ s.cfg.w4EventDisabled = false ∧ s.priority < 6 := by
  simp only [Bool.and_eq_true, Bool.not_eq_true', decide_eq_true_eq, and_assoc]

theorem irqAt_eq_none {l : Level} (h : ∀ r ∈ s.irqs, r.level ≠ l) : irqAt l s = none :=
  List.find?_eq_none.mpr fun r hr => by simpa using h r hr

/-- No request of a level is found where the processor's priority or the list keeps it out. -/
theorem irqTest_eq_none {l : Level} (h : s.priority < l.toNat → ∀ r ∈ s.irqs, r.level ≠ l) :
    (if s.priority < l.toNat then irqAt l s else none) = none := by
  split
  · next hp => exact irqAt_eq_none (h hp)
  · rfl

theorem arbitrateHigh_irq7 {r : Irq} (hp : s.priority < 7) (hr : irqAt .l7 s = some r) :
    arbitrateHigh s = acknowledge r s := by
  simp only [arbitrateHigh, if_pos hp, hr]

theorem arbitrateHigh_event (h7 : s.priority < 7 → ∀ r ∈ s.irqs, r.level ≠ .l7)
    (hevent : s.eventFF = true ∧ s.cfg.w4EventDisabled = false ∧ s.priority < 6) :
    arbitrateHigh s = .take .event { s with eventFF := false } := by
  have hnone : (if s.priority < 7 then irqAt .l7 s else none) = none := irqTest_eq_none (l := .l7) h7
  simp only [arbitrateHigh, hnone, eventTest_iff.mpr hevent, if_true]

theorem arbitrateHigh_below (h7 : s.priority < 7 → ∀ r ∈ s.irqs, r.level ≠ .l7)
    (hevent : ¬(s.eventFF = true ∧ s.cfg.w4EventDisabled = false ∧ s.priority < 6)) : arbitrateHigh s = arbitrateMid s := by
  have hnone : (if s.priority < 7 then irqAt .l7 s else none) = none := irqTest_eq_none (l := .l7) h7
  have htest := Bool.not_eq_true _ |>.mp (mt eventTest_iff.mp hevent)
  simp only [arbitrateHigh, hnone, htest, Bool.false_eq_true, if_false]

theorem arbitrateMid_irq6 {r : Irq} (hp : s.priority < 6) (hr : irqAt .l6 s = some r) :
    arbitrateMid s = acknowledge r s := by
  simp only [arbitrateMid, if_pos hp, hr]

theorem arbitrateMid_irq5 {r : Irq} (h6 : s.priority < 6 → ∀ q ∈ s.irqs, q.level ≠ .l6) (hp : s.priority < 5)
    (hr : irqAt .l5 s = some r) : arbitrateMid s = acknowledge r s := by
  have hnone : (if s.priority < 6 then irqAt .l6 s else none) = none := irqTest_eq_none (l := .l6) h6
  simp only [arbitrateMid, hnone, if_pos hp, hr]

theorem arbitrateMid_below (h6 : s.priority < 6 → ∀ q ∈ s.irqs, q.level ≠ .l6)
    (h5 : s.priority < 5 → ∀ q ∈ s.irqs, q.level ≠ .l5) : arbitrateMid s = arbitrateLow s := by
  have hnone6 : (if s.priority < 6 then irqAt .l6 s else none) = none := irqTest_eq_none (l := .l6) h6
  have hnone5 : (if s.priority < 5 then irqAt .l5 s else none) = none := irqTest_eq_none (l := .l5) h5
  simp only [arbitrateMid, hnone6, hnone5]

theorem arbitrateLow_irq4 {r : Irq} (hp : s.priority < 4) (hr : irqAt .l4 s = some r) :
    arbitrateLow s = acknowledge r s := by
  simp only [arbitrateLow, if_pos hp, hr]

theorem arbitrateLow_console {v : Word} (hp : s.priority < 4) (hnone : irqAt .l4 s = none) (hv : sluVector s.slu = some v) :
    arbitrateLow s = .take (.device v) s := by
  simp only [arbitrateLow, if_pos hp, hnone, hv]

theorem arbitrateLow_idle (h4 : s.priority < 4 → irqAt .l4 s = none ∧ sluVector s.slu = none) :
    arbitrateLow s = if s.bhalt then .console else .idle := by
  unfold arbitrateLow
  split
  · next hp =>
    obtain ⟨hirq, hslu⟩ := h4 hp
    simp only [hirq, hslu]
  · rfl

/-- A request above the priority is acknowledged when none of a higher level is there and the event line does not come first. -/
theorem arbitrateHigh_irq {r : Irq} (hfind : irqAt r.level s = some r) (hp : s.priority < r.level.toNat)
    (htop : ∀ q ∈ s.irqs, q.level.toNat ≤ r.level.toNat)
    (hevent : r.level = .l7 ∨ ¬(s.eventFF = true ∧ s.cfg.w4EventDisabled = false ∧ s.priority < 6)) :
    arbitrateHigh s = acknowledge r s := by
  have above {l : Level} (hl : r.level.toNat < l.toNat) : ∀ q ∈ s.irqs, q.level ≠ l := fun q hq e => by
    have := htop q hq
    rw [e] at this
    omega
  cases hlevel : r.level with
  | l7 =>
    rw [hlevel] at hfind hp
    exact arbitrateHigh_irq7 hp hfind
  | l6 =>
    rw [hlevel] at hfind hp above hevent
    rw [arbitrateHigh_below (fun _ => above (by decide)) (hevent.resolve_left nofun), arbitrateMid_irq6 hp hfind]
  | l5 =>
    rw [hlevel] at hfind hp above hevent
    rw [arbitrateHigh_below (fun _ => above (by decide)) (hevent.resolve_left nofun),
      arbitrateMid_irq5 (fun _ => above (by decide)) hp hfind]
  | l4 =>
    rw [hlevel] at hfind hp above hevent
    rw [arbitrateHigh_below (fun _ => above (by decide)) (hevent.resolve_left nofun),
      arbitrateMid_below (fun _ => above (by decide)) (fun _ => above (by decide)), arbitrateLow_irq4 hp hfind]

/-- Where no request is above the priority, the arbitration comes to the end of the list. -/
theorem arbitrateHigh_low (hevent : ¬(s.eventFF = true ∧ s.cfg.w4EventDisabled = false ∧ s.priority < 6))
    (hirqs : ∀ r ∈ s.irqs, r.level.toNat ≤ s.priority) : arbitrateHigh s = arbitrateLow s := by
  have none (l : Level) (hp : s.priority < l.toNat) : ∀ q ∈ s.irqs, q.level ≠ l := fun q hq e => by
    have := hirqs q hq
    rw [e] at this
    omega
  rw [arbitrateHigh_below (none .l7) hevent, arbitrateMid_below (none .l6) (none .l5)]

/-! ### What can be taken -/

/-- A vector that an acknowledge gives is that of the request. -/
theorem acknowledge_device {r : Irq} {v : Word} {t : State} (h : acknowledge r s = .take (.device v) t) : r.vector = some v := by
  unfold acknowledge at h
  cases hr : r.vector with
  | none => rw [hr] at h; cases h
  | some w => rw [hr] at h; cases h; rfl

/-- A request that the arbitration finds at a level is in the list. -/
theorem irqAt_eq_some {l : Level} {r : Irq} (h : irqAt l s = some r) : r ∈ s.irqs ∧ r.level = l :=
  ⟨List.mem_of_find?_eq_some h, by simpa using List.find?_some h⟩

theorem irqTest_eq_some {l : Level} {r : Irq} (h : (if s.priority < l.toNat then irqAt l s else none) = some r) :
    r ∈ s.irqs ∧ s.priority < r.level.toNat := by
  split at h
  · next hp =>
    obtain ⟨hmem, hlevel⟩ := irqAt_eq_some h
    exact ⟨hmem, hlevel ▸ hp⟩
  · cases h

/-- A device's vector is taken for a request above the priority, or for the console unit. -/
def DeviceCause (s : State) (v : Word) : Prop :=
  (∃ r ∈ s.irqs, r.vector = some v ∧ s.priority < r.level.toNat) ∨ (sluVector s.slu = some v ∧ s.priority < 4)

theorem deviceCause_of_acknowledge {r : Irq} {l : Level} {v : Word} {t : State}
    (hr : (if s.priority < l.toNat then irqAt l s else none) = some r) (h : acknowledge r s = .take (.device v) t) :
    DeviceCause s v := by
  obtain ⟨hmem, hp⟩ := irqTest_eq_some hr
  exact .inl ⟨r, hmem, acknowledge_device h, hp⟩

theorem arbitrateLow_device {v : Word} {t : State} (h : arbitrateLow s = .take (.device v) t) : DeviceCause s v := by
  unfold arbitrateLow at h
  split at h
  · next hp =>
    split at h
    · next r hr => exact deviceCause_of_acknowledge (l := .l4) ((if_pos hp).trans hr) h
    · split at h
      · next w hw => cases h; exact .inr ⟨hw, hp⟩
      · split at h <;> cases h
  · split at h <;> cases h

theorem arbitrateMid_device {v : Word} {t : State} (h : arbitrateMid s = .take (.device v) t) : DeviceCause s v := by
  unfold arbitrateMid at h
  split at h
  · next r hr => exact deviceCause_of_acknowledge (l := .l6) hr h
  · split at h
    · next r hr => exact deviceCause_of_acknowledge (l := .l5) hr h
    · exact arbitrateLow_device h

theorem arbitrate_device {v : Word} {t : State} (h : arbitrate s = .take (.device v) t) : DeviceCause s v := by
  unfold arbitrate at h
  split at h
  · cases h
  · split at h
    · cases h
    · split at h
      · cases h
      · unfold arbitrateHigh at h
        split at h
        · next r hr => exact deviceCause_of_acknowledge (l := .l7) hr h
        · split at h
          · cases h
          · exact arbitrateMid_device h

/-- The console unit's vector (R607). -/
theorem sluVector_eq {d : Slu} {v : Word}
    (h : d.rxIe = true ∧ d.rxDone = true ∧ v = 0o60 ∨
      (d.rxIe && d.rxDone) = false ∧ d.txIe = true ∧ d.txReady = true ∧ v = 0o64) : sluVector d = some v := by
  obtain ⟨hie, hdone, rfl⟩ | ⟨hrx, hie, hready, rfl⟩ := h
  · simp only [sluVector, hie, hdone, Bool.and_self, if_true]
  · simp only [sluVector, hrx, hie, hready, Bool.and_self, Bool.false_eq_true, if_false, if_true]

end

/-- Settles O27: each clause is the arbitration's equation for its place in the order. -/
theorem serviceArbitration : Obligations.ServiceArbitration := by
  intro s
  dsimp only
  have unlatched (h : ¬((s.tBit = true ∧ s.inhibitT = false) ∨ s.stackOverflow = true ∨ s.powerFailFF = true)) :
      arbitrate s = arbitrateHigh s := by
    simp only [not_or, Bool.not_eq_true] at h
    obtain ⟨htrace, hoverflow, hpower⟩ := h
    exact arbitrate_unlatched htrace hoverflow hpower
  refine ⟨fun ⟨ht, hi⟩ => ?trace, fun hnt ho => ?overflow, fun hnt ho hp => ?power, fun hnl hev h7 => ?event,
    fun r hnl hfind hp htop hev => ?irq, fun v hnl hev hirqs hp hv => ?console, fun v t h => arbitrate_device h,
    fun hnl hev hirqs hslu => ?idle, fun v => rfl, rfl, rfl, rfl, rfl⟩
  case trace => simp only [serviceState, arbitrate, ht, hi, Bool.not_false, Bool.and_self, if_true]
  case overflow =>
    simp only [serviceState, arbitrate, traceTest_eq_false hnt, ho, Bool.false_eq_true, if_false, if_true]
  case power =>
    simp only [serviceState, arbitrate, traceTest_eq_false hnt, ho, hp, Bool.false_eq_true, if_false, if_true]
  case event => simp only [serviceState, unlatched hnl, arbitrateHigh_event (fun _ => h7) hev]
  case irq =>
    simp only [serviceState, unlatched hnl, arbitrateHigh_irq hfind hp htop hev, acknowledge]
    cases r.vector <;> rfl
  case console =>
    have hnone : ∀ r ∈ s.irqs, r.level.toNat ≤ s.priority := by simp [hirqs]
    have h4 : irqAt .l4 s = none := irqAt_eq_none (by simp [hirqs])
    simp only [serviceState, unlatched hnl, arbitrateHigh_low hev hnone, arbitrateLow_console hp h4 (sluVector_eq hv)]
  case idle =>
    have h4 (hp : s.priority < 4) : irqAt .l4 s = none ∧ sluVector s.slu = none := by
      refine ⟨irqAt_eq_none fun r hr e => ?_, hslu hp⟩
      have := hirqs r hr
      rw [e] at this
      exact absurd hp (by simpa [Level.toNat] using this)
    simp only [serviceState, unlatched hnl, arbitrateHigh_low hev hirqs, arbitrateLow_idle h4]
    cases s.bhalt <;> rfl

/-! ## Power-up (R662 to R667) -/

/-- Mode 0's load, both locations in RAM (R662). -/
theorem loadStart_ram {s : State} (hbus : s.busInputs = []) (h24 : isRam s 0o24) (h26 : isRam s 0o26) :
    loadStart s = .ok () { s with pc := s.mem.readWord 0o24, ps := s.mem.readWord 0o26 &&& 0o170777 } := by
  have hps : physRead 0o26 { s with pc := s.mem.readWord 0o24 } =
      .ok (s.mem.readWord 0o26) { s with pc := s.mem.readWord 0o24 } := physRead_ram hbus h26
  rw [loadStart, physRead_ram hbus h24, Res.bind_ok, hps, Res.bind_ok]
  rfl

/-- Mode 2's address as a number (R664 to R666). -/
theorem bootAddress_eq (c : Config) :
    bootAddress c = if c.w8Boot173000 then 0o173000 else BitVec.ofNat 16 (c.bootAddrHi.toNat * 512) := by
  unfold bootAddress
  split
  · rfl
  · have hlt := c.bootAddrHi.isLt
    apply BitVec.eq_of_toNat_eq
    rw [BitVec.toNat_append, BitVec.toNat_ofNat, Nat.shiftLeft_eq]
    change c.bootAddrHi.toNat * 512 ||| 0 = _
    rw [Nat.or_zero, Nat.mod_eq_of_lt (by omega)]

/-- Settles O11: the four modes; in mode 3 by what the sequence leaves the processor doing. -/
theorem powerUpLoadsStart : Obligations.PowerUpLoadsStart := by
  refine ⟨fun s hinputs hbus hrun hpok => ?_, fun s t c hinputs hbus hrun htrap => ?cut⟩
  case cut =>
    rw [step_powerTrap hinputs hbus hrun]
    exact ⟨startTrap_ran htrap, fun d => startTrap_cut htrap⟩
  rw [step_powerWait hinputs hbus hrun hpok]
  refine ⟨fun hmode hquiet h24 h26 => ?mode0, fun hmode => ?mode1, fun hmode => ?mode2, fun t hmode htrap => ?mode3⟩
  case mode0 => simp only [powerUp, hmode, loadStart_ram hquiet h24 h26, startProgram]
  case mode1 => simp only [powerUp, hmode]
  case mode2 => simp only [powerUp, hmode, bootAddress_eq, startProgram]
  case mode3 =>
    have hpower : powerUp s = startTrap .reservedInstruction s := by simp only [powerUp, hmode]
    rw [hpower]
    exact ⟨⟨startTrap_ran htrap, fun d => startTrap_cut htrap⟩, rfl⟩

end Sys2Proof.Machine
end

section
/-! PROOFS. An abort of an operand's reference (spec/40_addressing_modes.md R201, spec/41_single_operand.md R224,
spec/60_exceptions.md R544): each shape is its references in order, a reference that aborts ends it, and all of them leave the PS. -/

namespace Sys2Proof.Machine

open Sys2Proof.Spec

/-! ## The PS through the references to an operand -/

/-- The same PS. -/
def SamePs (s t : State) : Prop := t.ps = s.ps

theorem Res.Sat.control_ps {α : Type} {s : State} {x : Res α} (h : x.Sat (SameControl s)) : x.Sat (SamePs s) := by
  cases x with
  | ok a t => exact h.1
  | trap c t => exact h.1
  | fault e => trivial
  | refused r => trivial

theorem Res.Sat.thenPs {α β : Type} {s : State} {x : Res α} {f : α → State → Res β} (hx : x.Sat (SamePs s))
    (hf : ∀ a t, (f a t).Sat (SamePs t)) : (x.bind f).Sat (SamePs s) := by
  refine hx.bind fun a t ht => ?_
  have h := hf a t
  revert h
  cases f a t with
  | ok b u => exact fun h => h.trans ht
  | trap c u => exact fun h => h.trans ht
  | fault e => exact id
  | refused r => exact id

/-- A reference from a state with the same PS. -/
theorem Res.Sat.fromPs {α : Type} {s u : State} {x : Res α} (hu : u.ps = s.ps) (h : x.Sat (SamePs u)) : x.Sat (SamePs s) := by
  cases x with
  | ok a t => exact h.trans hu
  | trap c t => exact h.trans hu
  | fault e => trivial
  | refused r => trivial

theorem fetchWord_samePs (s : State) : (fetchWord s).Sat (SamePs s) :=
  (readWord_control s.pc { s with pc := s.pc + 2 }).control_ps

theorem locate_samePs (n : Nat) (o : Operand) (s : State) : (locate n o s).Sat (SamePs s) := by
  obtain ⟨m, r⟩ := o
  have hread (va : Word) (s : State) : ((readWord va s).bind fun p s => Res.ok (Loc.mem p) s).Sat (SamePs s) :=
    (readWord_control va s).control_ps.thenPs fun _ _ => rfl
  cases m with
  | reg => exact Eq.refl s.ps
  | deferred => exact Eq.refl s.ps
  | autoInc => exact State.setReg_ps s r _
  | autoIncDef => exact (hread _ _).fromPs (State.setReg_ps s r _)
  | autoDec => exact (State.noteStackReg_ps _ r _).trans (State.setReg_ps s r _)
  | autoDecDef => exact (hread _ _).fromPs ((State.noteStackReg_ps _ r _).trans (State.setReg_ps s r _))
  | index => exact (fetchWord_samePs s).thenPs fun _ _ => rfl
  | indexDef => exact (fetchWord_samePs s).thenPs fun _ t => hread _ t

theorem placeOf_samePs (k : Access) (l : Loc) (s : State) : (placeOf k l s).Sat (SamePs s) := by
  cases l with
  | reg r => exact Eq.refl s.ps
  | mem va => exact (translate_control s.mode va k s).control_ps.thenPs fun _ _ => rfl

theorem readPlace_samePs (p : Place) (s : State) : (readPlace p s).Sat (SamePs s) := by
  cases p with
  | reg r => exact Eq.refl s.ps
  | phys a => exact (physRead_control a s).control_ps

theorem readPlaceByte_samePs (p : Place) (s : State) : (readPlaceByte p s).Sat (SamePs s) := by
  cases p with
  | reg r => exact Eq.refl s.ps
  | phys a => exact (physReadByte_control a s).control_ps

theorem wordPlace_samePs (k : Access) (o : Operand) (s : State) : (wordPlace k o s).Sat (SamePs s) :=
  (locate_samePs 2 o s).thenPs (placeOf_samePs k)

theorem bytePlace_samePs (k : Access) (o : Operand) (s : State) : (bytePlace k o s).Sat (SamePs s) :=
  (locate_samePs 1 o s).thenPs (placeOf_samePs k)

theorem loadWord_samePs (o : Operand) (s : State) : (loadWord o s).Sat (SamePs s) :=
  (locate_samePs 2 o s).thenPs fun l t => (placeOf_samePs .read l t).thenPs readPlace_samePs

theorem loadByte_samePs (o : Operand) (s : State) : (loadByte o s).Sat (SamePs s) :=
  (locate_samePs 1 o s).thenPs fun l t => (placeOf_samePs .read l t).thenPs readPlaceByte_samePs

/-! ## A write that aborts leaves the PS, and aborts whatever the condition codes are -/

theorem rewritePlace_abort {p : Place} {x : Word} {s t : State} {c : Trap} (h : rewritePlace p x s = .trap c t) (cc : CC) :
    commit cc (rewritePlace p x) s = .trap c t ∧ t.ps = s.ps := by
  cases p with
  | reg r => cases h
  | phys a => exact ⟨commit_abort h (cycleWrite_trap_setCC h cc), by rw [cycleWrite_trap h]⟩

theorem rewritePlaceByte_abort {p : Place} {x : Byte} {s t : State} {c : Trap} (h : rewritePlaceByte p x s = .trap c t) (cc : CC) :
    commit cc (rewritePlaceByte p x) s = .trap c t ∧ t.ps = s.ps := by
  cases p with
  | reg r => cases h
  | phys a => exact ⟨commit_abort h (cycleWriteByte_trap_setCC h cc), by rw [cycleWriteByte_trap h]⟩

/-- A store whose abort does not depend on the condition codes. -/
def AbortsAlike (f : State → Res Unit) : Prop := ∀ s t c x, f s = .trap c t → ∃ z, f (s.setCC x) = .trap c z

theorem AbortsAlike.commit {f : State → Res Unit} (hf : AbortsAlike f) {s t : State} {c : Trap} (h : f s = .trap c t) (cc : CC) :
    commit cc f s = .trap c t := by
  obtain ⟨z, hz⟩ := hf s t c cc h
  exact commit_abort h hz

theorem AbortsAlike.at_place {W : Place → State → Res Unit} (hW : ∀ p, AbortsAlike (W p)) (l : Loc) :
    AbortsAlike fun s => (placeOf .write l s).bind W := by
  intro s t c x h
  obtain h | ⟨p, u, hu, h⟩ := Res.bind_eq_trap.mp h
  · exact ⟨t.setCC x, by simp only [placeOf_setCC, h, Res.mapState, Res.bind_trap]⟩
  · obtain ⟨z, hz⟩ := hW p u t c x h
    exact ⟨z, by simp only [placeOf_setCC, hu, Res.mapState, Res.bind_ok, hz]⟩

theorem writePlace_abortsAlike (x : Word) (p : Place) : AbortsAlike (writePlace p x) := by
  intro s t c cc h
  cases p with
  | reg r => cases h
  | phys a => exact ⟨_, physWrite_trap_setCC h cc⟩

theorem writePlaceByte_abortsAlike (x : Byte) (p : Place) : AbortsAlike (writePlaceByte p x) := by
  intro s t c cc h
  cases p with
  | reg r => cases h
  | phys a => exact ⟨_, physWriteByte_trap_setCC h cc⟩

theorem writePlaceByteExt_abortsAlike (x : Byte) (p : Place) : AbortsAlike (writePlaceByteExt p x) := by
  intro s t c cc h
  cases p with
  | reg r => cases h
  | phys a => exact ⟨_, physWriteByte_trap_setCC h cc⟩

theorem writePlace_abort_ps {p : Place} {x : Word} {s t : State} {c : Trap} (h : writePlace p x s = .trap c t) : t.ps = s.ps := by
  cases p with
  | reg r => cases h
  | phys a => exact (physWrite_trap_control h).1

theorem writePlaceByte_abort_ps {p : Place} {x : Byte} {s t : State} {c : Trap} (h : writePlaceByte p x s = .trap c t) :
    t.ps = s.ps := by
  cases p with
  | reg r => cases h
  | phys a => exact (physWriteByte_trap_control h).1

/-! ## The single operand shapes -/

section
variable {o : Operand} {s t u v : State} {p : Place} {c : Trap}

theorem modifyWord_eq (f : Alu1 16) (o : Operand) (s : State) :
    modifyWord f o s = (wordPlace .write o s).bind fun p s => (readPlace p s).bind fun d s =>
      commit (f d s.cc).2 (rewritePlace p (f d s.cc).1) s := by
  rw [wordPlace, Res.bind_bind]; rfl

theorem modifyByte_eq (f : Alu1 8) (o : Operand) (s : State) :
    modifyByte f o s = (bytePlace .write o s).bind fun p s => (readPlaceByte p s).bind fun d s =>
      commit (f d s.cc).2 (rewritePlaceByte p (f d s.cc).1) s := by
  rw [bytePlace, Res.bind_bind]; rfl

theorem modifyWord_operand_abort (f : Alu1 16)
    (h : wordPlace .write o s = .trap c t ∨ ∃ p u, wordPlace .write o s = .ok p u ∧ readPlace p u = .trap c t) :
    modifyWord f o s = .trap c t ∧ t.ps = s.ps := by
  rw [modifyWord_eq]
  obtain h | ⟨p, u, hp, h⟩ := h
  · exact ⟨by rw [h, Res.bind_trap], (wordPlace_samePs .write o s).of_trap h⟩
  · exact ⟨by rw [hp, Res.bind_ok, h, Res.bind_trap],
      ((readPlace_samePs p u).of_trap h).trans ((wordPlace_samePs .write o s).of_ok hp)⟩

theorem modifyByte_operand_abort (f : Alu1 8)
    (h : bytePlace .write o s = .trap c t ∨ ∃ p u, bytePlace .write o s = .ok p u ∧ readPlaceByte p u = .trap c t) :
    modifyByte f o s = .trap c t ∧ t.ps = s.ps := by
  rw [modifyByte_eq]
  obtain h | ⟨p, u, hp, h⟩ := h
  · exact ⟨by rw [h, Res.bind_trap], (bytePlace_samePs .write o s).of_trap h⟩
  · exact ⟨by rw [hp, Res.bind_ok, h, Res.bind_trap],
      ((readPlaceByte_samePs p u).of_trap h).trans ((bytePlace_samePs .write o s).of_ok hp)⟩

theorem modifyWord_write_abort {d : Word} (f : Alu1 16) (hp : wordPlace .write o s = .ok p u) (hd : readPlace p u = .ok d v)
    (h : rewritePlace p (f d s.cc).1 v = .trap c t) : modifyWord f o s = .trap c t ∧ t.ps = s.ps := by
  have hps : v.ps = s.ps := (readPlace_ps hd).trans ((wordPlace_samePs .write o s).of_ok hp)
  obtain ⟨hcommit, ht⟩ := rewritePlace_abort h (f d s.cc).2
  exact ⟨by rw [modifyWord_eq, hp, Res.bind_ok, hd, Res.bind_ok, State.cc_of_ps hps, hcommit], ht.trans hps⟩

theorem modifyByte_write_abort {d : Byte} (f : Alu1 8) (hp : bytePlace .write o s = .ok p u) (hd : readPlaceByte p u = .ok d v)
    (h : rewritePlaceByte p (f d s.cc).1 v = .trap c t) : modifyByte f o s = .trap c t ∧ t.ps = s.ps := by
  have hps : v.ps = s.ps := (readPlaceByte_ps hd).trans ((bytePlace_samePs .write o s).of_ok hp)
  obtain ⟨hcommit, ht⟩ := rewritePlaceByte_abort h (f d s.cc).2
  exact ⟨by rw [modifyByte_eq, hp, Res.bind_ok, hd, Res.bind_ok, State.cc_of_ps hps, hcommit], ht.trans hps⟩

theorem testWord_abort (f : Alu1 16) (h : loadWord o s = .trap c t) : testWord f o s = .trap c t ∧ t.ps = s.ps :=
  ⟨by rw [testWord, h, Res.bind_trap], (loadWord_samePs o s).of_trap h⟩

theorem testByte_abort (f : Alu1 8) (h : loadByte o s = .trap c t) : testByte f o s = .trap c t ∧ t.ps = s.ps :=
  ⟨by rw [testByte, h, Res.bind_trap], (loadByte_samePs o s).of_trap h⟩

/-- The end of an instruction that stores without reading its destination: the specifier, then the codes and the write. A specifier
that aborts ends it, whatever is to be stored. -/
theorem store_operand_abort {n : Nat} {F : State → Place → State → Res Unit} (cc : State → CC)
    (hF : ∀ u p, AbortsAlike (F u p)) (h : (locate n o s).bind (placeOf .write) = .trap c t) :
    ((locate n o s).bind fun l u => commit (cc u) (fun s => (placeOf .write l s).bind (F u)) u) = .trap c t := by
  obtain h | ⟨l, u, hl, h⟩ := Res.bind_eq_trap.mp h
  · rw [h, Res.bind_trap]
  · rw [hl, Res.bind_ok]
    exact (AbortsAlike.at_place (hF u) l).commit (by rw [h, Res.bind_trap]) _

/-- Or the write aborts. -/
theorem store_write_abort {n : Nat} {F : State → Place → State → Res Unit} {G : State → Res Unit} (cc : State → CC)
    (hF : ∀ u p, AbortsAlike (F u p)) (hp : (locate n o s).bind (placeOf .write) = .ok p u)
    (hG : ∀ l z, locate n o s = .ok l z → placeOf .write l z = .ok p u → F z p = G) (h : G u = .trap c t) :
    ((locate n o s).bind fun l u => commit (cc u) (fun s => (placeOf .write l s).bind (F u)) u) = .trap c t := by
  obtain ⟨l, z, hl, hp⟩ := Res.bind_eq_ok.mp hp
  rw [hl, Res.bind_ok]
  exact (AbortsAlike.at_place (hF z) l).commit (by rw [hp, Res.bind_ok, hG l z hl hp, h]) _

theorem setWord_operand_abort (f : Alu1 16) (h : wordPlace .write o s = .trap c t) :
    setWord f o s = .trap c t ∧ t.ps = s.ps :=
  ⟨store_operand_abort _ (fun _ p => writePlace_abortsAlike _ p) h, (wordPlace_samePs .write o s).of_trap h⟩

theorem setByte_operand_abort (f : Alu1 8) (h : bytePlace .write o s = .trap c t) :
    setByte f o s = .trap c t ∧ t.ps = s.ps :=
  ⟨store_operand_abort _ (fun _ p => writePlaceByte_abortsAlike _ p) h, (bytePlace_samePs .write o s).of_trap h⟩

theorem setWord_write_abort (f : Alu1 16) (hp : wordPlace .write o s = .ok p u)
    (h : writePlace p (f 0 s.cc).1 u = .trap c t) : setWord f o s = .trap c t ∧ t.ps = s.ps :=
  ⟨store_write_abort _ (fun _ p => writePlace_abortsAlike _ p) hp
      (fun l z hl _ => by rw [State.cc_of_ps (locate_ps hl)]) h,
    (writePlace_abort_ps h).trans ((wordPlace_samePs .write o s).of_ok hp)⟩

theorem setByte_write_abort (f : Alu1 8) (hp : bytePlace .write o s = .ok p u)
    (h : writePlaceByte p (f 0 s.cc).1 u = .trap c t) : setByte f o s = .trap c t ∧ t.ps = s.ps :=
  ⟨store_write_abort _ (fun _ p => writePlaceByte_abortsAlike _ p) hp
      (fun l z hl _ => by rw [State.cc_of_ps (locate_ps hl)]) h,
    (writePlaceByte_abort_ps h).trans ((bytePlace_samePs .write o s).of_ok hp)⟩

end

/-! ## The double operand shapes -/

section
variable {k : Access} {src dst : Operand} {s t u v : State} {p : Place} {c : Trap}

/-- A source that aborts, or a destination after it: `g` is the rest of the instruction, and it too ends with the read of the
destination where it reads one. -/
theorem operandAborts_bind {reads : Bool} (h : operandAborts k reads src dst s c t) (g : Option Word → State → Res Unit)
    (hplace : ∀ y u c t, wordPlace k dst u = .trap c t → g y u = .trap c t)
    (hread : reads = true → ∀ y u p z c t, wordPlace k dst u = .ok p z → readPlace p z = .trap c t → g y u = .trap c t) :
    (sourceWord src s).bind g = .trap c t ∧ t.ps = s.ps := by
  obtain ⟨hm, h⟩ | ⟨hm, h⟩ | ⟨hm, x, u, hx, h⟩ | ⟨hr, x, p, u, hp, h⟩ := h
  · refine ⟨?_, (loadWord_samePs src s).of_trap h⟩
    have hs : sourceWord src s = .trap c t := by
      unfold sourceWord
      split
      · contradiction
      · rw [h, Res.bind_trap]
    rw [hs, Res.bind_trap]
  · exact ⟨by rw [sourceWord_register hm, Res.bind_ok, hplace _ _ _ _ h], (wordPlace_samePs k dst s).of_trap h⟩
  · exact ⟨by rw [sourceWord_memory hm hx, Res.bind_ok, hplace _ _ _ _ h],
      ((wordPlace_samePs k dst u).of_trap h).trans (loadWord_ps hx)⟩
  · have hps : t.ps = s.ps := ((readPlace_samePs p u).of_trap h).trans ((sourceAndPlace_frame hp).ps_eq rfl)
    obtain ⟨y, z, hy, hz, -⟩ := sourceAndPlace_parts hp
    exact ⟨by rw [hy, Res.bind_ok, hread hr y z p u c t hz h], hps⟩

/-- The byte form. -/
theorem operandAbortsByte_bind {reads : Bool} (h : operandAbortsByte k reads src dst s c t) (g : Option Byte → State → Res Unit)
    (hplace : ∀ y u c t, bytePlace k dst u = .trap c t → g y u = .trap c t)
    (hread : reads = true → ∀ y u p z c t, bytePlace k dst u = .ok p z → readPlaceByte p z = .trap c t → g y u = .trap c t) :
    (sourceByte src s).bind g = .trap c t ∧ t.ps = s.ps := by
  obtain ⟨hm, h⟩ | ⟨hm, h⟩ | ⟨hm, x, u, hx, h⟩ | ⟨hr, x, p, u, hp, h⟩ := h
  · refine ⟨?_, (loadByte_samePs src s).of_trap h⟩
    have hs : sourceByte src s = .trap c t := by
      unfold sourceByte
      split
      · contradiction
      · rw [h, Res.bind_trap]
    rw [hs, Res.bind_trap]
  · exact ⟨by rw [sourceByte_register hm, Res.bind_ok, hplace _ _ _ _ h], (bytePlace_samePs k dst s).of_trap h⟩
  · exact ⟨by rw [sourceByte_memory hm hx, Res.bind_ok, hplace _ _ _ _ h],
      ((bytePlace_samePs k dst u).of_trap h).trans (loadByte_ps hx)⟩
  · have hps : t.ps = s.ps := ((readPlaceByte_samePs p u).of_trap h).trans ((sourceAndPlaceByte_frame hp).ps_eq rfl)
    obtain ⟨y, z, hy, hz, -⟩ := sourceAndPlaceByte_parts hp
    exact ⟨by rw [hy, Res.bind_ok, hread hr y z p u c t hz h], hps⟩

/-- A destination that is read: the place, then the read, then the rest. -/
theorem readDestination_abort {g : Place → Word → State → Res Unit}
    (h : wordPlace k dst u = .trap c t ∨ ∃ p z, wordPlace k dst u = .ok p z ∧ readPlace p z = .trap c t) :
    ((locate 2 dst u).bind fun l s => (placeOf k l s).bind fun p s => (readPlace p s).bind (g p)) = .trap c t := by
  rw [← Res.bind_bind (f := placeOf k)]
  obtain h | ⟨p, z, hp, h⟩ := h
  · rw [show (locate 2 dst u).bind (placeOf k) = _ from h, Res.bind_trap]
  · rw [show (locate 2 dst u).bind (placeOf k) = _ from hp, Res.bind_ok, h, Res.bind_trap]

/-- The byte form. -/
theorem readDestinationByte_abort {g : Place → Byte → State → Res Unit}
    (h : bytePlace k dst u = .trap c t ∨ ∃ p z, bytePlace k dst u = .ok p z ∧ readPlaceByte p z = .trap c t) :
    ((locate 1 dst u).bind fun l s => (placeOf k l s).bind fun p s => (readPlaceByte p s).bind (g p)) = .trap c t := by
  rw [← Res.bind_bind (f := placeOf k)]
  obtain h | ⟨p, z, hp, h⟩ := h
  · rw [show (locate 1 dst u).bind (placeOf k) = _ from h, Res.bind_trap]
  · rw [show (locate 1 dst u).bind (placeOf k) = _ from hp, Res.bind_ok, h, Res.bind_trap]

theorem combineWord_operand_abort (f : Alu2 16) (h : operandAborts .write true src dst s c t) :
    combineWord f src dst s = .trap c t ∧ t.ps = s.ps :=
  operandAborts_bind h _ (fun _ _ _ _ h => readDestination_abort (.inl h))
    fun _ _ _ p z _ _ hp h => readDestination_abort (.inr ⟨p, z, hp, h⟩)

theorem combineByte_operand_abort (f : Alu2 8) (h : operandAbortsByte .write true src dst s c t) :
    combineByte f src dst s = .trap c t ∧ t.ps = s.ps :=
  operandAbortsByte_bind h _ (fun _ _ _ _ h => readDestinationByte_abort (.inl h))
    fun _ _ _ p z _ _ hp h => readDestinationByte_abort (.inr ⟨p, z, hp, h⟩)

theorem compareWord_operand_abort (f : Alu2 16) (h : operandAborts .read true src dst s c t) :
    compareWord f src dst s = .trap c t ∧ t.ps = s.ps :=
  operandAborts_bind h _ (fun _ _ _ _ h => readDestination_abort (.inl h))
    fun _ _ _ p z _ _ hp h => readDestination_abort (.inr ⟨p, z, hp, h⟩)

theorem compareByte_operand_abort (f : Alu2 8) (h : operandAbortsByte .read true src dst s c t) :
    compareByte f src dst s = .trap c t ∧ t.ps = s.ps :=
  operandAbortsByte_bind h _ (fun _ _ _ _ h => readDestinationByte_abort (.inl h))
    fun _ _ _ p z _ _ hp h => readDestinationByte_abort (.inr ⟨p, z, hp, h⟩)

theorem moveWord_operand_abort (f : Alu2 16) (h : operandAborts .write false src dst s c t) :
    moveWord f src dst s = .trap c t ∧ t.ps = s.ps :=
  operandAborts_bind h _ (fun _ _ _ _ h => store_operand_abort _ (fun _ p => writePlace_abortsAlike _ p) h) (by simp)

theorem moveByte_operand_abort (f : Alu2 8) (h : operandAbortsByte .write false src dst s c t) :
    moveByte f src dst s = .trap c t ∧ t.ps = s.ps :=
  operandAbortsByte_bind h _ (fun _ _ _ _ h => store_operand_abort _ (fun _ p => writePlaceByteExt_abortsAlike _ p) h) (by simp)

theorem moveWord_write_abort {x : Word} (f : Alu2 16) (hp : sourceAndPlace .write src dst s x p u)
    (h : writePlace p (f x 0 s.cc).1 u = .trap c t) : moveWord f src dst s = .trap c t ∧ t.ps = s.ps := by
  have hu : u.ps = s.ps := (sourceAndPlace_frame hp).ps_eq rfl
  obtain ⟨y, w, hy, hw, rfl⟩ := sourceAndPlace_parts hp
  refine ⟨?_, (writePlace_abort_ps h).trans hu⟩
  rw [moveWord, hy, Res.bind_ok]
  refine store_write_abort _ (fun _ p => writePlace_abortsAlike _ p) hw (fun l z _ hz => ?_) h
  rw [State.cc_of_ps ((placeOf_ps hz).symm.trans hu), lateWord_congr y (placeOf_reg hz src.reg).symm]

theorem moveByte_write_abort {x : Byte} (f : Alu2 8) (hp : sourceAndPlaceByte .write src dst s x p u)
    (h : writePlaceByteExt p (f x 0 s.cc).1 u = .trap c t) (hps : t.ps = u.ps) :
    moveByte f src dst s = .trap c t ∧ t.ps = s.ps := by
  have hu : u.ps = s.ps := (sourceAndPlaceByte_frame hp).ps_eq rfl
  obtain ⟨y, w, hy, hw, rfl⟩ := sourceAndPlaceByte_parts hp
  refine ⟨?_, hps.trans hu⟩
  rw [moveByte, hy, Res.bind_ok]
  refine store_write_abort _ (fun _ p => writePlaceByteExt_abortsAlike _ p) hw (fun l z _ hz => ?_) h
  rw [State.cc_of_ps ((placeOf_ps hz).symm.trans hu), lateByte_congr y (placeOf_reg hz src.reg).symm]

/-- A byte write that aborts is one to memory, where both forms of it are the same. -/
theorem writePlaceByteExt_abort {x : Byte} (h : writePlaceByte p x u = .trap c t) : writePlaceByteExt p x u = .trap c t := by
  cases p with
  | reg r => cases h
  | phys a => exact h

theorem combineWord_write_abort {x d : Word} (f : Alu2 16) (hp : sourceAndPlace .write src dst s x p u)
    (hd : readPlace p u = .ok d v) (h : rewritePlace p (f x d s.cc).1 v = .trap c t) :
    combineWord f src dst s = .trap c t ∧ t.ps = s.ps := by
  have hps : v.ps = s.ps := (readPlace_ps hd).trans ((sourceAndPlace_frame hp).ps_eq rfl)
  obtain ⟨hcommit, ht⟩ := rewritePlace_abort h (f x d s.cc).2
  exact ⟨by rw [combineWord_eq_commit f hp hd, hcommit], ht.trans hps⟩

theorem combineByte_write_abort {x d : Byte} (f : Alu2 8) (hp : sourceAndPlaceByte .write src dst s x p u)
    (hd : readPlaceByte p u = .ok d v) (h : rewritePlaceByte p (f x d s.cc).1 v = .trap c t) :
    combineByte f src dst s = .trap c t ∧ t.ps = s.ps := by
  have hps : v.ps = s.ps := (readPlaceByte_ps hd).trans ((sourceAndPlaceByte_frame hp).ps_eq rfl)
  obtain ⟨hcommit, ht⟩ := rewritePlaceByte_abort h (f x d s.cc).2
  exact ⟨by rw [combineByte_eq_commit f hp hd, hcommit], ht.trans hps⟩

end

/-! ## Every instruction of these shapes -/

/-- What a shape that aborts makes of the instruction. -/
theorem exec_abort {i : Instr} {s t : State} {c : Trap} {x : Res Unit} (hi : exec i s = finish x)
    (h : x = .trap c t ∧ t.ps = s.ps) : exec i s = enterTrap c t ∧ t.ps = s.ps :=
  ⟨by rw [hi, h.1, finish_trap], h.2⟩

theorem double_operand_abort {i : Instr} {src dst : Operand} {s t : State} {c : Trap}
    (h : (∃ f, combinesWord i = some (src, dst, f)) ∧ operandAborts .write true src dst s c t ∨
      (∃ f, comparesWord i = some (src, dst, f)) ∧ operandAborts .read true src dst s c t ∨
      i = .mov src dst ∧ operandAborts .write false src dst s c t) : exec i s = enterTrap c t ∧ t.ps = s.ps := by
  obtain ⟨⟨f, hi⟩, h⟩ | ⟨⟨f, hi⟩, h⟩ | ⟨rfl, h⟩ := h
  · exact exec_abort (exec_combinesWord hi s) (combineWord_operand_abort f h)
  · obtain ⟨g, -, hg⟩ := exec_comparesWord hi
    exact exec_abort (hg s) (compareWord_operand_abort g h)
  · exact exec_abort (exec_mov src dst s) (moveWord_operand_abort aluMov h)

/-- The byte form. -/
theorem double_operand_abort_byte {i : Instr} {src dst : Operand} {s t : State} {c : Trap}
    (h : (∃ f, combinesByte i = some (src, dst, f)) ∧ operandAbortsByte .write true src dst s c t ∨
      (∃ f, comparesByte i = some (src, dst, f)) ∧ operandAbortsByte .read true src dst s c t ∨
      i = .movb src dst ∧ operandAbortsByte .write false src dst s c t) : exec i s = enterTrap c t ∧ t.ps = s.ps := by
  obtain ⟨⟨f, hi⟩, h⟩ | ⟨⟨f, hi⟩, h⟩ | ⟨rfl, h⟩ := h
  · exact exec_abort (exec_combinesByte hi s) (combineByte_operand_abort f h)
  · obtain ⟨g, -, hg⟩ := exec_comparesByte hi
    exact exec_abort (hg s) (compareByte_operand_abort g h)
  · exact exec_abort (exec_movb src dst s) (moveByte_operand_abort aluMov h)

/-- Settles O25: each shape ends at the reference that aborts. -/
theorem operandAbortIsTaken : Obligations.OperandAbortIsTaken := by
  refine ⟨?_, ?_, ?_, ?_, ?_, ?_, ?_, ?_, ?_, ?_, ?_, ?_, ?_, ?_, ?_, ?_, ?_⟩
  · exact fun i o f s c t hi h => exec_abort (exec_rewritesWord hi s) (modifyWord_operand_abort f h)
  · exact fun i o f s c t hi h => exec_abort (exec_rewritesByte hi s) (modifyByte_operand_abort f h)
  · exact fun o s c t h => exec_abort (exec_tst o s) (testWord_abort aluTst h)
  · exact fun o s c t h => exec_abort (exec_tstb o s) (testByte_abort aluTst h)
  · rintro i o s c t (rfl | rfl) h
    · exact exec_abort (exec_clr o s) (setWord_operand_abort aluClr h)
    · exact exec_abort (exec_sxt o s) (setWord_operand_abort aluSxt h)
  · exact fun o s c t h => exec_abort (exec_clrb o s) (setByte_operand_abort aluClr h)
  · exact fun i src dst s c t h => double_operand_abort h
  · exact fun i src dst s c t h => double_operand_abort_byte h
  · intro src dst s x p u c t hp h
    exact exec_abort (exec_mov src dst s) (moveWord_write_abort aluMov hp (by rw [aluMov_eq]; exact h))
  · intro src dst s x p u c t hp h
    exact exec_abort (exec_movb src dst s)
      (moveByte_write_abort aluMov hp (by rw [aluMov_eq]; exact writePlaceByteExt_abort h) (writePlaceByte_abort_ps h))
  · exact fun o s p u c t hp h => exec_abort (exec_clr o s) (setWord_write_abort aluClr hp h)
  · exact fun o s p u c t hp h => exec_abort (exec_clrb o s) (setByte_write_abort aluClr hp h)
  · exact fun o s p u c t hp h => exec_abort (exec_sxt o s) (setWord_write_abort aluSxt hp h)
  · exact fun i o f s p u d v c t hi hp hd h => exec_abort (exec_rewritesWord hi s) (modifyWord_write_abort f hp hd h)
  · exact fun i o f s p u d v c t hi hp hd h => exec_abort (exec_rewritesByte hi s) (modifyByte_write_abort f hp hd h)
  · exact fun i src dst f s x p u d v c t hi hp hd h =>
      exec_abort (exec_combinesWord hi s) (combineWord_write_abort f hp hd h)
  · exact fun i src dst f s x p u d v c t hi hp hd h =>
      exec_abort (exec_combinesByte hi s) (combineByte_write_abort f hp hd h)

end Sys2Proof.Machine
end

section
/-! PROOFS. The floating point option's shared pieces (spec/47_fp_state_formats.md R430 to R456, spec/48_fp_instructions.md R470
to R478): a specifier's place, an accumulator's datum, the codes, and the end of an instruction with its exception; then the mode
bits (R498 to R501, R505) and the opcode error (R455, R456). -/

namespace Sys2Proof.Machine

open Sys2Proof.Spec

/-! ## The option -/

theorem withFpp_present {s : State} (h : s.cfg.fpp = true) (body : State → Res Unit) : withFpp body s = body s := if_pos h

theorem withFpp_absent {s : State} (h : s.cfg.fpp = false) (body : State → Res Unit) :
    withFpp body s = .trap .reservedInstruction s := if_neg (by rw [h]; decide)

/-! ## Codes and the end of an instruction -/

theorem State.setFCC_fps (s : State) (x : CC) : (s.setFCC x).fps = s.fps.extractLsb' 4 12 ++ x.bits := rfl

/-- The codes lie below the enable bits. -/
theorem State.setFCC_fps_bit (s : State) (x : CC) {k : Nat} (hk : 4 ≤ k) : (s.setFCC x).fps.getLsbD k = s.fps.getLsbD k := by
  rw [State.setFCC_fps, BitVec.getLsbD_append, if_neg (by omega), BitVec.getLsbD_extractLsb']
  have e : 4 + (k - 4) = k := by omega
  rw [e]
  by_cases h : k < 16
  · simp [show k - 4 < 12 by omega]
  · rw [BitVec.getLsbD_of_ge _ _ (by omega : 16 ≤ k), Bool.and_false]

/-- What the end of a floating instruction is when FID stands as it did at its beginning. -/
theorem ends_of_fpEnd {x : Host.Outcome State Fault Refusal} {s t : State} {code : Option (BitVec 4)}
    (hx : x = finish (fpEnd code (startOf s) t)) (hfid : t.fps.getLsbD 14 = s.fps.getLsbD 14) : ends x s code t := by
  cases code with
  | none => exact hx
  | some c =>
    rw [hx]
    simp only [ends, fpEnd, fpException, State.fid, hfid]
    split
    · rfl
    · exact ⟨rfl, rfl⟩

/-- The same of an exception that is not the last of several outcomes. -/
theorem ends_of_fpException {x : Host.Outcome State Fault Refusal} {s t : State} {c : BitVec 4}
    (hx : x = finish (fpException c (startOf s) t)) (hfid : t.fps.getLsbD 14 = s.fps.getLsbD 14) : ends x s (some c) t :=
  ends_of_fpEnd (code := some c) hx hfid

/-! ## The mode bits (R498 to R501, R505) -/

theorem bits_ccOf : ∀ b : BitVec 4, (ccOf b).bits = b := by decide

/-- Four low bits put into a word. -/
theorem extractHigh_append_low (x y : Word) :
    x.extractLsb' 4 12 ++ y.extractLsb' 0 4 = x &&& 0o177760 ||| y &&& 0o17 := by
  apply BitVec.eq_of_getLsbD_eq
  intro k hk
  rw [BitVec.getLsbD_append]
  interval_cases k <;> simp

/-- Settles O58: the words by the decoder, the effects by the shared pieces of the mode instructions. -/
theorem floatingModes : Obligations.FloatingModes := by
  refine ⟨rfl, rfl, rfl, rfl, rfl, fun s hfpp => ⟨?_, ?_, ?_, ?_, ?_⟩⟩
  · exact congrArg finish (withFpp_present hfpp _)
  · exact congrArg finish (withFpp_present hfpp _)
  · exact congrArg finish (withFpp_present hfpp _)
  · exact congrArg finish (withFpp_present hfpp _)
  · refine (congrArg finish (withFpp_present hfpp _)).trans ?_
    rw [finish_ok, State.setCC, bits_ccOf, extractHigh_append_low]

/-! ## The opcode error (R455, R456, R470 step 2) -/

/-- An instruction of the option, without it. -/
theorem exec_withoutFpp {i : Instr} {s : State} {x : Res Unit} (hfpp : s.cfg.fpp = false)
    (hi : exec i s = finish (if s.cfg.fpp then x else .trap .reservedInstruction s)) :
    exec i s = enterTrap .reservedInstruction s := by
  rw [hi, if_neg (by rw [hfpp]; decide), finish_trap]

theorem exec_decodeFloatZero_withoutFpp (n : Nat) {s : State} (hfpp : s.cfg.fpp = false) :
    exec (decodeFloatZero n) s = enterTrap .reservedInstruction s := by
  unfold decodeFloatZero
  repeat' split
  all_goals exact exec_withoutFpp hfpp rfl

/-- Every row of the floating codes is an instruction of the option. -/
theorem exec_decodeFloat_withoutFpp (n : Nat) {s : State} (hfpp : s.cfg.fpp = false) :
    exec (decodeFloat n) s = enterTrap .reservedInstruction s := by
  unfold decodeFloat
  split
  case h_1 =>
    split
    case h_1 => exact exec_decodeFloatZero_withoutFpp n hfpp
    all_goals exact exec_withoutFpp hfpp rfl
  case h_2 => split <;> exact exec_withoutFpp hfpp rfl
  all_goals exact exec_withoutFpp hfpp rfl

theorem decodeWord_floating {w : Word} (h : 0o170000 ≤ w.toNat) : decodeWord w = decodeFloat w.toNat := by
  have hw := w.isLt
  have hn : w.toNat / 4096 = 15 := by omega
  simp only [decodeWord, hn]

/-- A specifier that names no accumulator ends the instruction before anything else is done. -/
theorem exec_opcodeError {i : Instr} {o : Operand} {dbl : Bool} {body : FpPlace → State → Res Unit} {s : State}
    (hfpp : s.cfg.fpp = true) (hm : o.mode = .reg) (hr : o.reg = .r6 ∨ o.reg = .r7)
    (hi : exec i s = finish (withFpp (fpOperand dbl o (startOf s) body) s)) : ends (exec i s) s (some 2) s := by
  have hacc : accOf o.reg = none := by
    obtain h | h := hr
    · rw [h, accOf]
    · rw [h, accOf]
  refine ends_of_fpException (hi.trans ?_) rfl
  rw [withFpp_present hfpp]
  simp only [fpOperand, hm, hacc]

/-- The instructions with an FSRC or FDST specifier evaluate it with the opcode error in view. -/
theorem exec_floatSpecifier {i : Instr} {o : Operand} {b : Bool} (h : floatSpecifier i = some (o, b)) (s : State) :
    ∃ dbl body, exec i s = finish (withFpp (fpOperand dbl o (startOf s) body) s) := by
  unfold floatSpecifier at h
  split at h <;> cases h
  all_goals exact ⟨_, _, rfl⟩

/-- Settles O59: the opcode error of the unassigned codes and of a specifier, and the option that is missing. -/
theorem floatingOpcodeErrors : Obligations.FloatingOpcodeErrors := by
  refine ⟨fun w s hfpp => ⟨?_, ?_⟩, ?_, ?_⟩
  · exact ends_of_fpException (congrArg finish (withFpp_present hfpp _)) rfl
  · exact ends_of_fpException (congrArg finish (withFpp_present hfpp _)) rfl
  · intro i o b s hi hfpp hm hr
    obtain ⟨dbl, body, hexec⟩ := exec_floatSpecifier hi s
    exact exec_opcodeError hfpp hm hr hexec
  · intro i s hwf hi hfpp
    have hword : 0o170000 ≤ (encode i).toNat := by
      rw [toNat_encode]
      exact of_decide_eq_true hi
    rw [← spellingsHaveOneMeaning, ← decodeInvertsEncode i hwf, decodeWord_floating hword]
    exact exec_decodeFloat_withoutFpp _ hfpp

end Sys2Proof.Machine
end

section
/-! PROOFS. Floating operands (spec/47_fp_state_formats.md R433 to R439, spec/48_fp_instructions.md R471 to R474): the place of a
specifier, an accumulator's datum, the words of a datum in memory. The FPS is left by everything that is not a floating instruction,
so that the precision, the codes and the enables are those of the instruction's start throughout. -/

namespace Sys2Proof.Machine

open Sys2Proof.Spec

/-! ## The bits of a datum -/

theorem fpExp_toNat (x : Datum) : (fpExp x).toNat = expOf x := by
  rw [fpExp, BitVec.extractLsb'_toNat, Nat.shiftRight_eq_div_pow, expOf]

theorem fpExp_eq_zero_iff (x : Datum) : fpExp x = 0 ↔ expOf x = 0 := by
  rw [← BitVec.toNat_inj, fpExp_toNat]
  rfl

theorem fpExp_beq_zero (x : Datum) : (fpExp x == 0) = decide (expOf x = 0) := by
  rw [Bool.eq_iff_iff, beq_iff_eq, decide_eq_true_iff, fpExp_eq_zero_iff]

theorem fccOf_eq_floatCodes (x : Datum) (v c : Bool) : fccOf x v c = floatCodes x v c := by
  rw [fccOf, floatCodes, fpExp_beq_zero]
  rfl

/-! ## The FPS through references -/

theorem Frame.fps_eq {w : Allow} {s t : State} (h : Frame w s t) (hw : w.fps = 0) : t.fps = s.fps := by
  have e : ~~~(0 : Word) = BitVec.allOnes 16 := rfl
  have hfps := h.fps
  rwa [hw, e, BitVec.and_allOnes, BitVec.and_allOnes] at hfps

theorem fpPlace_fps {dbl : Bool} {o : Operand} {s t : State} {p : FpPlace} (h : fpPlace dbl o s p t) : t.fps = s.fps :=
  (fpPlace_frame h (touching_permits s o)).fps_eq rfl

theorem readFp_fps {dbl : Bool} {s t : State} {p : FpPlace} {x : Datum} (h : readFp dbl p s = .ok x t) : t.fps = s.fps :=
  (readFp_frame (w := Allow.nothing) h).fps_eq rfl

theorem fpRead_fps {dbl : Bool} {o : Operand} {s t : State} {p : FpPlace} {x : Datum} (h : fpRead dbl o s x p t) :
    t.fps = s.fps :=
  (fpRead_frame h (touching_permits s o)).fps_eq rfl

theorem writeIntReg_fps (r : IntReg) (v : Word) (s : State) : (writeIntReg r v s).fps = s.fps := by
  cases r <;> rfl

theorem physWrite_fps {a : PAddr} {v : Word} {s t : State} (h : physWrite a v s = .ok () t) : t.fps = s.fps := by
  obtain ⟨_, u, hu, h⟩ := Res.bind_eq_ok.mp h
  obtain ⟨m, d, q, b, rfl⟩ := startCycle_eq hu
  unfold cycleWrite at h
  split at h
  · cases h; exact writeIntReg_fps _ _ _
  · obtain ⟨m, d, rfl⟩ := slaveWrite_eq h; rfl

theorem writeWords_fps {ws : List Word} {va : Word} {s t : State} (h : writeWords ws va s = .ok () t) : t.fps = s.fps := by
  induction ws generalizing va s with
  | nil => cases h; rfl
  | cons w ws ih =>
    obtain ⟨_, u, hu, h⟩ := Res.bind_eq_ok.mp h
    obtain ⟨a, z, ha, hz⟩ := Res.bind_eq_ok.mp (show (translate s.mode va .write s).bind (physWrite · w) = _ from hu)
    calc t.fps = u.fps := ih h
      _ = z.fps := physWrite_fps hz
      _ = s.fps := (translate_frame (w := Allow.nothing) ha).fps_eq rfl

/-! ## Accumulators (R439) -/

theorem readAcc_eq_accDatum (dbl : Bool) (i : Fin 6) (s : State) : readAcc dbl i s = accDatum dbl i s := by
  cases dbl <;> rfl

theorem writeAcc_accSet (dbl : Bool) (i : Fin 6) (x : Datum) (s : State) :
    ∃ t, writeAcc dbl i x s = .ok () t ∧ accSet dbl i x s t := by
  cases dbl with
  | true => exact ⟨_, rfl, x.extractLsb' 0 32, fun _ => rfl, rfl⟩
  | false => exact ⟨_, rfl, Config.freeLow s.free, nofun, rfl⟩

theorem accSet_fps {dbl : Bool} {i : Fin 6} {x : Datum} {s t : State} (h : accSet dbl i x s t) : t.fps = s.fps := by
  obtain ⟨lo, -, rfl⟩ := h
  rfl

theorem writeAcc_fps {dbl : Bool} {i : Fin 6} {x : Datum} {s t : State} (h : writeAcc dbl i x s = .ok () t) : t.fps = s.fps := by
  obtain ⟨u, hu, hset⟩ := writeAcc_accSet dbl i x s
  cases hu.symm.trans h
  exact accSet_fps hset

theorem writeFp_fps {dbl : Bool} {p : FpPlace} {x : Datum} {s t : State} (h : writeFp dbl p x s = .ok () t) : t.fps = s.fps := by
  cases p with
  | acc i => exact writeAcc_fps h
  | mem va imm => exact writeWords_fps h

/-! ## The place of a specifier (R472) -/

theorem isImmediate_eq (o : Operand) : isImmediate o = decide (o.mode = .autoInc ∧ o.reg = .r7) := by
  rw [isImmediate, Bool.eq_iff_iff, Bool.and_eq_true, beq_iff_eq, beq_iff_eq, decide_eq_true_iff]

/-- A specifier that evaluates to a place goes on from there. -/
theorem fpOperand_of_place {dbl : Bool} {o : Operand} {s t : State} {p : FpPlace} (h : fpPlace dbl o s p t) (start : Word)
    (body : FpPlace → State → Res Unit) : fpOperand dbl o start body s = body p t := by
  obtain ⟨hm, rfl, i, hi, rfl⟩ | ⟨hm, va, hl, rfl⟩ := h
  · simp only [fpOperand, hm, hi]
  · have hloc : fpLocate dbl o s = .ok va t := by
      rw [fpLocate, fpBytes, hl]
      rfl
    unfold fpOperand
    split
    · contradiction
    · rw [hloc, Res.bind_ok, isImmediate_eq]

/-- The test of an operand from memory is the rule's, wherever the FPS stands as it did at the start. -/
theorem trapsMinusZero_eq {s t : State} (hfps : t.fps = s.fps) (p : FpPlace) (x : Datum) :
    trapsMinusZero p x t = undefinedVariable p x s := by
  cases p with
  | acc i => rfl
  | mem va imm => rw [trapsMinusZero, isMinusZero, fpExp_beq_zero, State.fiuv, hfps]; rfl

theorem undefinedAfter_eq {s t : State} (hfps : t.fps = s.fps) (p : FpPlace) (x : Datum) :
    undefinedAfter p x t = if undefinedVariable p x s then some 12 else none := by
  rw [undefinedAfter, trapsMinusZero_eq hfps]

/-! ## Words of memory with relocation off (R433, R471, R473, R474) -/

/-- The address of the word `k` places on. -/
def wordFrom (va : Word) (k : Nat) : Word := va + BitVec.ofNat 16 (2 * k)

theorem wordFrom_zero (va : Word) : wordFrom va 0 = va := BitVec.add_zero va

theorem wordFrom_succ (va : Word) (k : Nat) : wordFrom (va + 2) k = wordFrom va (k + 1) := by
  have h2 : (2 : Word).toNat = 2 := rfl
  apply BitVec.eq_of_toNat_eq
  simp only [wordFrom, BitVec.toNat_add, BitVec.toNat_ofNat, h2]
  omega

theorem wordAddr_wordFrom_apart (va : Word) {j k : Nat} (hj : j < 4) (hk : k < 4) (h : j ≠ k) :
    wordAddr (unmapped (wordFrom va j)) ≠ wordAddr (unmapped (wordFrom va k)) := by
  have hva := va.isLt
  have ej : (wordFrom va j).toNat = (va.toNat + 2 * j) % 65536 := by
    rw [wordFrom, BitVec.toNat_add, BitVec.toNat_ofNat]; omega
  have ek : (wordFrom va k).toNat = (va.toNat + 2 * k) % 65536 := by
    rw [wordFrom, BitVec.toNat_add, BitVec.toNat_ofNat]; omega
  rw [wordAddr, wordAddr, toNat_unmapped, toNat_unmapped, ej, ek]
  split <;> split <;> omega

/-- The words from `va` on are RAM. -/
def ramFrom (s : State) (va : Word) (n : Nat) : Prop := ∀ k, k < n → isRam s (unmapped (wordFrom va k))

theorem ramFrom.tail {s : State} {va : Word} {n : Nat} (h : ramFrom s va (n + 1)) : ramFrom s (va + 2) n := fun k hk => by
  rw [wordFrom_succ]
  exact h (k + 1) (by omega)

theorem ramFrom.head {s : State} {va : Word} {n : Nat} (h : ramFrom s va (n + 1)) : isRam s (unmapped va) := by
  have h0 := h 0 (by omega)
  rwa [wordFrom_zero] at h0

/-- The words of a memory from `va` on. -/
def wordsOf (m : Memory) : Nat → Word → List Word
  | 0, _ => []
  | n + 1, va => m.readWord (unmapped va) :: wordsOf m n (va + 2)

/-- The memory after words have been stored from `va` on. -/
def storedWords : List Word → Word → Memory → Memory
  | [], _, m => m
  | w :: ws, va, m => storedWords ws (va + 2) (m.writeWord (unmapped va) w)

theorem readWords_ram {s : State} {n : Nat} {va : Word} (hbus : s.busInputs = []) (hoff : s.relocating = false)
    (h : ramFrom s va n) : readWords n va s = .ok (wordsOf s.mem n va) s := by
  induction n generalizing va with
  | zero => rfl
  | succ n ih => simp only [readWords, readWord, readWordMode_ram _ hbus hoff h.head, Res.bind_ok, ih h.tail, wordsOf]

theorem writeWords_ram {s : State} {ws : List Word} {va : Word} (hbus : s.busInputs = []) (hoff : s.relocating = false)
    (h : ramFrom s va ws.length) : writeWords ws va s = .ok () { s with mem := storedWords ws va s.mem } := by
  induction ws generalizing va s with
  | nil => rfl
  | cons w ws ih =>
    have hw : writeWord va w s = .ok () { s with mem := s.mem.writeWord (unmapped va) w } := by
      rw [writeWord, writeWordMode, translate_unmapped hoff, Res.bind_ok, physWrite_ram hbus h.head]
    rw [writeWords, hw, Res.bind_ok]
    exact ih (s := { s with mem := s.mem.writeWord (unmapped va) w }) hbus hoff h.tail

/-- A word apart from those stored keeps its contents. -/
theorem readWord_storedWords_apart {ws : List Word} {va : Word} {m : Memory} {b : PAddr}
    (h : ∀ k, k < ws.length → wordAddr b ≠ wordAddr (unmapped (wordFrom va k))) :
    (storedWords ws va m).readWord b = m.readWord b := by
  induction ws generalizing va m with
  | nil => rfl
  | cons w ws ih =>
    have h0 := h 0 (by simp)
    rw [wordFrom_zero] at h0
    rw [storedWords, ih fun k hk => ?_, Memory.readWord_writeWord_ne m w h0]
    rw [wordFrom_succ]
    exact h (k + 1) (by simpa using hk)

/-- What is stored reads back: four words at most do not reach around to the first. -/
theorem wordsOf_storedWords {ws : List Word} {va : Word} {m : Memory} (hm : m.wf) (hlen : ws.length ≤ 4) :
    wordsOf (storedWords ws va m) ws.length va = ws := by
  induction ws generalizing va m with
  | nil => rfl
  | cons w ws ih =>
    simp only [List.length_cons] at hlen
    have hfirst : (storedWords (w :: ws) va m).readWord (unmapped va) = w := by
      rw [storedWords, readWord_storedWords_apart fun k hk => ?_, Memory.readWord_writeWord hm]
      have h := wordAddr_wordFrom_apart va (j := 0) (k := k + 1) (by omega) (by omega) (by omega)
      rwa [wordFrom_zero, ← wordFrom_succ] at h
    rw [List.length_cons, wordsOf, hfirst]
    exact congrArg (w :: ·) (ih (Memory.wf_writeWord hm _ _) (by omega))

/-! ## A datum and its words -/

theorem toNat_append_eq {a b : Nat} (x : BitVec a) (y : BitVec b) : (x ++ y).toNat = x.toNat * 2 ^ b + y.toNat := by
  rw [BitVec.toNat_append, ← Nat.shiftLeft_add_eq_or_of_lt y.isLt, Nat.shiftLeft_eq]

theorem append_zeros (x : BitVec 16) (y : BitVec 32) :
    x ++ (0 : BitVec 16) ++ (0 : BitVec 16) ++ (0 : BitVec 16) = x ++ (0 : BitVec 48) ∧
      y ++ (0 : BitVec 16) ++ (0 : BitVec 16) = y ++ (0 : BitVec 32) := by
  have hzero (n : Nat) : (0 : BitVec n).toNat = 0 := BitVec.toNat_ofNat _ _
  constructor
  · apply BitVec.eq_of_toNat_eq
    simp only [toNat_append_eq, hzero]
    omega
  · apply BitVec.eq_of_toNat_eq
    simp only [toNat_append_eq, hzero]
    omega

theorem datumOfWords_wordsOfDatum (x : Datum) : datumOfWords (wordsOfDatum x) = x := by
  show x.extractLsb' 48 16 ++ x.extractLsb' 32 16 ++ x.extractLsb' 16 16 ++ x.extractLsb' 0 16 = x
  apply BitVec.eq_of_toNat_eq
  have hx := x.isLt
  simp only [toNat_append_eq, BitVec.extractLsb'_toNat, Nat.shiftRight_eq_div_pow]
  omega

theorem extractHalf (x : Datum) : x.extractLsb' 48 16 ++ x.extractLsb' 32 16 = x.extractLsb' 32 32 := by
  apply BitVec.eq_of_toNat_eq
  simp only [toNat_append_eq, BitVec.extractLsb'_toNat, Nat.shiftRight_eq_div_pow]
  omega

theorem wordsOf_eq_map (m : Memory) (n : Nat) (va : Word) :
    wordsOf m n va = (List.range n).map fun k => m.readWord (unmapped (wordFrom va k)) := by
  induction n generalizing va with
  | zero => rfl
  | succ n ih =>
    rw [wordsOf, ih, List.range_succ_eq_map, List.map_cons, wordFrom_zero, List.map_map]
    simp only [wordFrom_succ, Function.comp_def, Nat.succ_eq_add_one]

section
variable {s : State} {va : Word} (hbus : s.busInputs = []) (hoff : s.relocating = false) (hram : ramFrom s va 4)
include hbus hoff hram

theorem readFp_ram (dbl imm : Bool) :
    readFp dbl (.mem va imm) s =
      .ok (datumOfWords ((List.range (fpWords dbl imm)).map fun k => s.mem.readWord (unmapped (wordFrom va k)))) s := by
  have hn : fpWords dbl imm ≤ 4 := by cases dbl <;> cases imm <;> decide
  rw [readFp, readWords_ram hbus hoff fun k hk => hram k (by omega), Res.bind_ok, wordsOf_eq_map]

/-- What a precision and the immediate mode store of a datum reads back, with zeros for the words that are not stored. -/
theorem writeFp_reads_back (hm : s.mem.wf) (dbl imm : Bool) (x : Datum) :
    ∃ t, writeFp dbl (.mem va imm) x s = .ok () t ∧
      readFp dbl (.mem va imm) t = .ok (datumOfWords ((wordsOfDatum x).take (fpWords dbl imm))) t := by
  have hlen : ((wordsOfDatum x).take (fpWords dbl imm)).length = fpWords dbl imm := by cases dbl <;> cases imm <;> rfl
  have hn : fpWords dbl imm ≤ 4 := by cases dbl <;> cases imm <;> decide
  refine ⟨_, writeWords_ram hbus hoff fun k hk => hram k (by omega), ?_⟩
  have hback := wordsOf_storedWords (va := va) hm (ws := (wordsOfDatum x).take (fpWords dbl imm)) (by omega)
  rw [hlen] at hback
  simp only [readFp]
  rw [readWords_ram (s := { s with mem := storedWords ((wordsOfDatum x).take (fpWords dbl imm)) va s.mem }) hbus hoff
    fun k hk => hram k (by omega), Res.bind_ok, hback]

end

/-- Settles O50: accumulators by their halves, memory by its words. -/
theorem floatingOperands : Obligations.FloatingOperands := by
  refine ⟨fun dbl i s => ?_, fun dbl i x s => writeAcc_accSet dbl i x s, fun va s hm hbus hoff h => ?_⟩
  · rw [readFp, readAcc_eq_accDatum]
  · have hram : ramFrom s va 4 := fun k hk => h ⟨k, hk⟩
    refine ⟨readFp_ram hbus hoff hram true false, ?_, fun dbl => ?_, fun x => ?_⟩
    · rw [readFp_ram hbus hoff hram false false, ← (append_zeros 0 _).2]
      rfl
    · rw [readFp_ram hbus hoff hram dbl true, ← (append_zeros _ 0).1]
      rfl
    · obtain ⟨v1, hw1, hr1⟩ := writeFp_reads_back hbus hoff hram hm true false x
      obtain ⟨v2, hw2, hr2⟩ := writeFp_reads_back hbus hoff hram hm false false x
      obtain ⟨v3, hw3, hr3⟩ := writeFp_reads_back hbus hoff hram hm true true x
      refine ⟨v1, v2, v3, hw1, ?_, hw2, ?_, hw3, ?_⟩
      · exact hr1.trans (congrArg (Res.ok · v1) (datumOfWords_wordsOfDatum x))
      · rw [hr2, ← extractHalf, ← (append_zeros 0 _).2]
        rfl
      · rw [hr3, ← (append_zeros _ 0).1]
        rfl

end Sys2Proof.Machine
end

section
/-! PROOFS. The floating moves (spec/48_fp_instructions.md R480 to R485) and CMP (R490): each instruction as its last act at the
state in which its operand has been reached or read. -/

namespace Sys2Proof.Machine

open Sys2Proof.Spec

/-! ## The mode and enable bits, by the FPS -/

section
variable {s t : State} (h : t.fps = s.fps)
include h

theorem State.fd_of_fps : t.fd = s.fd := by rw [State.fd, State.fd, h]
theorem State.fl_of_fps : t.fl = s.fl := by rw [State.fl, State.fl, h]
theorem State.ft_of_fps : t.ft = s.ft := by rw [State.ft, State.ft, h]
theorem State.fiv_of_fps : t.fiv = s.fiv := by rw [State.fiv, State.fiv, h]
theorem State.fiu_of_fps : t.fiu = s.fiu := by rw [State.fiu, State.fiu, h]
theorem State.fic_of_fps : t.fic = s.fic := by rw [State.fic, State.fic, h]

/-- FID stands, whatever the new codes. -/
theorem State.setFCC_fid (x : CC) : (t.setFCC x).fps.getLsbD 14 = s.fps.getLsbD 14 := by
  rw [State.setFCC_fps_bit t x (by decide), h]

end

/-! ## The sign of a datum (R484, R485) -/

/-- The bits of a packed datum: the fraction, the exponent, the sign. -/
theorem fpPack_getLsbD (neg : Bool) (e : BitVec 8) (t : BitVec 55) (k : Nat) :
    (fpPack neg e t).getLsbD k = if k < 55 then t.getLsbD k else if k < 63 then e.getLsbD (k - 55) else decide (k = 63) && neg := by
  show ((BitVec.ofBool neg ++ e : BitVec 9) ++ t).getLsbD k = _
  rw [BitVec.getLsbD_append, BitVec.getLsbD_append, BitVec.getLsbD_ofBool]
  split
  · rfl
  · have h : k - 55 < 8 ↔ k < 63 := by omega
    have h63 : k - 55 - 8 = 0 ↔ k = 63 ∨ k < 63 := by omega
    simp only [h]
    split
    · rfl
    · next hk => simp [h63, hk]

theorem fpPack_fields (x : Datum) (neg : Bool) {k : Nat} (hk : k < 64) :
    (fpPack neg (fpExp x) (fpFrac x)).getLsbD k = if k = 63 then neg else x.getLsbD k := by
  rw [fpPack_getLsbD, fpExp, fpFrac, BitVec.getLsbD_extractLsb', BitVec.getLsbD_extractLsb']
  by_cases h : k < 55
  · simp [h, show k ≠ 63 by omega]
  · by_cases h' : k < 63
    · simp [h, h', show k ≠ 63 by omega, show k - 55 < 8 by omega, show 55 + (k - 55) = k by omega]
    · simp [show k = 63 by omega]

theorem datumNeg_eq (x : Datum) : datumNeg x = if expOf x = 0 then 0 else x ^^^ 0x8000000000000000 := by
  simp only [datumNeg, fpExp_eq_zero_iff]
  split
  · rfl
  · refine BitVec.eq_of_getLsbD_eq fun k hk => ?_
    rw [fpPack_fields x _ hk, BitVec.getLsbD_xor, show (0x8000000000000000 : Datum) = BitVec.twoPow 64 63 from rfl,
      BitVec.getLsbD_twoPow, fpSign]
    by_cases h : k = 63
    · simp [h]
    · simp [h, Ne.symm h]

theorem datumAbs_eq (x : Datum) : datumAbs x = if expOf x = 0 then 0 else x &&& 0x7fffffffffffffff := by
  simp only [datumAbs, fpExp_eq_zero_iff]
  split
  · rfl
  · refine BitVec.eq_of_getLsbD_eq fun k hk => ?_
    rw [fpPack_fields x _ hk, BitVec.getLsbD_and, show (0x7fffffffffffffff : Datum) = ~~~BitVec.twoPow 64 63 from rfl,
      BitVec.getLsbD_not, BitVec.getLsbD_twoPow]
    by_cases h : k = 63
    · simp [h]
    · simp [h, Ne.symm h, hk]

/-! ## The instructions at their operand -/

section
variable {a : Ac} {o : Operand} {s t u v : State} {x y : Datum} {p : FpPlace} (hfpp : s.cfg.fpp = true)
include hfpp

theorem fpLoad_of_read (h : fpRead s.fd o s x p u) :
    fpLoad a o s = if undefinedVariable p x s then fpException 12 (startOf s) (u.setFCC (floatCodes x false false))
      else writeAcc s.fd (acIndex a) x (u.setFCC (floatCodes x false false)) := by
  have hu := fpRead_fps h
  obtain ⟨z, hp, hx⟩ := h
  rw [fpLoad, withFpp_present hfpp, fpOperand_of_place hp, State.fd_of_fps (fpPlace_fps hp), hx, Res.bind_ok]
  simp only [fccOf_eq_floatCodes, trapsMinusZero_eq hu, State.fd_of_fps hu]

theorem fpStore_of_place (h : fpPlace s.fd o s p t) :
    fpStore a o s = writeFp s.fd p (accDatum s.fd (acIndex a) t) t := by
  rw [fpStore, withFpp_present hfpp, fpOperand_of_place h, State.fd_of_fps (fpPlace_fps h), readAcc_eq_accDatum]

theorem fpClear_of_place (h : fpPlace s.fd o s p t) (hv : writeFp s.fd p 0 t = .ok () v) :
    fpClear o s = .ok () (v.setFCC ⟨false, true, false, false⟩) := by
  rw [fpClear, withFpp_present hfpp, fpOperand_of_place h, State.fd_of_fps (fpPlace_fps h), hv, Res.bind_ok]

theorem fpTest_of_read (h : fpRead s.fd o s x p u) :
    fpTest o s = fpEnd (if undefinedVariable p x s then some 12 else none) (startOf s) (u.setFCC (floatCodes x false false)) := by
  have hu := fpRead_fps h
  obtain ⟨z, hp, hx⟩ := h
  rw [fpTest, withFpp_present hfpp, fpOperand_of_place hp, State.fd_of_fps (fpPlace_fps hp), hx, Res.bind_ok,
    fccOf_eq_floatCodes, undefinedAfter_eq hu]

theorem fpRewrite_of_read (f : Datum → Datum) (h : fpRead s.fd o s x p u) (hv : writeFp s.fd p (f x) u = .ok () v) :
    fpRewrite f o s =
      fpEnd (if undefinedVariable p x s then some 12 else none) (startOf s) (v.setFCC (floatCodes (f x) false false)) := by
  have hu := fpRead_fps h
  have hvfps : v.fps = s.fps := (writeFp_fps hv).trans hu
  obtain ⟨z, hp, hx⟩ := h
  rw [fpRewrite, withFpp_present hfpp, fpOperand_of_place hp, State.fd_of_fps (fpPlace_fps hp), hx, Res.bind_ok,
    State.fd_of_fps hu, hv, Res.bind_ok, fccOf_eq_floatCodes, undefinedAfter_eq hvfps]

/-- The source of an arithmetic instruction (R452, R486). -/
theorem fpSource_of_read (body : Datum → State → Res Unit) (h : fpRead s.fd o s x p u) :
    fpSource o body s = if undefinedVariable p x s then fpException 12 (startOf s) u else body x u := by
  have hu := fpRead_fps h
  obtain ⟨z, hp, hx⟩ := h
  rw [fpSource, withFpp_present hfpp, fpOperand_of_place hp, State.fd_of_fps (fpPlace_fps hp), hx, Res.bind_ok]
  simp only [trapsMinusZero_eq hu]

/-- NEG and ABS, by what they make of the operand. -/
theorem ends_rewrite {i : Instr} {f : Datum → Datum} (hi : exec i s = finish (fpRewrite f o s)) (hy : f x = y)
    (h : fpRead s.fd o s x p u) (hv : writeFp s.fd p y u = .ok () v) :
    ends (exec i s) s (if undefinedVariable p x s then some 12 else none) (v.setFCC (floatCodes y false false)) := by
  subst hy
  exact ends_of_fpEnd (hi.trans (congrArg finish (fpRewrite_of_read hfpp f h hv)))
    (State.setFCC_fid ((writeFp_fps hv).trans (fpRead_fps h)) _)

end

/-- Settles O51: every instruction as its last act at its operand. -/
theorem floatingMoves : Obligations.FloatingMoves := by
  refine ⟨?_, ?_, ?_, ?_, ?_⟩
  · intro i a o s x p u hi hfpp h
    have hexec : exec i s = finish (fpLoad a o s) := by obtain rfl | rfl := hi <;> rfl
    rw [fpLoad_of_read hfpp h] at hexec
    split
    · next hundef =>
      rw [if_pos hundef] at hexec
      exact ends_of_fpException hexec (State.setFCC_fid (fpRead_fps h) _)
    · next hundef =>
      obtain ⟨v, hv, hset⟩ := writeAcc_accSet s.fd (acIndex a) x (u.setFCC (floatCodes x false false))
      rw [if_neg hundef, hv, finish_ok] at hexec
      exact ⟨v, hset, hexec⟩
  · intro i a o s p t v hi hfpp h hv
    have hexec : exec i s = finish (fpStore a o s) := by obtain rfl | rfl := hi <;> rfl
    rw [hexec, fpStore_of_place hfpp h, hv, finish_ok]
  · intro i o s p t v hi hfpp h hv
    have hexec : exec i s = finish (fpClear o s) := by obtain rfl | rfl := hi <;> rfl
    rw [hexec, fpClear_of_place hfpp h hv, finish_ok]
  · intro i o s x p u hi hfpp h
    have hexec : exec i s = finish (fpTest o s) := by obtain rfl | rfl := hi <;> rfl
    exact ends_of_fpEnd (hexec.trans (congrArg finish (fpTest_of_read hfpp h))) (State.setFCC_fid (fpRead_fps h) _)
  · rintro i o s x p u v y (⟨hi, hy⟩ | ⟨hi, hy⟩) hfpp h hv
    · have hexec : exec i s = finish (fpRewrite datumNeg o s) := by obtain rfl | rfl := hi <;> rfl
      exact ends_rewrite hfpp hexec ((datumNeg_eq x).trans hy.symm) h hv
    · have hexec : exec i s = finish (fpRewrite datumAbs o s) := by obtain rfl | rfl := hi <;> rfl
      exact ends_rewrite hfpp hexec ((datumAbs_eq x).trans hy.symm) h hv

end Sys2Proof.Machine
end

section
/-! PROOFS. The exact dyadic numbers of the floating instructions and the numbers they stand for (spec/47_fp_state_formats.md R434,
R441 to R446): sums, products, integer parts, and the one chop or rounding at the end, which looks at the leading bits only, so that
it may also be given the leading bits of a quotient. -/

namespace Sys2Proof.Machine

open Sys2Proof.Spec

/-! ## Values -/

/-- The number that an exact dyadic stands for. -/
def Exact.val (x : Exact) : ℚ := (if x.neg then -1 else 1) * x.m * 2 ^ x.p

theorem two_zpow_pos (p : ℤ) : (0 : ℚ) < 2 ^ p := zpow_pos (by norm_num) p

theorem Exact.abs_val (x : Exact) : |x.val| = x.m * 2 ^ x.p := by
  rw [Exact.val, abs_mul, abs_mul, abs_of_pos (two_zpow_pos x.p), Nat.abs_cast]
  cases x.neg <;> simp

theorem Exact.val_eq_zero_iff (x : Exact) : x.val = 0 ↔ x.m = 0 := by
  rw [← abs_eq_zero, x.abs_val, mul_eq_zero, Nat.cast_eq_zero]
  simp [(two_zpow_pos x.p).ne']

/-- The sign of a number that is not 0. -/
theorem Exact.neg_eq_decide (x : Exact) (h : x.m ≠ 0) : x.neg = decide (x.val < 0) := by
  have hm : (0 : ℚ) < x.m := Nat.cast_pos.mpr (Nat.pos_of_ne_zero h)
  have hp := two_zpow_pos x.p
  have hpos : (0 : ℚ) < x.m * 2 ^ x.p := mul_pos hm hp
  rw [Exact.val]
  cases x.neg with
  | false => simp [hpos.le]
  | true => simp [hpos]

theorem exactOf_val (x : Datum) : (exactOf x).val = datumVal x := by
  rw [exactOf, datumVal]
  simp only [fpExp_eq_zero_iff]
  split
  · simp [Exact.val]
  · have hfrac : (fpFrac x).toNat = x.toNat % 2 ^ 55 := by
      rw [fpFrac, BitVec.extractLsb'_toNat, Nat.shiftRight_eq_div_pow, Nat.pow_zero, Nat.div_one]
    simp only [Exact.val, fpExp_toNat, hfrac, fpSign]
    push_cast
    rfl

/-- A datum's significand has 56 bits, unless the datum counts as 0. -/
theorem exactOf_m (x : Datum) : (expOf x = 0 ∧ (exactOf x).m = 0) ∨ (expOf x ≠ 0 ∧ 2 ^ 55 ≤ (exactOf x).m ∧ (exactOf x).m < 2 ^ 56) := by
  rw [exactOf]
  simp only [fpExp_eq_zero_iff]
  split
  · next h => exact .inl ⟨h, rfl⟩
  · next h =>
    have hlt := (fpFrac x).isLt
    exact .inr ⟨h, by simp only; omega, by simp only; omega⟩

theorem exactInt_val (n : ℤ) : (exactInt n).val = n := by
  rw [exactInt, Exact.val]
  simp only [zpow_zero, mul_one, decide_eq_true_eq]
  rw [Nat.cast_natAbs, Int.cast_abs]
  split
  · next h => rw [abs_of_neg (by exact_mod_cast h)]; ring
  · next h => rw [abs_of_nonneg (by exact_mod_cast not_lt.mp h)]; ring

/-! ## Sums, products, comparisons (R443) -/

theorem Exact.scaled_val (x : Exact) {q : ℤ} (h : q ≤ x.p) : (x.scaled q : ℚ) * 2 ^ q = x.val := by
  have e : (2 : ℚ) ^ (x.p - q).toNat * 2 ^ q = 2 ^ x.p := by
    rw [← zpow_natCast, Int.toNat_of_nonneg (by omega), ← zpow_add₀ (by norm_num), Int.sub_add_cancel]
  rw [Exact.scaled, Exact.val, ← e]
  cases x.neg <;> (push_cast; simp) <;> ring

theorem Exact.val_add (x y : Exact) : (x.add y).val = x.val + y.val := by
  have hx := x.scaled_val (min_le_left x.p y.p)
  have hy := y.scaled_val (min_le_right x.p y.p)
  have hv (v : ℤ) (q : ℤ) : (⟨decide (v < 0), v.natAbs, q⟩ : Exact).val = v * 2 ^ q := by
    have h := exactInt_val v
    rw [exactInt, Exact.val, zpow_zero, mul_one] at h
    rw [Exact.val, h]
  rw [Exact.add, hv, ← hx, ← hy]
  push_cast
  ring

theorem Exact.val_negate (x : Exact) : x.negate.val = -x.val := by
  rw [Exact.negate, Exact.val, Exact.val]
  cases x.neg <;> simp

theorem Exact.val_mul (x y : Exact) : (x.mul y).val = x.val * y.val := by
  rw [Exact.mul, Exact.val, Exact.val, Exact.val, zpow_add₀ (by norm_num)]
  push_cast
  cases x.neg <;> cases y.neg <;> simp <;> ring

theorem compareCodes_eq (x y : Exact) : compareCodes x y = ⟨decide (x.val < y.val), decide (x.val = y.val), false, false⟩ := by
  have hpos := two_zpow_pos (min x.p y.p)
  rw [compareCodes, ← x.scaled_val (min_le_left x.p y.p), ← y.scaled_val (min_le_right x.p y.p)]
  simp [mul_lt_mul_iff_left₀ hpos, hpos.ne']

/-! ## Integer parts (R443, R495) -/

/-- The integer part without its sign. -/
def Exact.whole (x : Exact) : Nat := if 0 ≤ x.p then x.m * 2 ^ x.p.toNat else x.m / 2 ^ (-x.p).toNat

theorem Exact.trunc_eq_whole (x : Exact) : x.trunc = if x.neg then -(x.whole : ℤ) else x.whole := by
  rw [Exact.trunc, Exact.whole]
  simp only [Nat.cast_ite]

theorem Exact.natAbs_trunc (x : Exact) : x.trunc.natAbs = x.whole := by
  rw [x.trunc_eq_whole]
  split <;> simp

theorem Exact.floor_abs_val (x : Exact) : ⌊|x.val|⌋ = x.whole := by
  rw [x.abs_val, Exact.whole]
  split
  · next h =>
    have e : (x.m : ℚ) * 2 ^ x.p = ((x.m * 2 ^ x.p.toNat : ℕ) : ℚ) := by
      push_cast
      rw [← zpow_natCast, Int.toNat_of_nonneg h]
    rw [e, Int.floor_natCast]
  · next h =>
    have e : (x.m : ℚ) * 2 ^ x.p = (x.m : ℚ) / ((2 ^ (-x.p).toNat : ℕ) : ℚ) := by
      push_cast
      rw [← zpow_natCast, Int.toNat_of_nonneg (by omega), zpow_neg, div_inv_eq_mul]
    rw [e, Rat.floor_natCast_div_natCast]
    rfl

theorem Exact.trunc_eq (x : Exact) : x.trunc = (if x.val < 0 then -1 else 1) * ⌊|x.val|⌋ := by
  rw [x.trunc_eq_whole, x.floor_abs_val]
  by_cases h : x.m = 0
  · have hw : x.whole = 0 := by simp [Exact.whole, h]
    simp [hw]
  · have hneg := x.neg_eq_decide h
    by_cases hv : x.val < 0
    · simp [hneg, hv]
    · simp [hneg, hv]

/-! ## The leading bits -/

theorem bitLen_bounds {m : Nat} (h : m ≠ 0) : 0 < bitLen m ∧ 2 ^ (bitLen m - 1) ≤ m ∧ m < 2 ^ bitLen m := by
  rw [bitLen, if_neg h]
  exact ⟨Nat.succ_pos _, Nat.log2_self_le h, Nat.lt_log2_self⟩

/-- `x` has the leading bits of the number `r`: all of them, or more than any precision keeps. -/
structure Exact.Leads (x : Exact) (r : ℚ) : Prop where
  sign : r ≠ 0 → x.neg = decide (r < 0)
  floor : ⌊|r| * 2 ^ (-x.p)⌋ = x.m
  kept : |r| * 2 ^ (-x.p) = x.m ∨ 56 < bitLen x.m

theorem Exact.leads_val (x : Exact) : x.Leads x.val := by
  have e : |x.val| * 2 ^ (-x.p) = x.m := by
    rw [x.abs_val, mul_assoc, ← zpow_add₀ (by norm_num), Int.add_right_neg, zpow_zero, mul_one]
  refine ⟨fun h => x.neg_eq_decide (mt x.val_eq_zero_iff.mpr h), ?_, .inl e⟩
  rw [e, Int.floor_natCast]

theorem abs_eq_scaled (r : ℚ) (p : ℤ) : |r| = |r| * 2 ^ (-p) * 2 ^ p := by
  rw [mul_assoc, ← zpow_add₀ (by norm_num), Int.add_left_neg, zpow_zero, mul_one]

section
variable {x : Exact} {r : ℚ} (h : x.Leads r)
include h

theorem Exact.Leads.eq_zero_iff : r = 0 ↔ x.m = 0 := by
  constructor
  · intro hr
    have hf := h.floor
    rw [hr, abs_zero, zero_mul, Int.floor_zero] at hf
    omega
  · intro hm
    obtain hk | hk := h.kept
    · rw [← abs_eq_zero, abs_eq_scaled r x.p, hk, hm, Nat.cast_zero, zero_mul]
    · rw [hm, bitLen, if_pos rfl] at hk
      omega

/-- The exponent is that of the number (R431). -/
theorem Exact.Leads.exponent_bounds (hm : x.m ≠ 0) : (2 : ℚ) ^ (x.exponent - 1) ≤ |r| ∧ |r| < 2 ^ x.exponent := by
  obtain ⟨hn, hlow, hhigh⟩ := bitLen_bounds hm
  obtain ⟨hle, hlt⟩ := Int.floor_eq_iff.mp h.floor
  have hp := two_zpow_pos x.p
  rw [abs_eq_scaled r x.p, Exact.exponent]
  constructor
  · rw [show x.p + (bitLen x.m : ℤ) - 1 = ((bitLen x.m - 1 : ℕ) : ℤ) + x.p by omega, zpow_add₀ (by norm_num), zpow_natCast]
    refine mul_le_mul_of_nonneg_right (le_trans ?_ hle) hp.le
    exact_mod_cast hlow
  · rw [add_comm x.p, zpow_add₀ (by norm_num), zpow_natCast]
    refine mul_lt_mul_of_pos_right (lt_of_lt_of_le hlt ?_) hp
    exact_mod_cast hhigh

theorem Exact.Leads.lt_exponent_iff (hm : x.m ≠ 0) (n : ℤ) : n < x.exponent ↔ (2 : ℚ) ^ n ≤ |r| := by
  obtain ⟨hlow, hhigh⟩ := h.exponent_bounds hm
  constructor
  · intro hn
    exact le_trans (zpow_le_zpow_right₀ (by norm_num) (by omega)) hlow
  · intro hn
    exact (zpow_lt_zpow_iff_right₀ (by norm_num : (1 : ℚ) < 2)).mp (lt_of_le_of_lt hn hhigh)

end

/-! ## Chopping and rounding (R443) -/

/-- The first `L` of `n` bits. -/
def keptBits (L n m : Nat) : Nat := if L ≤ n then m / 2 ^ (n - L) else m * 2 ^ (L - n)

/-- The first bit lost. -/
def lostBit (L n m : Nat) : Nat := if L < n then m / 2 ^ (n - L - 1) % 2 else 0

theorem roundTo_eq (L : Nat) (chop : Bool) (x : Exact) :
    roundTo L chop x =
      if keptBits L (bitLen x.m) x.m + (if chop then 0 else lostBit L (bitLen x.m) x.m) = 2 ^ L
      then (2 ^ (L - 1), x.exponent + 129)
      else (keptBits L (bitLen x.m) x.m + (if chop then 0 else lostBit L (bitLen x.m) x.m), x.exponent + 128) := by
  cases chop <;> rfl

/-- A number whose integer part is `m`, in units of the last bit kept: chopped, or rounded by the first bit lost. -/
theorem floor_scaled {R : ℚ} {m n L : Nat} (hfloor : ⌊R⌋ = m) (hkept : R = m ∨ L < n) (chop : Bool) :
    ⌊R * 2 ^ ((L : ℤ) - n) + if chop then 0 else 1 / 2⌋ = ((keptBits L n m + if chop then 0 else lostBit L n m : ℕ) : ℤ) := by
  by_cases hL : L < n
  · obtain ⟨k, rfl⟩ : ∃ k, n = L + k + 1 := ⟨n - L - 1, by omega⟩
    have hscale : R * 2 ^ ((L : ℤ) - (L + k + 1 : ℕ)) = R / ((2 ^ k : ℕ) : ℚ) / 2 := by
      rw [show (L : ℤ) - (L + k + 1 : ℕ) = -((k + 1 : ℕ) : ℤ) by omega, zpow_neg, zpow_natCast, pow_succ]
      push_cast
      field_simp
    have hdiv : ⌊R / ((2 ^ k : ℕ) : ℚ)⌋ = ((m / 2 ^ k : ℕ) : ℤ) := by rw [Int.floor_div_natCast, hfloor]; rfl
    have hhalf (z : ℚ) : ⌊z / 2⌋ = ⌊z⌋ / 2 := by exact_mod_cast Int.floor_div_natCast z 2
    have hkeep : keptBits L (L + k + 1) m = m / 2 ^ k / 2 := by
      rw [keptBits, if_pos (by omega), show L + k + 1 - L = k + 1 by omega, pow_succ, Nat.div_div_eq_div_mul]
    have hlost : lostBit L (L + k + 1) m = m / 2 ^ k % 2 := by
      rw [lostBit, if_pos (by omega), show L + k + 1 - L - 1 = k by omega]
    rw [hscale, hkeep, hlost]
    cases chop with
    | true =>
      simp only [if_true, add_zero]
      rw [hhalf, hdiv]
      rfl
    | false =>
      simp only [Bool.false_eq_true, if_false]
      rw [← add_div, hhalf, show (1 : ℚ) = ((1 : ℤ) : ℚ) by norm_num, Int.floor_add_intCast, hdiv]
      omega
  · have hR : R = m := hkept.resolve_right hL
    have hkeep : keptBits L n m = m * 2 ^ (L - n) := by
      rw [keptBits]
      split
      · rw [show n - L = 0 by omega, show L - n = 0 by omega, pow_zero, Nat.div_one, Nat.mul_one]
      · rfl
    have hlost : lostBit L n m = 0 := if_neg hL
    have hscale : R * 2 ^ ((L : ℤ) - n) = ((m * 2 ^ (L - n) : ℕ) : ℚ) := by
      rw [hR, show (L : ℤ) - n = ((L - n : ℕ) : ℤ) by omega, zpow_natCast]
      push_cast
      rfl
    have hhalf : ⌊if chop then (0 : ℚ) else 1 / 2⌋ = 0 := by cases chop <;> norm_num
    rw [hscale, Int.floor_natCast_add, hhalf, hkeep, hlost]
    simp

/-- The model's rounding is the rule's. -/
theorem narrow_roundTo {x : Exact} {r : ℚ} (h : x.Leads r) (hm : x.m ≠ 0) {L : Nat} (hL : L ≤ 56) (chop : Bool) :
    narrow L chop r (roundTo L chop x).1 ((roundTo L chop x).2 - 128) := by
  obtain ⟨hlow, hhigh⟩ := h.exponent_bounds hm
  have hscale : |r| * 2 ^ ((L : ℤ) - x.exponent) = |r| * 2 ^ (-x.p) * 2 ^ ((L : ℤ) - bitLen x.m) := by
    rw [mul_assoc, ← zpow_add₀ (by norm_num), Exact.exponent]
    congr 2
    omega
  have hfloor := floor_scaled (L := L) (n := bitLen x.m) h.floor (h.kept.imp_right fun hk => by omega) chop
  rw [← hscale] at hfloor
  refine ⟨x.exponent, hlow, hhigh, ?_⟩
  rw [hfloor, roundTo_eq]
  generalize (keptBits L (bitLen x.m) x.m + if chop then 0 else lostBit L (bitLen x.m) x.m) = k
  by_cases hk : k = 2 ^ L
  · simp only [hk, Nat.cast_pow, Nat.cast_ofNat, if_true]
    exact ⟨trivial, by omega⟩
  · have hk' : ((k : ℕ) : ℤ) ≠ 2 ^ L := by exact_mod_cast hk
    simp only [if_neg hk, if_neg hk']
    exact ⟨trivial, by omega⟩

end Sys2Proof.Machine
end

section
/-! PROOFS. Results of floating arithmetic (spec/47_fp_state_formats.md R441 to R446, spec/48_fp_instructions.md R486 to R493): the
model's results on exact dyadics satisfy the rules in numbers. -/

namespace Sys2Proof.Machine

open Sys2Proof.Spec

/-! ## Stored patterns -/

theorem fpWidth_eq (dbl : Bool) : fpWidth dbl = widthOf dbl := rfl

theorem widthOf_le (dbl : Bool) : widthOf dbl ≤ 56 := by cases dbl <;> decide

theorem fpPack_eq_pattern (neg : Bool) (L k : Nat) (e : ℤ) :
    fpPack neg (expBits e) (fracOf L k) = pattern neg L k (e - 128) := by
  rw [pattern, Int.sub_add_cancel]
  rfl

section
variable {x : Exact} {r : ℚ} (h : x.Leads r)
include h

/-- A nonzero number in a precision, as it is stored. -/
theorem fpPack_roundTo (hm : x.m ≠ 0) (L : Nat) (chop : Bool) :
    fpPack x.neg (expBits (roundTo L chop x).2) (fracOf L (roundTo L chop x).1) =
      pattern (decide (r < 0)) L (roundTo L chop x).1 ((roundTo L chop x).2 - 128) := by
  rw [fpPack_eq_pattern, h.sign (mt h.eq_zero_iff.mp hm)]

/-- Overflow, underflow and the results between them (R446). -/
theorem resultOf_rule (dbl chop fiv fiu : Bool) :
    resultRule dbl chop fiv fiu r (resultOf (fpWidth dbl) chop fiv fiu x).1 (resultOf (fpWidth dbl) chop fiv fiu x).2.1
      (resultOf (fpWidth dbl) chop fiv fiu x).2.2 := by
  by_cases hm : x.m = 0
  · rw [resultRule, if_pos (h.eq_zero_iff.mpr hm), resultOf, if_pos hm]
    exact ⟨rfl, rfl, rfl⟩
  · have hnarrow := narrow_roundTo h hm (widthOf_le dbl) chop
    have hpack := fpPack_roundTo h hm (widthOf dbl) chop
    rw [resultRule, if_neg (mt h.eq_zero_iff.mp hm)]
    refine ⟨_, _, hnarrow, ?_⟩
    simp only [resultOf, if_neg hm, fpWidth_eq, hpack]
    have hover : 127 < (roundTo (widthOf dbl) chop x).2 - 128 ↔ 255 < (roundTo (widthOf dbl) chop x).2 := by omega
    have hunder : (roundTo (widthOf dbl) chop x).2 - 128 < -127 ↔ (roundTo (widthOf dbl) chop x).2 < 1 := by omega
    simp only [hover, hunder]
    by_cases hov : 255 < (roundTo (widthOf dbl) chop x).2
    · cases fiv <;> simp [hov]
    · by_cases hun : (roundTo (widthOf dbl) chop x).2 < 1
      · cases fiu <;> simp [hov, hun]
      · simp [hov, hun]

/-- A number in a precision (R494). -/
theorem datumOf_narrow {L : Nat} (hL : L ≤ 56) (chop : Bool) :
    if r = 0 then datumOf L chop x = 0
    else ∃ k e, narrow L chop r k e ∧ datumOf L chop x = pattern (decide (r < 0)) L k e := by
  by_cases hm : x.m = 0
  · rw [if_pos (h.eq_zero_iff.mpr hm), datumOf, if_pos hm]
  · rw [if_neg (mt h.eq_zero_iff.mp hm)]
    refine ⟨_, _, narrow_roundTo h hm hL chop, ?_⟩
    rw [datumOf, if_neg hm]
    exact fpPack_roundTo h hm L chop

end

/-! ## Quotients (R444, R489) -/

/-- Bits in a quotient's leading part. -/
theorem lt_bitLen {m n : Nat} (h : 2 ^ n ≤ m) : n < bitLen m := by
  have hm : m ≠ 0 := by
    have := Nat.two_pow_pos n
    omega
  obtain ⟨-, -, hlt⟩ := bitLen_bounds hm
  exact (Nat.pow_lt_pow_iff_right (by decide)).mp (lt_of_le_of_lt h hlt)

/-- The quotient's 128 bits more than its dividend has are enough for every precision. -/
theorem Exact.leads_quot {x y : Exact} (hx : x.m = 0 ∨ 2 ^ 55 ≤ x.m) (hy : y.m ≠ 0) (hy' : y.m < 2 ^ 56) :
    (x.quot y).Leads (x.val / y.val) := by
  have hyq : (y.m : ℚ) ≠ 0 := by exact_mod_cast hy
  have hscale : |x.val / y.val| * 2 ^ (-(x.quot y).p) = ((x.m * 2 ^ 128 : ℕ) : ℚ) / (y.m : ℕ) := by
    have hp : (2 : ℚ) ^ (-(x.quot y).p) = 2 ^ (-x.p) * 2 ^ y.p * 2 ^ 128 := by
      rw [Exact.quot, ← zpow_natCast, ← zpow_add₀ (by norm_num), ← zpow_add₀ (by norm_num)]
      congr 1
      push_cast
      omega
    have hpx := (two_zpow_pos x.p).ne'
    have hpy := (two_zpow_pos y.p).ne'
    rw [hp, abs_div, x.abs_val, y.abs_val, zpow_neg]
    push_cast
    field_simp
    norm_num
  have hfloor : ⌊|x.val / y.val| * 2 ^ (-(x.quot y).p)⌋ = (x.quot y).m := by
    rw [hscale, Rat.floor_natCast_div_natCast]
    rfl
  refine ⟨fun hr => ?_, hfloor, ?_⟩
  · have hxv : x.val ≠ 0 := fun h => hr (by rw [h, zero_div])
    have hyv : y.val ≠ 0 := mt y.val_eq_zero_iff.mp hy
    have hxs := x.neg_eq_decide (mt x.val_eq_zero_iff.mpr hxv)
    have hys := y.neg_eq_decide hy
    show (x.neg ^^ y.neg) = _
    rw [hxs, hys]
    rcases lt_or_gt_of_ne hxv with hx0 | hx0 <;> rcases lt_or_gt_of_ne hyv with hy0 | hy0
    · rw [decide_eq_true hx0, decide_eq_true hy0, decide_eq_false (div_pos_of_neg_of_neg hx0 hy0).le.not_gt]; rfl
    · rw [decide_eq_true hx0, decide_eq_false hy0.le.not_gt, decide_eq_true (div_neg_of_neg_of_pos hx0 hy0)]; rfl
    · rw [decide_eq_false hx0.le.not_gt, decide_eq_true hy0, decide_eq_true (div_neg_of_pos_of_neg hx0 hy0)]; rfl
    · rw [decide_eq_false hx0.le.not_gt, decide_eq_false hy0.le.not_gt, decide_eq_false (div_pos hx0 hy0).le.not_gt]; rfl
  · obtain hx | hx := hx
    · left
      rw [hscale, Exact.quot, hx]
      simp
    · right
      refine lt_bitLen ?_
      rw [Exact.quot, Nat.le_div_iff_mul_le (Nat.pos_of_ne_zero hy)]
      calc 2 ^ 56 * y.m ≤ 2 ^ 56 * 2 ^ 56 := Nat.mul_le_mul_left _ hy'.le
        _ ≤ 2 ^ 55 * 2 ^ 128 := by norm_num
        _ ≤ x.m * 2 ^ 128 := Nat.mul_le_mul_right _ hx

/-! ## Conversion to single precision (R492, R493) -/

theorem datumVal_eq_zero_iff (x : Datum) : datumVal x = 0 ↔ expOf x = 0 := by
  rw [← exactOf_val, Exact.val_eq_zero_iff]
  obtain ⟨he, hm⟩ | ⟨he, hm, -⟩ := exactOf_m x
  · exact ⟨fun _ => he, fun _ => hm⟩
  · exact ⟨fun h => by omega, fun h => absurd h he⟩

theorem exactOf_leads (x : Datum) : (exactOf x).Leads (datumVal x) := by
  rw [← exactOf_val]
  exact (exactOf x).leads_val

theorem datum_ofBool_zero (b : Bool) : fpPack b 0 0 = BitVec.ofBool b ++ (0 : BitVec 63) := by
  cases b <;> rfl

theorem toSingle_rule (chop fiv : Bool) {x : Datum} (h : expOf x ≠ 0) :
    singleRule chop fiv x (toSingle chop fiv x).1 (toSingle chop fiv x).2.1 (toSingle chop fiv x).2.2 := by
  have hlead := exactOf_leads x
  have hm : (exactOf x).m ≠ 0 := mt hlead.eq_zero_iff.mpr (mt (datumVal_eq_zero_iff x).mp h)
  refine ⟨_, _, narrow_roundTo hlead hm (by decide) chop, ?_⟩
  have hover : 127 < (roundTo 24 chop (exactOf x)).2 - 128 ↔ 255 < (roundTo 24 chop (exactOf x)).2 := by omega
  simp only [toSingle, hover, ← fpPack_eq_pattern, ← datum_ofBool_zero]
  by_cases hov : 255 < (roundTo 24 chop (exactOf x)).2
  · cases fiv <;> simp [hov, fpSign]
  · simp [hov, fpSign]

/-! ## MOD (R491) -/

/-- The product as MOD takes it. -/
def modProduct (dbl : Bool) (x : Exact) : Exact := if dbl then chop64 x else x

theorem chop64_val {x : Exact} (hm : x.m ≠ 0) :
    (chop64 x).val = (if x.val < 0 then -1 else 1) * ⌊|x.val| * 2 ^ (64 - x.exponent)⌋ * 2 ^ (x.exponent - 64) := by
  have hneg := x.neg_eq_decide hm
  have hscale : |x.val| * 2 ^ (64 - x.exponent) = (x.m : ℚ) * 2 ^ ((64 : ℤ) - bitLen x.m) := by
    rw [x.abs_val, mul_assoc, ← zpow_add₀ (by norm_num), Exact.exponent]
    congr 2
    omega
  have hsign : (if x.neg then (-1 : ℚ) else 1) = if x.val < 0 then -1 else 1 := by simp [hneg]
  rw [hscale, ← hsign, chop64]
  by_cases hn : bitLen x.m ≤ 64
  · have hint : (x.m : ℚ) * 2 ^ ((64 : ℤ) - bitLen x.m) = ((x.m * 2 ^ (64 - bitLen x.m) : ℕ) : ℚ) := by
      rw [show (64 : ℤ) - bitLen x.m = ((64 - bitLen x.m : ℕ) : ℤ) by omega, zpow_natCast]
      push_cast
      rfl
    rw [if_pos hn, hint, Int.floor_natCast, Exact.val, Int.cast_natCast, ← hint, Exact.exponent]
    rw [mul_assoc, mul_assoc, mul_assoc, ← zpow_add₀ (by norm_num)]
    congr 3
    omega
  · obtain ⟨k, hk⟩ : ∃ k, bitLen x.m = 64 + k := ⟨bitLen x.m - 64, by omega⟩
    have hdiv : (x.m : ℚ) * 2 ^ ((64 : ℤ) - bitLen x.m) = (x.m : ℚ) / ((2 ^ k : ℕ) : ℚ) := by
      rw [hk, show (64 : ℤ) - (64 + k : ℕ) = -(k : ℤ) by omega, zpow_neg, zpow_natCast]
      push_cast
      rfl
    have hexp : (2 : ℚ) ^ (x.exponent - 64) = 2 ^ k * 2 ^ x.p := by
      rw [Exact.exponent, hk, show x.p + (64 + k : ℕ) - 64 = (k : ℤ) + x.p by omega, zpow_add₀ (by norm_num), zpow_natCast]
    have hfloor : ⌊(x.m : ℚ) / ((2 ^ k : ℕ) : ℚ)⌋ = ((x.m / 2 ^ k : ℕ) : ℤ) := Rat.floor_natCast_div_natCast _ _
    rw [if_neg hn, hdiv, hfloor, Int.cast_natCast, hexp, Exact.val, hk, show 64 + k - 64 = k by omega]
    push_cast
    ring

theorem modProduct_rule (dbl : Bool) (x : Exact) : productRule dbl x.val (modProduct dbl x).val := by
  rw [productRule, modProduct]
  cases dbl with
  | false => simp
  | true =>
    by_cases hm : x.m = 0
    · have hb : bitLen x.m ≤ 64 := by rw [hm]; decide
      simp [x.val_eq_zero_iff.mpr hm, chop64, hb]
    · obtain ⟨hlow, hhigh⟩ := x.leads_val.exponent_bounds hm
      rw [if_pos ⟨rfl, mt x.val_eq_zero_iff.mp hm⟩]
      exact ⟨x.exponent, hlow, hhigh, chop64_val hm⟩

/-- The fraction of a number that is not an integer's multiple of a higher power. -/
def Exact.fraction (x : Exact) : Exact := ⟨x.neg, if 0 ≤ x.p then 0 else x.m - x.whole * 2 ^ (-x.p).toNat, x.p⟩

/-- The integer part as an exact number. -/
def Exact.integer (x : Exact) : Exact := ⟨x.neg, x.whole, 0⟩

theorem Exact.integer_val (x : Exact) : x.integer.val = (if x.val < 0 then -1 else 1) * ⌊|x.val|⌋ := by
  rw [Exact.integer, Exact.val, x.floor_abs_val]
  by_cases hm : x.m = 0
  · have hw : x.whole = 0 := by simp [Exact.whole, hm]
    simp [hw]
  · simp [x.neg_eq_decide hm]

theorem Exact.fraction_val (x : Exact) : x.fraction.val = x.val - x.integer.val := by
  have hsplit : ((x.fraction.m : ℕ) : ℚ) * 2 ^ x.p + x.whole = x.m * 2 ^ x.p := by
    rw [Exact.fraction, Exact.whole]
    by_cases hp : 0 ≤ x.p
    · simp only [if_pos hp]
      push_cast
      rw [← zpow_natCast, Int.toNat_of_nonneg hp]
      simp
    · obtain ⟨k, hk⟩ : ∃ k : ℕ, x.p = -(k : ℤ) := ⟨(-x.p).toNat, by omega⟩
      have hpow : (0 : ℚ) < 2 ^ k := by positivity
      simp only [if_neg hp]
      rw [hk, neg_neg, Int.toNat_natCast, Nat.cast_sub (Nat.div_mul_le_self _ _), zpow_neg, zpow_natCast]
      push_cast
      field_simp
      ring
  have hm : x.fraction.val = (if x.neg then -1 else 1) * (x.fraction.m * 2 ^ x.p) := by rw [Exact.val, mul_assoc]; rfl
  have hi : x.integer.val = (if x.neg then -1 else 1) * x.whole := by
    show (if x.neg then (-1 : ℚ) else 1) * x.whole * 2 ^ (0 : ℤ) = _
    rw [zpow_zero, mul_one]
  rw [hm, hi, Exact.val, mul_assoc, ← hsplit]
  ring

theorem roundTo_exponent_le (L : Nat) (chop : Bool) (x : Exact) : (roundTo L chop x).2 ≤ x.exponent + 129 := by
  rw [roundTo_eq]
  generalize (keptBits L (bitLen x.m) x.m + if chop then 0 else lostBit L (bitLen x.m) x.m) = k
  split
  · exact le_refl (x.exponent + 129)
  · show x.exponent + 128 ≤ x.exponent + 129
    omega

/-- A number below 1 does not overflow, whether the exception is enabled or not. -/
theorem resultOf_below_one (L : Nat) (chop fiv fiu : Bool) {x : Exact} (h : x.exponent ≤ 0) :
    resultOf L chop fiv fiu x = resultOf L chop false fiu x ∧ (resultOf L chop false fiu x).2.1 = false := by
  have hle := roundTo_exponent_le L chop x
  have hov : ¬255 < (roundTo L chop x).2 := by omega
  simp only [resultOf, if_neg hov]
  refine ⟨trivial, ?_⟩
  split
  · rfl
  · split
    · split <;> rfl
    · rfl

theorem modSplit_eq (L : Nat) (chop fiv fiu : Bool) (x : Exact) :
    modSplit L chop fiv fiu x =
      if x.m = 0 then (0, 0, false, none)
      else if 127 < x.exponent then
        (if fiv then (fpPack x.neg (expBits (roundTo L true x).2) (fracOf L (roundTo L true x).1), 0, true, some 8)
         else (0, 0, true, none))
      else if (L : Int) < x.exponent then
        (fpPack x.neg (expBits (roundTo L true x).2) (fracOf L (roundTo L true x).1), 0, false, none)
      else if 0 < x.exponent then (datumOf L true x.integer, datumOf L chop x.fraction, false, none)
      else (0, (resultOf L chop false fiu x).1, false, (resultOf L chop false fiu x).2.2) := by
  simp only [modSplit, x.natAbs_trunc, Exact.fraction, Exact.integer]

/-- Integer part and fraction of a number between 1 and the precision. -/
theorem datumOf_parts {L : Nat} (hL : L ≤ 56) (chop : Bool) {x : Exact} (hm : x.m ≠ 0) (hone : 1 ≤ |x.val|) :
    (∃ k e, narrow L true x.integer.val k e ∧ datumOf L true x.integer = pattern (decide (x.val < 0)) L k e) ∧
      if x.val = x.integer.val then datumOf L chop x.fraction = 0
      else ∃ k e, narrow L chop (x.val - x.integer.val) k e ∧ datumOf L chop x.fraction = pattern (decide (x.val < 0)) L k e := by
  have hneg := x.neg_eq_decide hm
  have hwhole : x.integer.m ≠ 0 := by
    have hfloor : (1 : ℤ) ≤ ⌊|x.val|⌋ := Int.le_floor.mpr (by exact_mod_cast hone)
    rw [x.floor_abs_val] at hfloor
    exact fun h => by
      rw [show x.whole = 0 from h] at hfloor
      omega
  constructor
  · have h := datumOf_narrow x.integer.leads_val hL true
    rw [if_neg (mt x.integer.val_eq_zero_iff.mp hwhole), ← x.integer.neg_eq_decide hwhole] at h
    rwa [← hneg]
  · have h := datumOf_narrow x.fraction.leads_val hL chop
    have hzero : x.fraction.val = 0 ↔ x.val = x.integer.val := by rw [x.fraction_val, sub_eq_zero]
    simp only [hzero] at h
    split
    · next he => rwa [if_pos he] at h
    · next he =>
      rw [if_neg he, ← x.fraction.neg_eq_decide (mt x.fraction.val_eq_zero_iff.mpr (mt hzero.mp he)), x.fraction_val] at h
      rwa [← hneg]

theorem modSplit_rule (dbl chop fiv fiu : Bool) (x : Exact) :
    modRule dbl chop fiv fiu x.val (modSplit (fpWidth dbl) chop fiv fiu x).1 (modSplit (fpWidth dbl) chop fiv fiu x).2.1
      (modSplit (fpWidth dbl) chop fiv fiu x).2.2.1 (modSplit (fpWidth dbl) chop fiv fiu x).2.2.2 := by
  have hlead := x.leads_val
  rw [modSplit_eq, fpWidth_eq]
  unfold modRule
  by_cases hm : x.m = 0
  · simp only [if_pos hm, if_pos (x.val_eq_zero_iff.mpr hm)]
    trivial
  have hpack := fpPack_roundTo hlead hm (widthOf dbl) true
  have hnarrow := narrow_roundTo hlead hm (widthOf_le dbl) true
  have h127 : 127 < x.exponent ↔ (2 : ℚ) ^ 127 ≤ |x.val| := by exact_mod_cast hlead.lt_exponent_iff hm 127
  have hwidth : (widthOf dbl : ℤ) < x.exponent ↔ (2 : ℚ) ^ widthOf dbl ≤ |x.val| := by
    rw [hlead.lt_exponent_iff hm, zpow_natCast]
  have hone : 0 < x.exponent ↔ 1 ≤ |x.val| := by rw [hlead.lt_exponent_iff hm, zpow_zero]
  simp only [if_neg hm, if_neg (mt x.val_eq_zero_iff.mp hm), ← h127, ← hwidth, ← hone, hpack, ← x.integer_val]
  by_cases hbig : 127 < x.exponent
  · simp only [if_pos hbig]
    cases fiv with
    | true => exact ⟨rfl, rfl, ⟨_, _, hnarrow, rfl⟩, rfl⟩
    | false => exact ⟨rfl, rfl, rfl, rfl⟩
  · simp only [if_neg hbig]
    by_cases hint : (widthOf dbl : ℤ) < x.exponent
    · simp only [if_pos hint]
      exact ⟨trivial, trivial, trivial, _, _, hnarrow, rfl⟩
    · simp only [if_neg hint]
      by_cases hmid : 0 < x.exponent
      · simp only [if_pos hmid]
        obtain ⟨hhi, hlo⟩ := datumOf_parts (widthOf_le dbl) chop hm (hone.mp hmid)
        exact ⟨trivial, trivial, hhi, hlo⟩
      · simp only [if_neg hmid]
        obtain ⟨heq, hv⟩ := resultOf_below_one (widthOf dbl) chop fiv fiu (not_lt.mp hmid)
        have hrule := resultOf_rule hlead dbl chop fiv fiu
        rw [fpWidth_eq, heq, hv] at hrule
        exact ⟨trivial, hrule⟩

end Sys2Proof.Machine
end

section
/-! PROOFS. Floating arithmetic, CMP, MOD and the conversions (spec/48_fp_instructions.md R486 to R495): each instruction is its
rule's result, stored and described by the codes at the state in which its operand has been read. -/

namespace Sys2Proof.Machine

open Sys2Proof.Spec

/-! ## Arithmetic (R486 to R489) -/

/-- The result rule, stored (R446). -/
theorem fpResult_ends {out : Host.Outcome State Fault Refusal} {s u : State} {x : Exact} {r : ℚ} {i : Fin 6}
    (hu : u.fps = s.fps) (hlead : x.Leads r) (hout : out = finish (fpResult i x (startOf s) u)) :
    ∃ d v code t, resultRule s.fd s.ft s.fiv s.fiu r d v code ∧ accSet s.fd i d u t ∧
      ends out s code (t.setFCC (floatCodes d v false)) := by
  have hrule := resultOf_rule hlead s.fd s.ft s.fiv s.fiu
  obtain ⟨t, ht, hset⟩ := writeAcc_accSet s.fd i (resultOf (fpWidth s.fd) s.ft s.fiv s.fiu x).1 u
  refine ⟨_, _, _, t, hrule, hset, ends_of_fpEnd (hout.trans ?_) (State.setFCC_fid ((accSet_fps hset).trans hu) _)⟩
  simp only [fpResult, State.fd_of_fps hu, State.ft_of_fps hu, State.fiv_of_fps hu, State.fiu_of_fps hu, ht, Res.bind_ok,
    fccOf_eq_floatCodes]

section
variable {a : Ac} {o : Operand} {s u : State} {x : Datum} {p : FpPlace}

/-- A trapping -0 ends an arithmetic instruction (R452, R486). -/
theorem ends_source {i : Instr} {body : Datum → State → Res Unit} (hfpp : s.cfg.fpp = true) (hi : exec i s = finish (fpSource o body s))
    (h : fpRead s.fd o s x p u) :
    (undefinedVariable p x s = true → ends (exec i s) s (some 12) u) ∧
      (undefinedVariable p x s = false → exec i s = finish (body x u)) := by
  rw [fpSource_of_read hfpp body h] at hi
  constructor
  · intro hundef
    rw [if_pos hundef] at hi
    exact ends_of_fpException hi (by rw [fpRead_fps h])
  · intro hdef
    rwa [if_neg (by rw [hdef]; decide)] at hi

/-- The accumulator's number. -/
theorem exactOf_readAcc_val (i : Fin 6) {u s : State} (hu : u.fps = s.fps) :
    (exactOf (readAcc u.fd i u)).val = datumVal (accDatum s.fd i u) := by
  rw [exactOf_val, readAcc_eq_accDatum, State.fd_of_fps hu]

/-- ADD, SUB and MUL, by what the exact operation makes of the numbers. -/
theorem arith_ends {i : Instr} {f : Exact → Exact → Exact} {g : ℚ → ℚ → ℚ} (hfpp : s.cfg.fpp = true)
    (hi : exec i s = finish (fpArith f a o s)) (hfg : ∀ x y : Exact, (f x y).val = g x.val y.val)
    (h : fpRead s.fd o s x p u) (hdef : undefinedVariable p x s = false) :
    ∃ d v code t, resultRule s.fd s.ft s.fiv s.fiu (g (datumVal (accDatum s.fd (acIndex a) u)) (datumVal x)) d v code ∧
      accSet s.fd (acIndex a) d u t ∧ ends (exec i s) s code (t.setFCC (floatCodes d v false)) := by
  have hu := fpRead_fps h
  have hlead := (f (exactOf (readAcc u.fd (acIndex a) u)) (exactOf x)).leads_val
  rw [hfg, exactOf_readAcc_val _ hu, exactOf_val] at hlead
  exact fpResult_ends hu hlead ((ends_source hfpp hi h).2 hdef)

theorem exec_div {i : Instr} (hi : i = .divf a o ∨ i = .divd a o) (s : State) : exec i s = finish (fpDivide a o s) := by
  obtain rfl | rfl := hi <;> rfl

/-- DIV by a divisor that counts as 0. -/
theorem div_by_zero_ends {i : Instr} (hfpp : s.cfg.fpp = true) (hi : exec i s = finish (fpDivide a o s)) (h : fpRead s.fd o s x p u)
    (hdef : undefinedVariable p x s = false) (hx : expOf x = 0) : ends (exec i s) s (some 4) u := by
  have hexec := (ends_source hfpp hi h).2 hdef
  rw [if_pos ((fpExp_eq_zero_iff x).mpr hx)] at hexec
  exact ends_of_fpException hexec (by rw [fpRead_fps h])

/-- DIV by another. -/
theorem div_ends {i : Instr} (hfpp : s.cfg.fpp = true) (hi : exec i s = finish (fpDivide a o s)) (h : fpRead s.fd o s x p u)
    (hdef : undefinedVariable p x s = false) (hx : expOf x ≠ 0) :
    ∃ d v code t, resultRule s.fd s.ft s.fiv s.fiu (datumVal (accDatum s.fd (acIndex a) u) / datumVal x) d v code ∧
      accSet s.fd (acIndex a) d u t ∧ ends (exec i s) s code (t.setFCC (floatCodes d v false)) := by
  have hu := fpRead_fps h
  have hexec := (ends_source hfpp hi h).2 hdef
  rw [if_neg (mt (fpExp_eq_zero_iff x).mp hx)] at hexec
  obtain ⟨hx0, -⟩ | ⟨-, hlow, hhigh⟩ := exactOf_m x
  · exact absurd hx0 hx
  have hlead := Exact.leads_quot (x := exactOf (readAcc u.fd (acIndex a) u)) (y := exactOf x)
    ((exactOf_m _).imp (fun h => h.2) (fun h => h.2.1)) (by omega) hhigh
  rw [exactOf_readAcc_val _ hu, exactOf_val] at hlead
  exact fpResult_ends hu hlead hexec

end

/-- Settles O52: every operation is exact, or has the leading bits of an exact quotient, before its one rounding. -/
theorem floatingArithmetic : Obligations.FloatingArithmetic := by
  intro i a o f s x p u hi hfpp h
  split
  · next hundef =>
    have key : ∀ body, exec i s = finish (fpSource o body s) → ends (exec i s) s (some 12) u :=
      fun body hbody => (ends_source hfpp hbody h).1 hundef
    unfold floatArithmetic at hi
    split at hi <;> cases hi <;> exact key _ rfl
  · next hdef =>
    replace hdef := Bool.not_eq_true _ |>.mp hdef
    split
    · next hdiv => exact div_by_zero_ends hfpp (exec_div hdiv.1 s) h hdef hdiv.2
    · next hdiv =>
      unfold floatArithmetic at hi
      split at hi <;> cases hi
      case h_1 | h_2 => exact arith_ends hfpp rfl Exact.val_add h hdef
      case h_3 | h_4 =>
        exact arith_ends (g := fun x y => x - y) hfpp rfl (fun x y => by rw [Exact.val_add, Exact.val_negate, sub_eq_add_neg]) h hdef
      case h_5 | h_6 => exact arith_ends hfpp rfl Exact.val_mul h hdef
      case h_7 => exact div_ends hfpp rfl h hdef fun hx => hdiv ⟨.inl rfl, hx⟩
      case h_8 => exact div_ends hfpp rfl h hdef fun hx => hdiv ⟨.inr rfl, hx⟩

/-! ## CMP (R490) -/

/-- Settles O53: the codes compare the numbers. -/
theorem floatingCompare : Obligations.FloatingCompare := by
  intro i a o s x p u hi hfpp h y t
  have hu := fpRead_fps h
  have hexec : exec i s = finish (fpCompare a o s) := by obtain rfl | rfl := hi <;> rfl
  obtain ⟨hundef, hdef⟩ := ends_source hfpp hexec h
  have hy : readAcc s.fd (acIndex a) u = y := readAcc_eq_accDatum _ _ _
  have ht : u.setFCC (compareCodes (exactOf x) (exactOf y)) = t := by rw [compareCodes_eq, exactOf_val, exactOf_val]
  split
  · next hund => exact hundef hund
  · next hund =>
    have hbody := hdef (Bool.not_eq_true _ |>.mp hund)
    simp only [State.fd_of_fps hu, hy, ht, fpExp_eq_zero_iff] at hbody
    split
    · next hzero =>
      obtain ⟨v, hv, hset⟩ := writeAcc_accSet s.fd (acIndex a) 0 t
      rw [if_pos hzero, hv, finish_ok] at hbody
      exact ⟨v, hset, hbody⟩
    · next hzero => rwa [if_neg hzero, finish_ok] at hbody

/-! ## MOD (R491) -/

theorem acOrOne_eq (a : Ac) : acOrOne a = Fin.ofNat 6 ((acIndex a).val ||| 1) := by cases a <;> rfl

/-- The integer part goes to another accumulator, or nowhere. -/
theorem writeInteger_accSet (dbl : Bool) (j i : Fin 6) (x : Datum) (u : State) :
    ∃ t, (if j = i then Res.ok () u else writeAcc dbl j x u) = .ok () t ∧ (if j = i then t = u else accSet dbl j x u t) := by
  split
  · exact ⟨u, rfl, rfl⟩
  · exact writeAcc_accSet dbl j x u

/-- Settles O54: integer and fraction of the exact product. -/
theorem floatingModulo : Obligations.FloatingModulo := by
  intro i a o s x p u hi hfpp h j
  have hu := fpRead_fps h
  have hexec : exec i s = finish (fpModulo a o s) := by obtain rfl | rfl := hi <;> rfl
  obtain ⟨hundef, hdef⟩ := ends_source hfpp hexec h
  split
  · next hund => exact hundef hund
  · next hund =>
    have hbody := hdef (Bool.not_eq_true _ |>.mp hund)
    obtain ⟨prod, hmul⟩ : ∃ prod, (exactOf (accDatum s.fd (acIndex a) u)).mul (exactOf x) = prod := ⟨_, rfl⟩
    obtain ⟨r, hr⟩ : ∃ r, modSplit (fpWidth s.fd) s.ft s.fiv s.fiu (if s.fd then chop64 prod else prod) = r := ⟨_, rfl⟩
    have hprod : productRule s.fd (datumVal (accDatum s.fd (acIndex a) u) * datumVal x) (modProduct s.fd prod).val := by
      have hrule := modProduct_rule s.fd prod
      rwa [← hmul, Exact.val_mul, exactOf_val, exactOf_val, hmul] at hrule
    have hrule := modSplit_rule s.fd s.ft s.fiv s.fiu (modProduct s.fd prod)
    rw [show modSplit (fpWidth s.fd) s.ft s.fiv s.fiu (modProduct s.fd prod) = r from hr] at hrule
    obtain ⟨t, ht, htset⟩ := writeInteger_accSet s.fd j (acIndex a) r.1 u
    have htfps : t.fps = s.fps := by
      split at htset
      · rw [htset, hu]
      · exact (accSet_fps htset).trans hu
    obtain ⟨w, hw, hwset⟩ := writeAcc_accSet s.fd (acIndex a) r.2.1 t
    refine ⟨_, r.1, r.2.1, r.2.2.1, r.2.2.2, t, w, hprod, hrule, htset, hwset, ?_⟩
    refine ends_of_fpEnd (hbody.trans ?_) (State.setFCC_fid ((accSet_fps hwset).trans htfps) _)
    simp only [State.fd_of_fps hu, State.ft_of_fps hu, State.fiv_of_fps hu, State.fiu_of_fps hu, readAcc_eq_accDatum, hmul, hr,
      show acOrOne a = j from acOrOne_eq a, ht, Res.bind_ok, State.fd_of_fps htfps, hw, fccOf_eq_floatCodes]

end Sys2Proof.Machine
end

section
/-! PROOFS. The floating conversions, and the moves of exponents and status words (spec/48_fp_instructions.md R475 to R477, R492 to
R504). -/

namespace Sys2Proof.Machine

open Sys2Proof.Spec

/-! ## Conversions between the precisions (R492, R493) -/

theorem floatCodes_of_exponent_zero {x : Datum} (h : expOf x = 0) (v c : Bool) : floatCodes x v c = ⟨fpSign x, true, v, c⟩ := by
  rw [floatCodes, decide_eq_true h]
  rfl

section
variable {a : Ac} {o : Operand} {s t u : State} {x : Datum} {p : FpPlace} (hfpp : s.cfg.fpp = true)
include hfpp

theorem fpLoadConvert_of_read (h : fpRead (!s.fd) o s x p u) :
    fpLoadConvert a o s =
      if undefinedVariable p x s then fpException 12 (startOf s) (u.setFCC ⟨true, true, false, false⟩)
      else if expOf x = 0 then writeAcc s.fd (acIndex a) 0 (u.setFCC (floatCodes x false false))
      else if s.fd then writeAcc true (acIndex a) x (u.setFCC (floatCodes x false false))
      else (writeAcc false (acIndex a) (toSingle s.ft s.fiv x).1 u).bind fun _ t =>
        fpEnd (toSingle s.ft s.fiv x).2.2 (startOf s)
          (t.setFCC (floatCodes (toSingle s.ft s.fiv x).1 (toSingle s.ft s.fiv x).2.1 false)) := by
  have hu := fpRead_fps h
  obtain ⟨z, hp, hx⟩ := h
  rw [fpLoadConvert, withFpp_present hfpp, fpOperand_of_place hp, State.fd_of_fps (fpPlace_fps hp), hx, Res.bind_ok]
  simp only [trapsMinusZero_eq hu, fpExp_eq_zero_iff, State.fd_of_fps hu, State.ft_of_fps hu, State.fiv_of_fps hu,
    fccOf_eq_floatCodes]
  by_cases hx : expOf x = 0
  · simp only [floatCodes_of_exponent_zero hx]
  · simp only [if_neg hx]

/-- What STCFD and STCDF store of the accumulator's datum, FV, and the exception. -/
def convertedDatum (s : State) (x : Datum) : Datum × Bool × Option (BitVec 4) :=
  if expOf x = 0 then (0, false, none) else if s.fd then toSingle s.ft s.fiv x else (x, false, none)

theorem fpStoreConvert_of_place (h : fpPlace (!s.fd) o s p t) :
    fpStoreConvert a o s =
      (writeFp (!s.fd) p (convertedDatum s (accDatum s.fd (acIndex a) t)).1 t).bind fun _ v =>
        fpEnd (convertedDatum s (accDatum s.fd (acIndex a) t)).2.2 (startOf s)
          (v.setFCC (floatCodes (accDatum s.fd (acIndex a) t) (convertedDatum s (accDatum s.fd (acIndex a) t)).2.1 false)) := by
  have ht := fpPlace_fps h
  rw [fpStoreConvert, withFpp_present hfpp, fpOperand_of_place h]
  simp only [convertedDatum, readAcc_eq_accDatum, fpExp_eq_zero_iff, State.fd_of_fps ht, State.ft_of_fps ht, State.fiv_of_fps ht,
    fccOf_eq_floatCodes]

theorem ends_storeConvert {i : Instr} {v : State} (hi : exec i s = finish (fpStoreConvert a o s)) (h : fpPlace (!s.fd) o s p t)
    (hv : writeFp (!s.fd) p (convertedDatum s (accDatum s.fd (acIndex a) t)).1 t = .ok () v) :
    ends (exec i s) s (convertedDatum s (accDatum s.fd (acIndex a) t)).2.2
      (v.setFCC (floatCodes (accDatum s.fd (acIndex a) t) (convertedDatum s (accDatum s.fd (acIndex a) t)).2.1 false)) := by
  refine ends_of_fpEnd (hi.trans ?_) (State.setFCC_fid ((writeFp_fps hv).trans (fpPlace_fps h)) _)
  rw [fpStoreConvert_of_place hfpp h, hv, Res.bind_ok]

end

/-- Settles O55: loads with their exponent cases, stores by what they store. -/
theorem floatingConversions : Obligations.FloatingConversions := by
  constructor
  · intro i a o s x p u hi hfpp h
    have hu := fpRead_fps h
    have hexec : exec i s = finish (fpLoadConvert a o s) := by obtain rfl | rfl := hi <;> rfl
    rw [fpLoadConvert_of_read hfpp h] at hexec
    split
    · next hundef =>
      rw [if_pos hundef] at hexec
      exact ends_of_fpException hexec (State.setFCC_fid hu _)
    · next hundef =>
      rw [if_neg hundef] at hexec
      split
      · next hx =>
        obtain ⟨v, hv, hset⟩ := writeAcc_accSet s.fd (acIndex a) 0 (u.setFCC (floatCodes x false false))
        rw [if_pos hx, hv, finish_ok] at hexec
        exact ⟨v, hset, hexec⟩
      · next hx =>
        rw [if_neg hx] at hexec
        split
        · next hfd =>
          obtain ⟨v, hv, hset⟩ := writeAcc_accSet true (acIndex a) x (u.setFCC (floatCodes x false false))
          rw [if_pos hfd, hv, finish_ok] at hexec
          exact ⟨v, hset, hexec⟩
        · next hfd =>
          obtain ⟨t, ht, hset⟩ := writeAcc_accSet false (acIndex a) (toSingle s.ft s.fiv x).1 u
          rw [if_neg hfd, ht, Res.bind_ok] at hexec
          exact ⟨_, _, _, t, toSingle_rule s.ft s.fiv hx, hset,
            ends_of_fpEnd hexec (State.setFCC_fid ((accSet_fps hset).trans hu) _)⟩
  · intro i a o s p t hi hfpp h x
    have hexec : exec i s = finish (fpStoreConvert a o s) := by obtain rfl | rfl := hi <;> rfl
    have hends (v : State) (hv : writeFp (!s.fd) p (convertedDatum s x).1 t = .ok () v) :
        ends (exec i s) s (convertedDatum s x).2.2 (v.setFCC (floatCodes x (convertedDatum s x).2.1 false)) :=
      ends_storeConvert hfpp hexec h hv
    split
    · next hx =>
      have hr : convertedDatum s x = (0, false, none) := if_pos hx
      intro v hv
      have he := hends v
      rw [hr] at he
      exact he hv
    · next hx =>
      split
      · next hfd =>
        have hr : convertedDatum s x = toSingle s.ft s.fiv x := (if_neg hx).trans (if_pos hfd)
        refine ⟨_, _, _, toSingle_rule s.ft s.fiv hx, fun w hw => ?_⟩
        have he := hends w
        rw [hr, hfd] at he
        exact he hw
      · next hfd =>
        have hr : convertedDatum s x = (x, false, none) := (if_neg hx).trans (if_neg hfd)
        intro v hv
        have he := hends v
        rw [hr, Bool.not_eq_true _ |>.mp hfd] at he
        exact he hv

/-! ## Integers into accumulators (R475, R494) -/

theorem toInt_append_word (w x : Word) : (w ++ x).toInt = w.toInt * 65536 + x.toNat := by
  have happend : (w ++ x).toInt = 2 ^ 16 * w.toInt + x.toNat := BitVec.toInt_append
  omega

theorem readWords_one {va w : Word} {s t : State} (h : readWord va s = .ok w t) : readWords 1 va s = .ok [w] t := by
  simp only [readWords, h, Res.bind_ok]

theorem readWords_two {va w x : Word} {s t u : State} (h : readWord va s = .ok w t) (h' : readWord (va + 2) t = .ok x u) :
    readWords 2 va s = .ok [w, x] u := by
  simp only [readWords, h, h', Res.bind_ok]

theorem loadWord_fps {o : Operand} {s t : State} {x : Word} (h : loadWord o s = .ok x t) : t.fps = s.fps :=
  (loadWord_frame h (touching_permits s o)).fps_eq rfl

theorem locate_fps {n : Nat} {o : Operand} {s t : State} {l : Loc} (h : locate n o s = .ok l t) : t.fps = s.fps :=
  (locate_frame h (touching_permits s o)).fps_eq rfl

theorem isImmediate_iff (o : Operand) : isImmediate o = true ↔ o.mode = .autoInc ∧ o.reg = .r7 := by
  rw [isImmediate_eq, decide_eq_true_iff]

/-- The rule's integer is the one the model reads. -/
theorem readInteger_of_source {o : Operand} {s t : State} {n : ℤ} (h : integerSource o s n t) :
    readInteger o s = .ok n t ∧ t.fps = s.fps := by
  unfold integerSource at h
  unfold readInteger
  by_cases hfl : s.fl = false
  · rw [if_pos hfl] at h
    obtain ⟨w, hw, rfl⟩ := h
    exact ⟨by rw [if_neg (by rw [hfl]; decide), hw, Res.bind_ok], loadWord_fps hw⟩
  · rw [if_neg hfl] at h
    rw [if_pos (Bool.not_eq_false _ |>.mp hfl)]
    split at h
    · next hm =>
      obtain ⟨rfl, rfl⟩ := h
      exact ⟨by simp only [locate_reg hm, Res.bind_ok, toInt_append_word, BitVec.ofNat_eq_ofNat, BitVec.toNat_ofNat]; simp, rfl⟩
    · split at h
      · next himm =>
        obtain ⟨va, u, w, hl, hw, rfl⟩ := h
        refine ⟨?_, ((readWord_frame (w := Allow.nothing) hw).fps_eq rfl).trans (locate_fps hl)⟩
        simp only [hl, Res.bind_ok, if_pos ((isImmediate_iff o).mpr himm), readWords_one hw]
        congr 1
        exact (toInt_append_word w 0).trans (Int.add_zero _)
      · next himm =>
        obtain ⟨va, u, w, z, x, hl, hw, hx, rfl⟩ := h
        refine ⟨?_, ((readWord_frame (w := Allow.nothing) hx).fps_eq rfl).trans
          (((readWord_frame (w := Allow.nothing) hw).fps_eq rfl).trans (locate_fps hl))⟩
        simp only [hl, Res.bind_ok, if_neg (mt (isImmediate_iff o).mp himm), readWords_two hw hx]
        congr 1
        exact toInt_append_word w x

/-! ## Integers out of accumulators (R475, R495), exponents and status words (R496 to R504) -/

theorem stores_eq {ws : List Word} {l : Loc} {s t : State} (h : stores ws l s t) : storeWords ws l s = .ok () t := by
  cases l with
  | reg r =>
    rw [show t = s.setReg r (ws.headD 0) from h]
    cases ws <;> rfl
  | mem va => exact h

theorem stores_storeAt {w : Word} {l : Loc} {s t : State} (h : stores [w] l s t) : storeAt w l s = .ok () t := by
  cases l with
  | reg r =>
    rw [show t = s.setReg r w from h]
    rfl
  | mem va =>
    obtain ⟨_, u, hu, h⟩ := Res.bind_eq_ok.mp (show writeWords [w] va s = .ok () t from h)
    cases h
    obtain ⟨a, z, ha, hz⟩ := Res.bind_eq_ok.mp (show (translate s.mode va .write s).bind (physWrite · w) = _ from hu)
    simp only [storeAt, placeOf, ha, Res.bind_ok, writePlace, hz]

theorem stores_fps {ws : List Word} {l : Loc} {s t : State} (h : stores ws l s t) : t.fps = s.fps := by
  cases l with
  | reg r => rw [show t = s.setReg r (ws.headD 0) from h, State.setReg_fps]
  | mem va => exact writeWords_fps h

/-- The words of an integer result. -/
theorem integerWords_eq (long : Bool) (o : Operand) (n : ℤ) :
    integerWords long (isImmediate o) (BitVec.ofInt 32 n) =
      if long = false then [BitVec.ofInt 16 n]
      else if o.mode = .autoInc ∧ o.reg = .r7 then [BitVec.ofInt 16 (n / 65536)]
      else [BitVec.ofInt 16 (n / 65536), BitVec.ofInt 16 n] := by
  rw [integerWords, extractHigh_ofInt, extractLow_ofInt]
  simp only [isImmediate_iff]
  cases long <;> rfl

/-- Settles O56: the integer as an exact number in, the integer part of the accumulator's number out. -/
theorem integerConversions : Obligations.IntegerConversions := by
  constructor
  · intro i a o s n u hi hfpp h
    have hexec : exec i s = finish (fpLoadInteger a o s) := by obtain rfl | rfl | rfl | rfl := hi <;> rfl
    obtain ⟨hread, hu⟩ := readInteger_of_source h
    have hlead := (exactInt n).leads_val
    rw [exactInt_val] at hlead
    have hdatum := datumOf_narrow hlead (widthOf_le s.fd) s.ft
    obtain ⟨t, ht, hset⟩ := writeAcc_accSet s.fd (acIndex a) (datumOf (widthOf s.fd) s.ft (exactInt n)) u
    refine ⟨_, t, ?_, hset, ?_⟩
    · simpa only [Int.cast_eq_zero, Int.cast_lt_zero] using hdatum
    · rw [hexec, fpLoadInteger, withFpp_present hfpp, hread, Res.bind_ok]
      simp only [State.fd_of_fps hu, State.ft_of_fps hu, fpWidth_eq, ht, Res.bind_ok, fccOf_eq_floatCodes, finish_ok]
  · intro i a o s l t v hi hfpp hl x n jl fits res cc hi' lo ws hstore
    have hexec : exec i s = finish (fpStoreInteger a o s) := by obtain rfl | rfl | rfl | rfl := hi <;> rfl
    have ht := locate_fps hl
    have hv : v.fps = s.fps := (stores_fps hstore).trans ht
    have hn : (exactOf (accDatum s.fd (acIndex a) t)).trunc = n := by rw [Exact.trunc_eq, exactOf_val]
    have hfits : (decide (-jl - 1 < n) && decide (n < jl + 1)) = fits := (Bool.decide_and _ _).symm
    have hws : integerWords s.fl (isImmediate o) (BitVec.ofInt 32 res) = ws := integerWords_eq s.fl o res
    have hcommit : commit cc (storeWords ws l) t = .ok () v := commit_ok (stores_eq hstore)
    refine ends_of_fpEnd (hexec.trans ?_) (State.setFCC_fid hv _)
    rw [fpStoreInteger, withFpp_present hfpp, hl, Res.bind_ok]
    simp only [State.fd_of_fps ht, State.fl_of_fps ht, readAcc_eq_accDatum, hn]
    rw [show (decide (-(if s.fl then (2 : ℤ) ^ 31 - 1 else 2 ^ 15 - 1) - 1 < n) &&
      decide (n < (if s.fl then (2 : ℤ) ^ 31 - 1 else 2 ^ 15 - 1) + 1)) = fits from hfits]
    rw [hws, hcommit, Res.bind_ok, State.fic_of_fps hv]

/-- The high half of an accumulator with an exponent put in (R496). -/
def exponentInserted (n : ℤ) (x : Acc) : BitVec 32 := (x.hi &&& 0x807fffff) ||| (BitVec.ofInt 8 (n + 128)).setWidth 32 <<< 23

theorem insertExp_eq (n : ℤ) (x : Acc) : insertExp (expBits (n + 128)) x = ⟨exponentInserted n x, x.lo⟩ := by
  rw [insertExp, Acc.mk.injEq]
  refine ⟨BitVec.eq_of_getLsbD_eq fun k hk => ?_, rfl⟩
  have hmask : ∀ j : Fin 32, ((0x807fffff : ℕ) : BitVec 32).getLsbD j.val = decide (j.val < 23 ∨ j.val = 31) := by decide
  rw [exponentInserted, BitVec.getLsbD_append, BitVec.getLsbD_append, BitVec.getLsbD_or, BitVec.getLsbD_and,
    hmask ⟨k, hk⟩, BitVec.getLsbD_shiftLeft, BitVec.getLsbD_setWidth, expBits]
  simp only [BitVec.getLsbD_extractLsb']
  by_cases h : k < 23
  · simp [h]
  · by_cases h' : k < 31
    · simp [h, show k - 23 < 8 by omega, show k ≠ 31 by omega, show k - 23 < 32 by omega, hk]
    · simp [show k = 31 by omega]

/-- An accumulator of exact 0 reads as 0 in both precisions. -/
theorem accDatum_of_accSet_zero {dbl : Bool} {i : Fin 6} {s t : State} (h : accSet dbl i 0 s t) : accDatum dbl i t = 0 := by
  obtain ⟨lo, hlo, rfl⟩ := h
  cases dbl with
  | false => simp [accDatum]
  | true => simp [accDatum, hlo]

/-- The state of LDEXP with the exponent inserted. -/
def withExponent (i : Fin 6) (n : ℤ) (old : Acc) (u : State) : State :=
  { u with ac := u.ac.set i ⟨exponentInserted n old, old.lo⟩ }

theorem expCodes_eq {s t : State} (ht : t.fps = s.fps) (i : Fin 6) (v : Bool) :
    expCodes i v t = t.setFCC (floatCodes (accDatum s.fd i t) v false) := by
  rw [expCodes, State.fd_of_fps ht, readAcc_eq_accDatum, fccOf_eq_floatCodes]

/-- LDEXP with its exception enabled. -/
theorem ends_withExponent {s u : State} {out : Host.Outcome State Fault Refusal} {c : BitVec 4} {b : Bool} {i : Fin 6} {n : ℤ} {old : Acc} (hu : u.fps = s.fps)
    (hout : out = finish (fpException c (startOf s) (expCodes i b (withExponent i n old u)))) :
    ends out s (some c) ((withExponent i n old u).setFCC (floatCodes (accDatum s.fd i (withExponent i n old u)) b false)) := by
  have ht : (withExponent i n old u).fps = s.fps := hu
  rw [expCodes_eq ht] at hout
  exact ends_of_fpException hout (State.setFCC_fid ht _)

/-- LDEXP without: exact 0. -/
theorem exact_zero_of_range {s u : State} {out : Host.Outcome State Fault Refusal} {b : Bool} {i : Fin 6} (hu : u.fps = s.fps)
    (hout : out = finish ((writeAcc s.fd i 0 u).bind fun _ v => .ok () (expCodes i b v))) :
    ∃ v, accSet s.fd i 0 u v ∧ out = .next (v.setFCC (floatCodes 0 b false)) := by
  obtain ⟨v, hv, hset⟩ := writeAcc_accSet s.fd i 0 u
  rw [hv, Res.bind_ok, expCodes_eq ((accSet_fps hset).trans hu), accDatum_of_accSet_zero hset, finish_ok] at hout
  exact ⟨v, hset, hout⟩

section
variable {a : Ac} {o : Operand} {s t u v : State} {l : Loc} {w : Word} (hfpp : s.cfg.fpp = true)
include hfpp

theorem fpLoadExp_of_load (h : loadWord o s = .ok w u) :
    fpLoadExp a o s =
      if -127 ≤ w.toInt ∧ w.toInt ≤ 127 then .ok () (expCodes (acIndex a) false (withExponent (acIndex a) w.toInt s.ac[acIndex a] u))
      else if 127 < w.toInt then
        (if s.fiv then fpException 8 (startOf s) (expCodes (acIndex a) true (withExponent (acIndex a) w.toInt s.ac[acIndex a] u))
         else (writeAcc s.fd (acIndex a) 0 u).bind fun _ v => .ok () (expCodes (acIndex a) true v))
      else
        (if s.fiu then fpException 10 (startOf s) (expCodes (acIndex a) false (withExponent (acIndex a) w.toInt s.ac[acIndex a] u))
         else (writeAcc s.fd (acIndex a) 0 u).bind fun _ v => .ok () (expCodes (acIndex a) false v)) := by
  have hu := loadWord_fps h
  have hac : u.ac[acIndex a] = s.ac[acIndex a] := (loadWord_frame h (touching_permits s o)).acc _ rfl
  rw [fpLoadExp, withFpp_present hfpp, h, Res.bind_ok]
  simp only [insertExp_eq, withExponent, hac, State.fd_of_fps hu, State.fiv_of_fps hu, State.fiu_of_fps hu]

theorem exec_stexp_of_locate (hl : locate 2 o s = .ok l t)
    (hv : stores [BitVec.ofInt 16 (expOf (accDatum s.fd (acIndex a) t) - 128)] l
      (t.setCC (codesOf (BitVec.ofInt 16 (expOf (accDatum s.fd (acIndex a) t) - 128) : Word) false false)) v) :
    exec (.stexp a o) s =
      .next (v.setFCC (codesOf (BitVec.ofInt 16 (expOf (accDatum s.fd (acIndex a) t) - 128) : Word) false false)) := by
  have hword : (fpExp (accDatum s.fd (acIndex a) t)).setWidth 16 - 128 =
      (BitVec.ofInt 16 (expOf (accDatum s.fd (acIndex a) t) - 128) : Word) := by
    have hlt := (fpExp (accDatum s.fd (acIndex a) t)).isLt
    have hwide : ((fpExp (accDatum s.fd (acIndex a) t)).setWidth 16).toNat = expOf (accDatum s.fd (acIndex a) t) := by
      rw [BitVec.toNat_setWidth, fpExp_toNat]
      rw [fpExp_toNat] at hlt
      omega
    rw [← hwide]
    exact (ofInt_toNat_sub _ 128).symm
  have hexec : exec (.stexp a o) s = finish (fpStoreExp a o s) := rfl
  rw [hexec, fpStoreExp, withFpp_present hfpp, hl, Res.bind_ok]
  simp only [State.fd_of_fps (locate_fps hl), readAcc_eq_accDatum, hword, ccNZ_eq_codesOf]
  rw [commit_ok (stores_storeAt hv), Res.bind_ok, finish_ok]

theorem exec_stfps_of_locate (hl : locate 2 o s = .ok l t) (hv : stores [s.fps &&& 0o147757] l t v) :
    exec (.stfps o) s = .next v := by
  have hexec : exec (.stfps o) s = finish (fpStoreStatus o s) := rfl
  rw [hexec, fpStoreStatus, withFpp_present hfpp, hl, Res.bind_ok, locate_fps hl]
  exact congrArg finish (stores_storeAt hv)

theorem exec_stst_of_locate (hl : locate 4 o s = .ok l t)
    (hv : stores (if o.mode = .autoInc ∧ o.reg = .r7 then [s.fec.setWidth 16] else [s.fec.setWidth 16, s.fea]) l t v) :
    exec (.stst o) s = .next v := by
  have hexec : exec (.stst o) s = finish (fpStoreException o s) := rfl
  obtain ⟨hfec, hfea⟩ := (locate_frame hl (touching_permits s o)).exc rfl
  rw [hexec, fpStoreException, withFpp_present hfpp, hl, Res.bind_ok, hfec, hfea]
  simp only [isImmediate_iff]
  rw [stores_eq hv, finish_ok]

end

/-- Settles O57: the exponent and its ranges, the status and exception registers. -/
theorem exponentAndStatusMoves : Obligations.ExponentAndStatusMoves := by
  refine ⟨?_, ?_, ?_, ?_, ?_⟩
  · intro a o s w u hfpp h n i old hi t d
    have hu := loadWord_fps h
    have hexec : exec (.ldexp a o) s = finish (fpLoadExp a o s) := rfl
    rw [fpLoadExp_of_load hfpp h] at hexec
    by_cases hover : 127 < n
    · rw [if_neg fun hr => absurd hr.2 (not_le.mpr hover), if_pos hover] at hexec
      rw [if_pos hover]
      split
      · next hfiv => exact ends_withExponent hu (by rwa [if_pos hfiv] at hexec)
      · next hfiv => exact exact_zero_of_range hu (by rwa [if_neg hfiv] at hexec)
    · rw [if_neg hover]
      by_cases hunder : n < -127
      · rw [if_neg fun hr => absurd hr.1 (not_le.mpr hunder), if_neg hover] at hexec
        rw [if_pos hunder]
        split
        · next hfiu => exact ends_withExponent hu (by rwa [if_pos hfiu] at hexec)
        · next hfiu => exact exact_zero_of_range hu (by rwa [if_neg hfiu] at hexec)
      · rw [if_pos ⟨not_lt.mp hunder, not_lt.mp hover⟩, finish_ok] at hexec
        rw [if_neg hunder, hexec]
        exact congrArg Host.Outcome.next (expCodes_eq (s := s) (t := t) hu i false)
  · exact fun a o s l t v hfpp hl hv => exec_stexp_of_locate hfpp hl hv
  · intro o s w u hfpp h
    have hexec : exec (.ldfps o) s = finish (fpLoadStatus o s) := rfl
    rw [hexec, fpLoadStatus, withFpp_present hfpp, h, Res.bind_ok, finish_ok]
  · exact fun o s l t v hfpp hl hv => exec_stfps_of_locate hfpp hl hv
  · exact fun o s l t v hfpp hl hv => exec_stst_of_locate hfpp hl hv

end Sys2Proof.Machine
end

section
/-! PROOFS. The frames of the floating instructions (spec/48_fp_instructions.md R470 to R477): what their last acts change, and
the words of a store, which are translated one by one: a reference leaves the page registers as they were but for the W bits, which
no translation looks at. -/

namespace Sys2Proof.Machine

open Sys2Proof.Spec

/-! ## Translation looks at nothing that a frame leaves open -/

/-- The W bit takes part in no check. -/
theorem violates_clearW (pdr va : Word) (k : Access) : violates (clearW pdr) va k = violates pdr va k := by
  have hbit (j : Nat) (hj : j < 16) (h6 : j ≠ 6) : (clearW pdr).getLsbD j = pdr.getLsbD j := by
    have hmask : ∀ i : Fin 16, (0o177677#16).getLsbD i.val = decide (i.val ≠ 6) := by decide
    rw [clearW, BitVec.getLsbD_and, hmask ⟨j, hj⟩, decide_eq_true h6, Bool.and_true]
  have hacf : acfOf (clearW pdr) = acfOf pdr := by
    refine BitVec.eq_of_getLsbD_eq fun j hj => ?_
    rw [acfOf, acfOf, BitVec.getLsbD_extractLsb', BitVec.getLsbD_extractLsb', hbit _ (by omega) (by omega)]
  have hplf : (clearW pdr).extractLsb' 8 7 = pdr.extractLsb' 8 7 := by
    refine BitVec.eq_of_getLsbD_eq fun j hj => ?_
    rw [BitVec.getLsbD_extractLsb', BitVec.getLsbD_extractLsb', hbit _ (by omega) (by omega)]
  rw [violates, violates, nonresident, nonresident, pastLength, pastLength, readOnly, readOnly, hacf, hplf,
    hbit 3 (by decide) (by decide)]

/-- The page registers of two states that a frame relates, but for the W bits. -/
theorem pageRegs_of_base {s t : State} (h : t.base = s.base) (user : Bool) (i : Fin 8) :
    parOf user i t = parOf user i s ∧ clearW (pdrOf user i t) = clearW (pdrOf user i s) := by
  have hk : t.kpdr.map clearW = s.kpdr.map clearW := (congrArg State.kpdr h :)
  have hu : t.updr.map clearW = s.updr.map clearW := (congrArg State.updr h :)
  have hkpar : t.kpar = s.kpar := (congrArg State.kpar h :)
  have hupar : t.upar = s.upar := (congrArg State.upar h :)
  cases user with
  | false =>
    refine ⟨by simp [parOf, hkpar], ?_⟩
    have hi := congrArg (fun v : Vector Word 8 => v[i]) hk
    simpa [pdrOf] using hi
  | true =>
    refine ⟨by simp [parOf, hupar], ?_⟩
    have hi := congrArg (fun v : Vector Word 8 => v[i]) hu
    simpa [pdrOf] using hi

theorem translateIn_of_base {user : Bool} {m : BitVec 2} {va : Word} {k : Access} {s t u : State} {a : PAddr} (h : t.base = s.base)
    (ha : translateIn user m va k s = .ok a u) : ∃ v, translateIn user m va k t = .ok a v := by
  obtain ⟨hpar, hpdr⟩ := pageRegs_of_base h user (pageOf va)
  have hviol : violates (pdrOf user (pageOf va) t) va k = violates (pdrOf user (pageOf va) s) va k := by
    rw [← violates_clearW, hpdr, violates_clearW]
  simp only [translateIn] at ha ⊢
  split at ha
  · cases ha
  · next hv =>
    cases ha
    rw [hviol, if_neg hv, hpar]
    exact ⟨_, rfl⟩

theorem translate_of_base {m : BitVec 2} {va : Word} {k : Access} {s t u : State} {a : PAddr} (h : t.base = s.base)
    (ha : translate m va k s = .ok a u) : ∃ v, translate m va k t = .ok a v := by
  have hcfg : t.cfg = s.cfg := (congrArg State.cfg h :)
  have hsr0 : t.sr0 = s.sr0 := (congrArg State.sr0 h :)
  have hreloc : t.relocating = s.relocating := by rw [State.relocating, State.relocating, hcfg, hsr0]
  rw [translate] at ha
  rw [translate, hreloc, hcfg]
  split at ha
  · next hr =>
    rw [if_pos hr]
    cases hset : pageSetOf s.cfg.reservedMode m with
    | kernel => rw [hset] at ha; exact translateIn_of_base h ha
    | user => rw [hset] at ha; exact translateIn_of_base h ha
    | missing => rw [hset] at ha; cases ha
    | refused => rw [hset] at ha; cases ha
  · next hr =>
    cases ha
    exact ⟨t, if_neg hr⟩

/-! ## Stores of several words (R473, R475 to R477) -/

theorem Frame.mode_of_mask {w : Allow} {s t : State} (h : Frame w s t) (hw : w.ps.getLsbD 14 = false ∧ w.ps.getLsbD 15 = false) :
    t.mode = s.mode := by
  refine BitVec.eq_of_getLsbD_eq fun k hk => ?_
  have hbit : w.ps.getLsbD (14 + k) = false := by
    obtain rfl | rfl : k = 0 ∨ k = 1 := by omega
    · exact hw.1
    · exact hw.2
  have hps := congrArg (BitVec.getLsbD · (14 + k)) h.ps
  simp only [BitVec.getLsbD_and, BitVec.getLsbD_not, hbit, Bool.not_false, Bool.and_true, show 14 + k < 16 by omega, decide_true]
    at hps
  rw [State.mode, State.mode, BitVec.getLsbD_extractLsb', BitVec.getLsbD_extractLsb', hps]

/-- A word stored where a state's own translation puts it, in memory that replies. -/
theorem writeWord_frame {w : Allow} {s₀ s t : State} {va v : Word} {a : PAddr} (h : Frame w s₀ s) (hbus : s₀.busInputs = [])
    (hmode : s.mode = s₀.mode) (ha : translate s₀.mode va .write s₀ = .ok a t) (hp : (Place.phys a).plain s₀.cfg)
    (hw : ∀ b, wordBytes a b = true → w.byte b = true) : ∃ u, writeWord va v s = .ok () u ∧ Frame w s₀ u := by
  obtain ⟨z, hz⟩ := translate_of_base h.base ha
  rw [← hmode] at hz
  have hzs : Frame w s₀ z := h.trans (translate_frame hz)
  have hplain : (Place.phys a).plain z.cfg := hzs.cfg_eq ▸ hp
  obtain ⟨u, hu⟩ := slaveWrite_plain hplain v
  refine ⟨u, ?_, hzs.trans (cycleWrite_frame hu hplain hw)⟩
  rw [writeWord, writeWordMode, hz, Res.bind_ok, physWrite_quiet (hzs.bus hbus).1, hu]

theorem plainWords_place {m : BitVec 2} {va : Word} {n k : Nat} {s : State} (h : plainWords m va n s) (hk : k < n) :
    ∃ a t, translate m (wordFrom va k) .write s = .ok a t ∧ (Place.phys a).plain s.cfg ∧
      ∀ b, wordBytes a b = true → wordsAt m va n s b = true := by
  obtain ⟨a, t, r, ha, hreg, hmap, hkind⟩ := h k hk
  refine ⟨a, t, ha, ⟨hreg, r, hmap, hkind⟩, fun b hb => ?_⟩
  refine List.any_eq_true.mpr ⟨k, List.mem_range.mpr hk, ?_⟩
  rw [ha]
  exact hb

theorem writeWords_frame {w : Allow} {s₀ s : State} {ws : List Word} {va : Word} (h : Frame w s₀ s) (hbus : s₀.busInputs = [])
    (hps : w.ps.getLsbD 14 = false ∧ w.ps.getLsbD 15 = false)
    (hplace : ∀ k, k < ws.length → ∃ a t, translate s₀.mode (wordFrom va k) .write s₀ = .ok a t ∧ (Place.phys a).plain s₀.cfg ∧
      ∀ b, wordBytes a b = true → w.byte b = true) : ∃ u, writeWords ws va s = .ok () u ∧ Frame w s₀ u := by
  induction ws generalizing va s with
  | nil => exact ⟨s, rfl, h⟩
  | cons x ws ih =>
    obtain ⟨a, t, ha, hp, hw⟩ := hplace 0 (by simp)
    rw [wordFrom_zero] at ha
    obtain ⟨z, hz, hzs⟩ := writeWord_frame (v := x) h hbus (h.mode_of_mask hps) ha hp hw
    obtain ⟨u, hu, hus⟩ := ih (va := va + 2) hzs fun k hk => by
      rw [wordFrom_succ]
      exact hplace (k + 1) (by simpa using hk)
    exact ⟨u, by rw [writeWords, hz, Res.bind_ok, hu], hus⟩

/-! ## The last acts -/

theorem Frame.setFCC {w : Allow} (s : State) (x : CC) (h : (0o17 : Word) &&& ~~~w.fps = 0) : Frame w s (s.setFCC x) := by
  -- the codes stand in the FPS as they stand in the PS
  have hmask : (s.setFCC x).fps &&& ~~~(0o17 : Word) = s.fps &&& ~~~(0o17 : Word) := setCC_ps_mask { s with ps := s.fps } x
  exact { Frame.refl w s with
    gen := fun r _ _ _ => by cases r <;> rfl
    fps := mask_mono h hmask }

theorem Frame.recordFp {w : Allow} (s : State) (c : BitVec 4) (start : Word) (hexc : w.exc = true)
    (h : (0o100000 : Word) &&& ~~~w.fps = 0) : Frame w s (recordFp c start s) := by
  exact { Frame.refl w s with
    gen := fun r _ _ _ => by cases r <;> rfl
    fps := or_and_of_disjoint h
    exc := fun e => absurd (hexc.symm.trans e) (by decide) }

theorem Frame.setAcc {w : Allow} {i : Fin 6} (s : State) (x : Acc) (hw : w.acc i = true) :
    Frame w s { s with ac := s.ac.set i x } :=
  { Frame.refl w s with
    gen := fun r _ _ _ => by cases r <;> rfl
    acc := fun j hj => by
      have hne : (i : Nat) ≠ j := fun e => by
        rw [Fin.ext e, hj] at hw
        exact nomatch hw
      simp [hne] }

theorem Frame.accSet {w : Allow} {dbl : Bool} {i : Fin 6} {x : Datum} {s t : State} (h : accSet dbl i x s t) (hw : w.acc i = true) :
    Frame w s t := by
  obtain ⟨lo, -, rfl⟩ := h
  exact (Frame.setAcc s _ hw).trans (Frame.withFree w _ _)

/-! ## Ends within a frame -/

theorem framed_of_next {out : Host.Outcome State Fault Refusal} {w : Allow} {s t : State} (h : out = .next t) (ht : Frame w s t) :
    framed out w s :=
  ⟨t, .inl h, ht⟩

/-- An allowance that takes in the record of an exception. -/
def Allow.records (w : Allow) : Prop := w.exc = true ∧ (0o100000 : Word) &&& ~~~w.fps = 0

theorem framed_of_ends {out : Host.Outcome State Fault Refusal} {w : Allow} {s t : State} {code : Option (BitVec 4)}
    (h : ends out s code t) (ht : Frame w s t) (hw : w.records) : framed out w s := by
  cases code with
  | none => exact framed_of_next h ht
  | some c =>
    have hrecord : Frame w s (recordFp c (startOf s) t) := ht.trans (Frame.recordFp t c _ hw.1 hw.2)
    simp only [ends] at h
    split at h
    · exact framed_of_next h hrecord
    · exact ⟨_, .inr ⟨hw.1, h.1⟩, hrecord⟩

/-! ## The instructions that only read their operand -/

/-- What they may change. -/
def readerAllow (s : State) (o : Operand) (l : List (Fin 6)) : Allow :=
  { touching s o with acc := fun j => l.contains j, fps := 0o100017, exc := true }

section
variable {i : Instr} {a : Ac} {o : Operand} {s u : State} {x : Datum} {p : FpPlace} {l : List (Fin 6)}

theorem readerAllow_records : (readerAllow s o l).records := ⟨rfl, (by decide : (0o100000 : Word) &&& ~~~(0o100017 : Word) = 0)⟩

theorem readerAllow_codes : (0o17 : Word) &&& ~~~(readerAllow s o l).fps = 0 :=
  (by decide : (0o17 : Word) &&& ~~~(0o100017 : Word) = 0)

theorem readerAllow_permits : (readerAllow s o l).permits s.mode o.reg := touching_permits s o

theorem readerAllow_acc {j : Fin 6} (h : j ∈ l) : (readerAllow s o l).acc j = true := List.contains_iff_mem.mpr h

theorem tst_framed (hi : i = .tstf o ∨ i = .tstd o) (hfpp : s.cfg.fpp = true) (h : fpRead s.fd o s x p u) :
    framed (exec i s) (readerAllow s o l) s := by
  obtain ⟨-, -, -, htst, -⟩ := floatingMoves
  exact framed_of_ends (htst i o s x p u hi hfpp h)
    ((fpRead_frame h readerAllow_permits).trans (Frame.setFCC u _ readerAllow_codes)) readerAllow_records

theorem arithmetic_framed {f : ℚ → ℚ → ℚ} (hi : floatArithmetic i = some (a, o, f)) (hfpp : s.cfg.fpp = true)
    (h : fpRead s.fd o s x p u) : framed (exec i s) (readerAllow s o [acIndex a]) s := by
  have hu : Frame (readerAllow s o [acIndex a]) s u := fpRead_frame h readerAllow_permits
  have hends := floatingArithmetic i a o f s x p u hi hfpp h
  split at hends
  · exact framed_of_ends hends hu readerAllow_records
  · split at hends
    · exact framed_of_ends hends hu readerAllow_records
    · obtain ⟨d, v, code, t, -, hset, hends⟩ := hends
      exact framed_of_ends hends ((hu.trans (Frame.accSet hset (readerAllow_acc (by simp)))).trans
        (Frame.setFCC t _ readerAllow_codes)) readerAllow_records

theorem cmp_framed (hi : i = .cmpf a o ∨ i = .cmpd a o) (hfpp : s.cfg.fpp = true) (h : fpRead s.fd o s x p u) :
    framed (exec i s) (readerAllow s o [acIndex a]) s := by
  have hu : Frame (readerAllow s o [acIndex a]) s u := fpRead_frame h readerAllow_permits
  have hends := floatingCompare i a o s x p u hi hfpp h
  simp only at hends
  split at hends
  · exact framed_of_ends hends hu readerAllow_records
  · split at hends
    · obtain ⟨v, hset, hnext⟩ := hends
      exact framed_of_next hnext ((hu.trans (Frame.setFCC u _ readerAllow_codes)).trans
        (Frame.accSet hset (readerAllow_acc (by simp))))
    · exact framed_of_next hends (hu.trans (Frame.setFCC u _ readerAllow_codes))

theorem load_framed (hi : i = .ldf a o ∨ i = .ldd a o) (hfpp : s.cfg.fpp = true) (h : fpRead s.fd o s x p u) :
    framed (exec i s) (readerAllow s o [acIndex a]) s := by
  have hu : Frame (readerAllow s o [acIndex a]) s (u.setFCC (floatCodes x false false)) :=
    (fpRead_frame h readerAllow_permits).trans (Frame.setFCC u _ readerAllow_codes)
  obtain ⟨hload, -⟩ := floatingMoves
  have hends := hload i a o s x p u hi hfpp h
  simp only at hends
  split at hends
  · exact framed_of_ends hends hu readerAllow_records
  · obtain ⟨v, hset, hnext⟩ := hends
    exact framed_of_next hnext (hu.trans (Frame.accSet hset (readerAllow_acc (by simp))))

theorem mod_framed (hi : i = .modf a o ∨ i = .modd a o) (hfpp : s.cfg.fpp = true) (h : fpRead s.fd o s x p u) :
    framed (exec i s) (readerAllow s o [acIndex a, acOrOne a]) s := by
  have hu : Frame (readerAllow s o [acIndex a, acOrOne a]) s u := fpRead_frame h readerAllow_permits
  have hends := floatingModulo i a o s x p u hi hfpp h
  simp only [← acOrOne_eq] at hends
  split at hends
  · exact framed_of_ends hends hu readerAllow_records
  · obtain ⟨q, hi', lo, v, code, t, w, -, -, hint, hset, hends⟩ := hends
    have ht : Frame (readerAllow s o [acIndex a, acOrOne a]) s t := by
      split at hint
      · rw [hint]; exact hu
      · exact hu.trans (Frame.accSet hint (readerAllow_acc (by simp)))
    exact framed_of_ends hends ((ht.trans (Frame.accSet hset (readerAllow_acc (by simp)))).trans
      (Frame.setFCC w _ readerAllow_codes)) readerAllow_records

theorem loadConvert_framed (hi : i = .ldcdf a o ∨ i = .ldcfd a o) (hfpp : s.cfg.fpp = true) (h : fpRead (!s.fd) o s x p u) :
    framed (exec i s) (readerAllow s o [acIndex a]) s := by
  have hu : Frame (readerAllow s o [acIndex a]) s u := fpRead_frame h readerAllow_permits
  have hcc (x : CC) := hu.trans (Frame.setFCC u x readerAllow_codes)
  have hacc : (readerAllow s o [acIndex a]).acc (acIndex a) = true := readerAllow_acc (by simp)
  have hends := floatingConversions.1 i a o s x p u hi hfpp h
  split at hends
  · exact framed_of_ends hends (hcc _) readerAllow_records
  · split at hends
    · obtain ⟨v, hset, hnext⟩ := hends
      exact framed_of_next hnext ((hcc _).trans (Frame.accSet hset hacc))
    · split at hends
      · obtain ⟨v, hset, hnext⟩ := hends
        exact framed_of_next hnext ((hcc _).trans (Frame.accSet hset hacc))
      · obtain ⟨d, v, code, t, -, hset, hends⟩ := hends
        exact framed_of_ends hends ((hu.trans (Frame.accSet hset hacc)).trans (Frame.setFCC t _ readerAllow_codes))
          readerAllow_records

theorem reader_framed {b : Bool} (hi : floatReader i = some (l, o, b)) (hfpp : s.cfg.fpp = true) (h : fpRead (s.fd ^^ b) o s x p u) :
    framed (exec i s) (readerAllow s o l) s := by
  unfold floatReader at hi
  split at hi <;> cases hi
  all_goals simp only [Bool.xor_false, Bool.xor_true] at h
  case h_1 => exact tst_framed (.inl rfl) hfpp h
  case h_2 => exact tst_framed (.inr rfl) hfpp h
  case h_11 => exact cmp_framed (.inl rfl) hfpp h
  case h_12 => exact cmp_framed (.inr rfl) hfpp h
  case h_13 => exact load_framed (.inl rfl) hfpp h
  case h_14 => exact load_framed (.inr rfl) hfpp h
  case h_15 => exact mod_framed (.inl rfl) hfpp h
  case h_16 => exact mod_framed (.inr rfl) hfpp h
  case h_17 => exact loadConvert_framed (.inl rfl) hfpp h
  case h_18 => exact loadConvert_framed (.inr rfl) hfpp h
  all_goals exact arithmetic_framed rfl hfpp h

end

/-! ## The instructions that write their floating operand -/

section
variable {i : Instr} {a : Ac} {o : Operand} {b : Bool} {f : Allow → Allow} {w : Allow} {s t u v : State} {x : Datum} {p : FpPlace}

/-- What a writer may change besides comes on top of what its operand does. -/
theorem floatWriter_le (hi : floatWriter i = some (o, b, f)) (hw : w.fps = 0) : w.Le (f w) := by
  have hmask (m : Word) : w.fps &&& ~~~m = 0 := by rw [hw]; exact BitVec.zero_and
  have hle := Allow.Le.refl w
  unfold floatWriter at hi
  split at hi <;> cases hi
  case h_1 | h_2 => exact hle
  case h_3 | h_4 => exact { hle with fps := hmask _ }
  case h_5 | h_6 => exact { hle with fps := hmask _, exc := fun _ => rfl }

/-- Whichever datum is stored, the store answers within the frame. -/
def WritesWithin (w : Allow) (dbl : Bool) (p : FpPlace) (s t : State) : Prop :=
  ∀ x, ∃ v, writeFp dbl p x t = .ok () v ∧ Frame w s v

theorem store_framed (hi : i = .stf a o ∨ i = .std a o) (hfpp : s.cfg.fpp = true) (hp : fpPlace s.fd o s p t)
    (hw : WritesWithin w s.fd p s t) : framed (exec i s) w s := by
  obtain ⟨-, hstore, -⟩ := floatingMoves
  obtain ⟨v, hv, hframe⟩ := hw (accDatum s.fd (acIndex a) t)
  exact framed_of_next (hstore i a o s p t v hi hfpp hp hv) hframe

theorem clear_framed (hi : i = .clrf o ∨ i = .clrd o) (hfpp : s.cfg.fpp = true) (hp : fpPlace s.fd o s p t)
    (hw : WritesWithin w s.fd p s t) (hcodes : (0o17 : Word) &&& ~~~w.fps = 0) : framed (exec i s) w s := by
  obtain ⟨-, -, hclear, -⟩ := floatingMoves
  obtain ⟨v, hv, hframe⟩ := hw 0
  exact framed_of_next (hclear i o s p t v hi hfpp hp hv) (hframe.trans (Frame.setFCC v _ hcodes))

theorem storeConvert_framed (hi : i = .stcfd a o ∨ i = .stcdf a o) (hfpp : s.cfg.fpp = true) (hp : fpPlace (!s.fd) o s p t)
    (hw : WritesWithin w (!s.fd) p s t) (hcodes : (0o17 : Word) &&& ~~~w.fps = 0) (hrec : w.records) : framed (exec i s) w s := by
  have hexec : exec i s = finish (fpStoreConvert a o s) := by obtain rfl | rfl := hi <;> rfl
  obtain ⟨v, hv, hframe⟩ := hw (convertedDatum s (accDatum s.fd (acIndex a) t)).1
  exact framed_of_ends (ends_storeConvert hfpp hexec hp hv) (hframe.trans (Frame.setFCC v _ hcodes)) hrec

theorem writer_framed (hi : floatWriter i = some (o, b, f)) (hfpp : s.cfg.fpp = true) (hp : fpPlace (s.fd ^^ b) o s p t)
    (hw : WritesWithin (f w) (s.fd ^^ b) p s t) : framed (exec i s) (f w) s := by
  have hcodes : (0o17 : Word) &&& ~~~(0o17 : Word) = 0 := by decide
  have hcodes' : (0o17 : Word) &&& ~~~(0o100017 : Word) = 0 := by decide
  have hrec : (0o100000 : Word) &&& ~~~(0o100017 : Word) = 0 := by decide
  unfold floatWriter at hi
  split at hi <;> cases hi
  all_goals simp only [Bool.xor_false, Bool.xor_true] at hp hw
  case h_1 => exact store_framed (.inl rfl) hfpp hp hw
  case h_2 => exact store_framed (.inr rfl) hfpp hp hw
  case h_3 => exact clear_framed (.inl rfl) hfpp hp hw hcodes
  case h_4 => exact clear_framed (.inr rfl) hfpp hp hw hcodes
  case h_5 => exact storeConvert_framed (.inl rfl) hfpp hp hw hcodes' ⟨rfl, hrec⟩
  case h_6 => exact storeConvert_framed (.inr rfl) hfpp hp hw hcodes' ⟨rfl, hrec⟩

/-! ## Stores of a datum -/

theorem fpWords_eq (dbl : Bool) (o : Operand) :
    fpWords dbl (decide (o.mode = .autoInc ∧ o.reg = .r7)) =
      if o.mode = .autoInc ∧ o.reg = .r7 then 1 else if dbl then 4 else 2 := by
  simp only [fpWords, decide_eq_true_eq]

theorem length_wordsOfDatum_take (dbl imm : Bool) (x : Datum) :
    ((wordsOfDatum x).take (fpWords dbl imm)).length = fpWords dbl imm := by
  cases dbl <;> cases imm <;> rfl

/-- In memory that replies, the words of a datum. -/
theorem writesWithin_mem {dbl imm : Bool} {va : Word} (h : Frame w s t) (hbus : s.busInputs = [])
    (hps : w.ps = 0) (hplain : plainWords s.mode va (fpWords dbl imm) t)
    (hw : ∀ c, wordsAt s.mode va (fpWords dbl imm) t c = true → w.byte c = true) : WritesWithin w dbl (.mem va imm) s t := by
  intro x
  have hmask : w.ps.getLsbD 14 = false ∧ w.ps.getLsbD 15 = false := by rw [hps]; decide
  rw [← h.mode_eq hps] at hplain hw
  obtain ⟨v, hv, hframe⟩ := writeWords_frame (ws := (wordsOfDatum x).take (fpWords dbl imm)) (Frame.refl w t) (h.bus hbus).1 hmask
    fun k hk => by
      rw [length_wordsOfDatum_take] at hk
      obtain ⟨c, z, hc, hp, hbytes⟩ := plainWords_place hplain hk
      exact ⟨c, z, hc, hp, fun y hy => hw y (hbytes y hy)⟩
  exact ⟨v, hv, h.trans hframe⟩

/-- In an accumulator. -/
theorem writesWithin_acc {dbl : Bool} {d : Fin 6} (h : Frame w s t) (hw : w.acc d = true) : WritesWithin w dbl (.acc d) s t := by
  intro x
  obtain ⟨v, hv, hset⟩ := writeAcc_accSet dbl d x t
  exact ⟨v, hv, h.trans (Frame.accSet hset hw)⟩

theorem WritesWithin.mono {w' : Allow} {dbl : Bool} (h : WritesWithin w dbl p s t) (hle : w.Le w') : WritesWithin w' dbl p s t := by
  intro x
  obtain ⟨v, hv, hframe⟩ := h x
  exact ⟨v, hv, hframe.mono hle⟩

theorem floatWriter_byte (hi : floatWriter i = some (o, b, f)) (B : Nat → Bool) : { f w with byte := B } = f { w with byte := B } := by
  unfold floatWriter at hi
  split at hi <;> cases hi <;> rfl

theorem floatWriter_acc (hi : floatWriter i = some (o, b, f)) (A : Fin 6 → Bool) : { f w with acc := A } = f { w with acc := A } := by
  unfold floatWriter at hi
  split at hi <;> cases hi <;> rfl

/-! ## NEG and ABS -/

theorem rewrite_framed (hi : i = .negf o ∨ i = .negd o ∨ i = .absf o ∨ i = .absd o) (hfpp : s.cfg.fpp = true)
    (h : fpRead s.fd o s x p u) (hw : WritesWithin w s.fd p s u) (hcodes : (0o17 : Word) &&& ~~~w.fps = 0)
    (hrec : undefinedVariable p x s = true → w.records) : framed (exec i s) w s := by
  obtain ⟨-, -, -, -, hrewrite⟩ := floatingMoves
  have key (y : Datum) (hy : ((i = .negf o ∨ i = .negd o) ∧ y = (if expOf x = 0 then 0 else x ^^^ 0x8000000000000000) ∨
      (i = .absf o ∨ i = .absd o) ∧ y = (if expOf x = 0 then 0 else x &&& 0x7fffffffffffffff))) : framed (exec i s) w s := by
    obtain ⟨v, hv, hframe⟩ := hw y
    have hends := hrewrite i o s x p u v y hy hfpp h hv
    have hvcc := hframe.trans (Frame.setFCC v (floatCodes y false false) hcodes)
    split at hends
    · next hundef => exact framed_of_ends hends hvcc (hrec hundef)
    · exact framed_of_next hends hvcc
  obtain hi | hi | hi | hi := hi
  · exact key _ (.inl ⟨.inl hi, rfl⟩)
  · exact key _ (.inl ⟨.inr hi, rfl⟩)
  · exact key _ (.inr ⟨.inl hi, rfl⟩)
  · exact key _ (.inr ⟨.inr hi, rfl⟩)

end

/-! ## The instructions that store integers, exponents or status words -/

section
variable {i : Instr} {a : Ac} {o : Operand} {k n : Nat} {f : Allow → Allow} {w : Allow} {s t u v : State} {l : Loc}

theorem locate_eq_reg {r : Reg} (h : locate k o s = .ok (.reg r) t) : o.reg = r ∧ t = s := by
  obtain ⟨m, q⟩ := o
  have hread {x : Res Word} : (x.bind fun p s => Res.ok (Loc.mem p) s) ≠ .ok (.reg r) t := fun h => by
    obtain ⟨p, z, -, h⟩ := Res.bind_eq_ok.mp h
    cases h
  cases m with
  | reg => cases h; exact ⟨rfl, rfl⟩
  | deferred => cases h
  | autoInc => cases h
  | autoIncDef => exact absurd h hread
  | autoDec => cases h
  | autoDecDef => exact absurd h hread
  | index =>
    obtain ⟨p, z, -, h⟩ := Res.bind_eq_ok.mp h
    cases h
  | indexDef =>
    obtain ⟨p, z, -, h⟩ := Res.bind_eq_ok.mp h
    exact absurd h hread

/-- How the words are stored: `ws` from the state `u`, in which the codes are already set, and the frame of what follows. -/
structure WordStore (i : Instr) (n : Nat) (f : Allow → Allow) (s t u : State) (l : Loc) (ws : List Word) : Prop where
  length : ws.length = n
  codes : ∀ w, Frame (f w) t u
  ends : ∀ w v, stores ws l u v → Frame (f w) s v → framed (exec i s) (f w) s

/-- The codes of the PS and the floating codes. -/
def storedCodes (w : Allow) : Allow := { w.codes with fps := 0o17 }

theorem stexp_stores (hfpp : s.cfg.fpp = true) (hl : locate 2 o s = .ok l t) :
    ∃ u ws, WordStore (.stexp a o) 1 storedCodes s t u l ws := by
  obtain ⟨-, hstexp, -⟩ := exponentAndStatusMoves
  exact ⟨_, _, rfl, fun w => Frame.setCC t _ w.codes_ps, fun w v hv hframe =>
    framed_of_next (hstexp a o s l t v hfpp hl hv) (hframe.trans (Frame.setFCC v _ (by decide : (0o17 : Word) &&& ~~~(0o17 : Word) = 0)))⟩

theorem stfps_stores (hfpp : s.cfg.fpp = true) (hl : locate 2 o s = .ok l t) : ∃ u ws, WordStore (.stfps o) 1 id s t u l ws := by
  obtain ⟨-, -, -, hstfps, -⟩ := exponentAndStatusMoves
  exact ⟨t, _, rfl, fun w => Frame.refl w t, fun w v hv hframe => framed_of_next (hstfps o s l t v hfpp hl hv) hframe⟩

theorem stst_stores (hfpp : s.cfg.fpp = true) (hl : locate 4 o s = .ok l t) :
    ∃ u ws, WordStore (.stst o) (if o.mode = .autoInc ∧ o.reg = .r7 then 1 else 2) id s t u l ws := by
  obtain ⟨-, -, -, -, hstst⟩ := exponentAndStatusMoves
  refine ⟨t, _, ?_, fun w => Frame.refl w t, fun w v hv hframe => framed_of_next (hstst o s l t v hfpp hl hv) hframe⟩
  split <;> rfl

/-- And the record of an exception. -/
def storedInteger (w : Allow) : Allow := { w.codes with fps := 0o100017, exc := true }

theorem stcfi_stores (hi : i = .stcfi a o ∨ i = .stcdi a o ∨ i = .stcfl a o ∨ i = .stcdl a o) (hfpp : s.cfg.fpp = true)
    (hl : locate (if s.fl then 4 else 2) o s = .ok l t) :
    ∃ u ws, WordStore i (if s.fl = false ∨ o.mode = .autoInc ∧ o.reg = .r7 then 1 else 2) storedInteger s t u l ws := by
  have hcodes : (0o17 : Word) &&& ~~~(0o100017 : Word) = 0 := by decide
  have hrec : (0o100000 : Word) &&& ~~~(0o100017 : Word) = 0 := by decide
  refine ⟨_, _, ?_, fun w => Frame.setCC t _ w.codes_ps, fun w v hv hframe =>
    framed_of_ends (integerConversions.2 i a o s l t v hi hfpp hl hv) (hframe.trans (Frame.setFCC v _ hcodes)) ⟨rfl, hrec⟩⟩
  cases s.fl with
  | false => rfl
  | true => simp only [Bool.true_eq_false, if_false, false_or]; split <;> rfl

theorem wordStorer_stores (hi : wordStorer s.fl i = some (o, k, n, f)) (hfpp : s.cfg.fpp = true) (hl : locate k o s = .ok l t) :
    ∃ u ws, WordStore i n f s t u l ws := by
  unfold wordStorer at hi
  split at hi <;> cases hi
  case h_1 => exact stexp_stores hfpp hl
  case h_2 => exact stfps_stores hfpp hl
  case h_3 => exact stst_stores hfpp hl
  case h_4 => exact stcfi_stores (.inl rfl) hfpp hl
  case h_5 => exact stcfi_stores (.inr (.inr (.inl rfl))) hfpp hl
  case h_6 => exact stcfi_stores (.inr (.inl rfl)) hfpp hl
  case h_7 => exact stcfi_stores (.inr (.inr (.inr rfl))) hfpp hl

/-- What comes on top of the operand: not the mode bits of the PS, not the bytes of memory. -/
theorem wordStorer_allow (hi : wordStorer s.fl i = some (o, k, n, f)) (hps : w.ps = 0) (hfps : w.fps = 0) :
    w.Le (f w) ∧ ((f w).ps.getLsbD 14 = false ∧ (f w).ps.getLsbD 15 = false) ∧
      ∀ B, { f w with byte := B } = f { w with byte := B } := by
  have hmask (m : Word) : w.fps &&& ~~~m = 0 := by rw [hfps]; exact BitVec.zero_and
  have hle := Allow.Le.refl w
  have hcodes := w.le_codes
  have hmode : w.codes.ps.getLsbD 14 = false ∧ w.codes.ps.getLsbD 15 = false := by
    rw [show w.codes.ps = w.ps ||| 0o17 from rfl, hps]
    decide
  have hmode' : w.ps.getLsbD 14 = false ∧ w.ps.getLsbD 15 = false := by rw [hps]; decide
  unfold wordStorer at hi
  split at hi <;> cases hi
  case h_1 => exact ⟨{ hcodes with fps := hmask _ }, hmode, fun _ => rfl⟩
  case h_2 | h_3 => exact ⟨hle, hmode', fun _ => rfl⟩
  all_goals exact ⟨{ hcodes with fps := hmask _, exc := fun _ => rfl }, hmode, fun _ => rfl⟩

/-- Into a register. -/
theorem storer_framed_reg {r : Reg} (hi : wordStorer s.fl i = some (o, k, n, f)) (hfpp : s.cfg.fpp = true)
    (hl : locate k o s = .ok (.reg r) t) : framed (exec i s) (f (touching s o)) s := by
  obtain ⟨u, ws, hstore⟩ := wordStorer_stores hi hfpp hl
  obtain ⟨hle, hmode, -⟩ := wordStorer_allow (w := touching s o) hi rfl rfl
  obtain ⟨rfl, rfl⟩ := locate_eq_reg hl
  have hcodes := hstore.codes (touching t o)
  refine hstore.ends _ _ rfl (hcodes.trans (Frame.setReg _ ?_))
  rw [hcodes.mode_of_mask hmode]
  exact hle.permits (touching_permits t o)

/-- Into memory that replies. -/
theorem storer_framed_mem {va : Word} (hi : wordStorer s.fl i = some (o, k, n, f)) (hfpp : s.cfg.fpp = true)
    (hl : locate k o s = .ok (.mem va) t) (hbus : s.busInputs = []) (hplain : plainWords s.mode va n t) :
    framed (exec i s) { f (touching s o) with byte := wordsAt s.mode va n t } s := by
  obtain ⟨u, ws, hstore⟩ := wordStorer_stores hi hfpp hl
  obtain ⟨hle, hmask, -⟩ := wordStorer_allow (w := { touching s o with byte := wordsAt s.mode va n t }) hi rfl rfl
  obtain ⟨-, -, hbyte⟩ := wordStorer_allow (w := touching s o) hi rfl rfl
  rw [hbyte]
  have ht : Frame (f { touching s o with byte := wordsAt s.mode va n t }) s t := locate_frame hl (hle.permits (touching_permits s o))
  have hmode : t.mode = s.mode := ht.mode_of_mask hmask
  rw [← hmode] at hplain
  obtain ⟨v, hv, hframe⟩ := writeWords_frame (ws := ws) (hstore.codes _) (ht.bus hbus).1 hmask fun j hj => by
    obtain ⟨c, z, hc, hp, hbytes⟩ := plainWords_place hplain (hstore.length ▸ hj)
    exact ⟨c, z, hc, hp, fun y hy => hle.byte y (hmode ▸ hbytes y hy)⟩
  exact hstore.ends _ v hv (ht.trans hframe)

end

/-! ## Loads of integers, exponents and the status register -/

section
variable {i : Instr} {a : Ac} {o : Operand} {w : Allow} {s u : State} {x : Word}

theorem integerSource_frame {n : ℤ} (h : integerSource o s n u) (hw : w.permits s.mode o.reg) : Frame w s u := by
  unfold integerSource at h
  split at h
  · obtain ⟨v, hv, -⟩ := h
    exact loadWord_frame hv hw
  · split at h
    · obtain ⟨-, rfl⟩ := h
      exact Frame.refl w u
    · split at h
      · obtain ⟨va, z, v, hl, hv, -⟩ := h
        exact (locate_frame hl hw).trans (readWord_frame hv)
      · obtain ⟨va, z, v, y, v', hl, hv, hv', -⟩ := h
        exact (locate_frame hl hw).trans ((readWord_frame hv).trans (readWord_frame hv'))

theorem loadInteger_framed {n : ℤ} (hi : i = .ldcif a o ∨ i = .ldcid a o ∨ i = .ldclf a o ∨ i = .ldcld a o)
    (hfpp : s.cfg.fpp = true) (h : integerSource o s n u) :
    framed (exec i s) { touching s o with acc := fun j => j == acIndex a, fps := 0o17 } s := by
  obtain ⟨d, t, -, hset, hnext⟩ := integerConversions.1 i a o s n u hi hfpp h
  have hu : Frame { touching s o with acc := fun j => j == acIndex a, fps := 0o17 } s u :=
    integerSource_frame h (touching_permits s o)
  exact framed_of_next hnext ((hu.trans (Frame.accSet hset (beq_self_eq_true _))).trans
    (Frame.setFCC t _ (by decide : (0o17 : Word) &&& ~~~(0o17 : Word) = 0)))

theorem ldexp_framed (hfpp : s.cfg.fpp = true) (h : loadWord o s = .ok x u) :
    framed (exec (.ldexp a o) s)
      { touching s o with acc := fun j => j == acIndex a, fps := 0o100017, exc := true } s := by
  have hcodes : (0o17 : Word) &&& ~~~(0o100017 : Word) = 0 := by decide
  have hrec : (0o100000 : Word) &&& ~~~(0o100017 : Word) = 0 := by decide
  have hu : Frame { touching s o with acc := fun j => j == acIndex a, fps := 0o100017, exc := true } s u :=
    loadWord_frame h (touching_permits s o)
  have hinserted (y : Acc) (cc : CC) := (hu.trans (Frame.setAcc u y (beq_self_eq_true (acIndex a)))).trans (Frame.setFCC _ cc hcodes)
  have hzero {d : Datum} {v : State} (hset : accSet s.fd (acIndex a) d u v) (cc : CC) :=
    (hu.trans (Frame.accSet hset (beq_self_eq_true _))).trans (Frame.setFCC v cc hcodes)
  obtain ⟨hldexp, -⟩ := exponentAndStatusMoves
  have hends := hldexp a o s x u hfpp h
  simp only at hends
  split at hends
  · split at hends
    · exact framed_of_ends hends (hinserted _ _) ⟨rfl, hrec⟩
    · obtain ⟨v, hset, hnext⟩ := hends
      exact framed_of_next hnext (hzero hset _)
  · split at hends
    · split at hends
      · exact framed_of_ends hends (hinserted _ _) ⟨rfl, hrec⟩
      · obtain ⟨v, hset, hnext⟩ := hends
        exact framed_of_next hnext (hzero hset _)
    · exact framed_of_next hends (hinserted _ _)

theorem Frame.loadFps (hw : ~~~w.fps = 0) (s : State) (v : Word) : Frame w s { s with fps := v } :=
  { Frame.refl w s with
    gen := fun r _ _ _ => by cases r <;> rfl
    fps := by rw [hw]; exact BitVec.and_zero.trans BitVec.and_zero.symm }

theorem ldfps_framed (hfpp : s.cfg.fpp = true) (h : loadWord o s = .ok x u) :
    framed (exec (.ldfps o) s) { touching s o with fps := 0o177777 } s := by
  obtain ⟨-, -, hldfps, -⟩ := exponentAndStatusMoves
  have hu : Frame { touching s o with fps := 0o177777 } s u := loadWord_frame h (touching_permits s o)
  exact framed_of_next (hldfps o s x u hfpp h) (hu.trans
    (Frame.loadFps (by decide : ~~~(0o177777 : Word) = 0) u x))

end

/-! ## Every floating instruction -/

section
variable {i : Instr} {o : Operand} {b : Bool} {f : Allow → Allow} {s t u : State} {va : Word} {x : Datum}

theorem writer_framed_mem (hi : floatWriter i = some (o, b, f)) (hfpp : s.cfg.fpp = true) (hbus : s.busInputs = [])
    (hm : o.mode ≠ .reg) (hl : locate (if s.fd ^^ b then 8 else 4) o s = .ok (.mem va) t) {n : Nat}
    (hn : n = fpWords (s.fd ^^ b) (decide (o.mode = .autoInc ∧ o.reg = .r7))) (hplain : plainWords s.mode va n t) :
    framed (exec i s) { f (touching s o) with byte := wordsAt s.mode va n t } s := by
  subst hn
  have ht : Frame { touching s o with byte := wordsAt s.mode va (fpWords (s.fd ^^ b) (decide (o.mode = .autoInc ∧ o.reg = .r7))) t }
      s t := locate_frame hl (touching_permits s o)
  rw [floatWriter_byte hi]
  exact writer_framed hi hfpp (.inr ⟨hm, va, hl, rfl⟩)
    ((writesWithin_mem ht hbus rfl hplain fun _ h => h).mono (floatWriter_le hi rfl))

theorem rewrite_framed_mem (hi : i = .negf o ∨ i = .negd o ∨ i = .absf o ∨ i = .absd o) (hfpp : s.cfg.fpp = true)
    (hbus : s.busInputs = []) (hm : o.mode ≠ .reg) (hl : locate (if s.fd then 8 else 4) o s = .ok (.mem va) t) {n : Nat}
    (hn : n = fpWords s.fd (decide (o.mode = .autoInc ∧ o.reg = .r7)))
    (hx : readFp s.fd (.mem va (decide (o.mode = .autoInc ∧ o.reg = .r7))) t = .ok x u) (hplain : plainWords s.mode va n u) :
    framed (exec i s) { touching s o with byte := wordsAt s.mode va n u, fps := 0o100017, exc := true } s := by
  subst hn
  have hread : fpRead s.fd o s x (.mem va (decide (o.mode = .autoInc ∧ o.reg = .r7))) u := ⟨t, .inr ⟨hm, va, hl, rfl⟩, hx⟩
  exact rewrite_framed hi hfpp hread
    (writesWithin_mem (fpRead_frame hread (touching_permits s o)) hbus rfl hplain fun _ h => h)
    (by decide : (0o17 : Word) &&& ~~~(0o100017 : Word) = 0)
    fun _ => ⟨rfl, (by decide : (0o100000 : Word) &&& ~~~(0o100017 : Word) = 0)⟩

/-- A word of immediate data is the only operand of one word. -/
theorem words_eq_one_iff (dbl : Bool) (o : Operand) :
    (if o.mode = .autoInc ∧ o.reg = .r7 then 1 else if dbl then 4 else 2) = 1 ↔ o.mode = .autoInc ∧ o.reg = .r7 := by
  split
  · next h => exact iff_of_true rfl h
  · next h => exact iff_of_false (by cases dbl <;> decide) h

end

/-- Settles O60: the frame of each family, by what its instructions store. -/
theorem floatingFrame : Obligations.FloatingFrame := by
  refine ⟨?_, ?_, ?_, ?_, ?_, ?_, ?_, ?_, ?_⟩
  · exact fun i l o b s x p u hi hfpp h => reader_framed hi hfpp h
  · intro i o b f s va t hi hfpp hbus hm hl n hplain
    exact writer_framed_mem hi hfpp hbus hm hl (fpWords_eq _ o).symm hplain
  · intro i o b f s d hi hfpp hm hd
    rw [floatWriter_acc hi]
    exact writer_framed hi hfpp (.inl ⟨hm, rfl, d, hd, rfl⟩)
      ((writesWithin_acc (Frame.refl _ s) (beq_self_eq_true d)).mono (floatWriter_le hi rfl))
  · intro i o s va t x u hi hfpp hbus hm hl n hx hplain
    rw [show (decide (n = 1)) = decide (o.mode = .autoInc ∧ o.reg = .r7) from decide_eq_decide.mpr (words_eq_one_iff s.fd o)] at hx
    exact rewrite_framed_mem hi hfpp hbus hm hl (fpWords_eq _ o).symm hx hplain
  · intro i o s d hi hfpp hm hd
    refine rewrite_framed hi hfpp ⟨s, .inl ⟨hm, rfl, d, hd, rfl⟩, rfl⟩
      (writesWithin_acc (Frame.refl _ s) (beq_self_eq_true d)) (by decide : (0o17 : Word) &&& ~~~(0o17 : Word) = 0) fun h => ?_
    exact absurd h (by simp [undefinedVariable])
  · intro i o k n f s l t hi hfpp hl
    refine ⟨fun r hr => ?_, fun va hva hbus hplain => ?_⟩
    · subst hr
      exact storer_framed_reg hi hfpp hl
    · subst hva
      exact storer_framed_mem hi hfpp hl hbus hplain
  · exact fun i a o s n u hi hfpp h => loadInteger_framed hi hfpp h
  · exact fun a o s x u hfpp h => ldexp_framed hfpp h
  · exact fun o s x u hfpp h => ldfps_framed hfpp h

end Sys2Proof.Machine
end

section
/-! PROOFS. The console serial line unit (spec/61_console_odt_devices.md R601 to R607): a reference to one of its addresses is an
operation on the unit, and what the terminal does between two steps. -/

namespace Sys2Proof.Machine

open Sys2Proof.Spec

/-! ## References to the unit -/

/-- A console register stands at a physical address. -/
structure ConsoleAt (s : State) (a : PAddr) (r : SluReg) : Prop where
  external : intRegAt s.cfg (wordAddr a) = none
  mapped : ∃ g, regionAt s.cfg (wordAddr a) = some g ∧ g.kind = .console
  register : sluRegAt (wordAddr a) = r

/-- None of the unit's addresses is the processor's own. -/
theorem intRegAt_console (c : Config) {a : Nat} (h : a = 0o777560 ∨ a = 0o777562 ∨ a = 0o777564 ∨ a = 0o777566) :
    intRegAt c a = none := by
  obtain rfl | rfl | rfl | rfl := h <;> cases hm : c.hasMmu <;> simp [intRegAt, hm]

/-- Each address of the unit, even and odd. -/
theorem consoleAt {s : State} (h : hasConsole s) :
    (ConsoleAt s 0o777560 .rcsr ∧ ConsoleAt s (0o777560 + 1) .rcsr) ∧ (ConsoleAt s 0o777562 .rbuf ∧ ConsoleAt s (0o777562 + 1) .rbuf) ∧
      (ConsoleAt s 0o777564 .xcsr ∧ ConsoleAt s (0o777564 + 1) .xcsr) ∧
      (ConsoleAt s 0o777566 .xbuf ∧ ConsoleAt s (0o777566 + 1) .xbuf) := by
  have key {a : PAddr} {n : Nat} {r : SluReg} (ha : wordAddr a = n)
      (hn : n = 0o777560 ∨ n = 0o777562 ∨ n = 0o777564 ∨ n = 0o777566) (hr : sluRegAt n = r) : ConsoleAt s a r := by
    subst ha
    exact ⟨intRegAt_console s.cfg hn, h _ hn, hr⟩
  exact ⟨⟨key rfl (.inl rfl) rfl, key rfl (.inl rfl) rfl⟩,
    ⟨key rfl (.inr (.inl rfl)) rfl, key rfl (.inr (.inl rfl)) rfl⟩,
    ⟨key rfl (.inr (.inr (.inl rfl))) rfl, key rfl (.inr (.inr (.inl rfl))) rfl⟩,
    ⟨key rfl (.inr (.inr (.inr rfl))) rfl, key rfl (.inr (.inr (.inr rfl))) rfl⟩⟩

section
variable {s : State} {a : PAddr} {r : SluReg} (hbus : s.busInputs = []) (ha : ConsoleAt s a r)
include hbus ha

theorem physRead_console : physRead a s = .ok (sluRead r s.slu).1 { s with slu := (sluRead r s.slu).2 } := by
  obtain ⟨hext, ⟨g, hmap, hkind⟩, hreg⟩ := ha
  simp only [physRead_quiet hbus, cycleRead, hext, slaveRead, hmap, hkind, hreg]

theorem physWrite_console (v : Word) : physWrite a v s = .ok () { s with slu := sluWriteLow r (v.setWidth 8) s.slu } := by
  obtain ⟨hext, ⟨g, hmap, hkind⟩, hreg⟩ := ha
  simp only [physWrite_quiet hbus, cycleWrite, hext, slaveWrite, hmap, hkind, hreg]

/-- A byte write of the even byte is one of the register, the odd byte is not used. -/
theorem physWriteByte_console (v : Byte) :
    physWriteByte a v s = .ok () (if a.getLsbD 0 then s else { s with slu := sluWriteLow r v s.slu }) := by
  obtain ⟨hext, ⟨g, hmap, hkind⟩, hreg⟩ := ha
  simp only [physWriteByte_quiet hbus, cycleWriteByte, hext, slaveWriteByte, hmap, hkind, hreg]
  split <;> rfl

end

/-- Done in bit 7, the enable in bit 6. -/
theorem sluStatus_eq (done ie : Bool) : sluStatus done ie = BitVec.ofNat 16 (128 * bitNat done + 64 * bitNat ie) := by
  cases done <;> cases ie <;> rfl

/-! ## The terminal between two steps -/

theorem step_bus {s : State} {e : BusInput} {rest : List Input} (h : s.inputs = .bus e :: rest) :
    step s = applyBus e { s with inputs := rest } := by
  rw [step, machineStep, h]
  rfl

/-- Settles O15: the registers by their references, the terminal by its two actions. -/
theorem consoleRegisters : Obligations.ConsoleRegisters := by
  intro s hbus hconsole d status low
  obtain ⟨⟨hrcsr, hrcsr'⟩, ⟨hrbuf, hrbuf'⟩, ⟨hxcsr, hxcsr'⟩, ⟨hxbuf, hxbuf'⟩⟩ := consoleAt hconsole
  refine ⟨?_, ?_, ?_, ?_, ?_, ?_, ?_, ?_⟩
  · rw [physRead_console hbus hrcsr, sluRead, sluStatus_eq]
  · exact physRead_console hbus hrbuf
  · rw [physRead_console hbus hxcsr, sluRead, sluStatus_eq]
  · exact physRead_console hbus hxbuf
  · intro v x hx
    simp only [low, List.mem_cons, List.not_mem_nil, or_false] at hx
    obtain rfl | rfl | rfl | rfl := hx
    · exact physWrite_console hbus hrcsr v
    · exact physWrite_console hbus hrbuf v
    · exact physWrite_console hbus hxcsr v
    · exact physWrite_console hbus hxbuf v
  · intro b x hx
    simp only [low, List.mem_cons, List.not_mem_nil, or_false] at hx
    obtain rfl | rfl | rfl | rfl := hx
    · exact ⟨physWriteByte_console hbus hrcsr b, physWriteByte_console hbus hrcsr' b⟩
    · exact ⟨physWriteByte_console hbus hrbuf b, physWriteByte_console hbus hrbuf' b⟩
    · exact ⟨physWriteByte_console hbus hxcsr b, physWriteByte_console hbus hxcsr' b⟩
    · exact ⟨physWriteByte_console hbus hxbuf b, physWriteByte_console hbus hxbuf' b⟩
  · intro c rest hpower hin
    rw [step_bus hin, applyBus, if_pos hpower]
    rfl
  · intro c rest hpower hin hc
    rw [step_bus hin, applyBus, if_pos hpower]
    simp only [busAction, transmitted, show s.slu.txChar = some c from hc]
    rfl

end Sys2Proof.Machine
end

section
/-! PROOFS. The console's characters (spec/61_console_odt_devices.md R613 to R632): the model's bit operations on digits and addresses
in numbers, and its keys by the numbers of their characters; then the commands, state by state. -/

namespace Sys2Proof.Machine

open Sys2Proof.Spec

/-! ## Digits, addresses and what is printed, in numbers -/

theorem odtError_eq (echo : List OdtAct) : odtError echo = consoleError echo := rfl

theorem odtPrompt_eq : odtPrompt = newPrompt := rfl

theorem odtEcho_eq : ∀ c : Byte, odtEcho c = echoOf c := by decide

theorem octalDigit_eq (v : BitVec 18) (n : Nat) :
    (0o60 : Byte) + ((v >>> (3 * n)).setWidth 3).setWidth 8 = BitVec.ofNat 8 (48 + v.toNat / 2 ^ (3 * n) % 8) := by
  apply BitVec.eq_of_toNat_eq
  rw [BitVec.toNat_add, BitVec.toNat_setWidth, BitVec.toNat_setWidth, BitVec.toNat_ushiftRight, Nat.shiftRight_eq_div_pow,
    BitVec.toNat_ofNat]
  simp only [show (0o60 : Byte).toNat = 48 from rfl]
  omega

theorem octalDigits_eq (v : BitVec 18) : octalDigits v = (octal6 v.toNat).map (BitVec.ofNat 8) := by
  simp only [octalDigits, octalDigit_eq]
  simp [octal6]

theorem map_out_octalDigits (v : BitVec 18) : (octalDigits v).map OdtAct.out = show_ (octal6 v.toNat) := by
  rw [octalDigits_eq, List.map_map]
  rfl

theorem odtDigit_eq (acc : BitVec 18) (d : BitVec 3) : odtDigit acc d = appendDigit acc (48 + d.toNat) := by
  have hd := d.isLt
  have hacc := acc.isLt
  apply BitVec.eq_of_toNat_eq
  have hlow : (d.setWidth 18).toNat = d.toNat := by rw [BitVec.toNat_setWidth]; omega
  have hor : acc.toNat * 2 ^ 3 ||| d.toNat = acc.toNat * 2 ^ 3 + d.toNat := by
    rw [← Nat.shiftLeft_eq, Nat.shiftLeft_add_eq_or_of_lt hd]
  have hmod : (acc.toNat * 2 ^ 3 % 2 ^ 18 ||| d.toNat) = (acc.toNat * 2 ^ 3 + d.toNat) % 2 ^ 18 := by
    rw [← hor, Nat.or_mod_two_pow, Nat.mod_eq_of_lt (show d.toNat < 2 ^ 18 by omega)]
  rw [odtDigit, appendDigit, BitVec.toNat_or, BitVec.toNat_shiftLeft, hlow, Nat.shiftLeft_eq, hmod, BitVec.toNat_ofNat]
  congr 1
  omega

theorem evenAddr_eq (a : PAddr) : evenAddr a = BitVec.ofNat 18 (a.toNat / 2 * 2) := by
  have hbits : ∀ k : Fin 18, (0o777776#18).getLsbD k.val = decide (k.val ≠ 0) := by decide
  have heven : evenAddr a = (a >>> 1) <<< 1 := by
    refine BitVec.eq_of_getLsbD_eq fun k hk => ?_
    rw [evenAddr, BitVec.getLsbD_and, hbits ⟨k, hk⟩, BitVec.getLsbD_shiftLeft, BitVec.getLsbD_ushiftRight]
    cases k with
    | zero => simp
    | succ k => simp [hk, show 1 + k = k + 1 by omega]
  have ha := a.isLt
  apply BitVec.eq_of_toNat_eq
  rw [heven, BitVec.toNat_shiftLeft, BitVec.toNat_ushiftRight, Nat.shiftRight_eq_div_pow, Nat.shiftLeft_eq, BitVec.toNat_ofNat]

theorem odtDesignated_eq (o : Odt) :
    odtDesignated o = if o.lastS ∨ o.acc.toNat % 512 = 0o077 ∨ o.acc.toNat % 512 = 0o477 then .ps
      else .reg (regOf (o.acc.toNat % 8)) := by
  have hnine (n : BitVec 9) : (o.acc.setWidth 9 == n) = true ↔ o.acc.toNat % 512 = n.toNat := by
    rw [beq_iff_eq, ← BitVec.toNat_inj, BitVec.toNat_setWidth]
  have hthree : (o.acc.setWidth 3).toNat = o.acc.toNat % 8 := BitVec.toNat_setWidth 3 o.acc
  simp only [odtDesignated, Bool.or_eq_true, hnine, hthree, or_assoc]
  rfl

theorem odtNext_eq (l : OdtLoc) : odtNext l = nextLocation l := by
  cases l with
  | reg r => rfl
  | ps => rfl
  | addr a =>
    have ha := a.isLt
    have hnext : (evenAddr (a + 2)).toNat = (a.toNat + 2) % 2 ^ 18 / 2 * 2 := by
      rw [evenAddr_eq, BitVec.toNat_ofNat, BitVec.toNat_add, show (2 : PAddr).toNat = 2 from rfl]
      omega
    rw [odtNext, nextLocation]
    congr 2
    apply BitVec.eq_of_toNat_eq
    rw [toNat_append_eq, BitVec.extractLsb'_toNat, BitVec.toNat_setWidth, hnext, Nat.shiftRight_eq_div_pow, BitVec.toNat_ofNat]
    omega

theorem odtName_eq (l : OdtLoc) : odtName l = show_ (nameOf l) := by
  cases l with
  | reg r => cases r <;> rfl
  | ps => rfl
  | addr a => exact map_out_octalDigits a

/-! ## The keys, by the numbers of their characters -/

def OdtKey.isDigit : OdtKey → Bool
  | .digit _ => true
  | _ => false

/-- Which characters a key stands for (R613). -/
structure KeyOf (k : Nat) (key : OdtKey) : Prop where
  digit : decide (48 ≤ k ∧ k ≤ 55) = key.isDigit
  slash : k = 47 ↔ key = .slash
  cr : k = 13 ↔ key = .cr
  lf : k = 10 ↔ key = .lf
  designator : k = 82 ∨ k = 114 ∨ k = 36 ↔ key = .designator
  letterS : k = 83 ∨ k = 115 ↔ key = .letterS
  letterG : k = 71 ∨ k = 103 ↔ key = .letterG
  letterP : k = 80 ∨ k = 112 ↔ key = .letterP
  letterH : k = 72 ∨ k = 104 ↔ key = .letterH
  dump : k = 19 ↔ key = .dump
  number : ∀ d, key = .digit d → k = 48 + d.toNat

theorem keyOf_odtKey (c : Byte) : KeyOf (c.toNat % 128) (odtKey c) := by
  constructor <;> revert c <;> decide

/-! ## The commands, state by state -/

section
variable (c : Byte) (o : Odt)

/-- States 1 and 9 (R615). -/
theorem odtChar_prompt (h : o.st = .prompt ∨ o.st = .reprompt) : odtChar c o = consoleRule c o := by
  have hk := keyOf_odtKey c
  obtain h | h := h <;>
  · unfold odtChar odtCommand
    simp only [consoleRule, h, hk.digit, hk.designator, hk.letterG, hk.letterP, hk.letterH, hk.dump, hk.slash,
      odtEcho_eq, ← odtPrompt_eq, ← odtError_eq, reduceCtorEq, if_false]
    cases hkey : odtKey c with
    | digit d => simp [odtAtPrompt, OdtKey.isDigit, hk.number d hkey]
    | slash => cases hl : o.last <;> simp [odtAtPrompt, OdtKey.isDigit, h, hl]
    | _ => simp [odtAtPrompt, OdtKey.isDigit, h]

/-- State 2. -/
theorem odtChar_designator (h : o.st = .designator) : odtChar c o = consoleRule c o := by
  have hk := keyOf_odtKey c
  unfold odtChar odtCommand
  simp only [consoleRule, h, hk.digit, hk.letterS, odtEcho_eq, ← odtError_eq, reduceCtorEq, if_false]
  cases hkey : odtKey c with
  | digit d => simp [OdtKey.isDigit, hk.number d hkey]
  | _ => simp [OdtKey.isDigit]

/-- State 5. -/
theorem odtChar_register (h : o.st = .register) : odtChar c o = consoleRule c o := by
  have hk := keyOf_odtKey c
  unfold odtChar odtCommand
  simp only [consoleRule, h, hk.digit, hk.letterS, hk.slash, odtEcho_eq, ← odtError_eq, ← odtDesignated_eq,
    reduceCtorEq, if_false]
  cases hkey : odtKey c with
  | digit d => simp [OdtKey.isDigit, odtDigit_eq, hk.number d hkey]
  | _ => simp [OdtKey.isDigit]

/-- State 6. -/
theorem odtChar_address (h : o.st = .address) : odtChar c o = consoleRule c o := by
  have hk := keyOf_odtKey c
  unfold odtChar odtCommand
  simp only [consoleRule, h, hk.digit, hk.letterG, hk.slash, odtEcho_eq, ← odtError_eq, ← evenAddr_eq,
    BitVec.ofNat_toNat, reduceCtorEq, if_false]
  cases hkey : odtKey c with
  | digit d => simp [OdtKey.isDigit, odtDigit_eq, hk.number d hkey]
  | _ => simp [OdtKey.isDigit]

/-- The address bytes of a dump (R628). -/
theorem odtChar_dump (h : o.st = .dump) : odtChar c o = consoleRule c o := by
  simp only [odtChar, odtDumpByte, consoleRule, h, if_true]
  cases o.dumpHi with
  | none => rfl
  | some hi =>
    have haddr : hi ++ c = BitVec.ofNat 16 (hi.toNat * 256 + c.toNat) := by
      rw [← BitVec.toNat_inj, toNat_append_eq, BitVec.toNat_ofNat]
      omega
    simp only [haddr]
    rfl

/-- States 3, 4, 7 and 8: a location is open. -/
theorem odtChar_open (h : o.st = .openAddr ∨ o.st = .openReg ∨ o.st = .dataAddr ∨ o.st = .dataReg) :
    odtChar c o = consoleRule c o := by
  have hk := keyOf_odtKey c
  obtain h | h | h | h := h <;>
  · unfold odtChar odtCommand
    simp only [consoleRule, odtWhenOpen, h, hk.digit, hk.cr, hk.lf, odtEcho_eq, ← odtError_eq, ← odtPrompt_eq,
      BitVec.ofNat_toNat, reduceCtorEq, if_false, decide_true, decide_false, or_true, or_false]
    cases ho : o.opened with
    | none => rfl
    | some l =>
      cases hkey : odtKey c with
      | digit d => cases l <;> simp [OdtKey.isDigit, odtDigit_eq, hk.number d hkey]
      | lf =>
        cases hnext : nextLocation l <;>
          simp [OdtKey.isDigit, odtLineFeed, odtNext_eq, odtName_eq, hnext, h, show_]
      | _ => simp [OdtKey.isDigit, odtClose]

end

/-- Settles O16: state by state, each key by its character. -/
theorem consoleCommands : Obligations.ConsoleCommands := by
  intro c o
  cases h : o.st with
  | prompt => exact odtChar_prompt c o (.inl h)
  | reprompt => exact odtChar_prompt c o (.inr h)
  | designator => exact odtChar_designator c o h
  | register => exact odtChar_register c o h
  | address => exact odtChar_address c o h
  | dump => exact odtChar_dump c o h
  | openAddr => exact odtChar_open c o (.inl h)
  | openReg => exact odtChar_open c o (.inr (.inl h))
  | dataAddr => exact odtChar_open c o (.inr (.inr (.inl h)))
  | dataReg => exact odtChar_open c o (.inr (.inr (.inr h)))

end Sys2Proof.Machine
end

section
/-! PROOFS. What the console does in one step (spec/61_console_odt_devices.md R610 to R631): the micro-action at the head of its list, by
the rules for the unit's registers and for memory. -/

namespace Sys2Proof.Machine

open Sys2Proof.Spec

/-! ## What is printed -/

theorem map_out_octalDigits_word (v : Word) : (octalDigits (v.setWidth 18)).map OdtAct.out = show_ (octal6 v.toNat) := by
  rw [map_out_octalDigits, BitVec.toNat_setWidth_of_le (by decide)]

theorem odtOpened_eq (l : OdtLoc) (v : Word) (o : Odt) : odtOpened l v o = opened l v o := by
  cases l <;>
  · simp only [odtOpened, opened, List.map_append, map_out_octalDigits_word, show_]
    rfl

/-- The entry to the console (R610). -/
theorem odtEnter_eq (s : State) : odtEnter s =
    { s with
      run := .odt
      odt := { st := .prompt, opened := none, last := none, acc := 0, lastS := false, dumpHi := none
               todo := .flush :: show_ ([13, 10] ++ octal6 s.pc.toNat ++ [13, 10, 64]) } } := by
  rw [odtEnter, List.map_append, List.map_append, map_out_octalDigits_word, show_, show_, List.map_append, List.map_append]
  rfl

/-! ## The bytes of a dump (R628) -/

theorem selectByte_eq_ofNat (odd : Bool) (v : Word) :
    selectByte odd v = BitVec.ofNat 8 (if odd then v.toNat / 256 else v.toNat % 256) := by
  have hv := v.isLt
  rw [← BitVec.toNat_inj, BitVec.toNat_ofNat, selectByte]
  cases odd with
  | true =>
    simp only [if_true, BitVec.toNat_setWidth, BitVec.toNat_ushiftRight, Nat.shiftRight_eq_div_pow]
  | false =>
    simp only [Bool.false_eq_true, if_false, BitVec.toNat_setWidth]
    omega

theorem dumpBytes_odd {a : Word} (h : a.toNat % 2 = 1) (n : Nat) (v : Word) : dumpBytes a n v = [BitVec.ofNat 8 (v.toNat / 256)] := by
  have hodd : a.getLsbD 0 = true := by rw [getLsbD_zero_eq_odd, h]; rfl
  rw [dumpBytes, if_pos hodd, selectByte_eq_ofNat, if_pos rfl]

theorem dumpBytes_even {a : Word} (h : a.toNat % 2 = 0) (n : Nat) (v : Word) :
    dumpBytes a n v = [BitVec.ofNat 8 (v.toNat % 256), BitVec.ofNat 8 (v.toNat / 256)].take n := by
  have heven : ¬ a.getLsbD 0 = true := by rw [getLsbD_zero_eq_odd, h]; decide
  rw [dumpBytes, if_neg heven, selectByte_eq_ofNat, selectByte_eq_ofNat]
  rfl

/-! ## One step of the console -/

section
variable {s : State} (hs : atConsole s)
include hs

theorem step_odt : step s = odtStep s := by
  obtain ⟨hinputs, -, hbus, hrun, -⟩ := hs
  simp only [step, machineStep, hinputs, cpuStep, hbus, hrun, Bool.false_eq_true, if_false]

/-- It waits for a character, or reads one and reacts to it (R612). -/
theorem step_in (htodo : s.odt.todo = []) : step s = .next (if s.slu.rxDone then
    { s with slu := { s.slu with rxDone := false }, odt := odtChar s.slu.rxChar s.odt } else s) := by
  rw [step_odt hs]
  obtain ⟨-, hbus, -, -, hunit⟩ := hs
  obtain ⟨⟨hrcsr, -⟩, ⟨hrbuf, -⟩, -⟩ := consoleAt hunit
  rw [odtStep, htodo]
  simp only [odtIn, rcsrAddr, rbufAddr, physRead_console hbus hrcsr, physRead_console hbus hrbuf, odtSpin, sluRead]
  cases s.slu.rxDone <;> cases s.slu.rxIe <;> simp [sluStatus]

/-- It waits for the transmitter, or hands it the next character (R612). -/
theorem step_out {c : Byte} {rest : List OdtAct} (htodo : s.odt.todo = .out c :: rest) : step s = .next (if s.slu.txReady then
    { s with slu := { s.slu with txChar := some c, txReady := false }, odt := { s.odt with todo := rest } } else s) := by
  rw [step_odt hs]
  obtain ⟨-, hbus, -, -, hunit⟩ := hs
  obtain ⟨-, -, ⟨hxcsr, -⟩, ⟨hxbuf, -⟩⟩ := consoleAt hunit
  rw [odtStep, htodo]
  simp only [odtPerform, odtOut, xcsrAddr, xbufAddr, physRead_console hbus hxcsr, physWrite_console hbus hxbuf, odtSpin, sluRead,
    sluWriteLow]
  cases s.slu.txReady <;> cases s.slu.txIe <;> simp [sluStatus]

/-- The read of RBUF on entry (R610). -/
theorem step_flush {rest : List OdtAct} (htodo : s.odt.todo = .flush :: rest) :
    step s = .next { s with slu := { s.slu with rxDone := false }, odt := { s.odt with todo := rest } } := by
  rw [step_odt hs]
  obtain ⟨-, hbus, -, -, hunit⟩ := hs
  obtain ⟨-, ⟨hrbuf, -⟩, -⟩ := consoleAt hunit
  rw [odtStep, htodo]
  simp only [odtPerform, rbufAddr, physRead_console hbus hrbuf]
  rfl

/-- A location is read (R621). -/
theorem step_examine {l : OdtLoc} {rest : List OdtAct} (htodo : s.odt.todo = .examine l :: rest) :
    step s = odtRef (odtRead l s) fun v t => { t with odt := opened l v t.odt } := by
  rw [step_odt hs, odtStep, htodo]
  simp only [odtPerform, odtOpened_eq]

/-- A location is written (R622). -/
theorem step_deposit {l : OdtLoc} {v : Word} {rest : List OdtAct} (htodo : s.odt.todo = .deposit l v :: rest) :
    step s = odtRef (odtWrite l v s) fun _ t => { t with odt := { t.odt with todo := rest } } := by
  rw [step_odt hs, odtStep, htodo]
  rfl

/-- A word of a dump is read, if any is left (R628). -/
theorem step_dump {a : Word} {n : Nat} {rest : List OdtAct} (htodo : s.odt.todo = .dump a n :: rest) (hn : n ≠ 0) :
    step s = odtRef (physRead (a.setWidth 18) s) fun v t =>
      { t with odt := { t.odt with todo := (dumpBytes a n v).map .out ++
          [.dump (a + BitVec.ofNat 16 (dumpBytes a n v).length) (n - (dumpBytes a n v).length)] } } := by
  rw [step_odt hs, odtStep, htodo]
  simp only [odtPerform, if_neg hn]

end

/-- Settles O17: action by action. -/
theorem consoleActions : Obligations.ConsoleActions := by
  refine ⟨odtEnter_eq, ?_⟩
  intro s hs left
  have hbus : s.busInputs = [] := hs.2.1
  refine ⟨step_in hs, fun c rest => step_out hs, fun rest => step_flush hs, fun r rest htodo => ?_, fun rest htodo => ?_,
    fun a rest htodo => ?_, fun r v rest htodo => ?_, fun v rest htodo => ?_, fun a v rest htodo => ?_, fun a rest htodo => ?_,
    fun rest htodo => ?_, fun rest a n htodo => ?_⟩
  · exact step_examine hs htodo
  · exact step_examine hs htodo
  · rw [step_examine hs htodo, odtRead]
    refine ⟨fun hram => ?_, fun hnone => ?_⟩
    · rw [physRead_ram hbus hram, odtRef]
    · rw [(phys_timeout hbus hnone.1 hnone.2).1]
      rfl
  · rw [step_deposit hs htodo, odtWrite, odtRef, State.setReg_odt]
  · exact step_deposit hs htodo
  · rw [step_deposit hs htodo, odtWrite]
    refine ⟨fun hram => ?_, fun hnone => ?_⟩
    · rw [physWrite_ram hbus hram, odtRef]
    · rw [(phys_timeout hbus hnone.1 hnone.2).2 v]
      rfl
  · rw [step_odt hs, odtStep, htodo]
    rfl
  · rw [step_odt hs, odtStep, htodo]
    rfl
  · refine ⟨fun hn => ?_, fun hn hnone => ?_, fun hram => ⟨fun hn heven => ?_, fun hn heven => ?_, fun hn hodd => ?_⟩⟩
    · rw [step_odt hs, odtStep, htodo]
      simp only [odtPerform, if_pos hn, odtPrompt_eq, left]
    · rw [step_dump hs htodo hn, (phys_timeout hbus hnone.1 hnone.2).1]
      rfl
    · rw [step_dump hs htodo (by omega), physRead_ram hbus hram, odtRef, dumpBytes_even heven, List.take_of_length_le hn]
      rfl
    · subst hn
      rw [step_dump hs htodo Nat.one_ne_zero, physRead_ram hbus hram, odtRef, dumpBytes_even heven]
      rfl
    · rw [step_dump hs htodo hn, physRead_ram hbus hram, odtRef, dumpBytes_odd hodd]
      rfl

end Sys2Proof.Machine
end
